-- ==== Sys2Proof/Word.lean ====
section
/-! DEFINITION. The machine's word and byte types (spec/00_scope.md R5, R8): XLEN is 32, a byte is 8 bits. -/

namespace Sys2Proof

/-- A 32-bit register value or virtual address (R8). -/
abbrev Word := BitVec 32

/-- One byte of memory, of the UART or of a host stream (R75, R76). -/
abbrev Byte := BitVec 8

/-- A 5-bit register number: every value names a register (spec/30_encoding.md R202). -/
abbrev RegIdx := BitVec 5

/-- -1 as a word, the value a failing syscall returns (spec/62_syscalls.md R600). -/
def minusOne : Word := 0xFFFFFFFF#32

/-- The page size (spec/00_scope.md R5). -/
def pageSize : Nat := 4096

end Sys2Proof
end

