-- ==== Sys2Proof/Decode.lean ====
section
/-! DEFINITION. From bits to instructions and back (spec/30_encoding.md): the fields of R202, the exact decoder of R210,
R211 and R220 to R224, the encoder written from the formats of R201, the opcode table's match and mask, and the host's
reading of a table word. -/

namespace Sys2Proof

/-- What a decoder answers: an instruction, or the name of the exception the word raises (R220). -/
inductive Decoded where
  | instr (i : Instr)
  | illegalInsn (w : Word)
  deriving DecidableEq, Repr

/-- `opcode = inst[6:0]` (R202). -/
def opcodeField (w : Word) : BitVec 7 := w.extractLsb' 0 7
/-- `rd = inst[11:7]` (R202). -/
def rdField (w : Word) : RegIdx := w.extractLsb' 7 5
/-- `funct3 = inst[14:12]` (R202). -/
def funct3Field (w : Word) : BitVec 3 := w.extractLsb' 12 3
/-- `rs1 = inst[19:15]` (R202). -/
def rs1Field (w : Word) : RegIdx := w.extractLsb' 15 5
/-- `rs2 = inst[24:20]` (R202); also shamt (R208). -/
def rs2Field (w : Word) : RegIdx := w.extractLsb' 20 5
/-- `funct7 = inst[31:25]` (R202). -/
def funct7Field (w : Word) : BitVec 7 := w.extractLsb' 25 7
/-- `inst[31:20]`, the I immediate's bits (R203) and a CSR instruction's CSR number (spec/44_system.md R410). -/
def immIField (w : Word) : BitVec 12 := w.extractLsb' 20 12
/-- A field x placed with its low bit at bit k of an n-bit value. -/
def place {m : Nat} (n k : Nat) (x : BitVec m) : BitVec n := x.setWidth n <<< k
/-- `{inst[31:25], inst[11:7]}`, the S immediate's bits (R204). -/
def immSField (w : Word) : BitVec 12 := place 12 5 (w.extractLsb' 25 7) ||| place 12 0 (w.extractLsb' 7 5)
/-- `{inst[31], inst[7], inst[30:25], inst[11:8], 0}`, the B offset (R205). -/
def immBField (w : Word) : BitVec 13 :=
  place 13 12 (w.extractLsb' 31 1) ||| place 13 11 (w.extractLsb' 7 1) ||| place 13 5 (w.extractLsb' 25 6)
    ||| place 13 1 (w.extractLsb' 8 4)
/-- `inst[31:12]`, the U immediate's bits (R206). -/
def immUField (w : Word) : BitVec 20 := w.extractLsb' 12 20
/-- `{inst[31], inst[19:12], inst[20], inst[30:21], 0}`, the J offset (R207). -/
def immJField (w : Word) : BitVec 21 :=
  place 21 20 (w.extractLsb' 31 1) ||| place 21 12 (w.extractLsb' 12 8) ||| place 21 11 (w.extractLsb' 20 1)
    ||| place 21 1 (w.extractLsb' 21 10)

/-- Major opcode LOAD (R211). -/
def decodeLoad (w : Word) : Decoded :=
  let f3 := funct3Field w
  if f3 = 0#3 then .instr (.lb (rdField w) (rs1Field w) (immIField w))
  else if f3 = 1#3 then .instr (.lh (rdField w) (rs1Field w) (immIField w))
  else if f3 = 2#3 then .instr (.lw (rdField w) (rs1Field w) (immIField w))
  else if f3 = 4#3 then .instr (.lbu (rdField w) (rs1Field w) (immIField w))
  else if f3 = 5#3 then .instr (.lhu (rdField w) (rs1Field w) (immIField w))
  else .illegalInsn w

/-- Major opcode STORE (R211). -/
def decodeStore (w : Word) : Decoded :=
  let f3 := funct3Field w
  if f3 = 0#3 then .instr (.sb (rs2Field w) (rs1Field w) (immSField w))
  else if f3 = 1#3 then .instr (.sh (rs2Field w) (rs1Field w) (immSField w))
  else if f3 = 2#3 then .instr (.sw (rs2Field w) (rs1Field w) (immSField w))
  else .illegalInsn w

/-- Major opcode BRANCH (R211). -/
def decodeBranch (w : Word) : Decoded :=
  let f3 := funct3Field w
  if f3 = 0#3 then .instr (.beq (rs1Field w) (rs2Field w) (immBField w))
  else if f3 = 1#3 then .instr (.bne (rs1Field w) (rs2Field w) (immBField w))
  else if f3 = 4#3 then .instr (.blt (rs1Field w) (rs2Field w) (immBField w))
  else if f3 = 5#3 then .instr (.bge (rs1Field w) (rs2Field w) (immBField w))
  else if f3 = 6#3 then .instr (.bltu (rs1Field w) (rs2Field w) (immBField w))
  else if f3 = 7#3 then .instr (.bgeu (rs1Field w) (rs2Field w) (immBField w))
  else .illegalInsn w

/-- Major opcode OP-IMM (R211); the shifts need their exact inst[31:25] (R208, R222). -/
def decodeOpImm (w : Word) : Decoded :=
  let f3 := funct3Field w
  let f7 := funct7Field w
  if f3 = 0#3 then .instr (.addi (rdField w) (rs1Field w) (immIField w))
  else if f3 = 2#3 then .instr (.slti (rdField w) (rs1Field w) (immIField w))
  else if f3 = 3#3 then .instr (.sltiu (rdField w) (rs1Field w) (immIField w))
  else if f3 = 4#3 then .instr (.xori (rdField w) (rs1Field w) (immIField w))
  else if f3 = 6#3 then .instr (.ori (rdField w) (rs1Field w) (immIField w))
  else if f3 = 7#3 then .instr (.andi (rdField w) (rs1Field w) (immIField w))
  else if f3 = 1#3 ∧ f7 = 0b0000000#7 then .instr (.slli (rdField w) (rs1Field w) (rs2Field w))
  else if f3 = 5#3 ∧ f7 = 0b0000000#7 then .instr (.srli (rdField w) (rs1Field w) (rs2Field w))
  else if f3 = 5#3 ∧ f7 = 0b0100000#7 then .instr (.srai (rdField w) (rs1Field w) (rs2Field w))
  else .illegalInsn w

/-- OP with funct7 0000000 (R211). -/
def decodeOpBase (w : Word) : Decoded :=
  let f3 := funct3Field w
  if f3 = 0#3 then .instr (.add (rdField w) (rs1Field w) (rs2Field w))
  else if f3 = 1#3 then .instr (.sll (rdField w) (rs1Field w) (rs2Field w))
  else if f3 = 2#3 then .instr (.slt (rdField w) (rs1Field w) (rs2Field w))
  else if f3 = 3#3 then .instr (.sltu (rdField w) (rs1Field w) (rs2Field w))
  else if f3 = 4#3 then .instr (.xor (rdField w) (rs1Field w) (rs2Field w))
  else if f3 = 5#3 then .instr (.srl (rdField w) (rs1Field w) (rs2Field w))
  else if f3 = 6#3 then .instr (.or (rdField w) (rs1Field w) (rs2Field w))
  else .instr (.and (rdField w) (rs1Field w) (rs2Field w))

/-- OP with funct7 0000001, the M extension (R211). -/
def decodeOpMulDiv (w : Word) : Decoded :=
  let f3 := funct3Field w
  if f3 = 0#3 then .instr (.mul (rdField w) (rs1Field w) (rs2Field w))
  else if f3 = 1#3 then .instr (.mulh (rdField w) (rs1Field w) (rs2Field w))
  else if f3 = 2#3 then .instr (.mulhsu (rdField w) (rs1Field w) (rs2Field w))
  else if f3 = 3#3 then .instr (.mulhu (rdField w) (rs1Field w) (rs2Field w))
  else if f3 = 4#3 then .instr (.div (rdField w) (rs1Field w) (rs2Field w))
  else if f3 = 5#3 then .instr (.divu (rdField w) (rs1Field w) (rs2Field w))
  else if f3 = 6#3 then .instr (.rem (rdField w) (rs1Field w) (rs2Field w))
  else .instr (.remu (rdField w) (rs1Field w) (rs2Field w))

/-- Major opcode OP (R211, R222). -/
def decodeOp (w : Word) : Decoded :=
  let f3 := funct3Field w
  let f7 := funct7Field w
  if f7 = 0b0000000#7 then decodeOpBase w
  else if f7 = 0b0000001#7 then decodeOpMulDiv w
  else if f7 = 0b0100000#7 ∧ f3 = 0#3 then .instr (.sub (rdField w) (rs1Field w) (rs2Field w))
  else if f7 = 0b0100000#7 ∧ f3 = 5#3 then .instr (.sra (rdField w) (rs1Field w) (rs2Field w))
  else .illegalInsn w

/-- Major opcode SYSTEM (R211, R221; spec/44_system.md R401, R411): ECALL and EBREAK match their whole words. -/
def decodeSystem (w : Word) : Decoded :=
  let f3 := funct3Field w
  if w = 0x00000073#32 then .instr .ecall
  else if w = 0x00100073#32 then .instr .ebreak
  else if f3 = 1#3 then .instr (.csrrw (rdField w) (rs1Field w) (immIField w))
  else if f3 = 2#3 then .instr (.csrrs (rdField w) (rs1Field w) (immIField w))
  else if f3 = 3#3 then .instr (.csrrc (rdField w) (rs1Field w) (immIField w))
  else if f3 = 5#3 then .instr (.csrrwi (rdField w) (rs1Field w) (immIField w))
  else if f3 = 6#3 then .instr (.csrrsi (rdField w) (rs1Field w) (immIField w))
  else if f3 = 7#3 then .instr (.csrrci (rdField w) (rs1Field w) (immIField w))
  else .illegalInsn w

/-- Major opcode MISC-MEM (R211): FENCE, every other bit ignored (spec/44_system.md R400). -/
def decodeMiscMem (w : Word) : Decoded :=
  if funct3Field w = 0#3 then
    .instr (.fence (rdField w) (rs1Field w) (w.extractLsb' 28 4) (w.extractLsb' 24 4) (w.extractLsb' 20 4))
  else .illegalInsn w

/-- The decoder of every 32-bit word (R210, R220): exact, and ILLEGAL_INSN with the word for every other word. -/
def decode (w : Word) : Decoded :=
  let op := opcodeField w
  if op = 0b0110111#7 then .instr (.lui (rdField w) (immUField w))
  else if op = 0b0010111#7 then .instr (.auipc (rdField w) (immUField w))
  else if op = 0b1101111#7 then .instr (.jal (rdField w) (immJField w))
  else if op = 0b1100111#7 then
    if funct3Field w = 0#3 then .instr (.jalr (rdField w) (rs1Field w) (immIField w)) else .illegalInsn w
  else if op = 0b1100011#7 then decodeBranch w
  else if op = 0b0000011#7 then decodeLoad w
  else if op = 0b0100011#7 then decodeStore w
  else if op = 0b0010011#7 then decodeOpImm w
  else if op = 0b0110011#7 then decodeOp w
  else if op = 0b0001111#7 then decodeMiscMem w
  else if op = 0b1110011#7 then decodeSystem w
  else .illegalInsn w

/-- What reading an instruction off a list of bytes gives: the instruction and the bytes after it, a word that raises
ILLEGAL_INSN, or fewer than 4 bytes (R200: an instruction is always 4 bytes). -/
inductive DecodedBytes where
  | instr (i : Instr) (rest : List Byte)
  | illegalInsn (w : Word)
  | truncated
  deriving DecidableEq, Repr

/-- Four bytes at rising addresses as a little-endian word (spec/20_memory.md R101). -/
def wordOfBytes (b0 b1 b2 b3 : Byte) : Word :=
  place 32 24 b3 ||| place 32 16 b2 ||| place 32 8 b1 ||| place 32 0 b0

/-- The bytes of a word, the one at the lowest address first (spec/20_memory.md R101). -/
def bytesOfWord (w : Word) : List Byte :=
  [w.extractLsb' 0 8, w.extractLsb' 8 8, w.extractLsb' 16 8, w.extractLsb' 24 8]

/-- The decoder on bytes, total (R200, R220). -/
def decodeBytes : List Byte → DecodedBytes
  | b0 :: b1 :: b2 :: b3 :: rest =>
    match decode (wordOfBytes b0 b1 b2 b3) with
    | .instr i => .instr i rest
    | .illegalInsn w => .illegalInsn w
  | _ => .truncated

/-- R format (R201). -/
def encR (f7 : BitVec 7) (rs2 rs1 : RegIdx) (f3 : BitVec 3) (rd : RegIdx) (op : BitVec 7) : Word :=
  place 32 25 f7 ||| place 32 20 rs2 ||| place 32 15 rs1 ||| place 32 12 f3 ||| place 32 7 rd ||| place 32 0 op
/-- I format (R201). -/
def encI (imm : BitVec 12) (rs1 : RegIdx) (f3 : BitVec 3) (rd : RegIdx) (op : BitVec 7) : Word :=
  place 32 20 imm ||| place 32 15 rs1 ||| place 32 12 f3 ||| place 32 7 rd ||| place 32 0 op
/-- S format (R201). -/
def encS (imm : BitVec 12) (rs2 rs1 : RegIdx) (f3 : BitVec 3) (op : BitVec 7) : Word :=
  place 32 25 (imm.extractLsb' 5 7) ||| place 32 20 rs2 ||| place 32 15 rs1 ||| place 32 12 f3
    ||| place 32 7 (imm.extractLsb' 0 5) ||| place 32 0 op
/-- B format (R201). -/
def encB (off : BitVec 13) (rs2 rs1 : RegIdx) (f3 : BitVec 3) (op : BitVec 7) : Word :=
  place 32 31 (off.extractLsb' 12 1) ||| place 32 25 (off.extractLsb' 5 6) ||| place 32 20 rs2 ||| place 32 15 rs1
    ||| place 32 12 f3 ||| place 32 8 (off.extractLsb' 1 4) ||| place 32 7 (off.extractLsb' 11 1) ||| place 32 0 op
/-- U format (R201). -/
def encU (imm : BitVec 20) (rd : RegIdx) (op : BitVec 7) : Word := place 32 12 imm ||| place 32 7 rd ||| place 32 0 op
/-- J format (R201). -/
def encJ (off : BitVec 21) (rd : RegIdx) (op : BitVec 7) : Word :=
  place 32 31 (off.extractLsb' 20 1) ||| place 32 21 (off.extractLsb' 1 10) ||| place 32 20 (off.extractLsb' 11 1)
    ||| place 32 12 (off.extractLsb' 12 8) ||| place 32 7 rd ||| place 32 0 op

/-- The word of a well-formed instruction (R201 to R211). -/
def encode : Instr → Word
  | .lui rd imm => encU imm rd 0b0110111#7
  | .auipc rd imm => encU imm rd 0b0010111#7
  | .jal rd off => encJ off rd 0b1101111#7
  | .jalr rd rs1 imm => encI imm rs1 0#3 rd 0b1100111#7
  | .beq rs1 rs2 off => encB off rs2 rs1 0#3 0b1100011#7
  | .bne rs1 rs2 off => encB off rs2 rs1 1#3 0b1100011#7
  | .blt rs1 rs2 off => encB off rs2 rs1 4#3 0b1100011#7
  | .bge rs1 rs2 off => encB off rs2 rs1 5#3 0b1100011#7
  | .bltu rs1 rs2 off => encB off rs2 rs1 6#3 0b1100011#7
  | .bgeu rs1 rs2 off => encB off rs2 rs1 7#3 0b1100011#7
  | .lb rd rs1 imm => encI imm rs1 0#3 rd 0b0000011#7
  | .lh rd rs1 imm => encI imm rs1 1#3 rd 0b0000011#7
  | .lw rd rs1 imm => encI imm rs1 2#3 rd 0b0000011#7
  | .lbu rd rs1 imm => encI imm rs1 4#3 rd 0b0000011#7
  | .lhu rd rs1 imm => encI imm rs1 5#3 rd 0b0000011#7
  | .sb rs2 rs1 imm => encS imm rs2 rs1 0#3 0b0100011#7
  | .sh rs2 rs1 imm => encS imm rs2 rs1 1#3 0b0100011#7
  | .sw rs2 rs1 imm => encS imm rs2 rs1 2#3 0b0100011#7
  | .addi rd rs1 imm => encI imm rs1 0#3 rd 0b0010011#7
  | .slti rd rs1 imm => encI imm rs1 2#3 rd 0b0010011#7
  | .sltiu rd rs1 imm => encI imm rs1 3#3 rd 0b0010011#7
  | .xori rd rs1 imm => encI imm rs1 4#3 rd 0b0010011#7
  | .ori rd rs1 imm => encI imm rs1 6#3 rd 0b0010011#7
  | .andi rd rs1 imm => encI imm rs1 7#3 rd 0b0010011#7
  | .slli rd rs1 sh => encR 0b0000000#7 sh rs1 1#3 rd 0b0010011#7
  | .srli rd rs1 sh => encR 0b0000000#7 sh rs1 5#3 rd 0b0010011#7
  | .srai rd rs1 sh => encR 0b0100000#7 sh rs1 5#3 rd 0b0010011#7
  | .add rd rs1 rs2 => encR 0b0000000#7 rs2 rs1 0#3 rd 0b0110011#7
  | .sub rd rs1 rs2 => encR 0b0100000#7 rs2 rs1 0#3 rd 0b0110011#7
  | .sll rd rs1 rs2 => encR 0b0000000#7 rs2 rs1 1#3 rd 0b0110011#7
  | .slt rd rs1 rs2 => encR 0b0000000#7 rs2 rs1 2#3 rd 0b0110011#7
  | .sltu rd rs1 rs2 => encR 0b0000000#7 rs2 rs1 3#3 rd 0b0110011#7
  | .xor rd rs1 rs2 => encR 0b0000000#7 rs2 rs1 4#3 rd 0b0110011#7
  | .srl rd rs1 rs2 => encR 0b0000000#7 rs2 rs1 5#3 rd 0b0110011#7
  | .sra rd rs1 rs2 => encR 0b0100000#7 rs2 rs1 5#3 rd 0b0110011#7
  | .or rd rs1 rs2 => encR 0b0000000#7 rs2 rs1 6#3 rd 0b0110011#7
  | .and rd rs1 rs2 => encR 0b0000000#7 rs2 rs1 7#3 rd 0b0110011#7
  | .mul rd rs1 rs2 => encR 0b0000001#7 rs2 rs1 0#3 rd 0b0110011#7
  | .mulh rd rs1 rs2 => encR 0b0000001#7 rs2 rs1 1#3 rd 0b0110011#7
  | .mulhsu rd rs1 rs2 => encR 0b0000001#7 rs2 rs1 2#3 rd 0b0110011#7
  | .mulhu rd rs1 rs2 => encR 0b0000001#7 rs2 rs1 3#3 rd 0b0110011#7
  | .div rd rs1 rs2 => encR 0b0000001#7 rs2 rs1 4#3 rd 0b0110011#7
  | .divu rd rs1 rs2 => encR 0b0000001#7 rs2 rs1 5#3 rd 0b0110011#7
  | .rem rd rs1 rs2 => encR 0b0000001#7 rs2 rs1 6#3 rd 0b0110011#7
  | .remu rd rs1 rs2 => encR 0b0000001#7 rs2 rs1 7#3 rd 0b0110011#7
  | .fence rd rs1 fm pred succ => encI (place 12 8 fm ||| place 12 4 pred ||| place 12 0 succ) rs1 0#3 rd 0b0001111#7
  | .ecall => 0x00000073#32
  | .ebreak => 0x00100073#32
  | .csrrw rd rs1 csr => encI csr rs1 1#3 rd 0b1110011#7
  | .csrrs rd rs1 csr => encI csr rs1 2#3 rd 0b1110011#7
  | .csrrc rd rs1 csr => encI csr rs1 3#3 rd 0b1110011#7
  | .csrrwi rd uimm csr => encI csr uimm 5#3 rd 0b1110011#7
  | .csrrsi rd uimm csr => encI csr uimm 6#3 rd 0b1110011#7
  | .csrrci rd uimm csr => encI csr uimm 7#3 rd 0b1110011#7

/-- A row of spec/opcode_table.json: a word is the row's instruction when `word &&& mask = pattern` (R220). -/
structure OpcodeRow where
  mnemonic : String
  pattern : Word
  mask : Word
  deriving DecidableEq, Repr

/-- The table's RV32I rows of the formats U, J, I, B and S. -/
def opcodeRowsBase : List OpcodeRow :=
  [{ mnemonic := "lui", pattern := 0x00000037#32, mask := 0x0000007F#32 },
   { mnemonic := "auipc", pattern := 0x00000017#32, mask := 0x0000007F#32 },
   { mnemonic := "jal", pattern := 0x0000006F#32, mask := 0x0000007F#32 },
   { mnemonic := "jalr", pattern := 0x00000067#32, mask := 0x0000707F#32 },
   { mnemonic := "beq", pattern := 0x00000063#32, mask := 0x0000707F#32 },
   { mnemonic := "bne", pattern := 0x00001063#32, mask := 0x0000707F#32 },
   { mnemonic := "blt", pattern := 0x00004063#32, mask := 0x0000707F#32 },
   { mnemonic := "bge", pattern := 0x00005063#32, mask := 0x0000707F#32 },
   { mnemonic := "bltu", pattern := 0x00006063#32, mask := 0x0000707F#32 },
   { mnemonic := "bgeu", pattern := 0x00007063#32, mask := 0x0000707F#32 },
   { mnemonic := "lb", pattern := 0x00000003#32, mask := 0x0000707F#32 },
   { mnemonic := "lh", pattern := 0x00001003#32, mask := 0x0000707F#32 },
   { mnemonic := "lw", pattern := 0x00002003#32, mask := 0x0000707F#32 },
   { mnemonic := "lbu", pattern := 0x00004003#32, mask := 0x0000707F#32 },
   { mnemonic := "lhu", pattern := 0x00005003#32, mask := 0x0000707F#32 },
   { mnemonic := "sb", pattern := 0x00000023#32, mask := 0x0000707F#32 },
   { mnemonic := "sh", pattern := 0x00001023#32, mask := 0x0000707F#32 },
   { mnemonic := "sw", pattern := 0x00002023#32, mask := 0x0000707F#32 }]

/-- The table's rows of OP-IMM. -/
def opcodeRowsImm : List OpcodeRow :=
  [{ mnemonic := "addi", pattern := 0x00000013#32, mask := 0x0000707F#32 },
   { mnemonic := "slti", pattern := 0x00002013#32, mask := 0x0000707F#32 },
   { mnemonic := "sltiu", pattern := 0x00003013#32, mask := 0x0000707F#32 },
   { mnemonic := "xori", pattern := 0x00004013#32, mask := 0x0000707F#32 },
   { mnemonic := "ori", pattern := 0x00006013#32, mask := 0x0000707F#32 },
   { mnemonic := "andi", pattern := 0x00007013#32, mask := 0x0000707F#32 },
   { mnemonic := "slli", pattern := 0x00001013#32, mask := 0xFE00707F#32 },
   { mnemonic := "srli", pattern := 0x00005013#32, mask := 0xFE00707F#32 },
   { mnemonic := "srai", pattern := 0x40005013#32, mask := 0xFE00707F#32 }]

/-- The table's rows of OP, the M extension among them. -/
def opcodeRowsOp : List OpcodeRow :=
  [{ mnemonic := "add", pattern := 0x00000033#32, mask := 0xFE00707F#32 },
   { mnemonic := "sub", pattern := 0x40000033#32, mask := 0xFE00707F#32 },
   { mnemonic := "sll", pattern := 0x00001033#32, mask := 0xFE00707F#32 },
   { mnemonic := "slt", pattern := 0x00002033#32, mask := 0xFE00707F#32 },
   { mnemonic := "sltu", pattern := 0x00003033#32, mask := 0xFE00707F#32 },
   { mnemonic := "xor", pattern := 0x00004033#32, mask := 0xFE00707F#32 },
   { mnemonic := "srl", pattern := 0x00005033#32, mask := 0xFE00707F#32 },
   { mnemonic := "sra", pattern := 0x40005033#32, mask := 0xFE00707F#32 },
   { mnemonic := "or", pattern := 0x00006033#32, mask := 0xFE00707F#32 },
   { mnemonic := "and", pattern := 0x00007033#32, mask := 0xFE00707F#32 },
   { mnemonic := "mul", pattern := 0x02000033#32, mask := 0xFE00707F#32 },
   { mnemonic := "mulh", pattern := 0x02001033#32, mask := 0xFE00707F#32 },
   { mnemonic := "mulhsu", pattern := 0x02002033#32, mask := 0xFE00707F#32 },
   { mnemonic := "mulhu", pattern := 0x02003033#32, mask := 0xFE00707F#32 },
   { mnemonic := "div", pattern := 0x02004033#32, mask := 0xFE00707F#32 },
   { mnemonic := "divu", pattern := 0x02005033#32, mask := 0xFE00707F#32 },
   { mnemonic := "rem", pattern := 0x02006033#32, mask := 0xFE00707F#32 },
   { mnemonic := "remu", pattern := 0x02007033#32, mask := 0xFE00707F#32 }]

/-- The table's MISC-MEM and SYSTEM rows. -/
def opcodeRowsSystem : List OpcodeRow :=
  [{ mnemonic := "fence", pattern := 0x0000000F#32, mask := 0x0000707F#32 },
   { mnemonic := "ecall", pattern := 0x00000073#32, mask := 0xFFFFFFFF#32 },
   { mnemonic := "ebreak", pattern := 0x00100073#32, mask := 0xFFFFFFFF#32 },
   { mnemonic := "csrrw", pattern := 0x00001073#32, mask := 0x0000707F#32 },
   { mnemonic := "csrrs", pattern := 0x00002073#32, mask := 0x0000707F#32 },
   { mnemonic := "csrrc", pattern := 0x00003073#32, mask := 0x0000707F#32 },
   { mnemonic := "csrrwi", pattern := 0x00005073#32, mask := 0x0000707F#32 },
   { mnemonic := "csrrsi", pattern := 0x00006073#32, mask := 0x0000707F#32 },
   { mnemonic := "csrrci", pattern := 0x00007073#32, mask := 0x0000707F#32 }]

/-- spec/opcode_table.json, row by row. -/
def opcodeRows : List OpcodeRow := opcodeRowsBase ++ opcodeRowsImm ++ opcodeRowsOp ++ opcodeRowsSystem

/-- An instruction's mnemonic in spec/opcode_table.json. -/
def Instr.mnemonic : Instr → String
  | .lui _ _ => "lui"
  | .auipc _ _ => "auipc"
  | .jal _ _ => "jal"
  | .jalr _ _ _ => "jalr"
  | .beq _ _ _ => "beq"
  | .bne _ _ _ => "bne"
  | .blt _ _ _ => "blt"
  | .bge _ _ _ => "bge"
  | .bltu _ _ _ => "bltu"
  | .bgeu _ _ _ => "bgeu"
  | .lb _ _ _ => "lb"
  | .lh _ _ _ => "lh"
  | .lw _ _ _ => "lw"
  | .lbu _ _ _ => "lbu"
  | .lhu _ _ _ => "lhu"
  | .sb _ _ _ => "sb"
  | .sh _ _ _ => "sh"
  | .sw _ _ _ => "sw"
  | .addi _ _ _ => "addi"
  | .slti _ _ _ => "slti"
  | .sltiu _ _ _ => "sltiu"
  | .xori _ _ _ => "xori"
  | .ori _ _ _ => "ori"
  | .andi _ _ _ => "andi"
  | .slli _ _ _ => "slli"
  | .srli _ _ _ => "srli"
  | .srai _ _ _ => "srai"
  | .add _ _ _ => "add"
  | .sub _ _ _ => "sub"
  | .sll _ _ _ => "sll"
  | .slt _ _ _ => "slt"
  | .sltu _ _ _ => "sltu"
  | .xor _ _ _ => "xor"
  | .srl _ _ _ => "srl"
  | .sra _ _ _ => "sra"
  | .or _ _ _ => "or"
  | .and _ _ _ => "and"
  | .mul _ _ _ => "mul"
  | .mulh _ _ _ => "mulh"
  | .mulhsu _ _ _ => "mulhsu"
  | .mulhu _ _ _ => "mulhu"
  | .div _ _ _ => "div"
  | .divu _ _ _ => "divu"
  | .rem _ _ _ => "rem"
  | .remu _ _ _ => "remu"
  | .fence _ _ _ _ _ => "fence"
  | .ecall => "ecall"
  | .ebreak => "ebreak"
  | .csrrw _ _ _ => "csrrw"
  | .csrrs _ _ _ => "csrrs"
  | .csrrc _ _ _ => "csrrc"
  | .csrrwi _ _ _ => "csrrwi"
  | .csrrsi _ _ _ => "csrrsi"
  | .csrrci _ _ _ => "csrrci"

/-- The instruction the decoder reads from an instruction whose bits are w, bit 0 the least significant of its one word:
the word's 4 bytes lie little-endian in memory and are read back; a table word is never longer than 32 bits, and the bits
above nbits are 0. -/
def decodeTableWord (nbits w : Nat) : Option Instr :=
  match decodeBytes (bytesOfWord (BitVec.ofNat 32 (w % 2 ^ nbits))) with
  | .instr i _ => some i
  | .illegalInsn _ => none
  | .truncated => none

end Sys2Proof
end

