-- ==== Sys2Proof/Machine/Assoc.lean ====
section
/-! DEFINITION. Sparse data as lists of (key, value) pairs in one canonical form, keys strictly rising: the shape of
physical memory, page tables, the task table and the child-termination map. -/

namespace Sys2Proof.Machine

/-- The value at a key, where the list holds one. -/
def assocGet {α : Type} : List (Nat × α) → Nat → Option α
  | [], _ => none
  | (j, v) :: rest, k => if j = k then some v else assocGet rest k

/-- The list with the value v at key k, in key order. -/
def assocSet {α : Type} : List (Nat × α) → Nat → α → List (Nat × α)
  | [], k, v => [(k, v)]
  | (j, u) :: rest, k, v =>
    if j < k then (j, u) :: assocSet rest k v
    else if j = k then (k, v) :: rest
    else (k, v) :: (j, u) :: rest

/-- The list without key k. -/
def assocErase {α : Type} (l : List (Nat × α)) (k : Nat) : List (Nat × α) := l.filter (fun e => e.1 ≠ k)

/-- The list with f applied to the value at key k, where there is one. -/
def assocModify {α : Type} (l : List (Nat × α)) (k : Nat) (f : α → α) : List (Nat × α) :=
  l.map (fun e => if e.1 = k then (e.1, f e.2) else e)

/-- The canonical form: keys strictly rising. -/
def assocSorted {α : Type} : List (Nat × α) → Bool
  | [] => true
  | [_] => true
  | (j, _) :: (k, v) :: rest => decide (j < k) && assocSorted ((k, v) :: rest)

end Sys2Proof.Machine
end

