-- ==== Sys2Proof/Config.lean ====
section
/-! DEFINITION. What an implementation fixes (the parameters of spec/00_scope.md R5, plain data that a state carries and no
step changes: log 1) and the free values (constants with no body: logs 4, 5, 21). -/

namespace Sys2Proof

/-- A set of page permissions (spec/20_memory.md R134). -/
structure Perms where
  r : Bool
  w : Bool
  x : Bool
  deriving DecidableEq, Repr, Inhabited

/-- Which hole a CONTIGUOUS allocation takes (spec/20_memory.md R120). -/
inductive AllocStrategy where
  | firstFit
  | bestFit
  deriving DecidableEq, Repr, Inhabited

/-- When a page of a region gets its frame (spec/20_memory.md R140). -/
inductive FetchPolicy where
  | demand
  | eager
  deriving DecidableEq, Repr, Inhabited

/-- The replacement policy of a paged machine (spec/20_memory.md R145, R148). -/
inductive Replacement where
  | clock
  | lru
  | random
  deriving DecidableEq, Repr, Inhabited

/-- MEM_MODE (spec/00_scope.md R5). -/
inductive MemMode where
  | contiguous (strategy : AllocStrategy)
  | paged (fetch : FetchPolicy) (policy : Replacement)
  deriving DecidableEq, Repr, Inhabited

/-- SCHED_MODE with its TIME_SLICE (spec/00_scope.md R5, spec/61_dispatcher.md R553 to R555). -/
inductive SchedMode where
  | roundRobin (slice : Nat)
  | priority (slice : Nat)
  | cooperative
  deriving DecidableEq, Repr, Inhabited

/-- SEGMENT_OVERLAP: the permissions of a page two regions cover (spec/20_memory.md R141, D23). -/
inductive SegmentOverlap where
  | union
  | last
  deriving DecidableEq, Repr, Inhabited

/-- The OPEN parameters of spec/00_scope.md R5. HOST_FS is a list of (path, bytes), the first entry of a path counting
(log 26). -/
structure Params where
  nHarts : Nat
  ramSize : Nat
  memMode : MemMode
  schedMode : SchedMode
  initElfPath : List Byte
  hostFs : List (List Byte × List Byte)
  uartBase : Nat
  uartSize : Nat
  uartOffStatus : Nat
  uartOffRx : Nat
  uartOffTx : Nat
  debugPrintEnabled : Bool
  faultExitCode : Word
  contigTaskSize : Nat
  initPriority : Int
  unregionedRead : Option Perms
  unregionedWrite : Option Perms
  unregionedExec : Option Perms
  segmentOverlap : SegmentOverlap
  deriving DecidableEq, Repr, Inhabited

/-- The constraints R5 puts on the parameters; RAM_SIZE fits the 32-bit base and limit registers (log 13). -/
def Params.valid (p : Params) : Bool :=
  decide (1 ≤ p.nHarts) && decide (0 < p.ramSize) && decide (p.ramSize % 4096 = 0) && decide (p.ramSize < 2 ^ 32)
    && decide (p.uartOffStatus < p.uartSize) && decide (p.uartOffRx < p.uartSize) && decide (p.uartOffTx < p.uartSize)
    && decide (p.uartOffStatus ≠ p.uartOffRx) && decide (p.uartOffStatus ≠ p.uartOffTx)
    && decide (p.uartOffRx ≠ p.uartOffTx) && decide (p.uartBase + p.uartSize ≤ 2 ^ 32)
    && (match p.schedMode with
        | .roundRobin n => decide (1 ≤ n)
        | .priority n => decide (1 ≤ n)
        | .cooperative => true)

/-- The values State.reset takes for the OPEN parameters. DESIGN CHOICE (log 1): the setting of the programs of
spec/95_test_vectors.md section 3, and no host file. Unsafe where a statement rests on one; none does. -/
def Params.standard : Params where
  nHarts := 1
  ramSize := 65536
  memMode := .paged .eager .random
  schedMode := .roundRobin 100
  initElfPath := [0x69#8, 0x6E#8, 0x69#8, 0x74#8]
  hostFs := []
  uartBase := 0x10000000
  uartSize := 16
  uartOffStatus := 0
  uartOffRx := 1
  uartOffTx := 2
  debugPrintEnabled := false
  faultExitCode := 0xFFFFFFFF#32
  contigTaskSize := 16384
  initPriority := 0
  unregionedRead := none
  unregionedWrite := none
  unregionedExec := none
  segmentOverlap := .union

/-- What the host may do between two transitions of the machine (spec/00_scope.md R12 (c)). -/
inductive HostAction where
  | pushByte (b : Byte)
  | advanceClock (ms : Nat)
  | shutdown
  | setPaused (p : Bool)
  | setDelay (ms : Nat)
  | terminateTask (pid : Nat)
  deriving DecidableEq, Repr, Inhabited

/-- Who takes the next transition (spec/00_scope.md R12). -/
inductive Agent where
  | hart (id : Nat)
  | maintenance
  | host (action : HostAction)
  deriving DecidableEq, Repr, Inhabited

/-- The free values: the n-th value the machine draws, of which nothing is known (log 4). -/
opaque Config.free : Nat → Nat

/-- The free interleaving: the agent of the n-th transition, of which nothing is known (log 5). -/
opaque Config.agentAt : Nat → Agent

/-- The unspecified text of the n-th line the kernel logs to stderr (spec/60_exceptions.md R514, log 21). -/
opaque Config.logText : Nat → List Byte

end Sys2Proof
end

