-- ==== Sys2Proof/Machine/State.lean ====
section
/-! DEFINITION. The machine's state, the reasons a step can stop, and the state at power-on
(spec/10_state.md; spec/70_reset_and_hazards.md R700). -/

namespace Sys2Proof.Machine

/-- The exception kinds `excCode` holds (spec/60_exceptions.md R500). -/
inductive ExcCode where
  | none
  | memFault
  | protFault
  | illegalInsn
  deriving DecidableEq, Repr

/-- The subcause a failed access carries (R500); it is not hart state. -/
inductive Subcause where
  | unmapped
  | segfault
  | misaligned
  | outOfBounds
  | oom
  | permission
  deriving DecidableEq, Repr

/-- The kind of an access (spec/20_memory.md R102). -/
inductive AccessKind where
  | read
  | write
  | exec
  deriving DecidableEq, Repr

/-- The failure record of an access (spec/20_memory.md R100). -/
structure MemFailure where
  subcause : Subcause
  va : Word
  deriving DecidableEq, Repr

/-- Where a hart stands in its loop (spec/10_state.md R63, spec/61_dispatcher.md R560, R566; log 8). -/
inductive Phase where
  /-- before boot: hart 0 before init_kernel, another hart spinning on `started` (spec/70_reset_and_hazards.md R701) -/
  | boot
  /-- the loop's top, where the host's controls are read -/
  | loopTop
  /-- the throttle wait of `delay` ms -/
  | throttled
  /-- before schedule() -/
  | scheduling
  /-- schedule() gave a task; before tryAcquireCpu -/
  | picked (pid : Nat)
  /-- the hart holds the task; before steps 1 and 2 of execute -/
  | acquired (pid : Nat)
  /-- in step 3 of execute, before the loop's test -/
  | slice (pid : Nat)
  /-- a step has set a pending flag; before it is handled -/
  | trap (pid : Nat)
  /-- before step 4 of execute -/
  | sliceEnd (pid : Nat) (handled : Bool)
  /-- before releaseCpu and dispatch, which are one transition -/
  | release (pid : Nat)
  /-- the hart has exited (spec/60_exceptions.md R546) -/
  | stopped
  deriving DecidableEq, Repr

/-- A hart (spec/10_state.md R50, R63). `space`, `base` and `limit` are its memory context (R61, R70): the handle of the
address space or block it works in, and in CONTIGUOUS mode where that block lies (log 13). -/
structure Hart where
  id : Nat
  x : Vector Word 32
  pc : Word
  pendingEcall : Bool
  pendingException : Bool
  excCode : ExcCode
  excValue : Word
  curTask : Option Nat
  space : Option Nat
  base : Word
  limit : Word
  counter : Nat
  phase : Phase
  deriving DecidableEq, Repr

/-- The states of a task (spec/10_state.md R65). -/
inductive TaskState where
  | ready
  | running
  | waiting
  | terminated
  deriving DecidableEq, Repr

/-- Why a task waits (spec/10_state.md R65). -/
inductive WaitReason where
  | none
  | uartInput
  | timer
  | processExit
  | generic
  deriving DecidableEq, Repr

/-- A task record (spec/10_state.md R64). `waitingForPid` none is the spec's -1, any child; `activeHartId` none is -1;
`space` is the handle of its address space or block (log 14). -/
structure Task where
  pid : Nat
  name : List Byte
  parent : Option Nat
  children : List Nat
  tgid : Nat
  regs : Vector Word 32
  pc : Word
  stackBase : Word
  stackSize : Nat
  exitCode : Word
  state : TaskState
  waitReason : WaitReason
  waitingForPid : Option Nat
  wakeupTime : Nat
  activeHartId : Option Nat
  priority : Int
  space : Nat
  deriving DecidableEq, Repr

/-- The reasons of a kernel panic (spec/10_state.md R79). -/
inductive PanicReason where
  | doubleSchedule
  | spinlockMisuse
  deriving DecidableEq, Repr

/-- Kernel-global state (spec/10_state.md R67, R79). `nextSpace` is the model's own handle counter (log 14). -/
structure Kernel where
  tasks : List (Nat × Task)
  pidCounter : Nat
  running : Bool
  paused : Bool
  delay : Nat
  started : Bool
  panic : Option PanicReason
  nextSpace : Nat
  deriving DecidableEq, Repr

/-- Who may hold the scheduler spinlock (spec/61_dispatcher.md R552). -/
inductive Holder where
  | hart (id : Nat)
  | maintenance
  | host
  deriving DecidableEq, Repr

/-- Scheduler state (spec/10_state.md R68): `ready` in the order the tasks were added. -/
structure Sched where
  ready : List Nat
  members : List Nat
  lock : Option Holder
  deriving DecidableEq, Repr

/-- The wait queues (spec/10_state.md R69). -/
structure WaitQueues where
  io : List Nat
  sleep : List (Nat × Nat)
  childTerm : List (Nat × Nat)
  deriving DecidableEq, Repr

/-- A hole of a CONTIGUOUS machine (spec/10_state.md R70). -/
structure Hole where
  start : Nat
  size : Nat
  deriving DecidableEq, Repr

/-- A block of a CONTIGUOUS machine (spec/10_state.md R70), with the model's own handle (log 14). -/
structure Block where
  pid : Nat
  start : Nat
  size : Nat
  space : Nat
  deriving DecidableEq, Repr

/-- CONTIGUOUS mode's lists (spec/10_state.md R70). -/
structure Contig where
  holes : List Hole
  allocated : List Block
  deriving DecidableEq, Repr

/-- A page-table entry (spec/10_state.md R72). -/
structure Pte where
  valid : Bool
  perms : Perms
  shared : Bool
  accessed : Bool
  dirty : Bool
  ppn : Nat
  deriving DecidableEq, Repr

/-- An L2 table: the frame it is charged, and its entries by index; an index not listed was never installed
(spec/10_state.md R71, spec/20_memory.md R132). -/
structure L2Table where
  frame : Nat
  ptes : List (Nat × Pte)
  deriving DecidableEq, Repr

/-- A mapped region [start, start + len) (spec/20_memory.md R141). -/
structure Region where
  start : Nat
  len : Nat
  perms : Perms
  deriving DecidableEq, Repr

/-- The per-VPN access counter (spec/10_state.md R71). -/
structure PageCounter where
  count : Nat
  dirty : Bool
  deriving DecidableEq, Repr

/-- An address space (spec/10_state.md R71): its L1 directory lists the L1 entries that are not empty. -/
structure AddrSpace where
  pid : Nat
  directory : List (Nat × L2Table)
  regions : List Region
  counters : List (Nat × PageCounter)
  deriving DecidableEq, Repr

/-- Who owns a frame (spec/10_state.md R73). -/
inductive FrameOwner where
  | none
  | page (pid vpn : Nat)
  | pageTable
  | shared (key : Nat)
  deriving DecidableEq, Repr

/-- A frame's allocator state and its CLOCK accessed bit (spec/10_state.md R73, R74). -/
structure Frame where
  free : Bool
  refcount : Nat
  owner : FrameOwner
  accessed : Bool
  deriving DecidableEq, Repr

/-- A frame nothing holds (spec/10_state.md R82). -/
def Frame.unused : Frame := { free := true, refcount := 0, owner := .none, accessed := false }

/-- PAGED mode: the address spaces by handle, the frames by number, and the replacement policy's state
(spec/10_state.md R71 to R74). -/
structure Paging where
  spaces : List (Nat × AddrSpace)
  frames : List Frame
  ring : List Nat
  hand : Nat
  recency : List Nat
  deriving DecidableEq, Repr

/-- The UART, the host's streams and the wall clock (spec/10_state.md R76 to R78). -/
structure HostIo where
  rxq : List Byte
  stdout : List Byte
  hostLog : List Byte
  stderr : List Byte
  clock : Nat
  deriving DecidableEq, Repr

/-- The model's own record of its free choices: draws and turns still given as data, and how many were taken from
Config.free and Config.agentAt (logs 4, 5). -/
structure Chance where
  script : List Nat
  drawn : Nat
  agenda : List Agent
  turns : Nat
  deriving DecidableEq, Repr

/-- Why the machine stops with a fault. -/
inductive Fault where
  /-- raised by step, and by nothing else, in every state whose panic state is set: "immediate halt", no agent takes a step
  (spec/10_state.md R79, spec/60_exceptions.md R549; log 29); safe -/
  | halted (reason : PanicReason)
  deriving DecidableEq, Repr

/-- Why a step has no meaning. -/
inductive Refusal where
  /-- raised by exec's arm of an instruction that has no meaning yet; safe -/
  | notModelled (mnemonic : String)
  /-- raised by the six CSR instructions: the source's CSR stub is not described (spec/44_system.md R410; log 11); safe -/
  | csrStub
  /-- raised by a 2- or 4-byte access with a byte in the UART range (spec/20_memory.md R111, R112; log 12); safe -/
  | uartWideAccess
  /-- raised by an instruction fetch with a byte in the UART range (spec/20_memory.md R110; log 12); safe -/
  | uartFetch
  /-- raised by a byte access to the UART that is no load of STATUS or RX and no store of TX (spec/63_uart.md R650, R654;
  log 12); safe -/
  | uartRegister
  /-- raised by a loader write into the UART range (spec/20_memory.md R113; log 12); safe -/
  | uartLoaderWrite
  deriving DecidableEq, Repr

/-- Memory: bytes by physical address, in canonical form (log 3). -/
abbrev Memory := List Host.Cell

/-- The whole machine. `hart` is the hart that last had, or now has, its turn; `others` are the rest (log 7). -/
structure State where
  params : Params
  hart : Hart
  others : List Hart
  kernel : Kernel
  sched : Sched
  waits : WaitQueues
  contig : Contig
  paging : Paging
  ram : Memory
  io : HostIo
  chance : Chance
  deriving DecidableEq, Repr

/-- Hart h at power-on (spec/10_state.md R82): registers, pc and exception value DESIGN CHOICE 0 (log 2). -/
def Hart.powerOn (p : Params) (h : Nat) : Hart where
  id := h
  x := Vector.replicate 32 0#32
  pc := 0#32
  pendingEcall := false
  pendingException := false
  excCode := .none
  excValue := 0#32
  curTask := none
  space := none
  base := 0#32
  limit := BitVec.ofNat 32 p.ramSize
  counter := 0
  phase := .boot

/-- The machine at power-on with the parameters p (spec/10_state.md R82, spec/70_reset_and_hazards.md R700). -/
def State.powerOn (p : Params) : State where
  params := p
  hart := Hart.powerOn p 0
  others := (List.range' 1 (p.nHarts - 1)).map (Hart.powerOn p)
  kernel :=
    { tasks := [], pidCounter := 1, running := true, paused := false, delay := 0, started := false, panic := none,
      nextSpace := 0 }
  sched := { ready := [], members := [], lock := none }
  waits := { io := [], sleep := [], childTerm := [] }
  contig := { holes := [{ start := 0, size := p.ramSize }], allocated := [] }
  paging :=
    { spaces := [], frames := List.replicate (p.ramSize / 4096) Frame.unused, ring := [], hand := 0, recency := [] }
  ram := []
  io := { rxq := [], stdout := [], hostLog := [], stderr := [], clock := 0 }
  chance := { script := [], drawn := 0, agenda := [], turns := 0 }

/-- The machine right after reset: at power-on, with the parameters log 1 names. -/
def State.reset : State := State.powerOn Params.standard

end Sys2Proof.Machine
end

