-- ==== Sys2Proof/Machine/Base.lean ====
section
/-! DEFINITION. What the other operations are built from: draws (log 4), memory by bytes (log 3), the task table, and the
three ways an operation ends. -/

namespace Sys2Proof.Machine

/-- How an operation ends: with a value, with a failure that its caller answers for, or without a meaning. A failure keeps the
state, since effects made before it stay (spec/60_exceptions.md R503, spec/62_syscalls.md R602). -/
inductive Res (ε α : Type) where
  | ok (a : α) (s : State)
  | fail (e : ε) (s : State)
  | refuse (r : Refusal)
  deriving Repr

/-- Do f with the value and the state of an operation that ended well. -/
def Res.andThen {ε α β : Type} (x : Res ε α) (f : α → State → Res ε β) : Res ε β :=
  match x with
  | .ok a s => f a s
  | .fail e s => .fail e s
  | .refuse r => .refuse r

/-- Answer for a failure in the caller's own terms. -/
def Res.mapFail {ε ε' α : Type} (x : Res ε α) (g : ε → ε') : Res ε' α :=
  match x with
  | .ok a s => .ok a s
  | .fail e s => .fail (g e) s
  | .refuse r => .refuse r

/-- The kernel-level errors (spec/60_exceptions.md R505). -/
inductive KernelError where
  | oomFrame
  | badElf
  deriving DecidableEq, Repr

/-! ## Draws -/

/-- Take the next free value: the head of the script, or the next value of Config.free (log 4). -/
def State.draw (s : State) : Nat × State :=
  match s.chance.script with
  | n :: rest => (n, { s with chance := { s.chance with script := rest } })
  | [] => (Config.free s.chance.drawn, { s with chance := { s.chance with drawn := s.chance.drawn + 1 } })

/-- A drawn word. -/
def State.drawWord (s : State) : Word × State :=
  let d := s.draw
  (BitVec.ofNat 32 d.1, d.2)

/-- A drawn byte. -/
def State.drawByte (s : State) : Byte × State :=
  let d := s.draw
  (BitVec.ofNat 8 d.1, d.2)

/-- An element of a list, by a draw; a list of one element needs none. -/
def State.choose {α : Type} (s : State) : List α → Option (α × State)
  | [] => none
  | [a] => some (a, s)
  | a :: b :: rest =>
    let d := s.draw
    some ((a :: b :: rest).getD (d.1 % (rest.length + 2)) a, d.2)

/-- n drawn bytes. -/
def State.drawBytes : Nat → State → List Byte × State
  | 0, s => ([], s)
  | n + 1, s =>
    let d := s.drawByte
    let r := State.drawBytes n d.2
    (d.1 :: r.1, r.2)

/-! ## Memory by bytes -/

/-- The byte at an address; an unlisted address reads 0, DESIGN CHOICE (log 3). -/
def Memory.read (m : Memory) (a : Nat) : Byte := (assocGet m a).getD 0#8

/-- Store a byte, keeping the canonical form. -/
def Memory.write (m : Memory) (a : Nat) (b : Byte) : Memory := if b = 0#8 then assocErase m a else assocSet m a b

/-- The canonical form: addresses strictly rising, and no entry equal to what an unlisted address reads. -/
def Memory.wf (m : Memory) : Bool := assocSorted m && m.all (fun c => c.2 != 0#8)

/-- The n bytes from an address up. -/
def Memory.readBytes (m : Memory) (a n : Nat) : List Byte := (List.range n).map (fun k => m.read (a + k))

/-- Store bytes from an address up. -/
def Memory.writeBytes (m : Memory) (a : Nat) : List Byte → Memory
  | [] => m
  | b :: bs => Memory.writeBytes (m.write a b) (a + 1) bs

/-- Store n zero bytes from an address up. -/
def Memory.zero (m : Memory) (a n : Nat) : Memory := m.filter (fun c => !(decide (a ≤ c.1) && decide (c.1 < a + n)))

/-- Copy n bytes (memmove: all bytes are read before any is written). -/
def Memory.copy (m : Memory) (src dst n : Nat) : Memory := m.writeBytes dst (m.readBytes src n)

/-- Bytes at rising addresses as a little-endian value (spec/20_memory.md R101). -/
def littleEndian : List Byte → Word
  | [] => 0#32
  | b :: bs => b.setWidth 32 ||| (littleEndian bs <<< 8)

/-! ## Task records and panics -/

/-- The record of a PID, where the task table holds one (spec/10_state.md R67). -/
def State.task? (s : State) (pid : Nat) : Option Task := assocGet s.kernel.tasks pid

/-- Put a record into the task table. -/
def State.putTask (s : State) (t : Task) : State :=
  { s with kernel := { s.kernel with tasks := assocSet s.kernel.tasks t.pid t } }

/-- Change the record of a PID, where there is one. -/
def State.modTask (s : State) (pid : Nat) (f : Task → Task) : State :=
  { s with kernel := { s.kernel with tasks := assocModify s.kernel.tasks pid f } }

/-- Remove a record from the task table. -/
def State.dropTask (s : State) (pid : Nat) : State :=
  { s with kernel := { s.kernel with tasks := assocErase s.kernel.tasks pid } }

/-- Whether a PID's record is in a state. -/
def State.taskIs (s : State) (pid : Nat) (st : TaskState) : Bool :=
  match s.task? pid with
  | some t => decide (t.state = st)
  | none => false

/-- Set the panic state (spec/60_exceptions.md R549). -/
def State.setPanic (s : State) (r : PanicReason) : State := { s with kernel := { s.kernel with panic := some r } }

/-- Log a line to stderr; its text is not specified (spec/60_exceptions.md R514, log 21). -/
def State.logLine (s : State) : State :=
  { s with
    io := { s.io with stderr := s.io.stderr ++ Config.logText s.chance.drawn }
    chance := { s.chance with drawn := s.chance.drawn + 1 } }

end Sys2Proof.Machine
end

