-- ==== Sys2Proof/Machine/Sched.lean ====
section
/-! DEFINITION. The scheduler contract and its three realisations (spec/61_dispatcher.md R550 to R557), and waking a parent
(R571). -/

namespace Sys2Proof.Machine

/-- `acquire` of the scheduler spinlock (R552): by its holder, a panic. While another agent holds it the acquirer spins. -/
def acquireLock (who : Holder) (s : State) : State :=
  match s.sched.lock with
  | none => { s with sched := { s.sched with lock := some who } }
  | some o => if o = who then s.setPanic .spinlockMisuse else s

/-- `release` of the scheduler spinlock (R552): by an agent that does not hold it, a panic. -/
def releaseLock (who : Holder) (s : State) : State :=
  if s.sched.lock = some who then { s with sched := { s.sched with lock := none } } else s.setPanic .spinlockMisuse

/-- One scheduler operation: it acquires and releases the lock within its transition, so a free lock stays free (R552). With
the lock held, which no run reaches, the holder panics and another agent spins without effect (log 22). -/
def withLock (who : Holder) (op : State → State) (s : State) : State :=
  match s.sched.lock with
  | none => op s
  | some o => if o = who then s.setPanic .spinlockMisuse else s

/-- The ready collection with a task added: a READY task that is not in the membership set (R550, R551). -/
def enqueue (pid : Nat) (s : State) : State :=
  if s.sched.members.contains pid || !s.taskIs pid .ready then s
  else { s with sched := { s.sched with ready := s.sched.ready ++ [pid], members := s.sched.members ++ [pid] } }

/-- `addTask(t)` (R550). -/
def addTask (who : Holder) (pid : Nat) (s : State) : State := withLock who (enqueue pid) s

/-- The ready collection without a task. -/
def dequeue (pid : Nat) (s : State) : State :=
  { s with
    sched :=
      { s.sched with
        ready := s.sched.ready.filter (fun p => p ≠ pid)
        members := s.sched.members.filter (fun p => p ≠ pid) } }

/-- `removeTask(t)` (R550). -/
def removeTask (who : Holder) (pid : Nat) (s : State) : State := withLock who (dequeue pid) s

/-- A task's priority, read when schedule runs (R554). -/
def priorityOf (s : State) (pid : Nat) : Int :=
  match s.task? pid with
  | some t => t.priority
  | none => 0

/-- Of the tasks of highest priority, the one added earliest (R554). -/
def mostUrgent (s : State) (ready : List Nat) : Option Nat :=
  ready.foldl
    (fun best p =>
      match best with
      | none => some p
      | some b => if priorityOf s b < priorityOf s p then some p else some b)
    none

/-- The task schedule() would pop (R553 to R555). -/
def nextReady (s : State) : Option Nat :=
  match s.params.schedMode with
  | .roundRobin _ => s.sched.ready.head?
  | .priority _ => mostUrgent s s.sched.ready
  | .cooperative => s.sched.ready.head?

/-- The ready collection after a pop: one occurrence of the task is taken out. -/
def popReady (pid : Nat) (s : State) : State :=
  { s with
    sched := { s.sched with ready := s.sched.ready.erase pid, members := s.sched.members.filter (fun p => p ≠ pid) } }

/-- `schedule()` (R550): pop and answer the next READY task, or none. -/
def schedule (who : Holder) (s : State) : Option Nat × State :=
  match s.sched.lock with
  | none =>
    match nextReady s with
    | some pid => (some pid, popReady pid s)
    | none => (none, s)
  | some o => (none, if o = who then s.setPanic .spinlockMisuse else s)

/-- `timeSlice()` (R550): none is MAX (R555). -/
def timeSlice (s : State) : Option Nat :=
  match s.params.schedMode with
  | .roundRobin n => some n
  | .priority n => some n
  | .cooperative => none

/-- Whether a slice may take another step. -/
def underSlice (s : State) (counter : Nat) : Bool :=
  match timeSlice s with
  | some n => decide (counter < n)
  | none => true

/-- `readySnapshot()` (R550). -/
def readySnapshot (s : State) : List Nat := s.sched.ready

/-- The test hook `testEnqueueTwice(t)` (R557): no program and no host control reaches it. -/
def testEnqueueTwice (pid : Nat) (s : State) : State :=
  { s with sched := { s.sched with ready := s.sched.ready ++ [pid, pid] } }

/-- Take a task out of every wait queue (R571, R575). -/
def unqueue (pid : Nat) (s : State) : State :=
  { s with
    waits :=
      { io := s.waits.io.filter (fun p => p ≠ pid)
        sleep := s.waits.sleep.filter (fun e => e.2 ≠ pid)
        childTerm := s.waits.childTerm.filter (fun e => e.2 ≠ pid) } }

/-- Change a task's state. A TERMINATED task stays so: the only way out of TERMINATED is to be reaped
(spec/10_state.md R65, spec/60_exceptions.md R512; log 10). -/
def Task.goTo (t : Task) (st : TaskState) (why : WaitReason) : Task :=
  if t.state = .terminated then t else { t with state := st, waitReason := why }

/-- A waiting task made READY (R571, R580). -/
def Task.woken (t : Task) : Task := t.goTo .ready .none

/-- Whether task p waits for the exit of task c (R571). -/
def Task.waitsFor (p : Task) (c : Nat) : Bool :=
  decide (p.state = .waiting) && decide (p.waitReason = .processExit)
    && (decide (p.waitingForPid = none) || decide (p.waitingForPid = some c))

/-- `wakeParentOf(c)` (R571). -/
def wakeParentOf (who : Holder) (c : Nat) (s : State) : State :=
  match (s.task? c).bind (fun t => t.parent) with
  | none => s
  | some pp =>
    match s.task? pp with
    | none => s
    | some p =>
      if p.waitsFor c then
        let s1 := { s with waits := { s.waits with io := s.waits.io.filter (fun q => q ≠ pp)
                                                   childTerm := s.waits.childTerm.filter (fun e => e.2 ≠ pp) } }
        let s2 := s1.modTask pp Task.woken
        if p.activeHartId = none then addTask who pp s2 else s2
      else s

end Sys2Proof.Machine
end

