-- ==== Sys2Proof/Machine/Ops.lean ====
section
/-! DEFINITION. The hart's named operations: registers (spec/10_state.md R51), the pc (R53, R54), the pending flags (R56, R57,
R59), raising an exception (spec/60_exceptions.md R503), the transfer of a task's state (spec/61_dispatcher.md R567, R568), the
entry an exception makes (spec/60_exceptions.md R510) and the return from one (R512). -/

namespace Sys2Proof.Machine

/-- Read register r: x0 reads 0 (R51). -/
def State.reg (s : State) (r : RegIdx) : Word := if r = 0#5 then 0#32 else s.hart.x[r.toNat]'r.isLt

/-- Write register r: a write to x0 is discarded (R51). -/
def State.setReg (s : State) (r : RegIdx) (v : Word) : State :=
  if r = 0#5 then s else { s with hart := { s.hart with x := s.hart.x.set r.toNat v r.isLt } }

/-- The pc of the hart whose step this is (R53). -/
def State.pc (s : State) : Word := s.hart.pc

/-- Set the pc the next step fetches from (R53). -/
def State.setPc (s : State) (v : Word) : State := { s with hart := { s.hart with pc := v } }

/-- `pc <- pc + 4` modulo 2^32 (R54). -/
def State.advance (s : State) : State := s.setPc (s.pc + 4#32)

/-- The start of every step (R59). -/
def State.clearFlags (s : State) : State :=
  { s with hart := { s.hart with pendingEcall := false, pendingException := false, excCode := .none } }

/-- `signal_ecall()` (spec/44_system.md R402). -/
def State.signalEcall (s : State) : State := { s with hart := { s.hart with pendingEcall := true } }

/-- `raise K(v)`, taking an exception in the hart (spec/60_exceptions.md R503): the flag, the code and the value are set; no
register, no byte of memory and not the pc is written. -/
def State.raise (s : State) (k : ExcCode) (v : Word) : State :=
  { s with hart := { s.hart with pendingException := true, excCode := k, excValue := v } }

/-- The kind of a failed access (spec/60_exceptions.md R500). -/
def MemFailure.kind (f : MemFailure) : ExcCode :=
  match f.subcause with
  | .permission => .protFault
  | .unmapped => .memFault
  | .segfault => .memFault
  | .misaligned => .memFault
  | .outOfBounds => .memFault
  | .oom => .memFault

/-- A memory failure inside an instruction becomes its exception, with the failure's va as value (spec/20_memory.md R114). -/
def State.raiseMem (s : State) (f : MemFailure) : State := s.raise f.kind f.va

/-- `saveState(t)` (spec/61_dispatcher.md R568). -/
def saveState (pid : Nat) (s : State) : State :=
  s.modTask pid (fun t => { t with regs := s.hart.x.set 0 0#32, pc := s.hart.pc })

/-- `restoreState(t)` (spec/61_dispatcher.md R567): the return to a task. -/
def restoreState (t : Task) (s : State) : State :=
  { s with hart := { s.hart with x := t.regs.set 0 0#32, pc := t.pc } }

/-- Terminate a task with an exit code. -/
def Task.exit (t : Task) (code : Word) : Task := { t with exitCode := code, state := .terminated }

/-- The entry on an exception (spec/60_exceptions.md R510, spec/61_dispatcher.md R566): the registers and the faulting pc are
saved, the task is terminated with FAULT_EXIT_CODE and leaves the scheduler, and the kernel logs to stderr. -/
def exceptionEntry (pid : Nat) (s : State) : State :=
  let s1 := saveState pid s
  let s2 := s1.modTask pid (fun t => t.exit s.params.faultExitCode)
  (removeTask (.hart s.hart.id) pid s2).logLine

/-- What an access's end means for its instruction: go on with the value, raise, or no meaning (spec/20_memory.md R114). -/
def Res.toOutcome {α : Type} (x : Res MemFailure α) (k : α → State → State) : Host.Outcome State Fault Refusal :=
  match x with
  | .ok a s => .next (k a s)
  | .fail f s => .next (s.raiseMem f)
  | .refuse r => .refused r

end Sys2Proof.Machine
end

