-- ==== Sys2Proof/Machine/Operands.lean ====
section
/-! DEFINITION. Every operand form: the immediates (spec/30_encoding.md R203 to R208), the shift amounts
(spec/40_integer.md R300), the effective address (spec/42_loadstore.md R360) and the jump targets (spec/41_control.md). -/

namespace Sys2Proof.Machine

/-- immI and immS: a 12-bit immediate sign-extended (R203, R204). -/
def immI (imm : BitVec 12) : Word := imm.signExtend 32

/-- immU: 20 bits above 12 zero bits (R206). -/
def immU (imm : BitVec 20) : Word := place 32 12 imm

/-- immB: an even 13-bit offset sign-extended (R205). -/
def immB (off : BitVec 13) : Word := off.signExtend 32

/-- immJ: an even 21-bit offset sign-extended (R207). -/
def immJ (off : BitVec 21) : Word := off.signExtend 32

/-- The effective address of a load or store, modulo 2^32 (spec/42_loadstore.md R360). -/
def effAddr (s : State) (rs1 : RegIdx) (imm : BitVec 12) : Word := s.reg rs1 + immI imm

/-- The shift amount a register holds: its low 5 bits (spec/40_integer.md R300). -/
def regShamt (v : Word) : Nat := (v.extractLsb' 0 5).toNat

/-- The target of JALR: bit 0 of the sum cleared (spec/41_control.md R342). -/
def jalrTarget (s : State) (rs1 : RegIdx) (imm : BitVec 12) : Word := effAddr s rs1 imm &&& 0xFFFFFFFE#32

end Sys2Proof.Machine
end

