-- ==== Sys2Proof/Machine/Flags.lean ====
section
/-! DEFINITION. The instruction set has no condition codes (spec/10_state.md R60): a comparison writes 0 or 1 to a register or
decides a branch. Those comparisons, the arithmetic of the M extension, and how an instruction ends. -/

namespace Sys2Proof.Machine

/-- The result of a set-less-than instruction (spec/40_integer.md R304). -/
def boolWord (b : Bool) : Word := if b then 1#32 else 0#32

/-- Signed less-than (spec/40_integer.md R315). -/
def lessSigned (a b : Word) : Bool := decide (a.toInt < b.toInt)

/-- Unsigned less-than (spec/40_integer.md R316). -/
def lessUnsigned (a b : Word) : Bool := decide (a.toNat < b.toNat)

/-- Bits 63:32 of an exact product (spec/43_muldiv.md R382 to R384). -/
def highWord (p : Int) : Word := (BitVec.ofInt 64 p).extractLsb' 32 32

/-- DIV: rounds toward zero, with the results of division by zero and of overflow (spec/43_muldiv.md R385). -/
def divSigned (a b : Word) : Word :=
  if b = 0#32 then 0xFFFFFFFF#32
  else if a = 0x80000000#32 ∧ b = 0xFFFFFFFF#32 then 0x80000000#32
  else BitVec.ofInt 32 (a.toInt.tdiv b.toInt)

/-- DIVU (spec/43_muldiv.md R386). -/
def divUnsigned (a b : Word) : Word := if b = 0#32 then 0xFFFFFFFF#32 else BitVec.ofNat 32 (a.toNat / b.toNat)

/-- REM: dividend minus divisor times quotient (spec/43_muldiv.md R387). -/
def remSigned (a b : Word) : Word :=
  if b = 0#32 then a
  else if a = 0x80000000#32 ∧ b = 0xFFFFFFFF#32 then 0#32
  else BitVec.ofInt 32 (a.toInt - b.toInt * a.toInt.tdiv b.toInt)

/-- REMU (spec/43_muldiv.md R388). -/
def remUnsigned (a b : Word) : Word := if b = 0#32 then a else BitVec.ofNat 32 (a.toNat % b.toNat)

/-- The end of an instruction that writes one register and goes on to the next (spec/40_integer.md R300). -/
def writeNext (rd : RegIdx) (v : Word) (s : State) : Host.Outcome State Fault Refusal := .next (s.setReg rd v).advance

/-- The end of a branch (spec/41_control.md R343). -/
def branchNext (taken : Bool) (off : BitVec 13) (s : State) : Host.Outcome State Fault Refusal :=
  if taken then .next (s.setPc (s.pc + immB off)) else .next s.advance

/-- The end of a jump: the link register, then the target (spec/41_control.md R341, R342). -/
def jumpNext (rd : RegIdx) (target : Word) (s : State) : Host.Outcome State Fault Refusal :=
  .next ((s.setReg rd (s.pc + 4#32)).setPc target)

end Sys2Proof.Machine
end

