-- ==== Sys2Proof/Machine/Control.lean ====
section
/-! DEFINITION. The control-transfer instructions (spec/41_control.md). -/

namespace Sys2Proof.Machine

/-- JAL (R341). -/
def execJal (rd : RegIdx) (off : BitVec 21) (s : State) : Host.Outcome State Fault Refusal :=
  jumpNext rd (s.pc + immJ off) s

/-- JALR: the target comes from the value of rs1 before rd is written (R342). -/
def execJalr (rd rs1 : RegIdx) (imm : BitVec 12) (s : State) : Host.Outcome State Fault Refusal :=
  jumpNext rd (jalrTarget s rs1 imm) s

/-- BEQ (R344). -/
def execBeq (rs1 rs2 : RegIdx) (off : BitVec 13) (s : State) : Host.Outcome State Fault Refusal :=
  branchNext (s.reg rs1 == s.reg rs2) off s

/-- BNE (R345). -/
def execBne (rs1 rs2 : RegIdx) (off : BitVec 13) (s : State) : Host.Outcome State Fault Refusal :=
  branchNext (s.reg rs1 != s.reg rs2) off s

/-- BLT (R346). -/
def execBlt (rs1 rs2 : RegIdx) (off : BitVec 13) (s : State) : Host.Outcome State Fault Refusal :=
  branchNext (lessSigned (s.reg rs1) (s.reg rs2)) off s

/-- BGE (R347). -/
def execBge (rs1 rs2 : RegIdx) (off : BitVec 13) (s : State) : Host.Outcome State Fault Refusal :=
  branchNext (!lessSigned (s.reg rs1) (s.reg rs2)) off s

/-- BLTU (R348). -/
def execBltu (rs1 rs2 : RegIdx) (off : BitVec 13) (s : State) : Host.Outcome State Fault Refusal :=
  branchNext (lessUnsigned (s.reg rs1) (s.reg rs2)) off s

/-- BGEU (R349). -/
def execBgeu (rs1 rs2 : RegIdx) (off : BitVec 13) (s : State) : Host.Outcome State Fault Refusal :=
  branchNext (!lessUnsigned (s.reg rs1) (s.reg rs2)) off s

end Sys2Proof.Machine
end

