-- ==== Sys2Proof/Machine/Integer.lean ====
section
/-! DEFINITION. The integer computational instructions (spec/40_integer.md). -/

namespace Sys2Proof.Machine

/-- LUI (R301). -/
def execLui (rd : RegIdx) (imm : BitVec 20) (s : State) : Host.Outcome State Fault Refusal :=
  writeNext rd (immU imm) s

/-- AUIPC (R302). -/
def execAuipc (rd : RegIdx) (imm : BitVec 20) (s : State) : Host.Outcome State Fault Refusal :=
  writeNext rd (s.pc + immU imm) s

/-- ADDI (R303). -/
def execAddi (rd rs1 : RegIdx) (imm : BitVec 12) (s : State) : Host.Outcome State Fault Refusal :=
  writeNext rd (s.reg rs1 + immI imm) s

/-- SLTI (R304). -/
def execSlti (rd rs1 : RegIdx) (imm : BitVec 12) (s : State) : Host.Outcome State Fault Refusal :=
  writeNext rd (boolWord (lessSigned (s.reg rs1) (immI imm))) s

/-- SLTIU: the immediate is sign-extended, then read as unsigned (R305). -/
def execSltiu (rd rs1 : RegIdx) (imm : BitVec 12) (s : State) : Host.Outcome State Fault Refusal :=
  writeNext rd (boolWord (lessUnsigned (s.reg rs1) (immI imm))) s

/-- XORI (R306). -/
def execXori (rd rs1 : RegIdx) (imm : BitVec 12) (s : State) : Host.Outcome State Fault Refusal :=
  writeNext rd (s.reg rs1 ^^^ immI imm) s

/-- ORI (R307). -/
def execOri (rd rs1 : RegIdx) (imm : BitVec 12) (s : State) : Host.Outcome State Fault Refusal :=
  writeNext rd (s.reg rs1 ||| immI imm) s

/-- ANDI (R308). -/
def execAndi (rd rs1 : RegIdx) (imm : BitVec 12) (s : State) : Host.Outcome State Fault Refusal :=
  writeNext rd (s.reg rs1 &&& immI imm) s

/-- SLLI (R309). -/
def execSlli (rd rs1 : RegIdx) (shamt : BitVec 5) (s : State) : Host.Outcome State Fault Refusal :=
  writeNext rd (s.reg rs1 <<< shamt.toNat) s

/-- SRLI (R310). -/
def execSrli (rd rs1 : RegIdx) (shamt : BitVec 5) (s : State) : Host.Outcome State Fault Refusal :=
  writeNext rd (s.reg rs1 >>> shamt.toNat) s

/-- SRAI (R311). -/
def execSrai (rd rs1 : RegIdx) (shamt : BitVec 5) (s : State) : Host.Outcome State Fault Refusal :=
  writeNext rd ((s.reg rs1).sshiftRight shamt.toNat) s

/-- ADD (R312). -/
def execAdd (rd rs1 rs2 : RegIdx) (s : State) : Host.Outcome State Fault Refusal :=
  writeNext rd (s.reg rs1 + s.reg rs2) s

/-- SUB (R313). -/
def execSub (rd rs1 rs2 : RegIdx) (s : State) : Host.Outcome State Fault Refusal :=
  writeNext rd (s.reg rs1 - s.reg rs2) s

/-- SLL (R314). -/
def execSll (rd rs1 rs2 : RegIdx) (s : State) : Host.Outcome State Fault Refusal :=
  writeNext rd (s.reg rs1 <<< regShamt (s.reg rs2)) s

/-- SLT (R315). -/
def execSlt (rd rs1 rs2 : RegIdx) (s : State) : Host.Outcome State Fault Refusal :=
  writeNext rd (boolWord (lessSigned (s.reg rs1) (s.reg rs2))) s

/-- SLTU (R316). -/
def execSltu (rd rs1 rs2 : RegIdx) (s : State) : Host.Outcome State Fault Refusal :=
  writeNext rd (boolWord (lessUnsigned (s.reg rs1) (s.reg rs2))) s

/-- XOR (R317). -/
def execXor (rd rs1 rs2 : RegIdx) (s : State) : Host.Outcome State Fault Refusal :=
  writeNext rd (s.reg rs1 ^^^ s.reg rs2) s

/-- SRL (R318). -/
def execSrl (rd rs1 rs2 : RegIdx) (s : State) : Host.Outcome State Fault Refusal :=
  writeNext rd (s.reg rs1 >>> regShamt (s.reg rs2)) s

/-- SRA (R319). -/
def execSra (rd rs1 rs2 : RegIdx) (s : State) : Host.Outcome State Fault Refusal :=
  writeNext rd ((s.reg rs1).sshiftRight (regShamt (s.reg rs2))) s

/-- OR (R320). -/
def execOr (rd rs1 rs2 : RegIdx) (s : State) : Host.Outcome State Fault Refusal :=
  writeNext rd (s.reg rs1 ||| s.reg rs2) s

/-- AND (R321). -/
def execAnd (rd rs1 rs2 : RegIdx) (s : State) : Host.Outcome State Fault Refusal :=
  writeNext rd (s.reg rs1 &&& s.reg rs2) s

end Sys2Proof.Machine
end

