-- ==== Sys2Proof/Machine/Contig.lean ====
section
/-! DEFINITION. The contiguous MMU (spec/20_memory.md R120 to R126). -/

namespace Sys2Proof.Machine

/-- Whether a hole is a better choice than another (R120). -/
def Hole.betterThan (strategy : AllocStrategy) (a b : Hole) : Bool :=
  match strategy with
  | .firstFit => decide (a.start < b.start)
  | .bestFit => decide (a.size < b.size) || (decide (a.size = b.size) && decide (a.start < b.start))

/-- The hole a strategy picks for a size (R120). -/
def pickHole (strategy : AllocStrategy) (size : Nat) (holes : List Hole) : Option Hole :=
  (holes.filter (fun h => decide (size ≤ h.size))).foldl
    (fun best h =>
      match best with
      | none => some h
      | some b => if h.betterThan strategy b then some h else some b)
    none

/-- The hole list after a block of a size is placed at the start of a hole (R120). -/
def cutHole (hole : Hole) (size : Nat) (holes : List Hole) : List Hole :=
  holes.flatMap (fun h =>
    if h = hole then
      if h.size ≤ size then [] else [{ start := h.start + size, size := h.size - size }]
    else [h])

/-- The allocated list with a block, in start order (R70, R120). -/
def insertBlock (b : Block) : List Block → List Block
  | [] => [b]
  | c :: rest => if b.start ≤ c.start then b :: c :: rest else c :: insertBlock b rest

/-- The hole list with a hole, in start order, merged with the neighbours it touches (R124). -/
def insertHole (h : Hole) : List Hole → List Hole
  | [] => [h]
  | c :: rest =>
    if c.start + c.size = h.start then
      insertHole { start := c.start, size := c.size + h.size } rest
    else if h.start + h.size = c.start then { start := h.start, size := h.size + c.size } :: rest
    else if h.start ≤ c.start then h :: c :: rest
    else c :: insertHole h rest

/-- Slide blocks down, in start order, to follow one another from an address (R123): the new blocks, where they end, and
memory with their bytes moved. -/
def slideBlocks : List Block → Nat → Memory → List Block × Nat × Memory
  | [], at0, m => ([], at0, m)
  | b :: rest, at0, m =>
    let r := slideBlocks rest (at0 + b.size) (m.copy b.start at0 b.size)
    ({ b with start := at0 } :: r.1, r.2)

/-- The block of a handle in the allocated list. -/
def blockOf (blocks : List Block) (h : Nat) : Option Block := blocks.find? (fun b => b.space = h)

/-- `switchContext` to a handle (R121): base and limit are those of its block; (0, 0), in which every access fails, where the
handle has no block (log 13). -/
def Hart.switchTo (blocks : List Block) (k : Nat) (h : Hart) : Hart :=
  match blockOf blocks k with
  | some b => { h with space := some k, base := BitVec.ofNat 32 b.start, limit := BitVec.ofNat 32 b.size }
  | none => { h with space := some k, base := 0#32, limit := 0#32 }

/-- A hart after the blocks have moved: one that works in a block follows it to where it now lies (R121, R170, R171; log 13). -/
def Hart.follow (blocks : List Block) (h : Hart) : Hart :=
  match h.space with
  | some k => h.switchTo blocks k
  | none => h

/-- `compact()` (R123): the blocks slide down, and the context of a hart that works in one of them follows it. -/
def compact (s : State) : State :=
  let r := slideBlocks s.contig.allocated 0 s.ram
  { s with
    hart := s.hart.follow r.1
    others := s.others.map (Hart.follow r.1)
    ram := r.2.2
    contig :=
      { allocated := r.1
        holes := if s.params.ramSize ≤ r.2.1 then [] else [{ start := r.2.1, size := s.params.ramSize - r.2.1 }] } }

/-- The configured strategy; a paged machine allocates no blocks. -/
def State.strategy (s : State) : AllocStrategy :=
  match s.params.memMode with
  | .contiguous st => st
  | .paged _ _ => .firstFit

/-- Place a block where a hole takes it, with its bytes drawn (R120, R125). -/
def placeBlock (pid size : Nat) (s : State) : Option (Nat × State) :=
  match pickHole s.strategy size s.contig.holes with
  | none => none
  | some hole =>
    let h := s.kernel.nextSpace
    let d := State.drawBytes size s
    some (h, { d.2 with
      kernel := { d.2.kernel with nextSpace := h + 1 }
      ram := d.2.ram.writeBytes hole.start d.1
      contig :=
        { holes := cutHole hole size s.contig.holes
          allocated := insertBlock { pid := pid, start := hole.start, size := size, space := h } s.contig.allocated } })

/-- The total size of the holes. -/
def holeTotal (holes : List Hole) : Nat := (holes.map (fun h => h.size)).foldl (fun a b => a + b) 0

/-- `allocate(pid, size)` (R120): a hole, else one retry after compaction where the holes together are large enough. -/
def allocateBlock (pid size : Nat) (s : State) : Res KernelError Nat :=
  match placeBlock pid size s with
  | some (h, s1) => .ok h s1
  | none =>
    if size ≤ holeTotal s.contig.holes then
      match placeBlock pid size (compact s) with
      | some (h, s1) => .ok h s1
      | none => .fail .oomFrame (compact s)
    else .fail .oomFrame s

/-- The block of a handle. -/
def State.block? (s : State) (h : Nat) : Option Block := blockOf s.contig.allocated h

/-- `free` of a block (R124). -/
def freeBlock (h : Nat) (s : State) : State :=
  match s.block? h with
  | none => s
  | some b =>
    { s with
      contig :=
        { holes := insertHole { start := b.start, size := b.size } s.contig.holes
          allocated := s.contig.allocated.filter (fun c => c.space ≠ h) } }

/-- `Translate_contig` (R122): every byte below the limit, and below the end of RAM. -/
def translateContig (base limit : Word) (va : Word) (n : Nat) (s : State) : Res MemFailure Nat :=
  if limit.toNat < va.toNat + n then .fail { subcause := .segfault, va := va } s
  else if s.params.ramSize < base.toNat + va.toNat + n then .fail { subcause := .outOfBounds, va := va } s
  else .ok (base.toNat + va.toNat) s

end Sys2Proof.Machine
end

