-- ==== Sys2Proof/Machine/Frames.lean ====
section
/-! DEFINITION. Page tables as data, the replacement policies, and the frame allocator (spec/20_memory.md R130 to R132, R145 to
R152). -/

namespace Sys2Proof.Machine

/-! ## Address spaces and their tables -/

/-- The address space of a handle. -/
def State.space? (s : State) (h : Nat) : Option AddrSpace := assocGet s.paging.spaces h

/-- Change the address space of a handle, where there is one. -/
def State.modSpace (s : State) (h : Nat) (f : AddrSpace → AddrSpace) : State :=
  { s with paging := { s.paging with spaces := assocModify s.paging.spaces h f } }

/-- The virtual page number: VA[31:12] (R130). -/
def vpnOf (va : Word) : Nat := va.toNat / 4096

/-- The page offset: VA[11:0] (R130). -/
def pageOffset (va : Word) : Nat := va.toNat % 4096

/-- The L1 index of a page: VA[31:22] (R130). -/
def l1Index (vpn : Nat) : Nat := vpn / 1024

/-- The L2 index of a page: VA[21:12] (R130). -/
def l2Index (vpn : Nat) : Nat := vpn % 1024

/-- The walk: the PTE of a page, none where the L1 entry is empty or nothing was installed (R133). -/
def AddrSpace.pte? (a : AddrSpace) (vpn : Nat) : Option Pte :=
  match assocGet a.directory (l1Index vpn) with
  | some t => assocGet t.ptes (l2Index vpn)
  | none => none

/-- The valid PTE of a page of a space, where there is one. -/
def State.mapping? (s : State) (h vpn : Nat) : Option Pte :=
  ((s.space? h).bind (fun a => a.pte? vpn)).filter (fun p => p.valid)

/-- Install a PTE in the L2 table of its page. -/
def AddrSpace.setPte (a : AddrSpace) (vpn : Nat) (p : Pte) : AddrSpace :=
  { a with
    directory := assocModify a.directory (l1Index vpn) (fun t => { t with ptes := assocSet t.ptes (l2Index vpn) p }) }

/-- The valid PTEs of an address space with their pages, in page order. -/
def AddrSpace.mappings (a : AddrSpace) : List (Nat × Pte) :=
  a.directory.flatMap (fun e => (e.2.ptes.map (fun p => (e.1 * 1024 + p.1, p.2))).filter (fun p => p.2.valid))

/-- The frames of an address space's L2 tables. -/
def AddrSpace.tableFrames (a : AddrSpace) : List Nat := a.directory.map (fun e => e.2.frame)

/-! ## Frames -/

/-- The allocator's record of a frame. -/
def State.frame (s : State) (f : Nat) : Frame := s.paging.frames.getD f Frame.unused

/-- Set the allocator's record of a frame. -/
def State.setFrame (s : State) (f : Nat) (fr : Frame) : State :=
  { s with paging := { s.paging with frames := s.paging.frames.set f fr } }

/-- The free frames (R150). -/
def State.freeFrames (s : State) : List Nat :=
  (List.range s.paging.frames.length).filter (fun f => (s.frame f).free)

/-- The bytes of a frame made zero (R133). -/
def State.zeroFrame (s : State) (f : Nat) : State := { s with ram := s.ram.zero (f * 4096) 4096 }

/-! ## Replacement policy -/

/-- The configured policy; a CONTIGUOUS machine has none and keeps no policy state. -/
def State.policy (s : State) : Replacement :=
  match s.params.memMode with
  | .paged _ p => p
  | .contiguous _ => .random

/-- `onMap(frame)` (R145): CLOCK puts the frame into its circular list, at a place the spec leaves open and a draw gives;
LRU makes it the most recent (log 15). -/
def onMap (f : Nat) (s : State) : State :=
  match s.policy with
  | .clock =>
    match s.choose (List.range (s.paging.ring.length + 1)) with
    | some (k, s1) => { s1 with paging := { s1.paging with ring := s1.paging.ring.insertIdx k f } }
    | none => s
  | .lru => { s with paging := { s.paging with recency := s.paging.recency.filter (fun g => g ≠ f) ++ [f] } }
  | .random => s

/-- `onUnmap(frame)` (R145): the frame leaves the policy's state. DESIGN CHOICE: its CLOCK accessed bit is cleared too, of which
the spec says only that onAccess sets it and a sweep miss clears it; and a SHARED victim that other PTEs still map leaves the
lists like any other, although it stays resident and eligible, where R147 says only that onUnmap is called (log 15). -/
def onUnmap (f : Nat) (s : State) : State :=
  let s1 := s.setFrame f { s.frame f with accessed := false }
  { s1 with
    paging :=
      { s1.paging with
        ring := s1.paging.ring.filter (fun g => g ≠ f)
        recency := s1.paging.recency.filter (fun g => g ≠ f) } }

/-- `onAccess(frame)` (R145, R148). -/
def onAccess (f : Nat) (s : State) : State :=
  match s.policy with
  | .clock => s.setFrame f { s.frame f with accessed := true }
  | .lru => { s with paging := { s.paging with recency := s.paging.recency.filter (fun g => g ≠ f) ++ [f] } }
  | .random => s

/-- A victim a page may take (R146): an allocated data frame with a reference, not the frame of the page itself. -/
def eligible (s : State) (pid vpn f : Nat) : Bool :=
  let fr := s.frame f
  !fr.free && decide (1 ≤ fr.refcount) && decide (fr.owner ≠ .pageTable) && decide (fr.owner ≠ .none)
    && decide (fr.owner ≠ .page pid vpn)

/-- Every eligible frame. -/
def eligibleFrames (s : State) (pid vpn : Nat) : List Nat :=
  (List.range s.paging.frames.length).filter (eligible s pid vpn)

/-- The resident frames in circular order from the hand; a hand that points at none of them stands at a drawn one (log 15). -/
def clockOrder (s : State) : List Nat × State :=
  if s.paging.ring.contains s.paging.hand then
    (s.paging.ring.drop (s.paging.ring.idxOf s.paging.hand) ++ s.paging.ring.take (s.paging.ring.idxOf s.paging.hand), s)
  else
    match s.choose (List.range s.paging.ring.length) with
    | some (k, s1) => (s.paging.ring.drop k ++ s.paging.ring.take k, s1)
    | none => ([], s)

/-- The CLOCK sweep (R148): an eligible frame whose accessed bit is 1 has it cleared and is passed, the first whose bit is 0 is
the victim. -/
def clockSweep (pid vpn : Nat) : List Nat → State → Option Nat × State
  | [], s => (none, s)
  | f :: rest, s =>
    if eligible s pid vpn f then
      if (s.frame f).accessed then clockSweep pid vpn rest (s.setFrame f { s.frame f with accessed := false })
      else (some f, s)
    else clockSweep pid vpn rest s

/-- What the configured policy picks (R148): CLOCK sweeps at most twice around, LRU takes the eligible frame whose last onMap
or onAccess is oldest, RANDOM leaves the choice to a draw. After a CLOCK sweep the hand's place is open, and drawn (log 15). -/
def policyPick (pid vpn : Nat) (s : State) : Option Nat × State :=
  match s.policy with
  | .clock =>
    let o := clockOrder s
    let r := clockSweep pid vpn (o.1 ++ o.1) o.2
    let d := r.2.draw
    (r.1, { d.2 with paging := { d.2.paging with hand := d.1 } })
  | .lru => (s.paging.recency.find? (eligible s pid vpn), s)
  | .random => (none, s)

/-- `pickVictim` (R145, R148): the policy's pick, else a drawn eligible frame; none only where no frame is eligible. -/
def pickVictim (pid vpn : Nat) (s : State) : Option (Nat × State) :=
  match eligibleFrames s pid vpn with
  | [] => none
  | f :: rest =>
    match policyPick pid vpn s with
    | (some v, s1) => some (v, s1)
    | (none, s1) => s1.choose (f :: rest)

/-! ## Allocation, references, eviction -/

/-- `incRef(f)` (R152). -/
def incRef (f : Nat) (s : State) : State := s.setFrame f { s.frame f with refcount := (s.frame f).refcount + 1 }

/-- `decRef(f)` (R152): at 0 the frame is free and has no owner. -/
def decRef (f : Nat) (s : State) : State :=
  let fr := s.frame f
  if fr.refcount ≤ 1 then s.setFrame f { fr with free := true, refcount := 0, owner := .none }
  else s.setFrame f { fr with refcount := fr.refcount - 1 }

/-- Take a free frame, any of them (R150). A SHARED frame starts with no reference (R157). -/
def takeFree (owner : FrameOwner) (s : State) : Option (Nat × State) :=
  match s.choose s.freeFrames with
  | some (f, s1) =>
    let refs := match owner with
      | .shared _ => 0
      | .none => 1
      | .page _ _ => 1
      | .pageTable => 1
    some (f, s1.setFrame f { s1.frame f with free := false, refcount := refs, owner := owner })
  | none => none

/-- Every valid PTE that maps a frame: handle and page. -/
def mappersOf (s : State) (f : Nat) : List (Nat × Nat) :=
  s.paging.spaces.flatMap (fun e => (e.2.mappings.filter (fun m => m.2.ppn = f)).map (fun m => (e.1, m.1)))

/-- `pte(vpn).V <- 0` in an address space (R147). -/
def invalidate (h vpn : Nat) (s : State) : State :=
  s.modSpace h (fun a =>
    match a.pte? vpn with
    | some p => a.setPte vpn { p with valid := false }
    | none => a)

/-- The PTE an eviction of frame v clears (R147): the one of its owner, which for a page frame is the valid PTE of that page,
in a space of that pid, that maps v (log 14); for a shared frame any one of its mappers, a draw. -/
def unmapVictim (v : Nat) (s : State) : State :=
  match (s.frame v).owner with
  | .page pid vpn =>
    match (mappersOf s v).find? (fun m => m.2 = vpn && (match s.space? m.1 with
                                                        | some a => decide (a.pid = pid)
                                                        | none => false)) with
    | some m => invalidate m.1 m.2 s
    | none => s
  | .shared _ =>
    match s.choose (mappersOf s v) with
    | some (m, s1) => invalidate m.1 m.2 s1
    | none => s
  | .pageTable => s
  | .none => s

/-- `evictOne` (R147): none where no frame is eligible. The evicted page's contents are lost. -/
def evictOne (pid vpn : Nat) (s : State) : Option State :=
  match pickVictim pid vpn s with
  | some (v, s1) => some (decRef v (onUnmap v (unmapVictim v s1)))
  | none => none

/-- Whether the demand path may evict (R142, R150). -/
def evictsOnDemand (s : State) : Bool :=
  match s.params.memMode with
  | .paged .demand _ => true
  | .paged .eager _ => false
  | .contiguous _ => false

/-- `allocFrame(owner, mayEvict)` for the page (pid, vpn) (R150): a free frame, else one retry after one eviction. -/
def allocFrame (owner : FrameOwner) (pid vpn : Nat) (mayEvict : Bool) (s : State) : Res KernelError Nat :=
  match takeFree owner s with
  | some (f, s1) => .ok f s1
  | none =>
    if mayEvict && evictsOnDemand s then
      match evictOne pid vpn s with
      | none => .fail .oomFrame s
      | some s1 =>
        match takeFree owner s1 with
        | some (f, s2) => .ok f s2
        | none => .fail .oomFrame s1
    else .fail .oomFrame s

/-- The L2 table of a page, allocated where its L1 entry is empty (R132). -/
def ensureTable (h pid vpn : Nat) (mayEvict : Bool) (s : State) : Res KernelError Unit :=
  match s.space? h with
  | none => .fail .oomFrame s
  | some a =>
    match assocGet a.directory (l1Index vpn) with
    | some _ => .ok () s
    | none =>
      (allocFrame .pageTable pid vpn mayEvict s).andThen (fun f s1 =>
        .ok () (s1.modSpace h (fun b => { b with directory := assocSet b.directory (l1Index vpn) { frame := f, ptes := [] } })))

/-- Give a page a zero-filled frame with permissions (R133, R141). -/
def installPage (h pid vpn : Nat) (perms : Perms) (mayEvict : Bool) (s : State) : Res KernelError Nat :=
  (ensureTable h pid vpn mayEvict s).andThen (fun _ s1 =>
    (allocFrame (.page pid vpn) pid vpn mayEvict s1).andThen (fun f s2 =>
      let pte : Pte := { valid := true, perms := perms, shared := false, accessed := false, dirty := false, ppn := f }
      .ok f (onMap f ((s2.zeroFrame f).modSpace h (fun a => a.setPte vpn pte)))))

end Sys2Proof.Machine
end

