-- ==== Sys2Proof/Machine/Paging.lean ====
section
/-! DEFINITION. The paged MMU (spec/20_memory.md R130 to R142) and the operations on address spaces (R155 to R160). -/

namespace Sys2Proof.Machine

/-- Whether permissions allow an access: no permission implies another (R134). -/
def permits (p : Perms) : AccessKind → Bool
  | .read => p.r
  | .write => p.w
  | .exec => p.x

/-- Whether a region covers a page (R141). -/
def Region.covers (r : Region) (vpn : Nat) : Bool :=
  decide (1 ≤ r.len) && decide (r.start / 4096 ≤ vpn) && decide (vpn ≤ (r.start + r.len - 1) / 4096)

/-- The permissions of a page two regions cover (R141, SEGMENT_OVERLAP). -/
def combinePerms (m : SegmentOverlap) (earlier later : Perms) : Perms :=
  match m with
  | .union => { r := earlier.r || later.r, w := earlier.w || later.w, x := earlier.x || later.x }
  | .last => later

/-- The permissions the regions give a page, none where no region covers it (R141). -/
def regionsPerms (m : SegmentOverlap) (rs : List Region) (vpn : Nat) : Option Perms :=
  (rs.filter (fun r => r.covers vpn)).foldl
    (fun acc r =>
      match acc with
      | none => some r.perms
      | some p => some (combinePerms m p r.perms))
    none

/-- UNREGIONED_DEMAND for an access kind (R141, D25). -/
def unregioned (p : Params) : AccessKind → Option Perms
  | .read => p.unregionedRead
  | .write => p.unregionedWrite
  | .exec => p.unregionedExec

/-- `regionPerms(AS, va)`, with UNREGIONED_DEMAND outside every region (R133, R141). -/
def demandPerms (s : State) (a : AddrSpace) (vpn : Nat) (kind : AccessKind) : Option Perms :=
  match regionsPerms s.params.segmentOverlap a.regions vpn with
  | some p => some p
  | none => unregioned s.params kind

/-- A page's counter after one more access (R136). -/
def PageCounter.bump (c : PageCounter) (write : Bool) : PageCounter :=
  { count := c.count + 1, dirty := c.dirty || write }

/-- `touch(AS, va, pte, access)` (R136). -/
def touch (h vpn : Nat) (kind : AccessKind) (s : State) : State :=
  match (s.space? h).bind (fun a => a.pte? vpn) with
  | none => s
  | some p =>
    let write := decide (kind = .write)
    onAccess p.ppn (s.modSpace h (fun a =>
      let c := (assocGet a.counters vpn).getD { count := 0, dirty := false }
      let b := a.setPte vpn { p with accessed := true, dirty := p.dirty || write }
      { b with counters := assocSet b.counters vpn (c.bump write) }))

/-- Whether the machine's fetch policy is DEMAND (R140). -/
def demandPaged (s : State) : Bool := evictsOnDemand s

/-- `Translate_paged` of R133; `checkKind` false is `TranslateNoKind` (R135), which skips the permission checks. -/
def translatePaged (h : Nat) (va : Word) (kind : AccessKind) (checkKind : Bool) (s : State) : Res MemFailure Nat :=
  let vpn := vpnOf va
  match s.space? h with
  | none => .fail { subcause := .unmapped, va := va } s
  | some a =>
    let hit : Option Pte :=
      match a.pte? vpn with
      | some p => if p.valid then some p else none
      | none => none
    match hit with
    | some p =>
      if checkKind && !permits p.perms kind then .fail { subcause := .permission, va := va } s
      else .ok (p.ppn * 4096 + pageOffset va) (touch h vpn kind s)
    | none =>
      if !demandPaged s then .fail { subcause := .unmapped, va := va } s
      else
        match demandPerms s a vpn kind with
        | none => .fail { subcause := .unmapped, va := va } s
        | some perms =>
          ((installPage h a.pid vpn perms true s).mapFail
              (fun _ => ({ subcause := .oom, va := va } : MemFailure))).andThen (fun f s1 =>
            if checkKind && !permits perms kind then .fail { subcause := .permission, va := va } s1
            else .ok (f * 4096 + pageOffset va) (touch h vpn kind s1))

/-! ## Regions -/

/-- Record a region, and give the pages already resident the permissions the regions now give them (R141; log 30). -/
def recordRegion (h : Nat) (r : Region) (s : State) : State :=
  s.modSpace h (fun a =>
    let rs := a.regions ++ [r]
    { a with
      regions := rs
      directory := a.directory.map (fun e => (e.1, { e.2 with
        ptes := e.2.ptes.map (fun q =>
          if r.covers (e.1 * 1024 + q.1) && q.2.valid && !q.2.shared then
            (q.1, { q.2 with perms := (regionsPerms s.params.segmentOverlap rs (e.1 * 1024 + q.1)).getD q.2.perms })
          else q) })) })

/-- EAGER: give every page of a list with no valid PTE a frame, without eviction (R141, R142). -/
def mapPages (h : Nat) : List Nat → State → Res KernelError Unit
  | [], s => .ok () s
  | vpn :: rest, s =>
    match s.space? h with
    | none => .fail .oomFrame s
    | some a =>
      if (s.mapping? h vpn).isSome then mapPages h rest s
      else
        let perms := (regionsPerms s.params.segmentOverlap a.regions vpn).getD { r := false, w := false, x := false }
        (installPage h a.pid vpn perms false s).andThen (fun _ s1 => mapPages h rest s1)

/-- `mapRegion(AS, start, len, flags)` (R141, R142). -/
def mapRegion (h start len : Nat) (perms : Perms) (s : State) : Res KernelError Unit :=
  let s1 := recordRegion h { start := start, len := len, perms := perms } s
  if demandPaged s || decide (len = 0) then .ok () s1
  else mapPages h (List.range' (start / 4096) ((start + len - 1) / 4096 - start / 4096 + 1)) s1

/-! ## New spaces, copies, sharing, destruction -/

/-- A new, empty address space for a PID, with its handle (R132; log 14). DESIGN CHOICE: it has no access counter yet, and a page's
counter starts at its first access, at 0 and clean; so does a forked space's, and an eviction keeps a page's counter
(spec/10_state.md R71 gives neither; log 36). -/
def newPagedSpace (pid : Nat) (regions : List Region) (s : State) : Nat × State :=
  let h := s.kernel.nextSpace
  (h, { s with
    kernel := { s.kernel with nextSpace := h + 1 }
    paging :=
      { s.paging with
        spaces := assocSet s.paging.spaces h { pid := pid, directory := [], regions := regions, counters := [] } } })

/-- Give up one reference to a data frame; the policy hears of a frame that is freed (R160). -/
def releaseFrame (f : Nat) (s : State) : State :=
  let s1 := decRef f s
  if (s1.frame f).free then onUnmap f s1 else s1

/-- Free an L2 table's frame (R151, R160). -/
def freeTableFrame (f : Nat) (s : State) : State :=
  s.setFrame f { s.frame f with free := true, refcount := 0, owner := .none }

/-- Destruction of a paged address space (R160). -/
def destroyPaged (h : Nat) (s : State) : State :=
  match s.space? h with
  | none => s
  | some a =>
    let s1 := a.mappings.foldl (fun st m => releaseFrame m.2.ppn st) s
    let s2 := a.tableFrames.foldl (fun st f => freeTableFrame f st) s1
    { s2 with paging := { s2.paging with spaces := assocErase s2.paging.spaces h } }

/-- Copy one valid leaf p into a space whose L2 table for the page exists: a shared one keeps its frame, another gets a frame of
its own with its bytes (R155). The bytes are those p had at its turn, also where the frame given out is the one just evicted
from p (log 16). -/
def copyLeaf (dst cpid vpn : Nat) (p : Pte) (s : State) : Res KernelError Unit :=
  let child : Pte := { p with accessed := false, dirty := false }
  if p.shared then .ok () (incRef p.ppn (s.modSpace dst (fun a => a.setPte vpn child)))
  else
    (allocFrame (.page cpid vpn) cpid vpn true s).andThen (fun f s1 =>
      let s2 := { s1 with ram := s1.ram.copy (p.ppn * 4096) (f * 4096) 4096 }
      .ok () (onMap f (s2.modSpace dst (fun a => a.setPte vpn { child with ppn := f }))))

/-- Copy the listed pages of a space into another, each one if it is valid when its turn comes, and is so still when the L2
table it needs has been allocated: a leaf that was evicted is not copied (R155; log 16). -/
def copyPages (src dst cpid : Nat) : List Nat → State → Res KernelError Unit
  | [], s => .ok () s
  | vpn :: rest, s =>
    match s.mapping? src vpn with
    | none => copyPages src dst cpid rest s
    | some _ =>
      (ensureTable dst cpid vpn true s).andThen (fun _ s1 =>
        match s1.mapping? src vpn with
        | none => copyPages src dst cpid rest s1
        | some p => (copyLeaf dst cpid vpn p s1).andThen (fun _ s2 => copyPages src dst cpid rest s2))

/-- The copy of an address space for FORK, undone on a failure (R155). -/
def copyPaged (src cpid : Nat) (s : State) : Res KernelError Nat :=
  match s.space? src with
  | none => .fail .oomFrame s
  | some a =>
    let n := newPagedSpace cpid a.regions s
    match copyPages src n.1 cpid (a.mappings.map (fun m => m.1)) n.2 with
    | .ok _ s1 => .ok n.1 s1
    | .fail e s1 => .fail e (destroyPaged n.1 s1)
    | .refuse r => .refuse r

/-- `openShared(key)` (R157): the frame of a key, created zero-filled on first use. No syscall calls it. -/
def openShared (key : Nat) (s : State) : Res KernelError Nat :=
  match (List.range s.paging.frames.length).find? (fun f => (s.frame f).owner = .shared key) with
  | some f => .ok f s
  | none =>
    match takeFree (.shared key) s with
    | some (f, s1) => .ok f (s1.zeroFrame f)
    | none => .fail .oomFrame s

/-- `mapShared(AS, vpn, frame, writable)` (R157). No syscall calls it. DESIGN CHOICE: over a page that has a valid PTE already it
takes that PTE's place, and the frame it mapped loses the reference, so that R161 holds; and the PTE has A = 0 and D = 0, of which
R157 says nothing (log 31). -/
def mapShared (h vpn f : Nat) (writable : Bool) (s : State) : Res KernelError Unit :=
  match s.space? h with
  | none => .fail .oomFrame s
  | some a =>
    (ensureTable h a.pid vpn false s).andThen (fun _ s1 =>
      let pte : Pte :=
        { valid := true, perms := { r := true, w := writable, x := false }, shared := true, accessed := false,
          dirty := false, ppn := f }
      let s2 := incRef f (s1.modSpace h (fun b => b.setPte vpn pte))
      let s3 := if (s1.frame f).refcount = 0 then onMap f s2 else s2
      .ok ()
        (match s1.mapping? h vpn with
         | some q => releaseFrame q.ppn s3
         | none => s3))

/-- A PTE packed as a word: bit 0 V, 1 R, 2 W, 3 X, 6 A, 7 D, 8 shared, bits 31:10 ppn (R131). No rule depends on it. -/
def Pte.packed (p : Pte) : Word :=
  let bit (b : Bool) : BitVec 1 := BitVec.ofBool b
  place 32 0 (bit p.valid) ||| place 32 1 (bit p.perms.r) ||| place 32 2 (bit p.perms.w) ||| place 32 3 (bit p.perms.x)
    ||| place 32 6 (bit p.accessed) ||| place 32 7 (bit p.dirty) ||| place 32 8 (bit p.shared)
    ||| place 32 10 (BitVec.ofNat 22 p.ppn)

end Sys2Proof.Machine
end

