-- ==== Sys2Proof/Machine/Uart.lean ====
section
/-! DEFINITION. The UART's registers (spec/63_uart.md R650 to R655). -/

namespace Sys2Proof.Machine

/-- Whether a virtual address lies in the UART range (spec/20_memory.md R103; log 27). -/
def inUart (p : Params) (a : Nat) : Bool := decide (p.uartBase ≤ a) && decide (a < p.uartBase + p.uartSize)

/-- Whether any of the n bytes from an address up lies in the UART range (spec/20_memory.md R110 to R112). -/
def touchesUart (p : Params) (a n : Nat) : Bool := (List.range n).any (fun k => inUart p (a + k))

/-- UART_STATUS bit 0, RX-ready: a view of the queue (R653). -/
def rxReady (s : State) : Bool := !s.io.rxq.isEmpty

/-- Consume the oldest received byte; a read of an empty queue answers a drawn byte and changes nothing of the device
(R651). -/
def readRx (s : State) : Byte × State :=
  match s.io.rxq with
  | b :: rest => (b, { s with io := { s.io with rxq := rest } })
  | [] => s.drawByte

/-- The status byte: bit 0 RX-ready, bits 7:1 drawn (R653). -/
def readStatus (s : State) : Byte × State :=
  let d := s.draw
  (place 8 1 (BitVec.ofNat 7 d.1) ||| place 8 0 (BitVec.ofBool (rxReady s)), d.2)

/-- `UartRead(off)` (R650). -/
def uartRead {ε : Type} (off : Nat) (s : State) : Res ε Byte :=
  if off = s.params.uartOffStatus then .ok (readStatus s).1 (readStatus s).2
  else if off = s.params.uartOffRx then .ok (readRx s).1 (readRx s).2
  else .refuse .uartRegister

/-- A byte emitted on the host's stdout (R652). -/
def emit (b : Byte) (s : State) : State := { s with io := { s.io with stdout := s.io.stdout ++ [b] } }

/-- `UartWrite(off, b)` (R650, R652). -/
def uartWrite {ε : Type} (off : Nat) (b : Byte) (s : State) : Res ε Unit :=
  if off = s.params.uartOffTx then .ok () (emit b s) else .refuse .uartRegister

/-- The host pushes a received byte (R655). -/
def pushByte (b : Byte) (s : State) : State := { s with io := { s.io with rxq := s.io.rxq ++ [b] } }

end Sys2Proof.Machine
end

