-- ==== Sys2Proof/Machine/Access.lean ====
section
/-! DEFINITION. The access primitives (spec/20_memory.md R110 to R113): fetch, read, write and the loaders' write, over either
MMU. -/

namespace Sys2Proof.Machine

/-- A memory context (spec/10_state.md R61): an address space, or a base and limit. -/
inductive Ctx where
  | space (h : Option Nat)
  | block (base limit : Word)
  deriving DecidableEq, Repr

/-- The context of the hart whose step this is (spec/10_state.md R61, spec/61_dispatcher.md R565). -/
def hartCtx (s : State) : Ctx :=
  match s.params.memMode with
  | .contiguous _ => .block s.hart.base s.hart.limit
  | .paged _ _ => .space s.hart.space

/-- The context of an address space or block by its handle (R113, R121). -/
def ctxOf (h : Nat) (s : State) : Ctx :=
  match s.params.memMode with
  | .contiguous _ =>
    match s.block? h with
    | some b => .block (BitVec.ofNat 32 b.start) (BitVec.ofNat 32 b.size)
    | none => .block 0#32 0#32
  | .paged _ _ => .space (some h)

/-- Translation of an n-byte access in a context (R122, R133); with `checkKind` false `TranslateNoKind` (R135). -/
def translate (c : Ctx) (va : Word) (n : Nat) (kind : AccessKind) (checkKind : Bool) (s : State) : Res MemFailure Nat :=
  match c with
  | .block base limit => translateContig base limit va n s
  | .space (some h) => translatePaged h va kind checkKind s
  | .space none => .fail { subcause := .unmapped, va := va } s

/-- Whether an n-byte access at an address is aligned (R104). -/
def aligned (va : Word) (n : Nat) : Bool := decide (va.toNat % n = 0)

/-- Store bytes from a physical address up. -/
def State.storeBytes (s : State) (pa : Nat) (bs : List Byte) : State := { s with ram := s.ram.writeBytes pa bs }

/-- `Fetch(addr)` (R110). -/
def fetch (c : Ctx) (va : Word) (s : State) : Res MemFailure Word :=
  if !aligned va 4 then .fail { subcause := .misaligned, va := va } s
  else if touchesUart s.params va.toNat 4 then .refuse .uartFetch
  else (translate c va 4 .exec true s).andThen (fun pa s1 => .ok (littleEndian (s1.ram.readBytes pa 4)) s1)

/-- `MemRead(addr, n)` (R111), its value zero-extended to a word. -/
def memRead (c : Ctx) (va : Word) (n : Nat) (s : State) : Res MemFailure Word :=
  if !aligned va n then .fail { subcause := .misaligned, va := va } s
  else if n = 1 && inUart s.params va.toNat then
    (uartRead (va.toNat - s.params.uartBase) s).andThen (fun b s1 => .ok (b.setWidth 32) s1)
  else if touchesUart s.params va.toNat n then .refuse .uartWideAccess
  else (translate c va n .read true s).andThen (fun pa s1 => .ok (littleEndian (s1.ram.readBytes pa n)) s1)

/-- The low n bytes of a word, the lowest first (R101, R112). -/
def lowBytes (v : Word) (n : Nat) : List Byte := (bytesOfWord v).take n

/-- `MemWrite(addr, n, v)` (R112). -/
def memWrite (c : Ctx) (va : Word) (n : Nat) (v : Word) (s : State) : Res MemFailure Unit :=
  if !aligned va n then .fail { subcause := .misaligned, va := va } s
  else if n = 1 && inUart s.params va.toNat then uartWrite (va.toNat - s.params.uartBase) (v.setWidth 8) s
  else if touchesUart s.params va.toNat n then .refuse .uartWideAccess
  else (translate c va n .write true s).andThen (fun pa s1 => .ok () (s1.storeBytes pa (lowBytes v n)))

/-- `writeByteToVirtual(va, b)` (R113). -/
def writeByteToVirtual (c : Ctx) (va : Word) (b : Byte) (s : State) : Res MemFailure Unit :=
  if inUart s.params va.toNat then .refuse .uartLoaderWrite
  else (translate c va 1 .write false s).andThen (fun pa s1 => .ok () (s1.storeBytes pa [b]))

/-- The loaders' writes at rising addresses (spec/70_reset_and_hazards.md R711). -/
def writeVirtual (c : Ctx) : Nat → List Byte → State → Res MemFailure Unit
  | _, [], s => .ok () s
  | va, b :: bs, s => (writeByteToVirtual c (BitVec.ofNat 32 va) b s).andThen (fun _ s1 => writeVirtual c (va + 1) bs s1)

/-- A new address space or block for a PID (spec/70_reset_and_hazards.md R711). -/
def newSpace (pid : Nat) (s : State) : Res KernelError Nat :=
  match s.params.memMode with
  | .contiguous _ => allocateBlock pid s.params.contigTaskSize s
  | .paged _ _ =>
    let n := newPagedSpace pid [] s
    .ok n.1 n.2

/-- Destruction of an address space or block (R124, R160). -/
def destroySpace (h : Nat) (s : State) : State :=
  match s.params.memMode with
  | .contiguous _ => freeBlock h s
  | .paged _ _ => destroyPaged h s

end Sys2Proof.Machine
end

