-- ==== Sys2Proof/Machine/LoadStore.lean ====
section
/-! DEFINITION. The load and store instructions (spec/42_loadstore.md). -/

namespace Sys2Proof.Machine

/-- A load (R360): one access at the effective address, its value extended into rd, or the access's exception. The register
write is discarded for x0, the access is not (R369). -/
def loadInto (rd rs1 : RegIdx) (imm : BitVec 12) (n : Nat) (extend : Word → Word) (s : State) :
    Host.Outcome State Fault Refusal :=
  (memRead (hartCtx s) (effAddr s rs1 imm) n s).toOutcome (fun v t => (t.setReg rd (extend v)).advance)

/-- A store (R360): one access at the effective address with the low n bytes of rs2, or the access's exception. -/
def storeFrom (rs2 rs1 : RegIdx) (imm : BitVec 12) (n : Nat) (s : State) : Host.Outcome State Fault Refusal :=
  (memWrite (hartCtx s) (effAddr s rs1 imm) n (s.reg rs2) s).toOutcome (fun _ t => t.advance)

/-- LB (R361). -/
def execLb (rd rs1 : RegIdx) (imm : BitVec 12) (s : State) : Host.Outcome State Fault Refusal :=
  loadInto rd rs1 imm 1 (fun v => (v.setWidth 8).signExtend 32) s

/-- LH (R362). -/
def execLh (rd rs1 : RegIdx) (imm : BitVec 12) (s : State) : Host.Outcome State Fault Refusal :=
  loadInto rd rs1 imm 2 (fun v => (v.setWidth 16).signExtend 32) s

/-- LW (R363). -/
def execLw (rd rs1 : RegIdx) (imm : BitVec 12) (s : State) : Host.Outcome State Fault Refusal :=
  loadInto rd rs1 imm 4 (fun v => v) s

/-- LBU (R364). -/
def execLbu (rd rs1 : RegIdx) (imm : BitVec 12) (s : State) : Host.Outcome State Fault Refusal :=
  loadInto rd rs1 imm 1 (fun v => (v.setWidth 8).setWidth 32) s

/-- LHU (R365). -/
def execLhu (rd rs1 : RegIdx) (imm : BitVec 12) (s : State) : Host.Outcome State Fault Refusal :=
  loadInto rd rs1 imm 2 (fun v => (v.setWidth 16).setWidth 32) s

/-- SB (R366). -/
def execSb (rs2 rs1 : RegIdx) (imm : BitVec 12) (s : State) : Host.Outcome State Fault Refusal :=
  storeFrom rs2 rs1 imm 1 s

/-- SH (R367). -/
def execSh (rs2 rs1 : RegIdx) (imm : BitVec 12) (s : State) : Host.Outcome State Fault Refusal :=
  storeFrom rs2 rs1 imm 2 s

/-- SW (R368). -/
def execSw (rs2 rs1 : RegIdx) (imm : BitVec 12) (s : State) : Host.Outcome State Fault Refusal :=
  storeFrom rs2 rs1 imm 4 s

end Sys2Proof.Machine
end

