-- ==== Sys2Proof/Machine/MulDiv.lean ====
section
/-! DEFINITION. The multiply and divide instructions (spec/43_muldiv.md). -/

namespace Sys2Proof.Machine

/-- MUL (R381). -/
def execMul (rd rs1 rs2 : RegIdx) (s : State) : Host.Outcome State Fault Refusal :=
  writeNext rd (s.reg rs1 * s.reg rs2) s

/-- MULH (R382). -/
def execMulh (rd rs1 rs2 : RegIdx) (s : State) : Host.Outcome State Fault Refusal :=
  writeNext rd (highWord ((s.reg rs1).toInt * (s.reg rs2).toInt)) s

/-- MULHSU (R383). -/
def execMulhsu (rd rs1 rs2 : RegIdx) (s : State) : Host.Outcome State Fault Refusal :=
  writeNext rd (highWord ((s.reg rs1).toInt * ((s.reg rs2).toNat : Int))) s

/-- MULHU (R384). -/
def execMulhu (rd rs1 rs2 : RegIdx) (s : State) : Host.Outcome State Fault Refusal :=
  writeNext rd (highWord (((s.reg rs1).toNat : Int) * ((s.reg rs2).toNat : Int))) s

/-- DIV (R385). -/
def execDiv (rd rs1 rs2 : RegIdx) (s : State) : Host.Outcome State Fault Refusal :=
  writeNext rd (divSigned (s.reg rs1) (s.reg rs2)) s

/-- DIVU (R386). -/
def execDivu (rd rs1 rs2 : RegIdx) (s : State) : Host.Outcome State Fault Refusal :=
  writeNext rd (divUnsigned (s.reg rs1) (s.reg rs2)) s

/-- REM (R387). -/
def execRem (rd rs1 rs2 : RegIdx) (s : State) : Host.Outcome State Fault Refusal :=
  writeNext rd (remSigned (s.reg rs1) (s.reg rs2)) s

/-- REMU (R388). -/
def execRemu (rd rs1 rs2 : RegIdx) (s : State) : Host.Outcome State Fault Refusal :=
  writeNext rd (remUnsigned (s.reg rs1) (s.reg rs2)) s

end Sys2Proof.Machine
end

