-- ==== Sys2Proof/Machine/System.lean ====
section
/-! DEFINITION. FENCE and the SYSTEM instructions (spec/44_system.md). -/

namespace Sys2Proof.Machine

/-- FENCE: every fm, pred, succ, rs1 and rd only advances the pc (R400). -/
def execFence (_rd _rs1 : RegIdx) (_fm _pred _succ : BitVec 4) (s : State) : Host.Outcome State Fault Refusal :=
  .next s.advance

/-- ECALL: sets pendingEcall and advances the pc (R402; spec/90_conflicts.md C1); the dispatcher performs the syscall (R404). -/
def execEcall (s : State) : Host.Outcome State Fault Refusal :=
  .next s.signalEcall.advance

/-- EBREAK: the same flag as ECALL (R403). -/
def execEbreak (s : State) : Host.Outcome State Fault Refusal :=
  .next s.signalEcall.advance

/-- What every CSR instruction answers: the source names a CSR stub and says nothing of what it does, so the step is refused for
every CSR number (R410; spec/92_eei_decisions.md D9; log 11). -/
def refuseCsr (_s : State) : Host.Outcome State Fault Refusal := .refused .csrStub

/-- CSRRW (R410). -/
def execCsrrw (_rd _rs1 : RegIdx) (_csr : BitVec 12) (s : State) : Host.Outcome State Fault Refusal :=
  refuseCsr s

/-- CSRRS (R410). -/
def execCsrrs (_rd _rs1 : RegIdx) (_csr : BitVec 12) (s : State) : Host.Outcome State Fault Refusal :=
  refuseCsr s

/-- CSRRC (R410). -/
def execCsrrc (_rd _rs1 : RegIdx) (_csr : BitVec 12) (s : State) : Host.Outcome State Fault Refusal :=
  refuseCsr s

/-- CSRRWI (R410). -/
def execCsrrwi (_rd _uimm : RegIdx) (_csr : BitVec 12) (s : State) : Host.Outcome State Fault Refusal :=
  refuseCsr s

/-- CSRRSI (R410). -/
def execCsrrsi (_rd _uimm : RegIdx) (_csr : BitVec 12) (s : State) : Host.Outcome State Fault Refusal :=
  refuseCsr s

/-- CSRRCI (R410). -/
def execCsrrci (_rd _uimm : RegIdx) (_csr : BitVec 12) (s : State) : Host.Outcome State Fault Refusal :=
  refuseCsr s

end Sys2Proof.Machine
end

