-- ==== Sys2Proof/Machine/Elf.lean ====
section
/-! DEFINITION. The ELF32 loader and task creation (spec/70_reset_and_hazards.md R703, R710 to R712). -/

namespace Sys2Proof.Machine

/-- A little-endian field of n bytes of an image (R710). -/
def fieldAt (buf : List Byte) (off n : Nat) : Nat := (littleEndian ((buf.drop off).take n)).toNat

/-- A loadable segment: the fields of a PT_LOAD program header (R711). -/
structure Segment where
  offset : Nat
  vaddr : Nat
  fileSize : Nat
  memSize : Nat
  perms : Perms
  deriving DecidableEq, Repr

/-- The checks R710 makes of the ELF header, and that the image holds its program-header table. DESIGN CHOICE: a table of no
entries must start inside the image too, or at its end (log 35). -/
def headerOk (buf : List Byte) : Bool :=
  decide (52 ≤ buf.length) && decide (buf.take 4 = [0x7F#8, 0x45#8, 0x4C#8, 0x46#8]) && decide (fieldAt buf 0x04 1 = 1)
    && decide (fieldAt buf 0x05 1 = 1) && decide (fieldAt buf 0x12 2 = 243) && decide (32 ≤ fieldAt buf 0x2A 2)
    && decide (fieldAt buf 0x1C 4 + fieldAt buf 0x2A 2 * fieldAt buf 0x2C 2 ≤ buf.length)

/-- Where the program headers start, in table order (R711). -/
def headerOffsets (buf : List Byte) : List Nat :=
  (List.range (fieldAt buf 0x2C 2)).map (fun k => fieldAt buf 0x1C 4 + fieldAt buf 0x2A 2 * k)

/-- The entry point: header offset 0x18 (R710). -/
def entryPoint (buf : List Byte) : Word := BitVec.ofNat 32 (fieldAt buf 0x18 4)

/-- X is cleared on a segment that ends above 0x7FFFFFF0 (R712). -/
def xclear (p : Perms) (vaddr memSize : Nat) : Perms := if 0x7FFFFFF0 < vaddr + memSize then { p with x := false } else p

/-- The segment at a program header, none where its type is not PT_LOAD = 1 (R711). -/
def segmentAt (buf : List Byte) (ph : Nat) : Option Segment :=
  if fieldAt buf ph 4 = 1 then
    let flags := fieldAt buf (ph + 24) 4
    let perms : Perms := { r := flags.testBit 2, w := flags.testBit 1, x := flags.testBit 0 }
    let vaddr := fieldAt buf (ph + 8) 4
    let memSize := fieldAt buf (ph + 20) 4
    some
      { offset := fieldAt buf (ph + 4) 4, vaddr := vaddr, fileSize := fieldAt buf (ph + 16) 4, memSize := memSize,
        perms := xclear perms vaddr memSize }
  else none

/-- The PT_LOAD segments in table order. -/
def segments (buf : List Byte) : List Segment := (headerOffsets buf).filterMap (segmentAt buf)

/-- A segment that does not fail validation (R710). DESIGN CHOICE: one of no file bytes may give an offset past the end of the
image, since it reads none of it (log 35). -/
def segmentOk (buf : List Byte) (g : Segment) : Bool :=
  decide (g.fileSize ≤ g.memSize) && decide (g.vaddr + g.memSize ≤ 2 ^ 32)
    && (decide (g.fileSize = 0) || decide (g.offset + g.fileSize ≤ buf.length))

/-- `validate(buf)` (R710): false is BAD_ELF. -/
def validElf (buf : List Byte) : Bool := headerOk buf && (segments buf).all (segmentOk buf)

/-- The first address of a segment's pages (R711). -/
def Segment.lo (g : Segment) : Nat := g.vaddr / 4096 * 4096

/-- The address after a segment's pages (R711). -/
def Segment.hi (g : Segment) : Nat := (g.vaddr + g.memSize + 4095) / 4096 * 4096

/-- A loader's failed write as the kernel error its caller meets (spec/60_exceptions.md R505). -/
def asKernelError {α : Type} (x : Res MemFailure α) : Res KernelError α := x.mapFail (fun _ => .oomFrame)

/-- Map a segment's pages, where the mode has pages; in CONTIGUOUS mode the segment must fit the block (R711). -/
def mapSegment (h : Nat) (g : Segment) (s : State) : Res KernelError Unit :=
  match s.params.memMode with
  | .paged _ _ => mapRegion h g.lo (g.hi - g.lo) g.perms s
  | .contiguous _ => if s.params.contigTaskSize < g.hi then .fail .badElf s else .ok () s

/-- Load the segments one after another: map, zero-fill, copy the file's bytes (R711). -/
def loadSegments (buf : List Byte) (h : Nat) : List Segment → State → Res KernelError Unit
  | [], s => .ok () s
  | g :: rest, s =>
    if g.memSize = 0 then loadSegments buf h rest s
    else
      (mapSegment h g s).andThen (fun _ s1 =>
        (asKernelError (writeVirtual (ctxOf h s1) g.lo (List.replicate (g.hi - g.lo) 0#8) s1)).andThen (fun _ s2 =>
          (asKernelError (writeVirtual (ctxOf h s2) g.vaddr ((buf.drop g.offset).take g.fileSize) s2)).andThen (fun _ s3 =>
            loadSegments buf h rest s3)))

/-- Undo a failed build: the new space is destroyed (R711). -/
def orDestroy {α : Type} (h : Nat) (x : Res KernelError α) : Res KernelError α :=
  match x with
  | .ok a s => .ok a s
  | .fail e s => .fail e (destroySpace h s)
  | .refuse r => .refuse r

/-- `loadImage(buf, pid)` (R711): the handle of the new space and the entry point. -/
def loadImage (buf : List Byte) (pid : Nat) (s : State) : Res KernelError (Nat × Word) :=
  if !validElf buf then .fail .badElf s
  else
    (newSpace pid s).andThen (fun h s1 =>
      orDestroy h ((loadSegments buf h (segments buf) s1).andThen (fun _ s2 => .ok (h, entryPoint buf) s2)))

/-- USER_STACK_TOP - USER_STACK_SIZE, the stack's first address in PAGED mode (spec/00_scope.md R5, R703). -/
def userStackBase : Nat := 0x7FFFD000

/-- USER_STACK_SIZE (spec/00_scope.md R5). -/
def userStackSize : Nat := 8192

/-- Map the user stack of a new space (R703, spec/20_memory.md R126); the space is destroyed on a failure. -/
def mapStack (h : Nat) (s : State) : Res KernelError Unit :=
  match s.params.memMode with
  | .paged _ _ => orDestroy h (mapRegion h userStackBase userStackSize { r := true, w := true, x := false } s)
  | .contiguous _ => if s.params.contigTaskSize < userStackSize then orDestroy h (.fail .badElf s) else .ok () s

/-- The first address of a task's stack (R703). -/
def stackBaseOf (s : State) : Word :=
  match s.params.memMode with
  | .paged _ _ => BitVec.ofNat 32 userStackBase
  | .contiguous _ => BitVec.ofNat 32 (s.params.contigTaskSize - userStackSize)

/-- The initial sp (R703, spec/20_memory.md R126). -/
def initialSp (s : State) : Word :=
  match s.params.memMode with
  | .paged _ _ => 0x7FFFF000#32
  | .contiguous _ => BitVec.ofNat 32 (s.params.contigTaskSize / 16 * 16)

/-- Draw the registers a list names (R703; spec/92_eei_decisions.md D12). -/
def drawRegs : List Nat → Vector Word 32 → State → Vector Word 32 × State
  | [], v, s => (v, s)
  | i :: rest, v, s =>
    let d := s.drawWord
    drawRegs rest (v.setIfInBounds i d.1) d.2

/-- The registers createTask leaves to draws: x1 and x3 to x31 (R703). -/
def drawnRegs : List Nat := 1 :: List.range' 3 29

/-- `createTask(name, buf)` (R703): the new PID. The PID counter moves on even on a failure (spec/92_eei_decisions.md D44). -/
def createTask (who : Holder) (name buf : List Byte) (s : State) : Res KernelError Nat :=
  let pid := s.kernel.pidCounter
  let s0 := { s with kernel := { s.kernel with pidCounter := pid + 1 } }
  (loadImage buf pid s0).andThen (fun img s1 =>
    (mapStack img.1 s1).andThen (fun _ s2 =>
      let d := drawRegs drawnRegs (Vector.replicate 32 0#32) s2
      let t : Task :=
        { pid := pid, name := name, parent := none, children := [], tgid := pid, regs := d.1.set 2 (initialSp s2),
          pc := img.2, stackBase := stackBaseOf s2, stackSize := userStackSize, exitCode := 0#32, state := .ready,
          waitReason := .none, waitingForPid := none, wakeupTime := 0, activeHartId := none,
          priority := s.params.initPriority, space := img.1 }
      .ok pid (addTask who pid (d.2.putTask t))))

end Sys2Proof.Machine
end

