-- ==== Sys2Proof/Machine/Syscalls.lean ====
section
/-! DEFINITION. The syscall layer reached by ECALL and EBREAK (spec/62_syscalls.md). A syscall works on the saved state of the
task `pid`, in the memory context of the hart that runs it (R600, R602). -/

namespace Sys2Proof.Machine

/-- How a syscall ends: always in a state, unless an access it makes has no meaning. -/
abbrev SysRes := Host.Outcome State Fault Refusal

/-- A saved register of a task (R600). -/
def Task.reg (t : Task) (r : RegIdx) : Word := t.regs[r.toNat]'r.isLt

/-- Write a saved register of a task (R600). -/
def Task.setReg (t : Task) (r : RegIdx) (v : Word) : Task := { t with regs := t.regs.set r.toNat v r.isLt }

/-- The register numbers of the ABI (spec/10_state.md R52). -/
def a0 : RegIdx := 10#5
/-- a1. -/
def a1 : RegIdx := 11#5
/-- a2. -/
def a2 : RegIdx := 12#5
/-- a7, the syscall number. -/
def a7 : RegIdx := 17#5
/-- sp. -/
def sp : RegIdx := 2#5

/-- The return value of a syscall: the task's saved a0 (R600). -/
def setRet (pid : Nat) (v : Word) (s : State) : State := s.modTask pid (fun t => t.setReg a0 v)

/-- The rewind of a syscall that blocks and is to run again (R603). -/
def Task.rewind (t : Task) : Task := { t with pc := t.pc - 4#32 }

/-! ## READ, WRITE and strings -/

/-- READ (R606). -/
def sysRead (pid : Nat) (t : Task) (s : State) : SysRes :=
  if t.reg a0 ≠ 0#32 then .next (setRet pid minusOne s)
  else if !rxReady s then .next (s.modTask pid (fun t => (t.goTo .waiting .uartInput).rewind))
  else
    let b := readRx s
    match memWrite (hartCtx b.2) (t.reg a1) 1 (b.1.setWidth 32) b.2 with
    | .ok _ s1 => .next (setRet pid 1#32 s1)
    | .fail _ s1 => .next (setRet pid minusOne s1)
    | .refuse r => .refused r

/-- The loop of WRITE: k bytes are out, `left` more are wanted (R607). -/
def writeLoop (pid : Nat) (buf : Word) : Nat → Nat → State → SysRes
  | 0, k, s => .next (setRet pid (BitVec.ofNat 32 k) s)
  | left + 1, k, s =>
    match memRead (hartCtx s) (buf + BitVec.ofNat 32 k) 1 s with
    | .fail _ s1 => .next (setRet pid minusOne s1)
    | .refuse r => .refused r
    | .ok v s1 =>
      if v.setWidth 8 = 0#8 then .next (setRet pid (BitVec.ofNat 32 k) s1)
      else writeLoop pid buf left (k + 1) (emit (v.setWidth 8) s1)

/-- WRITE (R607): fd 1 and fd 2 both go to stdout. -/
def sysWrite (pid : Nat) (t : Task) (s : State) : SysRes :=
  if t.reg a0 = 1#32 ∨ t.reg a0 = 2#32 then writeLoop pid (t.reg a1) (t.reg a2).toNat 0 s
  else .next (setRet pid minusOne s)

/-- `readString(va, max)` (R613): the bytes before the first NUL; a failed access or no NUL among max bytes fails. -/
def readString (c : Ctx) : Nat → Word → List Byte → State → Res Unit (List Byte)
  | 0, _, _, s => .fail () s
  | n + 1, va, acc, s =>
    ((memRead c va 1 s).mapFail (fun _ => ())).andThen (fun v s1 =>
      if v.setWidth 8 = 0#8 then .ok acc s1 else readString c n (va + 1#32) (acc ++ [v.setWidth 8]) s1)

/-- EXEC_PATH_MAX (spec/00_scope.md R5). -/
def execPathMax : Nat := 4096

/-- EXEC_ARGV_MAX (spec/00_scope.md R5). -/
def execArgvMax : Nat := 64

/-! ## EXIT, YIELD, GETPID, GET_TIME, SLEEP, DEBUG_PRINT -/

/-- EXIT (R605). -/
def sysExit (pid : Nat) (t : Task) (s : State) : SysRes := .next (s.modTask pid (fun u => u.exit (t.reg a0)))

/-- YIELD (R608): a0 is a draw. -/
def sysYield (pid : Nat) (s : State) : SysRes :=
  let d := s.drawWord
  .next (d.2.modTask pid (fun t => (t.goTo .ready t.waitReason).setReg a0 d.1))

/-- GETPID (R615). -/
def sysGetPid (pid : Nat) (s : State) : SysRes := .next (setRet pid (BitVec.ofNat 32 pid) s)

/-- GET_TIME (R609). -/
def sysGetTime (pid : Nat) (s : State) : SysRes := .next (setRet pid (BitVec.ofNat 32 s.io.clock) s)

/-- SLEEP (R610): no rewind, and a0 is a draw. -/
def sysSleep (pid : Nat) (t : Task) (s : State) : SysRes :=
  let d := s.drawWord
  .next (d.2.modTask pid (fun u =>
    ({ u with wakeupTime := s.io.clock + (t.reg a0).toNat }.goTo .waiting .timer).setReg a0 d.1))

/-- An unknown syscall number (R616). -/
def sysUnknown (pid : Nat) (s : State) : SysRes := .next (setRet pid minusOne s)

/-- The bytes among which DEBUG_PRINT looks for the NUL: at most 4096 bytes come before it (spec/92_eei_decisions.md D56). DEDUCED:
the ruling decides over R611's loop, which ends one byte earlier (log 34). -/
def debugPrintMax : Nat := 4097

/-- DEBUG_PRINT when it is enabled (R611): on success a0 is a draw. -/
def sysDebugPrint (pid : Nat) (t : Task) (s : State) : SysRes :=
  match readString (hartCtx s) debugPrintMax (t.reg a0) [] s with
  | .ok text s1 =>
    let d := { s1 with io := { s1.io with hostLog := s1.io.hostLog ++ text } }.drawWord
    .next (setRet pid d.1 d.2)
  | .fail _ s1 => .next (setRet pid minusOne s1)
  | .refuse r => .refused r

/-! ## FORK -/

/-- The child's space: a copy of the caller's (R612). -/
def copySpace (src cpid : Nat) (s : State) : Res KernelError Nat :=
  match s.params.memMode with
  | .paged _ _ => copyPaged src cpid s
  | .contiguous _ =>
    (allocateBlock cpid s.params.contigTaskSize s).andThen (fun h s1 =>
      match s1.block? src, s1.block? h with
      | some b, some c => .ok h { s1 with ram := s1.ram.copy b.start c.start b.size }
      | _, _ => .ok h s1)

/-- The child FORK makes: registers and pc as the parent's, but a0 is 0 (R612). DESIGN CHOICE: its wakeupTime is 0, of which R612
gives no value (log 28). -/
def Task.child (t : Task) (cpid h : Nat) : Task :=
  { t.setReg a0 0#32 with
    pid := cpid, parent := some t.pid, children := [], tgid := cpid, exitCode := 0#32, state := .ready, waitReason := .none,
    waitingForPid := none, wakeupTime := 0, activeHartId := none, space := h }

/-- FORK (R612). The PID is consumed even on a failure. -/
def sysFork (who : Holder) (pid : Nat) (t : Task) (s : State) : SysRes :=
  let cpid := s.kernel.pidCounter
  let s0 := { s with kernel := { s.kernel with pidCounter := cpid + 1 } }
  match copySpace t.space cpid s0 with
  | .fail _ s1 => .next (setRet pid minusOne s1)
  | .refuse r => .refused r
  | .ok h s1 =>
    let s2 := s1.modTask pid (fun u => { u with children := u.children ++ [cpid] })
    let s3 := addTask who cpid (s2.putTask (t.child cpid h))
    .next (setRet pid (BitVec.ofNat 32 cpid) s3)

/-! ## EXEC -/

/-- The argv entries, k of them read already (R613): a NULL ends them, a 65th fails. -/
def readArgs (c : Ctx) (argv : Word) : Nat → Nat → List (List Byte) → State → Res Unit (List (List Byte))
  | 0, _, _, s => .fail () s
  | n + 1, k, acc, s =>
    ((memRead c (argv + BitVec.ofNat 32 (4 * k)) 4 s).mapFail (fun _ => ())).andThen (fun p s1 =>
      if p = 0#32 then .ok acc s1
      else if k = execArgvMax then .fail () s1
      else (readString c execPathMax p [] s1).andThen (fun a s2 => readArgs c argv n (k + 1) (acc ++ [a]) s2))

/-- Step 1 of EXEC: the path and the arguments, from the caller's address space (R613). -/
def readExecArgs (c : Ctx) (path argv : Word) (s : State) : Res Unit (List Byte × List (List Byte)) :=
  (readString c execPathMax path [] s).andThen (fun p s1 =>
    if argv = 0#32 then .ok (p, []) s1
    else (readArgs c argv (execArgvMax + 1) 0 [] s1).andThen (fun args s2 => .ok (p, args) s2))

/-- HOST_FS: the bytes of the first file of a path (spec/00_scope.md R5; log 26). -/
def hostFile (p : Params) (path : List Byte) : Option (List Byte) := (p.hostFs.find? (fun e => e.1 = path)).map (fun e => e.2)

/-- Push strings with their NULs, the first of the list at the highest address; the pointers come out lowest address first
(R613). -/
def pushStrings (h : Nat) : List (List Byte) → Word → List Word → State → Res KernelError (Word × List Word)
  | [], at0, ptrs, s => .ok (at0, ptrs) s
  | a :: rest, at0, ptrs, s =>
    let p := at0 - BitVec.ofNat 32 (a.length + 1)
    (asKernelError (writeVirtual (ctxOf h s) p.toNat (a ++ [0#8]) s)).andThen (fun _ s1 =>
      pushStrings h rest p (p :: ptrs) s1)

/-- `sp & ~15` (R613). -/
def align16 (v : Word) : Word := v &&& 0xFFFFFFF0#32

/-- The stack EXEC builds: the strings, last first, then the NULL-terminated pointer array, 16-byte aligned (R613). -/
def buildArgs (h : Nat) (args : List (List Byte)) (s : State) : Res KernelError Word :=
  (pushStrings h args.reverse (initialSp s) [] s).andThen (fun r s1 =>
    let at1 := align16 (align16 r.1 - BitVec.ofNat 32 (4 * (args.length + 1)))
    (asKernelError (writeVirtual (ctxOf h s1) at1.toNat ((r.2 ++ [0#32]).flatMap bytesOfWord) s1)).andThen (fun _ s2 =>
      .ok at1 s2))

/-- Step 2 of EXEC: the new image with its stack; on a failure what was built is destroyed (R613). -/
def buildImage (pid : Nat) (path : List Byte) (args : List (List Byte)) (s : State) : Res KernelError (Nat × Word × Word) :=
  match hostFile s.params path with
  | none => .fail .badElf s
  | some buf =>
    (loadImage buf pid s).andThen (fun img s1 =>
      (mapStack img.1 s1).andThen (fun _ s2 =>
        orDestroy img.1 ((buildArgs img.1 args s2).andThen (fun at1 s3 => .ok (img.1, img.2, at1) s3))))

/-- The state after a failed build: the one before it, but that the draws taken stay taken (R613; spec/92_eei_decisions.md D22).
DESIGN CHOICE: what the build did to the other tasks' memory, an eviction or a compaction, is undone as well (log 33). -/
def undoBuild (before failed : State) : State := { before with chance := failed.chance }

/-- EXEC (R613): any failure before the commit answers -1 with the caller's space, registers and pc as they were. DESIGN CHOICE:
what reading the path and the arguments did to the caller's space (a page made resident, an eviction, accessed bits, counters) is
kept, as R602 keeps every effect before a failure, though R613 says exactly as they were (log 33). -/
def sysExec (pid : Nat) (t : Task) (s : State) : SysRes :=
  match readExecArgs (hartCtx s) (t.reg a0) (t.reg a1) s with
  | .fail _ s1 => .next (setRet pid minusOne s1)
  | .refuse r => .refused r
  | .ok (path, args) s1 =>
    match buildImage pid path args s1 with
    | .fail _ s2 => .next (setRet pid minusOne (undoBuild s1 s2))
    | .refuse r => .refused r
    | .ok (h, entry, at1) s2 =>
      let s3 := s2.modTask pid (fun u =>
        { ((u.setReg sp at1).setReg a1 at1).setReg a0 (BitVec.ofNat 32 args.length) with
          pc := entry, space := h, stackBase := stackBaseOf s2, stackSize := userStackSize })
      .next (destroySpace t.space s3)

/-! ## WAIT -/

/-- The children WAIT may reap: TERMINATED and held by no hart (R614). -/
def zombies (s : State) (t : Task) : List Nat :=
  t.children.filter (fun c =>
    match s.task? c with
    | some k => decide (k.state = .terminated) && decide (k.activeHartId = none)
    | none => false)

/-- The exit code of a task. -/
def exitCodeOf (s : State) (c : Nat) : Word :=
  match s.task? c with
  | some k => k.exitCode
  | none => 0#32

/-- Reap a zombie (R614). -/
def reap (pid c : Nat) (s : State) : State :=
  let s1 := s.modTask pid (fun u => { u with children := u.children.filter (fun k => k ≠ c) })
  match s1.task? c with
  | some k => setRet pid (BitVec.ofNat 32 c) (destroySpace k.space (s1.dropTask c))
  | none => s1

/-- WAIT (R614). -/
def sysWait (pid : Nat) (t : Task) (s : State) : SysRes :=
  match s.choose (zombies s t) with
  | some (c, s1) =>
    if t.reg a0 = 0#32 then .next (reap pid c s1)
    else
      match memWrite (hartCtx s1) (t.reg a0) 4 (exitCodeOf s1 c) s1 with
      | .ok _ s2 => .next (reap pid c s2)
      | .fail _ s2 => .next (setRet pid minusOne s2)
      | .refuse r => .refused r
  | none =>
    if t.children = [] then .next (setRet pid minusOne s)
    else
      .next (s.modTask pid (fun u => ({ u with waitingForPid := none }.goTo .waiting .processExit).rewind))

/-! ## The selection -/

/-- `syscall(t)` (R601): by the saved a7, all 32 bits of it. -/
def syscall (who : Holder) (pid : Nat) (s : State) : SysRes :=
  match s.task? pid with
  | none => .next s
  | some t =>
    let n := (t.reg a7).toNat
    if n = 63 then sysRead pid t s
    else if n = 64 then sysWrite pid t s
    else if n = 93 then sysExit pid t s
    else if n = 124 then sysYield pid s
    else if n = 172 then sysGetPid pid s
    else if n = 220 then sysFork who pid t s
    else if n = 221 then sysExec pid t s
    else if n = 260 then sysWait pid t s
    else if n = 1000 then if s.params.debugPrintEnabled then sysDebugPrint pid t s else sysUnknown pid s
    else if n = 1001 then sysGetTime pid s
    else if n = 1002 then sysSleep pid t s
    else sysUnknown pid s

end Sys2Proof.Machine
end

