-- ==== Sys2Proof/Machine/HartLoop.lean ====
section
/-! DEFINITION. The agents' transitions: the hart's boot, loop and slices (spec/61_dispatcher.md R560 to R570,
spec/70_reset_and_hazards.md R701, R702), the maintenance agent (R580), the host (R561, R575), and whose turn it is
(spec/00_scope.md R13; log 5). -/

namespace Sys2Proof.Machine

/-- Move the hart to a place in its loop. -/
def State.goto (s : State) (p : Phase) : State := { s with hart := { s.hart with phase := p } }

/-- The spinlock holder a hart is. -/
def State.holder (s : State) : Holder := .hart s.hart.id

/-! ## Boot -/

/-- "init", the name of the init task (R702). -/
def initName : List Byte := [0x69#8, 0x6E#8, 0x69#8, 0x74#8]

/-- `init_kernel()` and `started <- true` (R701, R702): with no init file or a failed load no task is created. DESIGN CHOICE:
with no init file createTask is not entered, and the PID counter stays 1; a failed load is a createTask, and moves it to 2
(log 32). -/
def initKernel (s : State) : Host.Outcome State Fault Refusal :=
  let start (t : State) : State := { t with kernel := { t.kernel with started := true } }.goto .loopTop
  match hostFile s.params s.params.initElfPath with
  | none => .next (start s)
  | some buf =>
    match createTask s.holder initName buf s with
    | .ok _ s1 => .next (start s1)
    | .fail _ s1 => .next (start s1)
    | .refuse r => .refused r

/-- The boot of a hart (R701): hart 0 initialises, another spins on `started`. -/
def bootStep (s : State) : Host.Outcome State Fault Refusal :=
  if s.hart.id = 0 then initKernel s else if s.kernel.started then .next (s.goto .loopTop) else .next s

/-! ## The loop (R560) -/

/-- The loop's top: the host's controls are read (R560, R561). -/
def loopTopStep (s : State) : State :=
  if !s.kernel.running then s.goto .stopped
  else if s.kernel.paused then s
  else if 0 < s.kernel.delay then s.goto .throttled
  else s.goto .scheduling

/-- schedule(), or an idle wait back to the top (R560). -/
def scheduleStep (s : State) : State :=
  match schedule s.holder s with
  | (some pid, s1) => s1.goto (.picked pid)
  | (none, s1) => s1.goto .loopTop

/-- `tryAcquireCpu(t, h)`, one compare-and-set (R563): false changes nothing. -/
def tryAcquireCpu (pid : Nat) (s : State) : Bool × State :=
  match s.task? pid with
  | none => (false, s)
  | some t =>
    if t.activeHartId = none then
      let s1 := s.modTask pid (fun u => { u with activeHartId := some s.hart.id })
      (true, { s1 with hart := { s1.hart with curTask := some pid } })
    else (false, s)

/-- The acquisition of the scheduled task (R560, R563): a task another hart holds is a kernel panic; a task reaped since it was
scheduled is left alone (log 9). -/
def acquireStep (pid : Nat) (s : State) : State :=
  match s.task? pid with
  | none => s.goto .loopTop
  | some _ =>
    match tryAcquireCpu pid s with
    | (true, s1) => s1.goto (.acquired pid)
    | (false, s1) => s1.setPanic .doubleSchedule

/-- Set the MMU context to a task (R565, spec/20_memory.md R121). -/
def setContext (t : Task) (s : State) : State :=
  match s.params.memMode with
  | .paged _ _ => { s with hart := { s.hart with space := some t.space } }
  | .contiguous _ => { s with hart := s.hart.switchTo s.contig.allocated t.space }

/-- A READY task becomes RUNNING (R566). -/
def Task.start (t : Task) : Task := if t.state = .ready then { t with state := .running } else t

/-- Steps 1 and 2 of execute (R566). -/
def enterStep (pid : Nat) (s : State) : State :=
  match s.task? pid with
  | none => s.goto (.release pid)
  | some t =>
    let s1 := setContext t s
    if t.state = .ready then
      let s2 := restoreState t (s1.modTask pid Task.start)
      { s2 with hart := { s2.hart with counter := 0, phase := .slice pid } }
    else s1.goto (.release pid)

/-- Step 4 of execute (R566). -/
def endSlice (pid : Nat) (handled : Bool) (s : State) : State :=
  let s1 := if handled then s else saveState pid s
  (s1.modTask pid (fun t => if t.state = .running then { t with state := .ready } else t)).goto (.release pid)

/-- `releaseCpu(t)` (R564): in CONTIGUOUS mode the context returns to (0, RAM_SIZE). -/
def releaseCpu (pid : Nat) (s : State) : State :=
  let s1 := s.modTask pid (fun t => { t with activeHartId := none })
  let ctx : Hart :=
    match s.params.memMode with
    | .contiguous _ => { s1.hart with space := none, base := 0#32, limit := BitVec.ofNat 32 s.params.ramSize }
    | .paged _ _ => { s1.hart with space := none }
  { s1 with hart := { ctx with curTask := none } }

/-- Put a WAITING task into the queue of its wait reason (R570). -/
def enterQueue (pid : Nat) (t : Task) (s : State) : State :=
  match t.waitReason with
  | .uartInput => { s with waits := { s.waits with io := s.waits.io ++ [pid] } }
  | .timer => { s with waits := { s.waits with sleep := s.waits.sleep ++ [(t.wakeupTime, pid)] } }
  | .processExit =>
    match t.waitingForPid with
    | some c => { s with waits := { s.waits with childTerm := assocSet s.waits.childTerm c pid } }
    | none => { s with waits := { s.waits with io := s.waits.io ++ [pid] } }
  | .generic => s
  | .none => s

/-- `dispatch(t)` (R570). A PID without a record joins nothing and wakes nobody: DESIGN CHOICE, in a case no run reaches, since
only a task that no hart holds is reaped (log 28). RUNNING cannot occur: the slice's end has made such a task READY. -/
def dispatchTask (who : Holder) (pid : Nat) (s : State) : State :=
  match s.task? pid with
  | none => s
  | some t =>
    match t.state with
    | .ready => addTask who pid s
    | .waiting => enterQueue pid t s
    | .terminated => wakeParentOf who pid s
    | .running => s

/-- `releaseCpu(t); dispatch(t)`, back to the loop's top (R560): one transition, so that no agent finds the task released and not
yet dispatched, and a task joins the ready collection or a queue only while no hart holds it (R551, R570; log 8). -/
def releaseStep (pid : Nat) (s : State) : State := (dispatchTask s.holder pid (releaseCpu pid s)).goto .loopTop

/-! ## A slice (R566) -/

/-- One instruction step (spec/60_exceptions.md R501): clear the flags, fetch, decode, execute. -/
def instructionStep (s : State) : Host.Outcome State Fault Refusal :=
  let s0 := s.clearFlags
  match fetch (hartCtx s0) s0.pc s0 with
  | .fail f s1 => .next (s1.raiseMem f)
  | .refuse r => .refused r
  | .ok w s1 =>
    match decode w with
    | .illegalInsn w => .next (s1.raise .illegalInsn w)
    | .instr i => exec i s1

/-- After a step: it is counted, and a pending flag is handled next (R566; spec/92_eei_decisions.md D47). -/
def countStep (pid : Nat) (s : State) : State :=
  { s with
    hart :=
      { s.hart with
        counter := s.hart.counter + 1
        phase := if s.hart.pendingEcall || s.hart.pendingException then .trap pid else .slice pid } }

/-- Step 3's loop: its test, and one instruction step (R566). -/
def sliceStep (pid : Nat) (s : State) : Host.Outcome State Fault Refusal :=
  if underSlice s s.hart.counter && s.taskIs pid .running then
    match instructionStep s with
    | .next s1 => .next (countStep pid s1)
    | .fault f => .fault f
    | .refused r => .refused r
  else .next (s.goto (.sliceEnd pid false))

/-- The pending flag of the last step is handled (R566): a syscall, or the entry of the exception. -/
def trapStep (pid : Nat) (s : State) : Host.Outcome State Fault Refusal :=
  if s.hart.pendingEcall then
    match syscall s.holder pid (saveState pid s) with
    | .next s1 => .next (s1.goto (.sliceEnd pid true))
    | .fault f => .fault f
    | .refused r => .refused r
  else .next ((exceptionEntry pid s).goto (.sliceEnd pid true))

/-- The transition of the hart whose turn it is. -/
def hartStep (s : State) : Host.Outcome State Fault Refusal :=
  match s.hart.phase with
  | .boot => bootStep s
  | .loopTop => .next (loopTopStep s)
  | .throttled => .next (s.goto .scheduling)
  | .scheduling => .next (scheduleStep s)
  | .picked pid => .next (acquireStep pid s)
  | .acquired pid => .next (enterStep pid s)
  | .slice pid => sliceStep pid s
  | .trap pid => trapStep pid s
  | .sliceEnd pid handled => .next (endSlice pid handled s)
  | .release pid => .next (releaseStep pid s)
  | .stopped => .next s

/-! ## The maintenance agent (R580) -/

/-- Wake the tasks of a list that wait for UART input (R580). -/
def wakeReaders : List Nat → State → State
  | [], s => s
  | w :: rest, s =>
    match s.task? w with
    | none => wakeReaders rest s
    | some t =>
      if t.waitReason = .uartInput then
        let s1 := { s with waits := { s.waits with io := s.waits.io.filter (fun p => p ≠ w) } }
        wakeReaders rest (addTask .maintenance w (s1.modTask w Task.woken))
      else wakeReaders rest s

/-- The earliest wakeup time of the sleep heap. -/
def earliest (l : List (Nat × Nat)) : Option Nat := (l.map (fun e => e.1)).min?

/-- Pop and wake the sleepers whose time has come, at most n of them, the earliest first; equal times in a drawn order
(R572, R580). -/
def wakeSleepers : Nat → State → State
  | 0, s => s
  | n + 1, s =>
    match earliest s.waits.sleep with
    | none => s
    | some t =>
      if t ≤ s.io.clock then
        match s.choose (s.waits.sleep.filter (fun e => e.1 = t)) with
        | none => s
        | some (e, s1) =>
          let s2 := { s1 with waits := { s1.waits with sleep := s1.waits.sleep.erase e } }
          wakeSleepers n (addTask .maintenance e.2 (s2.modTask e.2 Task.woken))
      else s

/-- `maintain()` (R580), while `running` is true. -/
def maintain (s : State) : State :=
  if !s.kernel.running then s
  else
    let s1 := if rxReady s then wakeReaders s.waits.io s else s
    wakeSleepers s1.waits.sleep.length s1

/-! ## The host -/

/-- `terminateTask(pid)` (R575): the exit code is a draw. -/
def terminateTask (pid : Nat) (s : State) : State :=
  match s.task? pid with
  | none => s
  | some t =>
    if t.state = .terminated then s
    else
      let d := s.drawWord
      let s1 := d.2.modTask pid (fun u => u.exit d.1)
      let s2 := unqueue pid (removeTask .host pid s1)
      if t.activeHartId = none then wakeParentOf .host pid s2 else s2

/-- What the host does (R561, R575; spec/60_exceptions.md R530; spec/63_uart.md R655). -/
def hostStep (a : HostAction) (s : State) : State :=
  match a with
  | .pushByte b => pushByte b s
  | .advanceClock ms => { s with io := { s.io with clock := s.io.clock + ms } }
  | .shutdown => { s with kernel := { s.kernel with running := false } }
  | .setPaused p => { s with kernel := { s.kernel with paused := p } }
  | .setDelay ms => { s with kernel := { s.kernel with delay := ms } }
  | .terminateTask pid => terminateTask pid s

/-! ## Whose turn it is -/

/-- The agent of the next transition: the agenda's head, or Config.agentAt (log 5). -/
def nextAgent (s : State) : Agent :=
  match s.chance.agenda with
  | a :: _ => a
  | [] => Config.agentAt s.chance.turns

/-- The turn is taken. -/
def takeTurn (s : State) : State :=
  match s.chance.agenda with
  | _ :: rest => { s with chance := { s.chance with agenda := rest } }
  | [] => { s with chance := { s.chance with turns := s.chance.turns + 1 } }

/-- Bring hart h forward; none where the machine has no such hart (log 7). -/
def focus (h : Nat) (s : State) : Option State :=
  if s.hart.id = h then some s
  else
    match s.others.find? (fun k => k.id = h) with
    | some k => some { s with hart := k, others := s.others.map (fun j => if j.id = h then s.hart else j) }
    | none => none

/-- One transition of an agent: a hart the machine does not have takes none. -/
def agentStep (a : Agent) (s : State) : Host.Outcome State Fault Refusal :=
  match a with
  | .hart h =>
    match focus h s with
    | some s1 => hartStep s1
    | none => .next s
  | .maintenance => .next (maintain s)
  | .host act => .next (hostStep act s)

/-- One transition of the machine: after a panic none (spec/60_exceptions.md R549; log 29). -/
def machineStep (s : State) : Host.Outcome State Fault Refusal :=
  match s.kernel.panic with
  | some r => .fault (.halted r)
  | none => agentStep (nextAgent s) (takeTurn s)

/-! ## Placing an instruction (log 6) -/

/-- A PTE that lets a page be read, written and fetched. -/
def openPte (f : Nat) : Pte :=
  { valid := true, perms := { r := true, w := true, x := true }, shared := false, accessed := false, dirty := false,
    ppn := f }

/-- The task record that stands for a loaded program's: RUNNING on the hart. -/
def placedTask (s : State) (pid space : Nat) (pc : Word) : Task :=
  { pid := pid, name := initName, parent := none, children := [], tgid := pid, regs := s.hart.x, pc := pc,
    stackBase := stackBaseOf s, stackSize := userStackSize, exitCode := 0#32, state := .running, waitReason := .none,
    waitingForPid := none, wakeupTime := 0, activeHartId := some s.hart.id, priority := s.params.initPriority,
    space := space }

/-- The frames that take the placed word's page and the L2 table over it: the first two free ones. -/
def placedFrames (s : State) : Nat × Nat := (s.freeFrames.getD 0 0, s.freeFrames.getD 1 0)

/-- The memory side of placing a word at a pc: in PAGED mode one page of a new space, in CONTIGUOUS mode the whole of RAM as
the hart's context. -/
def placeWord (pid : Nat) (pc w : Word) (s : State) : State :=
  match s.params.memMode with
  | .paged _ _ =>
    let n := newPagedSpace pid [] s
    let f := placedFrames n.2
    let s1 := n.2.setFrame f.1 { free := false, refcount := 1, owner := .page pid (vpnOf pc), accessed := false }
    let s2 := s1.setFrame f.2 { free := false, refcount := 1, owner := .pageTable, accessed := false }
    let table : L2Table := { frame := f.2, ptes := [(l2Index (vpnOf pc), openPte f.1)] }
    let s3 := s2.modSpace n.1 (fun a => { a with directory := [(l1Index (vpnOf pc), table)] })
    { (s3.storeBytes (f.1 * 4096 + pageOffset pc) (bytesOfWord w)) with hart := { s3.hart with space := some n.1 } }
  | .contiguous _ =>
    { (s.storeBytes pc.toNat (bytesOfWord w)) with
      hart := { s.hart with space := none, base := 0#32, limit := BitVec.ofNat 32 s.params.ramSize } }

/-- The machine with a word as the next instruction of its hart: a RUNNING task holds the hart, its slice has just begun, the
word lies where the hart fetches next, and the hart has the next turn (log 6). -/
def placeInstruction (w : Word) (s : State) : State :=
  let pid := s.kernel.pidCounter
  let pc := s.hart.pc &&& 0xFFFFFFFC#32
  let s1 := placeWord pid pc w s
  let s2 := s1.putTask (placedTask s pid s.kernel.nextSpace pc)
  { s2 with
    kernel := { s2.kernel with pidCounter := pid + 1, panic := none, started := true }
    hart := { s2.hart with pc := pc, curTask := some pid, counter := 0, phase := .slice pid }
    chance := { s2.chance with agenda := .hart s.hart.id :: s.chance.agenda } }

end Sys2Proof.Machine
end

