-- ==== Sys2Proof/Machine/Step.lean ====
section
/-! DEFINITION. The machine's step, and the placing of an instruction for the host. -/

namespace Sys2Proof.Machine

/-- One transition of the machine (spec/00_scope.md R12, R13). -/
def step (s : State) : Host.Outcome State Fault Refusal := machineStep s

/-- s with the instruction whose bits are w as the one its next step fetches and runs (log 6). -/
def State.withFetchWord (s : State) (nbits w : Nat) : State := placeInstruction (BitVec.ofNat 32 (w % 2 ^ nbits)) s

end Sys2Proof.Machine
end

