-- ==== Sys2Proof/Machine/Observe.lean ====
section
/-! DEFINITION. The observation surface (spec/10_state.md R99): a pure function of the state. -/

namespace Sys2Proof.Machine

/-- What a hart shows (R99), and its id (spec/60_exceptions.md R548). -/
structure HartView where
  id : Nat
  pc : Word
  regs : Vector Word 32
  task : Option Nat
  deriving DecidableEq, Repr

/-- What the memory subsystem shows (R99): hole and allocation lists, or each frame's owner and the frame count. -/
inductive MemoryView where
  | contiguous (holes : List Hole) (allocated : List Block)
  | paged (owners : List FrameOwner) (total : Nat)
  deriving DecidableEq, Repr

/-- The observation surface (R99). -/
structure Observation where
  harts : List HartView
  ready : List Nat
  ioWait : List Nat
  sleepWait : List (Nat × Nat)
  tasks : List Task
  memory : MemoryView
  deriving DecidableEq, Repr

/-- What a hart shows. -/
def observeHart (h : Hart) : HartView := { id := h.id, pc := h.pc, regs := h.x, task := h.curTask }

/-- The observation of a state (R99), hart 0 first (spec/60_exceptions.md R548). -/
def observe (s : State) : Observation where
  harts := ((List.range s.params.nHarts).filterMap (fun h => (s.hart :: s.others).find? (fun k => k.id = h))).map observeHart
  ready := readySnapshot s
  ioWait := s.waits.io
  sleepWait := s.waits.sleep
  tasks := s.kernel.tasks.map (fun e => e.2)
  memory :=
    match s.params.memMode with
    | .contiguous _ => .contiguous s.contig.holes s.contig.allocated
    | .paged _ _ => .paged (s.paging.frames.map (fun f => f.owner)) s.paging.frames.length

end Sys2Proof.Machine
end

