-- ==== Sys2Proof/Safety.lean ====
section
/-! DEFINITION. What the statements say of states: the invariants a run keeps, and what an instruction leaves unchanged. -/

namespace Sys2Proof.Machine

/-- A state from which the machine can go on: no panic has halted it (spec/60_exceptions.md R549). -/
def State.live (s : State) : Prop := s.kernel.panic = none

/-- Every hart of the machine. -/
def State.harts (s : State) : List Hart := s.hart :: s.others

/-- x0 holds 0 in every hart and in every saved register file (spec/10_state.md R51, R64). -/
def State.zeroRegs (s : State) : Prop :=
  (∀ h ∈ s.harts, h.x[0] = 0#32) ∧ ∀ e ∈ s.kernel.tasks, e.2.regs[0] = 0#32

/-- Every PID in the task table has been given out (spec/10_state.md R64, R67). -/
def State.pidsGiven (s : State) : Prop := ∀ e ∈ s.kernel.tasks, e.1 < s.kernel.pidCounter

/-- The PID a hart's place in its loop says it holds (spec/61_dispatcher.md R560). -/
def Phase.held : Phase → Option Nat
  | .acquired p => some p
  | .slice p => some p
  | .trap p => some p
  | .sliceEnd p _ => some p
  | .release p => some p
  | .boot => none
  | .loopTop => none
  | .throttled => none
  | .scheduling => none
  | .picked _ => none
  | .stopped => none

/-- A hart's curTask is the task its place in the loop holds, and that task's record names the hart
(spec/10_state.md R61, spec/61_dispatcher.md R563). -/
def State.holds (s : State) : Prop :=
  (s.harts.map (fun h => h.id)).Nodup ∧
  (∀ h ∈ s.harts, h.curTask = h.phase.held) ∧
  ∀ h ∈ s.harts, ∀ p, h.curTask = some p → ∃ t, s.task? p = some t ∧ t.activeHartId = some h.id

/-- The kernel's lists agree: the ready collection holds a PID at most once, and just the PIDs of the membership set, all of
them given out; a task's record lies at its own PID, its parent's PID is lower and its children's are higher
(spec/10_state.md R64, R67, R68, spec/61_dispatcher.md R551). -/
def State.tidy (s : State) : Prop :=
  s.pidsGiven ∧ s.sched.ready.Nodup ∧ (∀ p, p ∈ s.sched.ready ↔ p ∈ s.sched.members) ∧
  (∀ p ∈ s.sched.members, p < s.kernel.pidCounter) ∧
  ∀ e ∈ s.kernel.tasks, e.2.pid = e.1 ∧ (∀ p, e.2.parent = some p → p < e.1) ∧ ∀ c ∈ e.2.children, e.1 < c

/-- What a hart's place in its loop says of the task there: a scheduled task is out of the ready collection, READY or since
ended by the host, and held by no hart; one in a slice is RUNNING or has ended; one that is released is not RUNNING
(spec/61_dispatcher.md R551, R560, R566, R570). -/
def Phase.sound (s : State) : Phase → Prop
  | .picked p => p < s.kernel.pidCounter ∧ p ∉ s.sched.ready ∧
      ∀ k, s.task? p = some k → k.activeHartId = none ∧ (k.state = .ready ∨ k.state = .terminated)
  | .acquired p => p < s.kernel.pidCounter ∧ ∀ k, s.task? p = some k → k.state = .ready ∨ k.state = .terminated
  | .slice p => p < s.kernel.pidCounter ∧ ∀ k, s.task? p = some k → k.state = .running ∨ k.state = .terminated
  | .trap p => p < s.kernel.pidCounter ∧ ∀ k, s.task? p = some k → k.state = .running ∨ k.state = .terminated
  | .sliceEnd p _ => p < s.kernel.pidCounter
  | .release p => p < s.kernel.pidCounter ∧ ∀ k, s.task? p = some k → k.state ≠ .running
  | .boot => True
  | .loopTop => True
  | .throttled => True
  | .scheduling => True
  | .stopped => True

/-- A task waits: its record is WAITING for a reason, and no hart holds it (spec/61_dispatcher.md R570). -/
def State.waitsIn (s : State) (p : Nat) (why : WaitReason → Prop) : Prop :=
  ∃ k, s.task? p = some k ∧ k.state = .waiting ∧ k.activeHartId = none ∧ why k.waitReason

/-- The scheduler is in order: the lock is free and nothing has panicked; each task in the ready collection is READY and held by
no hart; each task in a wait queue is WAITING for that queue's reason and held by no hart, in the sleep queue once; each
hart's place in its loop says what is so; and no two harts have scheduled the same task
(spec/61_dispatcher.md R551, R556, R563, R570, R620). -/
def State.orderly (s : State) : Prop :=
  s.sched.lock = none ∧ s.kernel.panic = none ∧
  (∀ p ∈ s.sched.ready, ∃ k, s.task? p = some k ∧ k.state = .ready ∧ k.activeHartId = none) ∧
  (∀ p ∈ s.waits.io, s.waitsIn p (fun r => r = .uartInput ∨ r = .processExit)) ∧
  (∀ e ∈ s.waits.sleep, s.waitsIn e.2 (fun r => r = .timer)) ∧ (s.waits.sleep.map (fun e => e.2)).Nodup ∧
  (∀ e ∈ s.waits.childTerm, s.waitsIn e.2 (fun r => r = .processExit)) ∧
  (∀ h ∈ s.harts, h.phase.sound s) ∧
  ∀ g ∈ s.harts, ∀ h ∈ s.harts, ∀ p, g.phase = .picked p → h.phase = .picked p → g.id = h.id

/-- t differs from s in nothing but the general registers and the pc of the hart whose step it is. -/
def SameButRegs (s t : State) : Prop := t = { s with hart := { s.hart with x := t.hart.x, pc := t.hart.pc } }

/-- Register rd takes v, unless it is x0; every other register, and everything else but the pc, is as it was; the pc goes to
target (spec/10_state.md R51, R54). -/
def Writes (s t : State) (rd : RegIdx) (v target : Word) : Prop :=
  (∀ r, t.reg r = if r = rd ∧ r ≠ 0#5 then v else s.reg r) ∧ t.pc = target ∧ t.hart.x[0] = s.hart.x[0] ∧ SameButRegs s t

/-- No register is written, and nothing else but the pc, which goes to target. -/
def Goes (s t : State) (target : Word) : Prop := t = { s with hart := { s.hart with pc := target } }

/-- The parts of the state that no load, store, fetch or syscall access touches. -/
def SameKernel (s t : State) : Prop :=
  t.params = s.params ∧ t.others = s.others ∧ t.kernel = s.kernel ∧ t.sched = s.sched ∧ t.waits = s.waits ∧
    t.contig = s.contig

/-- A page is resident in an address space with its PTE (spec/20_memory.md R133). -/
def Resident (s : State) (h : Nat) (va : Word) (p : Pte) : Prop :=
  ∃ a, s.space? h = some a ∧ a.pte? (vpnOf va) = some p ∧ p.valid = true

/-- The machine is paged and the hart's context is the space h (spec/10_state.md R61). -/
def InSpace (s : State) (h : Nat) : Prop := (∃ f p, s.params.memMode = .paged f p) ∧ s.hart.space = some h

/-- The machine is contiguous, and the n bytes at va lie below the hart's limit and below the end of RAM
(spec/20_memory.md R122). -/
def InBlock (s : State) (va : Word) (n : Nat) : Prop :=
  (∃ f, s.params.memMode = .contiguous f) ∧ va.toNat + n ≤ s.hart.limit.toNat ∧
    s.hart.base.toNat + va.toNat + n ≤ s.params.ramSize

/-- The n bytes at va are aligned and none of them is in the UART range (spec/20_memory.md R103, R104). -/
def PlainAccess (s : State) (va : Word) (n : Nat) : Prop :=
  va.toNat % n = 0 ∧ ∀ k, k < n → ¬(s.params.uartBase ≤ va.toNat + k ∧ va.toNat + k < s.params.uartBase + s.params.uartSize)

/-- The n bytes of memory from a physical address up, little-endian (spec/20_memory.md R101). -/
def ramValue (s : State) (pa n : Nat) : Word := littleEndian (s.ram.readBytes pa n)

/-- The physical address a resident page gives a virtual address (spec/20_memory.md R130). -/
def Pte.physical (p : Pte) (va : Word) : Nat := p.ppn * 4096 + va.toNat % 4096

/-- No valid PTE maps the page of an address in a space (spec/20_memory.md R133). -/
def NotResident (a : AddrSpace) (va : Word) : Prop := ∀ p, a.pte? (vpnOf va) = some p → p.valid = false

/-- A byte of RAM that became 0 because an access gave out its frame: pages are given out on demand, the access's page had no
valid PTE before, and after it that page's PTE maps the byte's frame (spec/20_memory.md R133, R140). -/
def GivenOut (s t : State) (va : Word) (a : Nat) : Prop :=
  demandPaged s = true ∧ t.ram.read a = 0#8 ∧
    ∃ h b p, hartCtx s = .space (some h) ∧ s.space? h = some b ∧ NotResident b va ∧ Resident t h va p ∧ p.ppn = a / 4096

/-- The allocator's records are as they were, but for the accessed bits of the replacement policy. -/
def SameFrames (s t : State) : Prop :=
  t.paging.frames.length = s.paging.frames.length ∧
    ∀ f, (t.frame f).free = (s.frame f).free ∧ (t.frame f).refcount = (s.frame f).refcount ∧
      (t.frame f).owner = (s.frame f).owner

/-- The frame of the L2 table under an L1 entry of a space (spec/20_memory.md R132). -/
def State.tableAt (s : State) (h l1 : Nat) : Option Nat :=
  ((s.space? h).bind (fun a => assocGet a.directory l1)).map (fun t => t.frame)

/-- One access of the page of va in the space h: the page's PTE is accessed, and dirty if it was or the access writes, and its
counter is one up; every other PTE and counter of the space, its regions and its tables, and every other space are as they were
(spec/20_memory.md R136). -/
def Touched (s t : State) (h : Nat) (va : Word) (write : Bool) : Prop :=
  (∀ g, g ≠ h → t.space? g = s.space? g) ∧
  ∃ a b, s.space? h = some a ∧ t.space? h = some b ∧ b.pid = a.pid ∧ b.regions = a.regions ∧
    (∀ l, t.tableAt h l = s.tableAt h l) ∧
    (∀ v, b.pte? v =
      if v = vpnOf va then (a.pte? v).map (fun p => { p with accessed := true, dirty := p.dirty || write }) else a.pte? v) ∧
    (∀ v, v ≠ vpnOf va → assocGet b.counters v = assocGet a.counters v) ∧
    ∀ c, assocGet a.counters (vpnOf va) = some c →
      assocGet b.counters (vpnOf va) = some { count := c.count + 1, dirty := c.dirty || write }

/-- A load that completed: rd takes v, unless it is x0; the pc advances; of the rest only the paging structures may have
changed, and of these not the allocator's records; what of the page tables has changed `Touched` says
(spec/42_loadstore.md R360, spec/20_memory.md R136). -/
def Loaded (s t : State) (rd : RegIdx) (v : Word) : Prop :=
  (∀ r, t.reg r = if r = rd ∧ r ≠ 0#5 then v else s.reg r) ∧ t.pc = s.pc + 4#32 ∧ t.hart.x[0] = s.hart.x[0] ∧
    t = { s with hart := { s.hart with x := t.hart.x, pc := t.hart.pc }, paging := t.paging } ∧ SameFrames s t

/-- A store that completed: the n bytes from pa up are the low bytes of v, every other byte reads as before; the pc advances;
of the rest only the paging structures may have changed, and of these not the allocator's records; what of the page tables has
changed `Touched` says (spec/42_loadstore.md R360, spec/20_memory.md R136). -/
def Stored (s t : State) (pa n : Nat) (v : Word) : Prop :=
  (∀ a, t.ram.read a = if pa ≤ a ∧ a < pa + n then v.extractLsb' (8 * (a - pa)) 8 else s.ram.read a) ∧
    t = { s with hart := { s.hart with pc := s.pc + 4#32 }, paging := t.paging, ram := t.ram } ∧ SameFrames s t

/-- A load completes on a resident readable page, with n bytes of it extended (spec/42_loadstore.md R360). -/
def LoadsPaged (mk : RegIdx → RegIdx → BitVec 12 → Instr) (n : Nat) (extend : Word → Word) : Prop :=
  ∀ (s : State) (h : Nat) (rd rs1 : RegIdx) (imm : BitVec 12) (p : Pte),
    InSpace s h → Resident s h (s.reg rs1 + imm.signExtend 32) p → p.perms.r = true →
    PlainAccess s (s.reg rs1 + imm.signExtend 32) n →
    ∃ t, exec (mk rd rs1 imm) s = .next t ∧
      Loaded s t rd (extend (ramValue s (p.physical (s.reg rs1 + imm.signExtend 32)) n)) ∧
      Touched s t h (s.reg rs1 + imm.signExtend 32) false

/-- A load completes inside the hart's block (spec/42_loadstore.md R360, spec/20_memory.md R122). -/
def LoadsContig (mk : RegIdx → RegIdx → BitVec 12 → Instr) (n : Nat) (extend : Word → Word) : Prop :=
  ∀ (s : State) (rd rs1 : RegIdx) (imm : BitVec 12),
    InBlock s (s.reg rs1 + imm.signExtend 32) n → PlainAccess s (s.reg rs1 + imm.signExtend 32) n →
    ∃ t, exec (mk rd rs1 imm) s = .next t ∧
      Writes s t rd (extend (ramValue s (s.hart.base.toNat + (s.reg rs1 + imm.signExtend 32).toNat) n)) (s.pc + 4#32)

/-- A store completes on a resident writable page (spec/42_loadstore.md R360). -/
def StoresPaged (mk : RegIdx → RegIdx → BitVec 12 → Instr) (n : Nat) : Prop :=
  ∀ (s : State) (h : Nat) (rs2 rs1 : RegIdx) (imm : BitVec 12) (p : Pte),
    InSpace s h → Resident s h (s.reg rs1 + imm.signExtend 32) p → p.perms.w = true →
    PlainAccess s (s.reg rs1 + imm.signExtend 32) n →
    ∃ t, exec (mk rs2 rs1 imm) s = .next t ∧
      Stored s t (p.physical (s.reg rs1 + imm.signExtend 32)) n (s.reg rs2) ∧
      Touched s t h (s.reg rs1 + imm.signExtend 32) true

/-- A store completes inside the hart's block (spec/42_loadstore.md R360, spec/20_memory.md R122). -/
def StoresContig (mk : RegIdx → RegIdx → BitVec 12 → Instr) (n : Nat) : Prop :=
  ∀ (s : State) (rs2 rs1 : RegIdx) (imm : BitVec 12),
    InBlock s (s.reg rs1 + imm.signExtend 32) n → PlainAccess s (s.reg rs1 + imm.signExtend 32) n →
    ∃ t, exec (mk rs2 rs1 imm) s = .next t ∧
      Stored s t (s.hart.base.toNat + (s.reg rs1 + imm.signExtend 32).toNat) n (s.reg rs2) ∧ t.paging = s.paging

/-- The loads with their widths (spec/42_loadstore.md R361 to R365). -/
def loadForms : List ((RegIdx → RegIdx → BitVec 12 → Instr) × Nat) :=
  [(Instr.lb, 1), (Instr.lh, 2), (Instr.lw, 4), (Instr.lbu, 1), (Instr.lhu, 2)]

/-- The stores with their widths (spec/42_loadstore.md R366 to R368). -/
def storeForms : List ((RegIdx → RegIdx → BitVec 12 → Instr) × Nat) :=
  [(Instr.sb, 1), (Instr.sh, 2), (Instr.sw, 4)]

/-- A word that is no instruction: the decoder answers so, and a step that fetches it raises ILLEGAL_INSN with the word as
the exception value (spec/30_encoding.md R220, spec/60_exceptions.md R502). -/
def IllegalWord (w : Word) : Prop :=
  decode w = .illegalInsn w ∧
    ∀ s s1 : State, fetch (hartCtx s.clearFlags) s.pc s.clearFlags = .ok w s1 →
      instructionStep s = .next (s1.raise .illegalInsn w)

/-- The record of a task becomes k; every other record, and everything else but the draws taken, is as it was. -/
def TaskBecomes (s t : State) (pid : Nat) (k : Task) : Prop :=
  t.task? pid = some k ∧ (∀ q, q ≠ pid → t.task? q = s.task? q) ∧
    t = { s with kernel := { s.kernel with tasks := t.kernel.tasks },
                 chance := { s.chance with script := t.chance.script, drawn := t.chance.drawn } }

/-- The bytes of a text read one by one from an address up, none of them NUL (spec/62_syscalls.md R613). -/
def ReadsText (c : Ctx) : Word → List Byte → State → State → Prop
  | _, [], s, u => u = s
  | va, b :: bs, s, u =>
    ∃ v s1, memRead c va 1 s = .ok v s1 ∧ v.setWidth 8 = b ∧ b ≠ 0#8 ∧ ReadsText c (va + 1#32) bs s1 u

/-- A text with its NUL, read from an address up: the NUL is among the first 4096 bytes (spec/62_syscalls.md R613). -/
def TextAt (c : Ctx) (va : Word) (bs : List Byte) (s u : State) : Prop :=
  bs.length < 4096 ∧ ∃ s1 v, ReadsText c va bs s s1 ∧ memRead c (va + BitVec.ofNat 32 bs.length) 1 s1 = .ok v u ∧
    v.setWidth 8 = 0#8

/-- The bytes of a text read one by one from an address up, none of them NUL, each emitted to stdout before the next is read
(spec/62_syscalls.md R607). -/
def EmitsText : Word → List Byte → State → State → Prop
  | _, [], s, u => u = s
  | va, b :: bs, s, u =>
    ∃ v s1, memRead (hartCtx s) va 1 s = .ok v s1 ∧ v.setWidth 8 = b ∧ b ≠ 0#8 ∧
      EmitsText (va + 1#32) bs { s1 with io := { s1.io with stdout := s1.io.stdout ++ [b] } } u

/-- The memory of a handle is destroyed: no space and no block has the handle, every other space and block is as it was, and RAM
with them (spec/20_memory.md R124, R160). -/
def SpaceGone (s t : State) (h : Nat) : Prop :=
  t.ram = s.ram ∧
  (∀ f p, s.params.memMode = .paged f p → t.space? h = none ∧ (∀ g, g ≠ h → t.space? g = s.space? g) ∧ t.contig = s.contig) ∧
  (∀ st, s.params.memMode = .contiguous st →
    t.block? h = none ∧ (∀ g, g ≠ h → t.block? g = s.block? g) ∧ t.paging = s.paging ∧
      ∀ b, s.block? h = some b → t.contig.holes = insertHole { start := b.start, size := b.size } s.contig.holes)

/-- A zombie is reaped: its record is gone, it is no child any more, the caller's a0 is its PID, and its memory is destroyed
(spec/62_syscalls.md R614). -/
def Reaped (s t : State) (pid : Nat) (k : Task) (c : Nat) (z : Task) : Prop :=
  t.task? c = none ∧
  t.task? pid = some { k with
    children := k.children.filter (fun d => d ≠ c), regs := k.regs.set 10 (BitVec.ofNat 32 c) } ∧
  (∀ q, q ≠ pid → q ≠ c → t.task? q = s.task? q) ∧ SpaceGone s t z.space ∧
  t = { s with kernel := { s.kernel with tasks := t.kernel.tasks }, paging := t.paging, contig := t.contig }

/-- A hart without the part of its context that compaction may change: base and limit on a CONTIGUOUS machine (log 13). -/
def Hart.plain (p : Params) (h : Hart) : Hart :=
  match p.memMode with
  | .contiguous _ => { h with base := 0#32, limit := 0#32 }
  | .paged _ _ => h

/-- Each hart of a CONTIGUOUS machine that works in a block has that block's place in its base and limit, and no handle a
hart or a task has is one that is yet to be given out (spec/20_memory.md R121, R171; log 13). -/
def State.contexts (s : State) : Prop :=
  (∀ e ∈ s.kernel.tasks, e.2.space < s.kernel.nextSpace) ∧
  (∀ g ∈ s.harts, ∀ k, g.space = some k → k < s.kernel.nextSpace) ∧
  ∀ st, s.params.memMode = .contiguous st → ∀ g ∈ s.harts, ∀ k b, g.space = some k → s.block? k = some b →
    g.base = BitVec.ofNat 32 b.start ∧ g.limit = BitVec.ofNat 32 b.size

/-- The address spaces, their directories and their L2 tables list each key once, in order; an L2 index is below 1024; and no
space has a handle that is yet to be given out (spec/20_memory.md R130). -/
def State.tablesKeyed (s : State) : Prop :=
  assocSorted s.paging.spaces = true ∧
  ∀ e ∈ s.paging.spaces, e.1 < s.kernel.nextSpace ∧ assocSorted e.2.directory = true ∧
    ∀ d ∈ e.2.directory, assocSorted d.2.ptes = true ∧ ∀ q ∈ d.2.ptes, q.1 < 1024

/-- The frame allocator's records agree with the page tables: an L2 table has a frame of its own, with refcount 1 and no
mapping; a valid PTE maps a frame of the machine, a shared one a SHARED frame, another the frame its page owns; a frame is
free with refcount 0 and no owner, or a page's with one mapping, or a table's, or SHARED with a refcount that is the number of
valid PTEs that map it (spec/10_state.md R73, spec/20_memory.md R151, R152, R161, R162). -/
def State.framesTidy (s : State) : Prop :=
  s.tablesKeyed ∧
  (∀ h l1 f, s.tableAt h l1 = some f →
    f < s.paging.frames.length ∧ (s.frame f).free = false ∧ (s.frame f).refcount = 1 ∧ (s.frame f).owner = .pageTable ∧
      ∀ h' l1', s.tableAt h' l1' = some f → h' = h ∧ l1' = l1) ∧
  (∀ h a vpn p, s.space? h = some a → s.mapping? h vpn = some p →
    p.ppn < s.paging.frames.length ∧
      if p.shared then ∃ key, (s.frame p.ppn).owner = .shared key else (s.frame p.ppn).owner = .page a.pid vpn) ∧
  ∀ f, f < s.paging.frames.length →
    match (s.frame f).owner with
    | .none => (s.frame f).free = true ∧ (s.frame f).refcount = 0
    | .page _ _ => (s.frame f).free = false ∧ (s.frame f).refcount = 1 ∧ (mappersOf s f).length = 1
    | .pageTable => (s.frame f).free = false ∧ ∃ h l1, s.tableAt h l1 = some f
    | .shared _ => (s.frame f).free = false ∧ (s.frame f).refcount = (mappersOf s f).length

/-- Blocks of the allocated list follow one another without overlap, in start order (spec/10_state.md R70). -/
def BlocksOrdered (l : List Block) : Prop := l.Pairwise (fun b c => b.start + b.size ≤ c.start)

/-- The invariants of a CONTIGUOUS machine's lists: blocks and holes are ordered by start, no two of them overlap, holes that
touch are merged, each is inside RAM and none is empty, holes and blocks together are all of RAM; and every block has a handle
of its own (spec/10_state.md R70; the blocks' size is not 0). -/
def State.blocksTidy (s : State) : Prop :=
  0 < s.params.contigTaskSize ∧ BlocksOrdered s.contig.allocated ∧
  s.contig.holes.Pairwise (fun g h => g.start + g.size < h.start) ∧
  (∀ h ∈ s.contig.holes, 0 < h.size ∧ h.start + h.size ≤ s.params.ramSize) ∧
  (∀ b ∈ s.contig.allocated, 0 < b.size ∧ b.start + b.size ≤ s.params.ramSize) ∧
  (∀ h ∈ s.contig.holes, ∀ b ∈ s.contig.allocated, h.start + h.size ≤ b.start ∨ b.start + b.size ≤ h.start) ∧
  (s.contig.holes.map (fun h => h.size)).sum + (s.contig.allocated.map (fun b => b.size)).sum = s.params.ramSize ∧
  (s.contig.allocated.map (fun b => b.space)).Nodup ∧ ∀ b ∈ s.contig.allocated, b.space < s.kernel.nextSpace

end Sys2Proof.Machine
end

