-- ==== Sys2Proof/Certificates/Slice0/Obligations.lean ====
section
/-! DEFINITION. The statements for the provers. Every one holds of every state, script of draws and agenda of turns, and for
every value of the parameters and of the free values. -/

section

open Sys2Proof Sys2Proof.Machine

/-! ## Encoding -/

/-- One word of each major opcode, written out bit by bit from its format (spec/30_encoding.md R201, R210, R211), decodes to
the instruction it stands for. -/
def Obligations.GivenWordsDecode : Prop :=
  decode 0b00010010001101000101_00101_0110111#32 = .instr (.lui 5#5 0x12345#20) ∧
  decode 0b00000000000000000001_01010_0010111#32 = .instr (.auipc 10#5 1#20) ∧
  decode 0b0_0000000100_0_00000000_00001_1101111#32 = .instr (.jal 1#5 8#21) ∧
  decode 0b000000000100_00101_000_00001_1100111#32 = .instr (.jalr 1#5 5#5 4#12) ∧
  decode 0b1_111111_00110_00101_001_1100_1_1100011#32 = .instr (.bne 5#5 6#5 (-8#13)) ∧
  decode 0b000000000010_00110_001_00101_0000011#32 = .instr (.lh 5#5 6#5 2#12) ∧
  decode 0b1111111_00111_00110_010_11100_0100011#32 = .instr (.sw 7#5 6#5 (-4#12)) ∧
  decode 0b000001011101_00000_000_10001_0010011#32 = .instr (.addi 17#5 0#5 93#12) ∧
  decode 0b0100000_00100_00110_101_00101_0010011#32 = .instr (.srai 5#5 6#5 4#5) ∧
  decode 0b0100000_00111_00110_000_00101_0110011#32 = .instr (.sub 5#5 6#5 7#5) ∧
  decode 0b0000001_00111_00110_010_00101_0110011#32 = .instr (.mulhsu 5#5 6#5 7#5) ∧
  decode 0b0000_1111_1111_00000_000_00000_0001111#32 = .instr (.fence 0#5 0#5 0#4 15#4 15#4) ∧
  decode 0b000000000000_00000_000_00000_1110011#32 = .instr .ecall ∧
  decode 0b110000000000_00000_010_00101_1110011#32 = .instr (.csrrs 5#5 0#5 0xC00#12)

/-- Decoding and encoding agree: an encoded well-formed instruction decodes to itself, for every instruction and every operand
the encoding admits; and every word that is an instruction is the encoding of that instruction, which is well-formed, so that
no bit of the word is lost and no two words are one instruction (spec/30_encoding.md R201 to R211, R220). -/
def Obligations.RoundTrip : Prop :=
  (∀ i : Instr, i.wf = true → decode (encode i) = .instr i) ∧
  (∀ (w : Word) (i : Instr), decode w = .instr i → i.wf = true ∧ encode i = w)

/-- Decoding is exact over the rows of spec/opcode_table.json, which do not overlap (spec/30_encoding.md R220). -/
def Obligations.DecodeExact : Prop :=
  (∀ (w : Word) (i : Instr), decode w = .instr i →
    ∃ r ∈ opcodeRows, r.mnemonic = i.mnemonic ∧ w &&& r.mask = r.pattern) ∧
  (∀ (w : Word), ∀ r ∈ opcodeRows, w &&& r.mask = r.pattern → ∃ i, decode w = .instr i ∧ i.mnemonic = r.mnemonic) ∧
  (∀ w : Word, (∀ r ∈ opcodeRows, w &&& r.mask ≠ r.pattern) → IllegalWord w) ∧
  (∀ r ∈ opcodeRows, ∀ q ∈ opcodeRows, r ≠ q → ∀ w : Word, ¬(w &&& r.mask = r.pattern ∧ w &&& q.mask = q.pattern)) ∧
  IllegalWord 0x00000000#32 ∧ IllegalWord 0xFFFFFFFF#32

/-- The reserved minor encodings; the encodings of other extensions, of the privileged architecture and of the custom spaces;
and every 16-bit word (spec/30_encoding.md R221, R222, R224, spec/44_system.md R411). -/
def Obligations.IllegalEncodings : Prop :=
  (∀ w : Word,
    (opcodeField w = 0b0000011#7 → funct3Field w ∈ [0b011#3, 0b110#3, 0b111#3] → IllegalWord w) ∧
    (opcodeField w = 0b0100011#7 → funct3Field w ∈ [0b011#3, 0b100#3, 0b101#3, 0b110#3, 0b111#3] → IllegalWord w) ∧
    (opcodeField w = 0b1100011#7 → funct3Field w ∈ [0b010#3, 0b011#3] → IllegalWord w) ∧
    (opcodeField w = 0b1100111#7 → funct3Field w ≠ 0b000#3 → IllegalWord w) ∧
    (opcodeField w = 0b0010011#7 → funct3Field w = 0b001#3 → funct7Field w ≠ 0b0000000#7 → IllegalWord w) ∧
    (opcodeField w = 0b0010011#7 → funct3Field w = 0b101#3 → funct7Field w ∉ [0b0000000#7, 0b0100000#7] → IllegalWord w) ∧
    (opcodeField w = 0b0110011#7 → funct7Field w ∉ [0b0000000#7, 0b0100000#7, 0b0000001#7] → IllegalWord w) ∧
    (opcodeField w = 0b0110011#7 → funct7Field w = 0b0100000#7 → funct3Field w ∉ [0b000#3, 0b101#3] → IllegalWord w) ∧
    (opcodeField w = 0b1110011#7 → funct3Field w = 0b000#3 → w ≠ 0x00000073#32 → w ≠ 0x00100073#32 → IllegalWord w)) ∧
  (∀ w : Word,
    (opcodeField w = 0b0001111#7 → funct3Field w = 0b001#3 → IllegalWord w) ∧
    (opcodeField w = 0b1110011#7 → funct3Field w = 0b100#3 → IllegalWord w) ∧
    (opcodeField w = 0b0101111#7 → IllegalWord w) ∧
    (opcodeField w ∈ [0b0000111#7, 0b0100111#7, 0b1000011#7, 0b1000111#7, 0b1001011#7, 0b1001111#7, 0b1010011#7] →
      IllegalWord w) ∧
    (w.extractLsb' 0 2 ≠ 0b11#2 → IllegalWord w) ∧
    (opcodeField w ∈ [0b0001011#7, 0b0101011#7, 0b1011011#7, 0b1111011#7] → IllegalWord w)) ∧
  IllegalWord 0x00200073#32 ∧ IllegalWord 0x10200073#32 ∧ IllegalWord 0x30200073#32 ∧ IllegalWord 0x10500073#32

/-- The hints execute as the instruction they spell and have no effect but the pc's advance (spec/30_encoding.md R223). -/
def Obligations.HintsRun : Prop :=
  ∀ (s : State) (rs1 rs2 rd : RegIdx) (imm : BitVec 12) (imm20 : BitVec 20) (sh : BitVec 5) (fm pred succ : BitVec 4),
    ∀ i ∈ [Instr.lui 0#5 imm20, .auipc 0#5 imm20, .addi 0#5 rs1 imm, .slti 0#5 rs1 imm, .sltiu 0#5 rs1 imm,
        .xori 0#5 rs1 imm, .ori 0#5 rs1 imm, .andi 0#5 rs1 imm, .slli 0#5 rs1 sh, .srli 0#5 rs1 sh, .srai 0#5 rs1 sh,
        .add 0#5 rs1 rs2, .sub 0#5 rs1 rs2, .sll 0#5 rs1 rs2, .slt 0#5 rs1 rs2, .sltu 0#5 rs1 rs2, .xor 0#5 rs1 rs2,
        .srl 0#5 rs1 rs2, .sra 0#5 rs1 rs2, .or 0#5 rs1 rs2, .and 0#5 rs1 rs2, .mul 0#5 rs1 rs2, .mulh 0#5 rs1 rs2,
        .mulhsu 0#5 rs1 rs2, .mulhu 0#5 rs1 rs2, .div 0#5 rs1 rs2, .divu 0#5 rs1 rs2, .rem 0#5 rs1 rs2,
        .remu 0#5 rs1 rs2, .fence rd rs1 fm pred succ],
      ∃ t, exec i s = .next t ∧ Goes s t (s.pc + 4#32)

/-! ## A step and its exceptions -/

/-- When it is the turn of a hart in a slice, its task is RUNNING and within its time slice, and the word the hart fetches
decodes to an instruction, the machine's step is that instruction at that state; then the step is counted
(spec/60_exceptions.md R501, spec/61_dispatcher.md R566). The turn is taken and the flags are cleared before the fetch. -/
def Obligations.StepRunsDecoded : Prop :=
  ∀ (s u : State) (pid : Nat) (w : Word) (i : Instr),
    s.kernel.panic = none → nextAgent s = .hart s.hart.id → s.hart.phase = .slice pid →
    underSlice s s.hart.counter = true → s.taskIs pid .running = true →
    fetch (hartCtx (takeTurn s).clearFlags) s.pc (takeTurn s).clearFlags = .ok w u → decode w = .instr i →
    step s =
      match exec i u with
      | .next t => .next (countStep pid t)
      | .fault f => .fault f
      | .refused r => .refused r

/-- A step starts by clearing the flags, so no earlier flag plays a part in it, and at its end at most one flag is set, the
exception code being NONE exactly where no exception is pending (spec/10_state.md R59). -/
def Obligations.StepFlags : Prop :=
  ∀ s : State,
    s.clearFlags = { s with hart := { s.hart with pendingEcall := false, pendingException := false, excCode := .none } } ∧
    instructionStep s = instructionStep s.clearFlags ∧
    ∀ t, instructionStep s = .next t →
      ¬(t.hart.pendingEcall = true ∧ t.hart.pendingException = true) ∧
      (t.hart.pendingException = false ↔ t.hart.excCode = .none)

/-- The fetch reads the four bytes at the pc, little-endian: on a resident executable page, and inside the hart's block. Of the
paging structures only the page's accessed bit, its counter and the policy's record change (spec/20_memory.md R101, R110,
R136). -/
def Obligations.FetchReads : Prop :=
  (∀ (s : State) (h : Nat) (p : Pte),
    InSpace s h → Resident s h s.pc p → p.perms.x = true → PlainAccess s s.pc 4 →
    ∃ u, fetch (hartCtx s) s.pc s = .ok (ramValue s (p.physical s.pc) 4) u ∧ u = { s with paging := u.paging } ∧
      SameFrames s u ∧ Touched s u h s.pc false) ∧
  (∀ s : State, InBlock s s.pc 4 → PlainAccess s s.pc 4 →
    fetch (hartCtx s) s.pc s = .ok (ramValue s (s.hart.base.toNat + s.pc.toNat) 4) s)

/-- A step that raises leaves the registers and the pc, emits and consumes no UART byte, and stores no byte: a byte of RAM
can only become 0, and only in a frame that the fetch, or then the access that raised, has given out to its page on demand
(spec/60_exceptions.md R503). -/
def Obligations.RaisePrecise : Prop :=
  ∀ s t : State, instructionStep s = .next t → t.hart.pendingException = true →
    t.hart.x = s.hart.x ∧ t.pc = s.pc ∧ t.hart.pendingEcall = false ∧ t.io = s.io ∧ SameKernel s t ∧
    (demandPaged s = false → t.ram = s.ram) ∧
    ∃ u, ((∃ w, fetch (hartCtx s.clearFlags) s.pc s.clearFlags = .ok w u) ∨
        ∃ f, fetch (hartCtx s.clearFlags) s.pc s.clearFlags = .fail f u) ∧
      (∀ a, u.ram.read a = s.ram.read a ∨ GivenOut s u s.pc a) ∧
      ∀ a, t.ram.read a = u.ram.read a ∨ GivenOut u t t.hart.excValue a

/-- The entry an exception makes: the hart's registers and the faulting pc are saved in the task, which is terminated with
FAULT_EXIT_CODE and leaves the scheduler; the kernel logs, and the hart goes on to the slice's end
(spec/60_exceptions.md R510, spec/61_dispatcher.md R566). -/
def Obligations.ExceptionEntry : Prop :=
  ∀ (s : State) (pid : Nat) (k : Task),
    s.hart.phase = .trap pid → s.hart.pendingEcall = false → s.task? pid = some k → s.sched.lock = none →
    ∃ t, hartStep s = .next t ∧
      t.task? pid = some { k with
        regs := s.hart.x.set 0 0#32, pc := s.hart.pc, exitCode := s.params.faultExitCode, state := .terminated } ∧
      (∀ q, q ≠ pid → t.task? q = s.task? q) ∧
      (∀ q, q ∈ t.sched.ready ↔ q ∈ s.sched.ready ∧ q ≠ pid) ∧ (∀ q, q ∈ t.sched.members ↔ q ∈ s.sched.members ∧ q ≠ pid) ∧
      t.sched.lock = none ∧ t.hart = { s.hart with phase := .sliceEnd pid true } ∧ t.others = s.others ∧
      t.ram = s.ram ∧ t.paging = s.paging ∧ t.contig = s.contig ∧ t.waits = s.waits ∧ t.params = s.params ∧
      t.kernel = { s.kernel with tasks := t.kernel.tasks } ∧ t.chance = { s.chance with drawn := t.chance.drawn } ∧
      t.io = { s.io with stderr := t.io.stderr } ∧ s.io.stderr <+: t.io.stderr

/-- The entry ECALL and EBREAK make: the registers and the advanced pc are saved in the task, and the syscall of the task's
a7 runs on that saved state; the slice ends (spec/60_exceptions.md R511, spec/44_system.md R404). -/
def Obligations.TrapRunsSyscall : Prop :=
  ∀ (s : State) (pid : Nat) (k : Task),
    s.hart.phase = .trap pid → s.hart.pendingEcall = true → s.task? pid = some k →
    (saveState pid s).task? pid = some { k with regs := s.hart.x.set 0 0#32, pc := s.hart.pc } ∧
    hartStep s =
      match syscall (.hart s.hart.id) pid (saveState pid s) with
      | .next t => .next { t with hart := { t.hart with phase := .sliceEnd pid true } }
      | .fault f => .fault f
      | .refused r => .refused r

/-! ## A slice and its task -/

/-- `restoreState` and `saveState`: registers and pc pass between a task's record and the hart, x0 stays 0, and nothing else
changes, the flags among it (spec/61_dispatcher.md R567, R568). -/
def Obligations.SaveRestore : Prop :=
  (∀ (s : State) (k : Task),
    (∀ r : RegIdx, (restoreState k s).reg r = if r = 0#5 then 0#32 else k.regs[r.toNat]'r.isLt) ∧
    (restoreState k s).hart.x[0] = 0#32 ∧ (restoreState k s).pc = k.pc ∧ SameButRegs s (restoreState k s)) ∧
  (∀ (s : State) (pid : Nat) (k : Task), s.task? pid = some k →
    ∃ k', (saveState pid s).task? pid = some k' ∧ (∀ r : RegIdx, k'.regs[r.toNat]'r.isLt = s.reg r) ∧
      k'.pc = s.pc ∧ k' = { k with regs := k'.regs, pc := k'.pc }) ∧
  (∀ (s : State) (pid q : Nat), q ≠ pid → (saveState pid s).task? q = s.task? q) ∧
  (∀ (s : State) (pid : Nat),
    saveState pid s = { s with kernel := { s.kernel with tasks := (saveState pid s).kernel.tasks } })

/-- Steps 1 and 2 of a slice: a READY task becomes RUNNING, its registers and pc are the hart's, its memory is the hart's
context and the count of steps is 0; a task in any other state runs no step (spec/61_dispatcher.md R565, R566, R567). -/
def Obligations.EnterSlice : Prop :=
  ∀ (s : State) (pid : Nat) (k : Task), s.hart.phase = .acquired pid → s.task? pid = some k →
    (k.state = .ready → ∃ t, hartStep s = .next t ∧
      t.task? pid = some { k with state := .running } ∧ (∀ q, q ≠ pid → t.task? q = s.task? q) ∧
      t.hart.x = k.regs.set 0 0#32 ∧ t.pc = k.pc ∧ t.hart.counter = 0 ∧ t.hart.phase = .slice pid ∧
      t.hart.curTask = s.hart.curTask ∧
      t.hart.space = some k.space ∧
      (∀ f b, s.params.memMode = .contiguous f → s.block? k.space = some b →
        t.hart.base = BitVec.ofNat 32 b.start ∧ t.hart.limit = BitVec.ofNat 32 b.size) ∧
      t = { s with kernel := { s.kernel with tasks := t.kernel.tasks }, hart := t.hart }) ∧
    (k.state ≠ .ready → ∃ t, hartStep s = .next t ∧
      t.hart.x = s.hart.x ∧ t.pc = s.pc ∧ t.hart.phase = .release pid ∧ t = { s with hart := t.hart })

/-- The end of a slice and the release: a task still RUNNING becomes READY, its state is saved where no trap has saved it,
then no hart holds it and the hart's context is none or (0, RAM_SIZE), and it is dispatched in the same transition
(spec/61_dispatcher.md R560, R564, R566; log 8). -/
def Obligations.EndAndRelease : Prop :=
  (∀ (s : State) (pid : Nat) (handled : Bool) (k : Task),
    s.hart.phase = .sliceEnd pid handled → s.task? pid = some k →
    ∃ t, hartStep s = .next t ∧ t.hart = { s.hart with phase := .release pid } ∧
      t.task? pid = some { k with
        regs := if handled then k.regs else s.hart.x.set 0 0#32
        pc := if handled then k.pc else s.hart.pc
        state := if k.state = .running then .ready else k.state } ∧
      (∀ q, q ≠ pid → t.task? q = s.task? q) ∧
      t = { s with kernel := { s.kernel with tasks := t.kernel.tasks }, hart := t.hart }) ∧
  (∀ (s : State) (pid : Nat) (k : Task),
    s.hart.phase = .release pid → s.task? pid = some k → s.sched.lock = none →
    ∃ t, hartStep s = .next t ∧ t.task? pid = some { k with activeHartId := none } ∧
      (∀ q, q ≠ pid → (k.state ≠ .terminated ∨ k.parent ≠ some q) → t.task? q = s.task? q) ∧
      t.hart.curTask = none ∧ t.hart.phase = .loopTop ∧ t.hart.x = s.hart.x ∧ t.pc = s.pc ∧ t.hart.space = none ∧
      (∀ f, s.params.memMode = .contiguous f → t.hart.base = 0#32 ∧ t.hart.limit = BitVec.ofNat 32 s.params.ramSize) ∧
      t = { s with kernel := { s.kernel with tasks := t.kernel.tasks }, hart := t.hart, sched := t.sched,
                   waits := t.waits })

/-- `tryAcquireCpu`: a task no hart holds is taken, one that a hart holds is left alone and the machine panics with
DOUBLE_SCHEDULE; after a panic no agent takes a step, which this model says with the fault `halted` (log 29)
(spec/61_dispatcher.md R563, spec/60_exceptions.md R549). -/
def Obligations.AcquireOrPanic : Prop :=
  (∀ (s : State) (pid : Nat) (k : Task), s.task? pid = some k → k.activeHartId = none →
    (tryAcquireCpu pid s).1 = true ∧
    (tryAcquireCpu pid s).2.task? pid = some { k with activeHartId := some s.hart.id } ∧
    (∀ q, q ≠ pid → (tryAcquireCpu pid s).2.task? q = s.task? q) ∧
    (tryAcquireCpu pid s).2.hart = { s.hart with curTask := some pid }) ∧
  (∀ (s : State) (pid : Nat) (k : Task) (o : Nat), s.task? pid = some k → k.activeHartId = some o →
    tryAcquireCpu pid s = (false, s) ∧
    (s.hart.phase = .picked pid → hartStep s = .next (s.setPanic .doubleSchedule))) ∧
  (∀ (s : State) (r : PanicReason), s.kernel.panic = some r → step s = .fault (.halted r))

/-! ## Integer instructions -/

/-- The instructions with an immediate operand: LUI and AUIPC; ADDI, SLTI, SLTIU, XORI, ORI, ANDI; SLLI, SRLI, SRAI
(spec/40_integer.md R301 to R311, spec/30_encoding.md R208). -/
def Obligations.RegImm : Prop :=
  ((∀ w : Word, opcodeField w = 0b0110111#7 → decode w = .instr (.lui (rdField w) (w.extractLsb' 12 20))) ∧
   (∀ w : Word, opcodeField w = 0b0010111#7 → decode w = .instr (.auipc (rdField w) (w.extractLsb' 12 20))) ∧
   ∀ (s : State) (rd : RegIdx) (imm : BitVec 20),
     (∃ t, exec (.lui rd imm) s = .next t ∧ Writes s t rd (imm ++ 0#12) (s.pc + 4#32)) ∧
     (∃ t, exec (.auipc rd imm) s = .next t ∧ Writes s t rd (s.pc + (imm ++ 0#12)) (s.pc + 4#32))) ∧
  ((∀ w : Word, opcodeField w = 0b0010011#7 →
     (funct3Field w = 0b000#3 → decode w = .instr (.addi (rdField w) (rs1Field w) (w.extractLsb' 20 12))) ∧
     (funct3Field w = 0b010#3 → decode w = .instr (.slti (rdField w) (rs1Field w) (w.extractLsb' 20 12))) ∧
     (funct3Field w = 0b011#3 → decode w = .instr (.sltiu (rdField w) (rs1Field w) (w.extractLsb' 20 12))) ∧
     (funct3Field w = 0b100#3 → decode w = .instr (.xori (rdField w) (rs1Field w) (w.extractLsb' 20 12))) ∧
     (funct3Field w = 0b110#3 → decode w = .instr (.ori (rdField w) (rs1Field w) (w.extractLsb' 20 12))) ∧
     (funct3Field w = 0b111#3 → decode w = .instr (.andi (rdField w) (rs1Field w) (w.extractLsb' 20 12)))) ∧
   ∀ (s : State) (rd rs1 : RegIdx) (imm : BitVec 12),
     (∃ t, exec (.addi rd rs1 imm) s = .next t ∧ Writes s t rd (s.reg rs1 + imm.signExtend 32) (s.pc + 4#32)) ∧
     (∃ t, exec (.slti rd rs1 imm) s = .next t ∧
       Writes s t rd (if (s.reg rs1).toInt < imm.toInt then 1#32 else 0#32) (s.pc + 4#32)) ∧
     (∃ t, exec (.sltiu rd rs1 imm) s = .next t ∧
       Writes s t rd (if (s.reg rs1).toNat < (imm.signExtend 32).toNat then 1#32 else 0#32) (s.pc + 4#32)) ∧
     (∃ t, exec (.xori rd rs1 imm) s = .next t ∧ Writes s t rd (s.reg rs1 ^^^ imm.signExtend 32) (s.pc + 4#32)) ∧
     (∃ t, exec (.ori rd rs1 imm) s = .next t ∧ Writes s t rd (s.reg rs1 ||| imm.signExtend 32) (s.pc + 4#32)) ∧
     (∃ t, exec (.andi rd rs1 imm) s = .next t ∧ Writes s t rd (s.reg rs1 &&& imm.signExtend 32) (s.pc + 4#32))) ∧
  ((∀ w : Word, opcodeField w = 0b0010011#7 →
     (funct3Field w = 0b001#3 → funct7Field w = 0b0000000#7 →
       decode w = .instr (.slli (rdField w) (rs1Field w) (w.extractLsb' 20 5))) ∧
     (funct3Field w = 0b101#3 → funct7Field w = 0b0000000#7 →
       decode w = .instr (.srli (rdField w) (rs1Field w) (w.extractLsb' 20 5))) ∧
     (funct3Field w = 0b101#3 → funct7Field w = 0b0100000#7 →
       decode w = .instr (.srai (rdField w) (rs1Field w) (w.extractLsb' 20 5))) ∧
     (funct3Field w = 0b001#3 → funct7Field w ≠ 0b0000000#7 → IllegalWord w) ∧
     (funct3Field w = 0b101#3 → funct7Field w ≠ 0b0000000#7 → funct7Field w ≠ 0b0100000#7 → IllegalWord w)) ∧
   ∀ (s : State) (rd rs1 : RegIdx) (sh : BitVec 5),
     (∃ t, exec (.slli rd rs1 sh) s = .next t ∧ Writes s t rd (s.reg rs1 <<< sh.toNat) (s.pc + 4#32)) ∧
     (∃ t, exec (.srli rd rs1 sh) s = .next t ∧ Writes s t rd (s.reg rs1 >>> sh.toNat) (s.pc + 4#32)) ∧
     (∃ t, exec (.srai rd rs1 sh) s = .next t ∧ Writes s t rd ((s.reg rs1).sshiftRight sh.toNat) (s.pc + 4#32)))

/-- The instructions with two register operands: ADD, SUB, SLT, SLTU, XOR, OR, AND; and SLL, SRL, SRA, in which only the low 5
bits of rs2 count (spec/40_integer.md R312 to R321). -/
def Obligations.RegReg : Prop :=
  ((∀ w : Word, opcodeField w = 0b0110011#7 →
     (funct7Field w = 0b0000000#7 →
       (funct3Field w = 0b000#3 → decode w = .instr (.add (rdField w) (rs1Field w) (rs2Field w))) ∧
       (funct3Field w = 0b010#3 → decode w = .instr (.slt (rdField w) (rs1Field w) (rs2Field w))) ∧
       (funct3Field w = 0b011#3 → decode w = .instr (.sltu (rdField w) (rs1Field w) (rs2Field w))) ∧
       (funct3Field w = 0b100#3 → decode w = .instr (.xor (rdField w) (rs1Field w) (rs2Field w))) ∧
       (funct3Field w = 0b110#3 → decode w = .instr (.or (rdField w) (rs1Field w) (rs2Field w))) ∧
       (funct3Field w = 0b111#3 → decode w = .instr (.and (rdField w) (rs1Field w) (rs2Field w)))) ∧
     (funct7Field w = 0b0100000#7 → funct3Field w = 0b000#3 →
       decode w = .instr (.sub (rdField w) (rs1Field w) (rs2Field w)))) ∧
   ∀ (s : State) (rd rs1 rs2 : RegIdx),
     (∃ t, exec (.add rd rs1 rs2) s = .next t ∧ Writes s t rd (s.reg rs1 + s.reg rs2) (s.pc + 4#32)) ∧
     (∃ t, exec (.sub rd rs1 rs2) s = .next t ∧ Writes s t rd (s.reg rs1 - s.reg rs2) (s.pc + 4#32)) ∧
     (∃ t, exec (.slt rd rs1 rs2) s = .next t ∧
       Writes s t rd (if (s.reg rs1).toInt < (s.reg rs2).toInt then 1#32 else 0#32) (s.pc + 4#32)) ∧
     (∃ t, exec (.sltu rd rs1 rs2) s = .next t ∧
       Writes s t rd (if (s.reg rs1).toNat < (s.reg rs2).toNat then 1#32 else 0#32) (s.pc + 4#32)) ∧
     (∃ t, exec (.xor rd rs1 rs2) s = .next t ∧ Writes s t rd (s.reg rs1 ^^^ s.reg rs2) (s.pc + 4#32)) ∧
     (∃ t, exec (.or rd rs1 rs2) s = .next t ∧ Writes s t rd (s.reg rs1 ||| s.reg rs2) (s.pc + 4#32)) ∧
     (∃ t, exec (.and rd rs1 rs2) s = .next t ∧ Writes s t rd (s.reg rs1 &&& s.reg rs2) (s.pc + 4#32))) ∧
  ((∀ w : Word, opcodeField w = 0b0110011#7 →
     (funct3Field w = 0b001#3 → funct7Field w = 0b0000000#7 →
       decode w = .instr (.sll (rdField w) (rs1Field w) (rs2Field w))) ∧
     (funct3Field w = 0b101#3 → funct7Field w = 0b0000000#7 →
       decode w = .instr (.srl (rdField w) (rs1Field w) (rs2Field w))) ∧
     (funct3Field w = 0b101#3 → funct7Field w = 0b0100000#7 →
       decode w = .instr (.sra (rdField w) (rs1Field w) (rs2Field w)))) ∧
   ∀ (s : State) (rd rs1 rs2 : RegIdx),
     (∃ t, exec (.sll rd rs1 rs2) s = .next t ∧
       Writes s t rd (s.reg rs1 <<< ((s.reg rs2).toNat % 32)) (s.pc + 4#32)) ∧
     (∃ t, exec (.srl rd rs1 rs2) s = .next t ∧
       Writes s t rd (s.reg rs1 >>> ((s.reg rs2).toNat % 32)) (s.pc + 4#32)) ∧
     (∃ t, exec (.sra rd rs1 rs2) s = .next t ∧
       Writes s t rd ((s.reg rs1).sshiftRight ((s.reg rs2).toNat % 32)) (s.pc + 4#32)))

/-! ## Multiply and divide -/

/-- MUL, MULH, MULHSU, MULHU: bits 31:0 or 63:32 of the exact product (spec/43_muldiv.md R381 to R384). -/
def Obligations.Multiply : Prop :=
  (∀ w : Word, opcodeField w = 0b0110011#7 → funct7Field w = 0b0000001#7 →
    (funct3Field w = 0b000#3 → decode w = .instr (.mul (rdField w) (rs1Field w) (rs2Field w))) ∧
    (funct3Field w = 0b001#3 → decode w = .instr (.mulh (rdField w) (rs1Field w) (rs2Field w))) ∧
    (funct3Field w = 0b010#3 → decode w = .instr (.mulhsu (rdField w) (rs1Field w) (rs2Field w))) ∧
    (funct3Field w = 0b011#3 → decode w = .instr (.mulhu (rdField w) (rs1Field w) (rs2Field w)))) ∧
  ∀ (s : State) (rd rs1 rs2 : RegIdx),
    (∃ t, exec (.mul rd rs1 rs2) s = .next t ∧
      Writes s t rd (BitVec.ofNat 32 ((s.reg rs1).toNat * (s.reg rs2).toNat)) (s.pc + 4#32)) ∧
    (∃ t, exec (.mulh rd rs1 rs2) s = .next t ∧
      Writes s t rd (BitVec.ofInt 32 ((s.reg rs1).toInt * (s.reg rs2).toInt / 2 ^ 32)) (s.pc + 4#32)) ∧
    (∃ t, exec (.mulhsu rd rs1 rs2) s = .next t ∧
      Writes s t rd (BitVec.ofInt 32 ((s.reg rs1).toInt * ((s.reg rs2).toNat : Int) / 2 ^ 32)) (s.pc + 4#32)) ∧
    (∃ t, exec (.mulhu rd rs1 rs2) s = .next t ∧
      Writes s t rd (BitVec.ofNat 32 ((s.reg rs1).toNat * (s.reg rs2).toNat / 2 ^ 32)) (s.pc + 4#32))

/-- DIV, DIVU, REM, REMU, with the results of division by zero and of signed overflow (spec/43_muldiv.md R385 to R388). -/
def Obligations.Divide : Prop :=
  (∀ w : Word, opcodeField w = 0b0110011#7 → funct7Field w = 0b0000001#7 →
    (funct3Field w = 0b100#3 → decode w = .instr (.div (rdField w) (rs1Field w) (rs2Field w))) ∧
    (funct3Field w = 0b101#3 → decode w = .instr (.divu (rdField w) (rs1Field w) (rs2Field w))) ∧
    (funct3Field w = 0b110#3 → decode w = .instr (.rem (rdField w) (rs1Field w) (rs2Field w))) ∧
    (funct3Field w = 0b111#3 → decode w = .instr (.remu (rdField w) (rs1Field w) (rs2Field w)))) ∧
  ∀ (s : State) (rd rs1 rs2 : RegIdx),
    (∃ t, exec (.div rd rs1 rs2) s = .next t ∧ Writes s t rd
      (if s.reg rs2 = 0#32 then 0xFFFFFFFF#32
       else if s.reg rs1 = 0x80000000#32 ∧ s.reg rs2 = 0xFFFFFFFF#32 then 0x80000000#32
       else BitVec.ofInt 32 ((s.reg rs1).toInt.tdiv (s.reg rs2).toInt)) (s.pc + 4#32)) ∧
    (∃ t, exec (.divu rd rs1 rs2) s = .next t ∧ Writes s t rd
      (if s.reg rs2 = 0#32 then 0xFFFFFFFF#32
       else BitVec.ofNat 32 ((s.reg rs1).toNat / (s.reg rs2).toNat)) (s.pc + 4#32)) ∧
    (∃ t, exec (.rem rd rs1 rs2) s = .next t ∧ Writes s t rd
      (if s.reg rs2 = 0#32 then s.reg rs1
       else if s.reg rs1 = 0x80000000#32 ∧ s.reg rs2 = 0xFFFFFFFF#32 then 0#32
       else BitVec.ofInt 32 ((s.reg rs1).toInt - (s.reg rs2).toInt * (s.reg rs1).toInt.tdiv (s.reg rs2).toInt))
      (s.pc + 4#32)) ∧
    (∃ t, exec (.remu rd rs1 rs2) s = .next t ∧ Writes s t rd
      (if s.reg rs2 = 0#32 then s.reg rs1
       else BitVec.ofNat 32 ((s.reg rs1).toNat % (s.reg rs2).toNat)) (s.pc + 4#32))

/-- The laws of the M extension, of the results the eight instructions write (spec/43_muldiv.md R389). -/
def Obligations.MulDivLaws : Prop :=
  ∀ (s : State) (rd rs1 rs2 : RegIdx) (a b : Word), rd ≠ 0#5 → s.reg rs1 = a → s.reg rs2 = b →
    ∃ tm th tsu thu td tdu tr tru,
      exec (.mul rd rs1 rs2) s = .next tm ∧ exec (.mulh rd rs1 rs2) s = .next th ∧
      exec (.mulhsu rd rs1 rs2) s = .next tsu ∧ exec (.mulhu rd rs1 rs2) s = .next thu ∧
      exec (.div rd rs1 rs2) s = .next td ∧ exec (.divu rd rs1 rs2) s = .next tdu ∧
      exec (.rem rd rs1 rs2) s = .next tr ∧ exec (.remu rd rs1 rs2) s = .next tru ∧
      (b ≠ 0#32 → ¬(a = 0x80000000#32 ∧ b = 0xFFFFFFFF#32) →
        a.toInt = (td.reg rd).toInt * b.toInt + (tr.reg rd).toInt ∧ (tr.reg rd).toInt.natAbs < b.toInt.natAbs) ∧
      (b ≠ 0#32 → a.toNat = (tdu.reg rd).toNat * b.toNat + (tru.reg rd).toNat ∧ (tru.reg rd).toNat < b.toNat) ∧
      (b = 0#32 → td.reg rd = 0xFFFFFFFF#32 ∧ tdu.reg rd = 0xFFFFFFFF#32 ∧ tr.reg rd = a ∧ tru.reg rd = a) ∧
      (a = 0x80000000#32 → b = 0xFFFFFFFF#32 → td.reg rd = 0x80000000#32 ∧ tr.reg rd = 0#32) ∧
      (th.reg rd ++ tm.reg rd).toInt = a.toInt * b.toInt ∧
      (thu.reg rd ++ tm.reg rd).toNat = a.toNat * b.toNat ∧
      (tsu.reg rd ++ tm.reg rd).toInt = a.toInt * (b.toNat : Int)

/-! ## Control transfer -/

/-- JAL and JALR (spec/41_control.md R341, R342): the link is the address of the next instruction, the target of JALR comes
from the value of rs1 before rd is written. -/
def Obligations.Jumps : Prop :=
  (∀ w : Word, opcodeField w = 0b1101111#7 → decode w = .instr (.jal (rdField w)
    (w.extractLsb' 31 1 ++ w.extractLsb' 12 8 ++ w.extractLsb' 20 1 ++ w.extractLsb' 21 10 ++ 0#1))) ∧
  (∀ w : Word, opcodeField w = 0b1100111#7 → funct3Field w = 0b000#3 →
    decode w = .instr (.jalr (rdField w) (rs1Field w) (w.extractLsb' 20 12))) ∧
  (∀ w : Word, opcodeField w = 0b1100111#7 → funct3Field w ≠ 0b000#3 → IllegalWord w) ∧
  ∀ (s : State) (rd rs1 : RegIdx) (off : BitVec 21) (imm : BitVec 12),
    (∃ t, exec (.jal rd off) s = .next t ∧ Writes s t rd (s.pc + 4#32) (s.pc + off.signExtend 32) ∧
      (t.pc.toNat % 4 ≠ 0 → instructionStep t = .next (t.clearFlags.raise .memFault t.pc))) ∧
    (∃ t, exec (.jalr rd rs1 imm) s = .next t ∧
      Writes s t rd (s.pc + 4#32) ((s.reg rs1 + imm.signExtend 32) &&& 0xFFFFFFFE#32) ∧
      (t.pc.toNat % 4 ≠ 0 → instructionStep t = .next (t.clearFlags.raise .memFault t.pc)))

/-- The six branches (spec/41_control.md R343 to R349). -/
def Obligations.Branches : Prop :=
  (∀ (w : Word) (off : BitVec 13), opcodeField w = 0b1100011#7 →
    off = w.extractLsb' 31 1 ++ w.extractLsb' 7 1 ++ w.extractLsb' 25 6 ++ w.extractLsb' 8 4 ++ 0#1 →
    (funct3Field w = 0b000#3 → decode w = .instr (.beq (rs1Field w) (rs2Field w) off)) ∧
    (funct3Field w = 0b001#3 → decode w = .instr (.bne (rs1Field w) (rs2Field w) off)) ∧
    (funct3Field w = 0b100#3 → decode w = .instr (.blt (rs1Field w) (rs2Field w) off)) ∧
    (funct3Field w = 0b101#3 → decode w = .instr (.bge (rs1Field w) (rs2Field w) off)) ∧
    (funct3Field w = 0b110#3 → decode w = .instr (.bltu (rs1Field w) (rs2Field w) off)) ∧
    (funct3Field w = 0b111#3 → decode w = .instr (.bgeu (rs1Field w) (rs2Field w) off)) ∧
    (funct3Field w = 0b010#3 ∨ funct3Field w = 0b011#3 → IllegalWord w)) ∧
  ∀ (s : State) (rs1 rs2 : RegIdx) (off : BitVec 13),
    (∃ t, exec (.beq rs1 rs2 off) s = .next t ∧
      Goes s t (if s.reg rs1 = s.reg rs2 then s.pc + off.signExtend 32 else s.pc + 4#32)) ∧
    (∃ t, exec (.bne rs1 rs2 off) s = .next t ∧
      Goes s t (if s.reg rs1 ≠ s.reg rs2 then s.pc + off.signExtend 32 else s.pc + 4#32)) ∧
    (∃ t, exec (.blt rs1 rs2 off) s = .next t ∧
      Goes s t (if (s.reg rs1).toInt < (s.reg rs2).toInt then s.pc + off.signExtend 32 else s.pc + 4#32)) ∧
    (∃ t, exec (.bge rs1 rs2 off) s = .next t ∧
      Goes s t (if (s.reg rs1).toInt ≥ (s.reg rs2).toInt then s.pc + off.signExtend 32 else s.pc + 4#32)) ∧
    (∃ t, exec (.bltu rs1 rs2 off) s = .next t ∧
      Goes s t (if (s.reg rs1).toNat < (s.reg rs2).toNat then s.pc + off.signExtend 32 else s.pc + 4#32)) ∧
    (∃ t, exec (.bgeu rs1 rs2 off) s = .next t ∧
      Goes s t (if (s.reg rs1).toNat ≥ (s.reg rs2).toNat then s.pc + off.signExtend 32 else s.pc + 4#32))

/-- No control transfer checks its target: it completes with no exception of its own and with rd written, and where the
target's bits [1:0] are not 0 the next step raises MEM_FAULT with the target as value (spec/41_control.md R340,
spec/10_state.md R55). -/
def Obligations.TargetUnchecked : Prop :=
  ∀ (s : State) (rd rs1 rs2 : RegIdx) (off : BitVec 13) (joff : BitVec 21) (imm : BitVec 12),
    (∀ i ∈ [Instr.jal rd joff, .jalr rd rs1 imm, .beq rs1 rs2 off, .bne rs1 rs2 off, .blt rs1 rs2 off, .bge rs1 rs2 off,
        .bltu rs1 rs2 off, .bgeu rs1 rs2 off],
      ∃ t, exec i s = .next t ∧ t.hart.pendingException = s.hart.pendingException ∧
        (t.pc.toNat % 4 ≠ 0 → instructionStep t = .next (t.clearFlags.raise .memFault t.pc))) ∧
    (∀ i ∈ [Instr.jal rd joff, .jalr rd rs1 imm],
      ∃ t, exec i s = .next t ∧ (rd ≠ 0#5 → (t.clearFlags.raise .memFault t.pc).reg rd = s.pc + 4#32))

/-! ## FENCE and SYSTEM -/

/-- FENCE only advances the pc, for every fm, pred, succ, rs1 and rd; ECALL and EBREAK set the pending-ECALL flag and advance
the pc, and do nothing else (spec/44_system.md R400, R402, R403, spec/10_state.md R56). -/
def Obligations.FenceEcallEbreak : Prop :=
  (∀ w : Word, opcodeField w = 0b0001111#7 → funct3Field w = 0b000#3 →
    decode w = .instr (.fence (rdField w) (rs1Field w) (w.extractLsb' 28 4) (w.extractLsb' 24 4) (w.extractLsb' 20 4))) ∧
  (∀ (s : State) (rd rs1 : RegIdx) (fm pred succ : BitVec 4),
    ∃ t, exec (.fence rd rs1 fm pred succ) s = .next t ∧ Goes s t (s.pc + 4#32)) ∧
  decode 0x00000073#32 = .instr .ecall ∧ decode 0x00100073#32 = .instr .ebreak ∧
  ∀ s : State,
    exec .ecall s = .next { s with hart := { s.hart with pendingEcall := true, pc := s.pc + 4#32 } } ∧
    exec .ebreak s = .next { s with hart := { s.hart with pendingEcall := true, pc := s.pc + 4#32 } }

/-- A step that decodes a CSR instruction is refused, for every CSR number and every operand (spec/44_system.md R410). -/
def Obligations.CsrRefused : Prop :=
  (∀ w : Word, opcodeField w = 0b1110011#7 →
    (funct3Field w = 0b001#3 → decode w = .instr (.csrrw (rdField w) (rs1Field w) (w.extractLsb' 20 12))) ∧
    (funct3Field w = 0b010#3 → decode w = .instr (.csrrs (rdField w) (rs1Field w) (w.extractLsb' 20 12))) ∧
    (funct3Field w = 0b011#3 → decode w = .instr (.csrrc (rdField w) (rs1Field w) (w.extractLsb' 20 12))) ∧
    (funct3Field w = 0b101#3 → decode w = .instr (.csrrwi (rdField w) (rs1Field w) (w.extractLsb' 20 12))) ∧
    (funct3Field w = 0b110#3 → decode w = .instr (.csrrsi (rdField w) (rs1Field w) (w.extractLsb' 20 12))) ∧
    (funct3Field w = 0b111#3 → decode w = .instr (.csrrci (rdField w) (rs1Field w) (w.extractLsb' 20 12)))) ∧
  ∀ (s : State) (rd rs1 : RegIdx) (csr : BitVec 12),
    exec (.csrrw rd rs1 csr) s = .refused .csrStub ∧ exec (.csrrs rd rs1 csr) s = .refused .csrStub ∧
    exec (.csrrc rd rs1 csr) s = .refused .csrStub ∧ exec (.csrrwi rd rs1 csr) s = .refused .csrStub ∧
    exec (.csrrsi rd rs1 csr) s = .refused .csrStub ∧ exec (.csrrci rd rs1 csr) s = .refused .csrStub

/-! ## Loads and stores -/

/-- The five loads complete on a resident readable page and inside the hart's block: rd takes the little-endian bytes at the
effective address, extended, and nothing else changes but the pc, the page's accessed bit and counter, and the replacement
policy's record of the access (spec/42_loadstore.md R360 to R365, R369, spec/20_memory.md R136). -/
def Obligations.LoadsComplete : Prop :=
  (LoadsPaged .lb 1 (fun v => (v.setWidth 8).signExtend 32) ∧ LoadsContig .lb 1 (fun v => (v.setWidth 8).signExtend 32)) ∧
  (LoadsPaged .lh 2 (fun v => (v.setWidth 16).signExtend 32) ∧
    LoadsContig .lh 2 (fun v => (v.setWidth 16).signExtend 32)) ∧
  (LoadsPaged .lw 4 (fun v => v) ∧ LoadsContig .lw 4 (fun v => v)) ∧
  (LoadsPaged .lbu 1 (fun v => (v.setWidth 8).setWidth 32) ∧ LoadsContig .lbu 1 (fun v => (v.setWidth 8).setWidth 32)) ∧
  (LoadsPaged .lhu 2 (fun v => (v.setWidth 16).setWidth 32) ∧
    LoadsContig .lhu 2 (fun v => (v.setWidth 16).setWidth 32))

/-- The three stores complete on a resident writable page and inside the hart's block: the low bytes of rs2 lie at the
effective address, the lowest first, every other byte reads as before, and nothing else changes but the pc, the page's accessed
and dirty bits and counter, and the replacement policy's record of the access (spec/42_loadstore.md R360, R366 to R368,
spec/20_memory.md R136). -/
def Obligations.StoresComplete : Prop :=
  (StoresPaged .sb 1 ∧ StoresContig .sb 1) ∧ (StoresPaged .sh 2 ∧ StoresContig .sh 2) ∧
  (StoresPaged .sw 4 ∧ StoresContig .sw 4)

/-- The frame of every load and store in every state, whether it completes or raises: no register but a load's rd, nothing
of the kernel, of other harts or of the UART (unless the address is in its range), and no byte of RAM but the stored ones
and those of the frame the access gives out to its page on demand, which become 0 (spec/42_loadstore.md R360, R370,
spec/20_memory.md R106). -/
def Obligations.LoadStoreFrame : Prop :=
  (∀ f ∈ loadForms, ∀ (s t : State) (rd rs1 : RegIdx) (imm : BitVec 12), exec (f.1 rd rs1 imm) s = .next t →
    SameKernel s t ∧ t.paging.frames.length = s.paging.frames.length ∧ (∀ r, r ≠ rd → t.reg r = s.reg r) ∧
    t.hart = { s.hart with x := t.hart.x, pc := t.hart.pc, pendingException := t.hart.pendingException,
                           excCode := t.hart.excCode, excValue := t.hart.excValue } ∧
    (∀ a, t.ram.read a = s.ram.read a ∨ GivenOut s t (s.reg rs1 + imm.signExtend 32) a) ∧
    (inUart s.params (s.reg rs1 + imm.signExtend 32).toNat = false → t.io = s.io)) ∧
  (∀ f ∈ storeForms, ∀ (s t : State) (rs2 rs1 : RegIdx) (imm : BitVec 12), exec (f.1 rs2 rs1 imm) s = .next t →
    SameKernel s t ∧ t.paging.frames.length = s.paging.frames.length ∧ t.hart.x = s.hart.x ∧
    t.hart = { s.hart with pc := t.hart.pc, pendingException := t.hart.pendingException,
                           excCode := t.hart.excCode, excValue := t.hart.excValue } ∧
    (∀ a, (∀ pa u, translate (hartCtx s) (s.reg rs1 + imm.signExtend 32) f.2 .write true s = .ok pa u →
        ¬(pa ≤ a ∧ a < pa + f.2)) →
      t.ram.read a = s.ram.read a ∨ GivenOut s t (s.reg rs1 + imm.signExtend 32) a) ∧
    (inUart s.params (s.reg rs1 + imm.signExtend 32).toNat = false → t.io = s.io))

/-- A misaligned load or store touches no byte and raises MEM_FAULT with its effective address, its subcause MISALIGNED; so does
the fetch at a misaligned pc (spec/20_memory.md R104, spec/60_exceptions.md R502). -/
def Obligations.MisalignedRaises : Prop :=
  (∀ f ∈ loadForms ++ storeForms, ∀ (s : State) (r rs1 : RegIdx) (imm : BitVec 12),
    (s.reg rs1 + imm.signExtend 32).toNat % f.2 ≠ 0 →
    exec (f.1 r rs1 imm) s = .next (s.raise .memFault (s.reg rs1 + imm.signExtend 32))) ∧
  (∀ s : State, s.pc.toNat % 4 ≠ 0 → instructionStep s = .next (s.clearFlags.raise .memFault s.pc)) ∧
  (∀ (c : Ctx) (va v : Word) (n : Nat) (s : State), va.toNat % n ≠ 0 →
    memRead c va n s = .fail { subcause := .misaligned, va := va } s ∧
    memWrite c va n v s = .fail { subcause := .misaligned, va := va } s) ∧
  (∀ (c : Ctx) (va : Word) (s : State), va.toNat % 4 ≠ 0 → fetch c va s = .fail { subcause := .misaligned, va := va } s)

/-- An access to a resident page that lacks the permission of its kind raises PROT_FAULT and changes nothing else, whatever
the page's other permissions (spec/20_memory.md R134). -/
def Obligations.PermissionRaises : Prop :=
  (∀ f ∈ loadForms, ∀ (s : State) (h : Nat) (rd rs1 : RegIdx) (imm : BitVec 12) (p : Pte),
    InSpace s h → Resident s h (s.reg rs1 + imm.signExtend 32) p → p.perms.r = false →
    PlainAccess s (s.reg rs1 + imm.signExtend 32) f.2 →
    exec (f.1 rd rs1 imm) s = .next (s.raise .protFault (s.reg rs1 + imm.signExtend 32))) ∧
  (∀ f ∈ storeForms, ∀ (s : State) (h : Nat) (rs2 rs1 : RegIdx) (imm : BitVec 12) (p : Pte),
    InSpace s h → Resident s h (s.reg rs1 + imm.signExtend 32) p → p.perms.w = false →
    PlainAccess s (s.reg rs1 + imm.signExtend 32) f.2 →
    exec (f.1 rs2 rs1 imm) s = .next (s.raise .protFault (s.reg rs1 + imm.signExtend 32))) ∧
  (∀ (s : State) (h : Nat) (p : Pte),
    InSpace s h → Resident s h s.pc p → p.perms.x = false → PlainAccess s s.pc 4 →
    instructionStep s = .next (s.clearFlags.raise .protFault s.pc))

/-- An access that has no mapping raises MEM_FAULT and changes nothing else: in PAGED mode a page with no valid PTE, under
EAGER or where no region covers it and UNREGIONED_DEMAND gives nothing for the access's own kind; in CONTIGUOUS mode an address
beyond the limit or beyond the end of RAM (spec/20_memory.md R122, R133, R141, spec/60_exceptions.md R500). -/
def Obligations.NoMappingRaises : Prop :=
  (∀ e ∈ [(loadForms, AccessKind.read), (storeForms, AccessKind.write)], ∀ f ∈ e.1,
    ∀ (s : State) (h : Nat) (a : AddrSpace) (r rs1 : RegIdx) (imm : BitVec 12),
    InSpace s h → s.space? h = some a → NotResident a (s.reg rs1 + imm.signExtend 32) →
    PlainAccess s (s.reg rs1 + imm.signExtend 32) f.2 →
    ((∃ p, s.params.memMode = .paged .eager p) ∨
      demandPerms s a (vpnOf (s.reg rs1 + imm.signExtend 32)) e.2 = none) →
    exec (f.1 r rs1 imm) s = .next (s.raise .memFault (s.reg rs1 + imm.signExtend 32))) ∧
  (∀ f ∈ loadForms ++ storeForms, ∀ (s : State) (st : AllocStrategy) (r rs1 : RegIdx) (imm : BitVec 12),
    s.params.memMode = .contiguous st → PlainAccess s (s.reg rs1 + imm.signExtend 32) f.2 →
    (s.hart.limit.toNat < (s.reg rs1 + imm.signExtend 32).toNat + f.2 ∨
      s.params.ramSize < s.hart.base.toNat + (s.reg rs1 + imm.signExtend 32).toNat + f.2) →
    exec (f.1 r rs1 imm) s = .next (s.raise .memFault (s.reg rs1 + imm.signExtend 32))) ∧
  (∀ (s : State) (h : Nat) (a : AddrSpace),
    InSpace s h → s.space? h = some a → NotResident a s.pc → PlainAccess s s.pc 4 →
    ((∃ p, s.params.memMode = .paged .eager p) ∨ demandPerms s a (vpnOf s.pc) .exec = none) →
    instructionStep s = .next (s.clearFlags.raise .memFault s.pc)) ∧
  (∀ (s : State) (st : AllocStrategy),
    s.params.memMode = .contiguous st → PlainAccess s s.pc 4 →
    (s.hart.limit.toNat < s.pc.toNat + 4 ∨ s.params.ramSize < s.hart.base.toNat + s.pc.toNat + 4) →
    instructionStep s = .next (s.clearFlags.raise .memFault s.pc))

/-- Byte loads of UART_STATUS and UART_RX_DATA and byte stores of UART_TX_DATA complete (spec/63_uart.md R651 to R653): a
read of RX takes the oldest byte, bit 0 of STATUS says whether a byte waits, its other bits and the byte an empty queue
gives being free, and a store to TX emits the byte. -/
def Obligations.UartBytes : Prop :=
  (∀ f ∈ [(Instr.lb, fun b : Byte => b.signExtend 32), (Instr.lbu, fun b : Byte => b.setWidth 32)],
    ∀ (s : State) (rd rs1 : RegIdx) (imm : BitVec 12),
      inUart s.params (s.reg rs1 + imm.signExtend 32).toNat = true →
      ((s.reg rs1 + imm.signExtend 32).toNat - s.params.uartBase = s.params.uartOffStatus →
        ∃ t b, exec (f.1 rd rs1 imm) s = .next t ∧ b.getLsbD 0 = !s.io.rxq.isEmpty ∧
          (∀ r, t.reg r = if r = rd ∧ r ≠ 0#5 then f.2 b else s.reg r) ∧ t.pc = s.pc + 4#32 ∧
          t = { s with hart := { s.hart with x := t.hart.x, pc := t.hart.pc }, chance := t.chance }) ∧
      ((s.reg rs1 + imm.signExtend 32).toNat - s.params.uartBase = s.params.uartOffRx →
        s.params.uartOffRx ≠ s.params.uartOffStatus → ∀ b rest, s.io.rxq = b :: rest →
        ∃ t, exec (f.1 rd rs1 imm) s = .next t ∧
          (∀ r, t.reg r = if r = rd ∧ r ≠ 0#5 then f.2 b else s.reg r) ∧ t.pc = s.pc + 4#32 ∧
          t = { s with hart := { s.hart with x := t.hart.x, pc := t.hart.pc }, io := { s.io with rxq := rest } }) ∧
      ((s.reg rs1 + imm.signExtend 32).toNat - s.params.uartBase = s.params.uartOffRx →
        s.params.uartOffRx ≠ s.params.uartOffStatus → s.io.rxq = [] →
        ∃ t b, exec (f.1 rd rs1 imm) s = .next t ∧
          (∀ r, t.reg r = if r = rd ∧ r ≠ 0#5 then f.2 b else s.reg r) ∧ t.pc = s.pc + 4#32 ∧
          t = { s with hart := { s.hart with x := t.hart.x, pc := t.hart.pc }, chance := t.chance })) ∧
  (∀ (s : State) (rs2 rs1 : RegIdx) (imm : BitVec 12),
    inUart s.params (s.reg rs1 + imm.signExtend 32).toNat = true →
    (s.reg rs1 + imm.signExtend 32).toNat - s.params.uartBase = s.params.uartOffTx →
    exec (.sb rs2 rs1 imm) s = .next { s with
      hart := { s.hart with pc := s.pc + 4#32 }
      io := { s.io with stdout := s.io.stdout ++ [(s.reg rs2).setWidth 8] } })

/-- Every other access to the UART range is refused by name: wide accesses, fetches, loads of other registers than STATUS and
RX, stores to others than TX, and loaders' writes (spec/63_uart.md R654). -/
def Obligations.UartRefused : Prop :=
  (∀ f ∈ [(Instr.lh, 2), (Instr.lhu, 2), (Instr.sh, 2), (Instr.lw, 4), (Instr.sw, 4)],
    ∀ (s : State) (r rs1 : RegIdx) (imm : BitVec 12), (s.reg rs1 + imm.signExtend 32).toNat % f.2 = 0 →
      (∃ k, k < f.2 ∧ inUart s.params ((s.reg rs1 + imm.signExtend 32).toNat + k) = true) →
      exec (f.1 r rs1 imm) s = .refused .uartWideAccess) ∧
  (∀ s : State, s.pc.toNat % 4 = 0 → (∃ k, k < 4 ∧ inUart s.params (s.pc.toNat + k) = true) →
    instructionStep s = .refused .uartFetch) ∧
  (∀ f ∈ [Instr.lb, Instr.lbu], ∀ (s : State) (r rs1 : RegIdx) (imm : BitVec 12),
    inUart s.params (s.reg rs1 + imm.signExtend 32).toNat = true →
    (s.reg rs1 + imm.signExtend 32).toNat - s.params.uartBase ≠ s.params.uartOffStatus →
    (s.reg rs1 + imm.signExtend 32).toNat - s.params.uartBase ≠ s.params.uartOffRx →
    exec (f r rs1 imm) s = .refused .uartRegister) ∧
  (∀ (s : State) (rs2 rs1 : RegIdx) (imm : BitVec 12),
    inUart s.params (s.reg rs1 + imm.signExtend 32).toNat = true →
    (s.reg rs1 + imm.signExtend 32).toNat - s.params.uartBase ≠ s.params.uartOffTx →
    exec (.sb rs2 rs1 imm) s = .refused .uartRegister) ∧
  (∀ (c : Ctx) (va : Word) (b : Byte) (s : State), inUart s.params va.toNat = true →
    writeByteToVirtual c va b s = .refuse .uartLoaderWrite) ∧
  (∀ (c : Ctx) (va v : Word) (n : Nat) (s : State), n ≠ 1 → va.toNat % n = 0 →
    (∃ k, k < n ∧ inUart s.params (va.toNat + k) = true) →
    memRead c va n s = .refuse .uartWideAccess ∧ memWrite c va n v s = .refuse .uartWideAccess)

/-- Under DEMAND a load from a page of a readable region that is not resident, with frames to give out, completes with 0 and
leaves the page resident with the region's permissions (spec/20_memory.md R133, R137, R140). -/
def Obligations.DemandZeroFill : Prop :=
  ∀ f ∈ loadForms, ∀ (s : State) (h : Nat) (a : AddrSpace) (perms : Perms) (pol : Replacement) (rd rs1 : RegIdx)
    (imm : BitVec 12),
    s.params.memMode = .paged .demand pol → s.hart.space = some h → s.space? h = some a →
    NotResident a (s.reg rs1 + imm.signExtend 32) →
    demandPerms s a (vpnOf (s.reg rs1 + imm.signExtend 32)) .read = some perms → perms.r = true →
    PlainAccess s (s.reg rs1 + imm.signExtend 32) f.2 → 2 ≤ s.freeFrames.length →
    ∃ t, exec (f.1 rd rs1 imm) s = .next t ∧ (∀ r, t.reg r = if r = rd ∧ r ≠ 0#5 then 0#32 else s.reg r) ∧
      t.pc = s.pc + 4#32 ∧ t.io = s.io ∧ SameKernel s t ∧
      t.hart = { s.hart with x := t.hart.x, pc := t.hart.pc } ∧
      ∃ p, Resident t h (s.reg rs1 + imm.signExtend 32) p ∧ p.perms = perms ∧ p.accessed = true ∧ p.dirty = false

/-! ## The memory subsystem -/

/-- The hole a strategy picks, and what placing a block makes of it (spec/20_memory.md R120). -/
def Obligations.HoleChoice : Prop :=
  (∀ (st : AllocStrategy) (n : Nat) (holes : List Hole), pickHole st n holes = none ↔ ∀ h ∈ holes, h.size < n) ∧
  (∀ (n : Nat) (holes : List Hole) (h : Hole), pickHole .firstFit n holes = some h →
    h ∈ holes ∧ n ≤ h.size ∧ ∀ g ∈ holes, n ≤ g.size → h.start ≤ g.start) ∧
  (∀ (n : Nat) (holes : List Hole) (h : Hole), pickHole .bestFit n holes = some h →
    h ∈ holes ∧ n ≤ h.size ∧ ∀ g ∈ holes, n ≤ g.size → h.size < g.size ∨ h.size = g.size ∧ h.start ≤ g.start) ∧
  (∀ (pid n : Nat) (s t : State) (hd : Nat), placeBlock pid n s = some (hd, t) →
    ∃ hole, pickHole s.strategy n s.contig.holes = some hole ∧ hd = s.kernel.nextSpace ∧
      (∀ b, b ∈ t.contig.allocated ↔
        b ∈ s.contig.allocated ∨ b = { pid := pid, start := hole.start, size := n, space := hd }) ∧
      (∀ g, g ∈ t.contig.holes ↔
        (g ∈ s.contig.holes ∧ g ≠ hole) ∨
          (n < hole.size ∧ g = { start := hole.start + n, size := hole.size - n })))

/-- Compaction: every block slides down to where the one before it ends, the first to 0; its bytes move with it, its start
only decreases, and what is left is one hole at the end or none (spec/20_memory.md R123). -/
def Obligations.CompactKeepsBytes : Prop :=
  ∀ s : State, BlocksOrdered s.contig.allocated →
    (compact s).contig.allocated.length = s.contig.allocated.length ∧
    (∀ (i : Nat) (b : Block), s.contig.allocated[i]? = some b →
      ∃ c, (compact s).contig.allocated[i]? = some c ∧ c.pid = b.pid ∧ c.size = b.size ∧ c.space = b.space ∧
        c.start = ((s.contig.allocated.take i).map (fun d => d.size)).sum ∧ c.start ≤ b.start ∧
        ∀ k, k < b.size → (compact s).ram.read (c.start + k) = s.ram.read (b.start + k)) ∧
    (compact s).contig.holes =
      (let e := (s.contig.allocated.map (fun d => d.size)).sum
       if s.params.ramSize ≤ e then [] else [{ start := e, size := s.params.ramSize - e }])

/-- A store into one address space is never seen through another: every page of the other space that lies in another frame
stays resident with its bytes (spec/20_memory.md R130, R156, R162). -/
def Obligations.StoreIsolated : Prop :=
  ∀ f ∈ storeForms, ∀ (s t : State) (h h' : Nat) (rs2 rs1 : RegIdx) (imm : BitVec 12) (p q : Pte) (va : Word),
    InSpace s h → h ≠ h' → Resident s h (s.reg rs1 + imm.signExtend 32) p → p.perms.w = true →
    PlainAccess s (s.reg rs1 + imm.signExtend 32) f.2 → Resident s h' va q → q.ppn ≠ p.ppn →
    exec (f.1 rs2 rs1 imm) s = .next t →
    Resident t h' va q ∧ t.ram.read (q.physical va) = s.ram.read (q.physical va)

/-! ## Scheduler and dispatcher -/

/-- `addTask` is idempotent and puts a READY task in at most once (spec/61_dispatcher.md R550, R551). -/
def Obligations.AddTaskOnce : Prop :=
  ∀ (s : State) (who : Holder) (pid : Nat), s.sched.lock = none → s.sched.ready.Nodup →
    (∀ p, p ∈ s.sched.ready ↔ p ∈ s.sched.members) →
    addTask who pid (addTask who pid s) = addTask who pid s ∧
    (addTask who pid s).sched.ready.Nodup ∧
    (∀ p, p ∈ (addTask who pid s).sched.ready ↔ p ∈ (addTask who pid s).sched.members) ∧
    (∀ p, p ∈ (addTask who pid s).sched.ready ↔ p ∈ s.sched.ready ∨ (p = pid ∧ s.taskIs pid .ready = true)) ∧
    (pid ∉ s.sched.ready → s.taskIs pid .ready = true → (addTask who pid s).sched.ready = s.sched.ready ++ [pid])

/-- `schedule()`: the head under ROUND_ROBIN and COOPERATIVE; under PRIORITY the earliest added of the tasks of highest
priority; none exactly where nothing is ready. What it answers leaves the ready collection (spec/61_dispatcher.md R550,
R553, R554, R555). -/
def Obligations.ScheduleChoice : Prop :=
  ∀ (s : State) (who : Holder), s.sched.lock = none →
    ((schedule who s).1 = none ↔ s.sched.ready = []) ∧
    (∀ n, s.params.schedMode = .roundRobin n → (schedule who s).1 = s.sched.ready.head? ∧ timeSlice s = some n) ∧
    (s.params.schedMode = .cooperative → (schedule who s).1 = s.sched.ready.head? ∧ timeSlice s = none) ∧
    (∀ n pid, s.params.schedMode = .priority n → (schedule who s).1 = some pid →
      timeSlice s = some n ∧
      ∃ before after, s.sched.ready = before ++ pid :: after ∧
        (∀ q ∈ before, priorityOf s q < priorityOf s pid) ∧ (∀ q ∈ after, priorityOf s q ≤ priorityOf s pid)) ∧
    (∀ pid, (schedule who s).1 = some pid →
      (schedule who s).2.sched.ready = s.sched.ready.erase pid ∧ pid ∉ (schedule who s).2.sched.members)

/-- `releaseCpu(t); dispatch(t)`: a READY task joins the ready collection, a WAITING one the queue of its wait reason, and a
TERMINATED one wakes a parent that waits for it (spec/61_dispatcher.md R560, R570, R571). -/
def Obligations.DispatchRoutes : Prop :=
  ∀ (s : State) (pid : Nat) (k : Task), s.hart.phase = .release pid → s.task? pid = some k → s.sched.lock = none →
    ∃ t, hartStep s = .next t ∧ t.hart.phase = .loopTop ∧ t.task? pid = some { k with activeHartId := none } ∧
      (k.state = .ready → pid ∉ s.sched.members → t.sched.ready = s.sched.ready ++ [pid] ∧ t.waits = s.waits) ∧
      (k.state = .waiting → k.waitReason = .uartInput →
        t.waits = { s.waits with io := s.waits.io ++ [pid] } ∧ t.sched = s.sched) ∧
      (k.state = .waiting → k.waitReason = .timer →
        t.waits = { s.waits with sleep := s.waits.sleep ++ [(k.wakeupTime, pid)] } ∧ t.sched = s.sched) ∧
      (k.state = .waiting → k.waitReason = .processExit → k.waitingForPid = none →
        t.waits = { s.waits with io := s.waits.io ++ [pid] } ∧ t.sched = s.sched) ∧
      (∀ c, k.state = .waiting → k.waitReason = .processExit → k.waitingForPid = some c →
        t.waits = { s.waits with childTerm := assocSet s.waits.childTerm c pid } ∧ t.sched = s.sched) ∧
      (∀ pp parent, k.state = .terminated → k.parent = some pp → pp ≠ pid → s.task? pp = some parent →
        parent.state = .waiting → parent.waitReason = .processExit →
        (parent.waitingForPid = none ∨ parent.waitingForPid = some pid) →
        t.task? pp = some { parent with state := .ready, waitReason := .none } ∧
        pp ∉ t.waits.io ∧ (∀ e ∈ t.waits.childTerm, e.2 ≠ pp) ∧
        (parent.activeHartId = none → pp ∈ t.sched.ready ∨ pp ∈ s.sched.members))

/-! ## Syscalls -/

/-- EXIT, GETPID, GET_TIME, an unknown number and the bad file descriptors: what the syscall makes of the task's saved record,
and that it changes nothing else (spec/62_syscalls.md R605, R606, R607, R609, R615, R616). -/
def Obligations.TaskSyscalls : Prop :=
  ∀ (s : State) (who : Holder) (pid : Nat) (k : Task), s.task? pid = some k →
    (k.regs[17] = 93#32 → ∃ t, syscall who pid s = .next t ∧
      TaskBecomes s t pid { k with exitCode := k.regs[10], state := .terminated }) ∧
    (k.regs[17] = 172#32 → ∃ t, syscall who pid s = .next t ∧
      TaskBecomes s t pid { k with regs := k.regs.set 10 (BitVec.ofNat 32 pid) }) ∧
    (k.regs[17] = 1001#32 → ∃ t, syscall who pid s = .next t ∧
      TaskBecomes s t pid { k with regs := k.regs.set 10 (BitVec.ofNat 32 (s.io.clock % 2 ^ 32)) }) ∧
    (k.regs[17] ∉ [63#32, 64#32, 93#32, 124#32, 172#32, 220#32, 221#32, 260#32, 1000#32, 1001#32, 1002#32] →
      ∃ t, syscall who pid s = .next t ∧ TaskBecomes s t pid { k with regs := k.regs.set 10 0xFFFFFFFF#32 }) ∧
    (k.regs[17] = 1000#32 → s.params.debugPrintEnabled = false → ∃ t, syscall who pid s = .next t ∧
      TaskBecomes s t pid { k with regs := k.regs.set 10 0xFFFFFFFF#32 }) ∧
    (k.regs[17] = 63#32 → k.regs[10] ≠ 0#32 → ∃ t, syscall who pid s = .next t ∧
      TaskBecomes s t pid { k with regs := k.regs.set 10 0xFFFFFFFF#32 }) ∧
    (k.regs[17] = 64#32 → k.regs[10] ≠ 1#32 → k.regs[10] ≠ 2#32 → ∃ t, syscall who pid s = .next t ∧
      TaskBecomes s t pid { k with regs := k.regs.set 10 0xFFFFFFFF#32 })

/-- The syscalls that leave the task READY or WAITING: YIELD and SLEEP do not rewind and leave a free value in a0; READ with
no input and WAIT with live children only rewind the saved pc by 4 and leave every register (spec/62_syscalls.md R603, R606,
R608, R610, R614). The task is not already TERMINATED (log 10). -/
def Obligations.BlockingSyscalls : Prop :=
  ∀ (s : State) (who : Holder) (pid : Nat) (k : Task), s.task? pid = some k → k.state ≠ .terminated →
    (k.regs[17] = 124#32 → ∃ t v, syscall who pid s = .next t ∧
      TaskBecomes s t pid { k with state := .ready, regs := k.regs.set 10 v }) ∧
    (k.regs[17] = 1002#32 → ∃ t v, syscall who pid s = .next t ∧
      TaskBecomes s t pid { k with
        wakeupTime := s.io.clock + k.regs[10].toNat, state := .waiting, waitReason := .timer,
        regs := k.regs.set 10 v }) ∧
    (k.regs[17] = 63#32 → k.regs[10] = 0#32 → s.io.rxq = [] → ∃ t, syscall who pid s = .next t ∧
      TaskBecomes s t pid { k with state := .waiting, waitReason := .uartInput, pc := k.pc - 4#32 }) ∧
    (k.regs[17] = 260#32 → k.children ≠ [] →
      (∀ c ∈ k.children, ∀ z, s.task? c = some z → z.state = .terminated → z.activeHartId ≠ none) →
      ∃ t, syscall who pid s = .next t ∧
        TaskBecomes s t pid { k with
          waitingForPid := none, state := .waiting, waitReason := .processExit, pc := k.pc - 4#32 }) ∧
    (k.regs[17] = 260#32 → k.children = [] → ∃ t, syscall who pid s = .next t ∧
      TaskBecomes s t pid { k with regs := k.regs.set 10 0xFFFFFFFF#32 })

/-- FORK: the child's record is the parent's with a PID and memory of its own, a0 = 0, READY, held by no hart, no children; it
is enqueued, the parent's a0 is the child's PID, and the child is listed. Only where the copy of the address space fails is
a0 -1 and there is no child. The PID is used up either way (spec/62_syscalls.md R612). Two clauses are the model's own choice:
the child's wakeupTime is 0, of which R612 gives no value (log 28), and no hart changes but for base and limit that follow a block
a compaction moves (log 13). What the copy gives, and when it succeeds, ForkBytes says. -/
def Obligations.ForkCopies : Prop :=
  ∀ (s : State) (who : Holder) (pid : Nat) (k : Task), s.task? pid = some k → k.regs[17] = 220#32 → k.pid = pid →
    s.pidsGiven → s.sched.lock = none → (∀ p ∈ s.sched.members, p < s.kernel.pidCounter) →
    ∃ t, syscall who pid s = .next t ∧ t.kernel.pidCounter = s.kernel.pidCounter + 1 ∧
      t.hart.plain s.params = s.hart.plain s.params ∧
      t.others.map (Hart.plain s.params) = s.others.map (Hart.plain s.params) ∧
      t.io = s.io ∧ t.waits = s.waits ∧ t.params = s.params ∧
      (∀ q, q ≠ pid → q ≠ s.kernel.pidCounter → t.task? q = s.task? q) ∧
      match copySpace k.space s.kernel.pidCounter
          { s with kernel := { s.kernel with pidCounter := s.kernel.pidCounter + 1 } } with
      | .ok h u =>
        t.paging = u.paging ∧ t.contig = u.contig ∧ t.ram = u.ram ∧ t.hart = u.hart ∧ t.others = u.others ∧
        t.sched.ready = s.sched.ready ++ [s.kernel.pidCounter] ∧ t.sched.members = s.sched.members ++ [s.kernel.pidCounter] ∧
        t.task? s.kernel.pidCounter = some { k with
          regs := k.regs.set 10 0#32, pid := s.kernel.pidCounter, parent := some pid, children := [],
          tgid := s.kernel.pidCounter, exitCode := 0#32, state := .ready, waitReason := .none, waitingForPid := none,
          wakeupTime := 0, activeHartId := none, space := h } ∧
        t.task? pid = some { k with
          regs := k.regs.set 10 (BitVec.ofNat 32 s.kernel.pidCounter)
          children := k.children ++ [s.kernel.pidCounter] }
      | .fail _ u =>
        t.paging = u.paging ∧ t.contig = u.contig ∧ t.ram = u.ram ∧ t.hart = u.hart ∧ t.others = u.others ∧
        t.sched = s.sched ∧ t.task? s.kernel.pidCounter = none ∧
        t.task? pid = some { k with regs := k.regs.set 10 0xFFFFFFFF#32 }
      | .refuse _ => False

/-- The copy FORK makes of the caller's memory, and when it succeeds. CONTIGUOUS: where the holes together hold a block, the
child's block has the caller's bytes and every other task's block its own, moved or not; else the copy fails and changes
nothing. PAGED: with a free frame for each private page and each L2 table, each valid page of the caller is in the child's
space with its permissions, a shared one on the same frame, another on a frame of its own with the same bytes; no page the
caller has not is there, and no page of another space changes (spec/20_memory.md R120, R123, R155, R156). -/
def Obligations.ForkBytes : Prop :=
  (∀ (s : State) (st : AllocStrategy) (src cpid : Nat) (b : Block),
    s.params.memMode = .contiguous st → s.blocksTidy → s.block? src = some b → b.size = s.params.contigTaskSize →
    (s.params.contigTaskSize ≤ (s.contig.holes.map (fun h => h.size)).sum →
      ∃ h u c, copySpace src cpid s = .ok h u ∧ h = s.kernel.nextSpace ∧ u.block? h = some c ∧ c.pid = cpid ∧
        c.size = s.params.contigTaskSize ∧
        (∀ i, i < b.size → u.ram.read (c.start + i) = s.ram.read (b.start + i)) ∧
        ∀ g d, s.block? g = some d → ∃ e, u.block? g = some e ∧ e.pid = d.pid ∧ e.size = d.size ∧
          ∀ i, i < d.size → u.ram.read (e.start + i) = s.ram.read (d.start + i)) ∧
    ((s.contig.holes.map (fun h => h.size)).sum < s.params.contigTaskSize →
      ∃ e, copySpace src cpid s = .fail e s)) ∧
  (∀ (s : State) (f : FetchPolicy) (r : Replacement) (src cpid : Nat) (a : AddrSpace),
    s.params.memMode = .paged f r → s.framesTidy → s.space? src = some a →
    (a.mappings.filter (fun m => !m.2.shared)).length + a.directory.length ≤ s.freeFrames.length →
    ∃ h u b, copySpace src cpid s = .ok h u ∧ h = s.kernel.nextSpace ∧ u.space? h = some b ∧ b.pid = cpid ∧
      b.regions = a.regions ∧
      (∀ v p, s.mapping? src v = some p → ∃ q, u.mapping? h v = some q ∧ q.perms = p.perms ∧ q.shared = p.shared ∧
        q.accessed = false ∧ q.dirty = false ∧ (p.shared = true → q.ppn = p.ppn) ∧ (p.shared = false → q.ppn ≠ p.ppn) ∧
        ∀ i, i < 4096 → u.ram.read (q.ppn * 4096 + i) = s.ram.read (p.ppn * 4096 + i)) ∧
      (∀ v, s.mapping? src v = none → u.mapping? h v = none) ∧
      (∀ g, g ≠ h → u.space? g = s.space? g) ∧
      ∀ g v p, s.mapping? g v = some p → ∀ i, i < 4096 → u.ram.read (p.ppn * 4096 + i) = s.ram.read (p.ppn * 4096 + i))

/-- WAIT reaps a zombie no hart holds, which one is free: its exit code is written as a word at the status pointer where that is
not null, then its record and its memory are gone and a0 is its PID; where the write fails a0 is -1 and the child stays
(spec/62_syscalls.md R614). -/
def Obligations.WaitReaps : Prop :=
  ∀ (s : State) (who : Holder) (pid : Nat) (k : Task), s.task? pid = some k → k.regs[17] = 260#32 → pid ∉ k.children →
    (∃ c ∈ k.children, ∃ z, s.task? c = some z ∧ z.state = .terminated ∧ z.activeHartId = none) →
    ∃ s1 c z, s1 = { s with chance := { s.chance with script := s1.chance.script, drawn := s1.chance.drawn } } ∧
      c ∈ k.children ∧ s.task? c = some z ∧ z.state = .terminated ∧ z.activeHartId = none ∧
      (k.regs[10] = 0#32 → ∃ t, syscall who pid s = .next t ∧ Reaped s1 t pid k c z) ∧
      (k.regs[10] ≠ 0#32 →
        match memWrite (hartCtx s1) k.regs[10] 4 z.exitCode s1 with
        | .ok _ u => ∃ t, syscall who pid s = .next t ∧ Reaped u t pid k c z
        | .fail _ u => ∃ t, syscall who pid s = .next t ∧
            TaskBecomes u t pid { k with regs := k.regs.set 10 0xFFFFFFFF#32 }
        | .refuse r => syscall who pid s = .refused r)

/-- The syscalls that read and write the task's memory: READ that takes a byte, WRITE, an enabled DEBUG_PRINT and EXEC. What each
leaves is said of the state in which its last access ends: the caller's record, and nothing else, changes on top of it. A text
that DEBUG_PRINT prints has at most 4096 bytes before its NUL, as spec/92_eei_decisions.md D56 decides (log 34)
(spec/62_syscalls.md R602, R606, R607, R611, R613). -/
def Obligations.MemorySyscalls : Prop :=
  ∀ (s : State) (who : Holder) (pid : Nat) (k : Task), s.task? pid = some k →
    (k.regs[17] = 63#32 → k.regs[10] = 0#32 → ∀ b rest, s.io.rxq = b :: rest →
      match memWrite (hartCtx s) k.regs[11] 1 (b.setWidth 32) { s with io := { s.io with rxq := rest } } with
      | .ok _ u => ∃ t, syscall who pid s = .next t ∧ TaskBecomes u t pid { k with regs := k.regs.set 10 1#32 }
      | .fail _ u => ∃ t, syscall who pid s = .next t ∧ t.io.rxq = rest ∧
          TaskBecomes u t pid { k with regs := k.regs.set 10 0xFFFFFFFF#32 }
      | .refuse r => syscall who pid s = .refused r) ∧
    (k.regs[17] = 64#32 → (k.regs[10] = 1#32 ∨ k.regs[10] = 2#32) → ∀ bs u, EmitsText k.regs[11] bs s u →
      u.io.stdout = s.io.stdout ++ bs ∧
      (bs.length = k.regs[12].toNat → ∃ t, syscall who pid s = .next t ∧
        TaskBecomes u t pid { k with regs := k.regs.set 10 (BitVec.ofNat 32 bs.length) }) ∧
      (bs.length < k.regs[12].toNat →
        match memRead (hartCtx u) (k.regs[11] + BitVec.ofNat 32 bs.length) 1 u with
        | .ok v u1 => v.setWidth 8 = 0#8 → ∃ t, syscall who pid s = .next t ∧
            TaskBecomes u1 t pid { k with regs := k.regs.set 10 (BitVec.ofNat 32 bs.length) }
        | .fail _ u1 => ∃ t, syscall who pid s = .next t ∧
            TaskBecomes u1 t pid { k with regs := k.regs.set 10 0xFFFFFFFF#32 }
        | .refuse r => syscall who pid s = .refused r)) ∧
    (k.regs[17] = 1000#32 → s.params.debugPrintEnabled = true →
      ∀ bs u, ReadsText (hartCtx s) k.regs[10] bs s u →
        (bs.length ≤ 4096 →
          match memRead (hartCtx s) (k.regs[10] + BitVec.ofNat 32 bs.length) 1 u with
          | .ok v u1 => v.setWidth 8 = 0#8 → ∃ t a, syscall who pid s = .next t ∧
              TaskBecomes { u1 with io := { u1.io with hostLog := u1.io.hostLog ++ bs } } t pid
                { k with regs := k.regs.set 10 a }
          | .fail _ u1 => ∃ t, syscall who pid s = .next t ∧
              TaskBecomes u1 t pid { k with regs := k.regs.set 10 0xFFFFFFFF#32 }
          | .refuse r => syscall who pid s = .refused r) ∧
        (bs.length = 4097 → ∃ t, syscall who pid s = .next t ∧
          TaskBecomes u t pid { k with regs := k.regs.set 10 0xFFFFFFFF#32 })) ∧
    (k.regs[17] = 221#32 →
      (∀ c va bs u, TextAt c va bs s u ↔ readString c 4096 va [] s = .ok bs u) ∧
      match readExecArgs (hartCtx s) k.regs[10] k.regs[11] s with
      | .fail _ u => ∃ t, syscall who pid s = .next t ∧
          TaskBecomes u t pid { k with regs := k.regs.set 10 0xFFFFFFFF#32 }
      | .refuse r => syscall who pid s = .refused r
      | .ok a u =>
        match buildImage pid a.1 a.2 u with
        | .fail _ _ => ∃ t, syscall who pid s = .next t ∧
            TaskBecomes u t pid { k with regs := k.regs.set 10 0xFFFFFFFF#32 }
        | .refuse r => syscall who pid s = .refused r
        | .ok img w => ∃ t, syscall who pid s = .next t ∧
            t.task? pid = some { k with
              regs := ((k.regs.set 2 img.2.2).set 11 img.2.2).set 10 (BitVec.ofNat 32 a.2.length)
              pc := img.2.1, space := img.1, stackBase := stackBaseOf w, stackSize := 8192 } ∧
            (∀ q, q ≠ pid → t.task? q = s.task? q) ∧ SpaceGone w t k.space ∧
            t = { w with kernel := { w.kernel with tasks := t.kernel.tasks }, paging := t.paging, contig := t.contig })

/-! ## The maintenance agent and the host -/

/-- A maintenance transition wakes every task in the I/O queue that waits for UART input when a byte waits, and every sleeper
whose time has come: each joins the ready collection. The others stay where they are (spec/61_dispatcher.md R580, R581). -/
def Obligations.MaintainWakes : Prop :=
  ∀ s : State, s.kernel.running = true →
    (∀ w k, s.io.rxq ≠ [] → w ∈ s.waits.io → s.task? w = some k → k.state = .waiting → k.waitReason = .uartInput →
      (maintain s).taskIs w .ready = true ∧ w ∉ (maintain s).waits.io ∧
      (s.sched.lock = none → (∀ p, p ∈ s.sched.ready ↔ p ∈ s.sched.members) → w ∈ (maintain s).sched.ready)) ∧
    (∀ w k, w ∈ s.waits.io → s.task? w = some k → k.waitReason ≠ .uartInput → w ∈ (maintain s).waits.io) ∧
    (s.io.rxq = [] → (maintain s).waits.io = s.waits.io) ∧
    (∀ w n k, (n, w) ∈ s.waits.sleep → n ≤ s.io.clock → s.task? w = some k → k.state = .waiting →
      (maintain s).taskIs w .ready = true ∧
      (s.sched.lock = none → (∀ p, p ∈ s.sched.ready ↔ p ∈ s.sched.members) → w ∈ (maintain s).sched.ready)) ∧
    (∀ p, p ∈ (maintain s).sched.ready →
      p ∈ s.sched.ready ∨ (s.io.rxq ≠ [] ∧ p ∈ s.waits.io) ∨ ∃ n, (n, p) ∈ s.waits.sleep ∧ n ≤ s.io.clock) ∧
    (∀ e ∈ (maintain s).waits.sleep, s.io.clock < e.1 ∧ e ∈ s.waits.sleep) ∧
    (∀ e ∈ s.waits.sleep, s.io.clock < e.1 → e ∈ (maintain s).waits.sleep)

/-- `terminateTask`: the task is TERMINATED, out of the scheduler and out of every wait queue, and where no hart holds it a parent
that waits for it is woken: READY, out of the queues, and in the ready collection if no hart holds it. Every other record, ready
task and wait stays, and nothing else of the state changes but the draws taken. A TERMINATED or unknown task is left alone
(spec/61_dispatcher.md R571, R575). -/
def Obligations.TerminateTask : Prop :=
  ∀ (s : State) (pid : Nat),
    (∀ k, s.task? pid = some k → k.state ≠ .terminated → k.parent ≠ some pid → s.sched.lock = none →
      (∃ code, (terminateTask pid s).task? pid = some { k with state := .terminated, exitCode := code }) ∧
      pid ∉ (terminateTask pid s).sched.ready ∧ pid ∉ (terminateTask pid s).sched.members ∧
      (terminateTask pid s).sched.lock = none ∧ pid ∉ (terminateTask pid s).waits.io ∧
      (∀ e ∈ (terminateTask pid s).waits.sleep, e.2 ≠ pid) ∧ (∀ e ∈ (terminateTask pid s).waits.childTerm, e.2 ≠ pid) ∧
      (∀ pp parent, k.activeHartId = none → k.parent = some pp → s.task? pp = some parent →
        parent.state = .waiting → parent.waitReason = .processExit →
        (parent.waitingForPid = none ∨ parent.waitingForPid = some pid) →
        (terminateTask pid s).task? pp = some { parent with state := .ready, waitReason := .none } ∧
        pp ∉ (terminateTask pid s).waits.io ∧ (∀ e ∈ (terminateTask pid s).waits.childTerm, e.2 ≠ pp) ∧
        (parent.activeHartId = none → (∀ p, p ∈ s.sched.ready ↔ p ∈ s.sched.members) →
          pp ∈ (terminateTask pid s).sched.ready)) ∧
      (∀ q, q ≠ pid →
        (k.activeHartId ≠ none ∨ k.parent ≠ some q ∨ ∀ r, s.task? q = some r → r.waitsFor pid = false) →
        (terminateTask pid s).task? q = s.task? q ∧
        (q ∈ (terminateTask pid s).sched.ready ↔ q ∈ s.sched.ready) ∧
        (q ∈ (terminateTask pid s).sched.members ↔ q ∈ s.sched.members) ∧
        (q ∈ (terminateTask pid s).waits.io ↔ q ∈ s.waits.io) ∧
        (∀ n, (n, q) ∈ (terminateTask pid s).waits.sleep ↔ (n, q) ∈ s.waits.sleep) ∧
        ∀ c, (c, q) ∈ (terminateTask pid s).waits.childTerm ↔ (c, q) ∈ s.waits.childTerm) ∧
      terminateTask pid s = { s with
        kernel := { s.kernel with tasks := (terminateTask pid s).kernel.tasks }, sched := (terminateTask pid s).sched,
        waits := (terminateTask pid s).waits,
        chance := { s.chance with
          script := (terminateTask pid s).chance.script, drawn := (terminateTask pid s).chance.drawn } }) ∧
    (∀ k, s.task? pid = some k → k.state = .terminated → terminateTask pid s = s) ∧
    (s.task? pid = none → terminateTask pid s = s)

/-! ## Reset -/

/-- The values the spec gives the state at power-on, for every setting of the parameters; what it leaves unspecified is left
out (spec/10_state.md R82, spec/70_reset_and_hazards.md R700). -/
def Obligations.PowerOn : Prop :=
  State.reset = State.powerOn Params.standard ∧
  ∀ p : Params, 1 ≤ p.nHarts →
    (State.powerOn p).params = p ∧ (State.powerOn p).harts.map (fun h => h.id) = List.range p.nHarts ∧
    (∀ h ∈ (State.powerOn p).harts,
      h.x[0] = 0#32 ∧ h.pendingEcall = false ∧ h.pendingException = false ∧ h.excCode = .none ∧ h.curTask = none ∧
      h.counter = 0 ∧ h.base = 0#32 ∧ h.limit = BitVec.ofNat 32 p.ramSize) ∧
    (State.powerOn p).kernel.tasks = [] ∧ (State.powerOn p).kernel.pidCounter = 1 ∧
    (State.powerOn p).kernel.running = true ∧ (State.powerOn p).kernel.paused = false ∧
    (State.powerOn p).kernel.delay = 0 ∧ (State.powerOn p).kernel.started = false ∧
    (State.powerOn p).kernel.panic = none ∧
    (State.powerOn p).sched = { ready := [], members := [], lock := none } ∧
    (State.powerOn p).waits = { io := [], sleep := [], childTerm := [] } ∧
    (State.powerOn p).contig = { holes := [{ start := 0, size := p.ramSize }], allocated := [] } ∧
    (State.powerOn p).paging.spaces = [] ∧ (State.powerOn p).paging.ring = [] ∧ (State.powerOn p).paging.recency = [] ∧
    (State.powerOn p).paging.frames.length = p.ramSize / 4096 ∧
    (∀ f, (State.powerOn p).frame f = { free := true, refcount := 0, owner := .none, accessed := false }) ∧
    (State.powerOn p).io.rxq = [] ∧ (State.powerOn p).io.stdout = [] ∧ (State.powerOn p).io.hostLog = [] ∧
    (State.powerOn p).io.stderr = []

/-! ## What every step of the machine keeps -/

/-- RAM keeps its canonical form: addresses strictly rising, no entry equal to what an unlisted byte reads as (log 3). -/
def Obligations.RamCanonicalKept : Prop := ∀ s t : State, s.ram.wf = true → step s = .next t → t.ram.wf = true

/-- x0 holds 0 in every hart and every saved register file (spec/10_state.md R51, R64). -/
def Obligations.ZeroRegsKept : Prop := ∀ s t : State, s.zeroRegs → step s = .next t → t.zeroRegs

/-- PIDs are given out once: the counter never goes back, a PID whose record is gone never comes back, and a TERMINATED task
stays TERMINATED until it is reaped (spec/10_state.md R64, R65, R66, spec/60_exceptions.md R512). -/
def Obligations.TerminatedStays : Prop :=
  ∀ s t : State, s.pidsGiven → step s = .next t →
    t.pidsGiven ∧ s.kernel.pidCounter ≤ t.kernel.pidCounter ∧
    (∀ pid, pid < s.kernel.pidCounter → s.task? pid = none → t.task? pid = none) ∧
    (∀ pid, s.taskIs pid .terminated = true → t.task? pid = none ∨ t.taskIs pid .terminated = true)

/-- At most one hart holds a task: each hart's curTask is what its place in the loop says, and that task's record names the
hart (spec/10_state.md R61, R66, spec/61_dispatcher.md R563). -/
def Obligations.HoldsKept : Prop :=
  (∀ s t : State, s.pidsGiven → s.holds → step s = .next t → t.holds) ∧
  (∀ s : State, s.holds → ∀ g ∈ s.harts, ∀ h ∈ s.harts, ∀ p, g.curTask = some p → h.curTask = some p → g.id = h.id)

/-- The kernel's lists stay tidy: the ready collection without duplicates and equal to the membership set, every record at its
own PID, parents older and children younger than the task (spec/10_state.md R64, R67, R68, spec/61_dispatcher.md R551). -/
def Obligations.KernelTidyKept : Prop := ∀ s t : State, s.tidy → step s = .next t → t.tidy

/-- The scheduler stays in order in every step: each ready task is READY and held by no hart, each queued task WAITING for its
queue's reason and held by no hart, no hart releases a RUNNING task, no two harts have scheduled the same task, and nothing panics; so
schedule() answers only a READY task that no hart holds (spec/61_dispatcher.md R551, R556, R563, R570, R620). -/
def Obligations.SchedulerSound : Prop :=
  (∀ s t : State, s.tidy → s.holds → s.orderly → step s = .next t → t.orderly) ∧
  (∀ (s t : State) (who : Holder) (pid : Nat), s.tidy → s.orderly → schedule who s = (some pid, t) →
    pid ∉ t.sched.ready ∧ ∃ k, s.task? pid = some k ∧ k.state = .ready ∧ k.activeHartId = none)

/-- The CONTIGUOUS lists keep R70's invariants: blocks and holes ordered and apart, holes merged, all inside RAM, and together
all of RAM; each hart that works in a block keeps that block's base and limit; so two harts in different blocks reach no byte
in common (spec/10_state.md R70, spec/20_memory.md R120, R121, R123, R124, R171). CONTIG_TASK_SIZE is not 0. -/
def Obligations.BlocksTidyKept : Prop :=
  (∀ s t : State, s.blocksTidy → step s = .next t → t.blocksTidy) ∧
  (∀ s t : State, s.contexts → step s = .next t → t.contexts) ∧
  (∀ (s : State) (st : AllocStrategy), s.params.memMode = .contiguous st → s.params.ramSize ≤ 2 ^ 32 → s.blocksTidy →
    s.contexts → ∀ g ∈ s.harts, ∀ h ∈ s.harts, ∀ k l b c, g.space = some k → h.space = some l → k ≠ l →
      s.block? k = some b → s.block? l = some c →
      ∀ va wa n m pa qa, translateContig g.base g.limit va n s = .ok pa s → translateContig h.base h.limit wa m s = .ok qa s →
        pa + n ≤ qa ∨ qa + m ≤ pa)

/-- The frame allocator's records agree with the page tables in every step: a frame is free, or a table's, or a data frame whose
refcount is the number of valid PTEs that map it, and these three kinds are all of the frames; and a page that is not shared
has a frame that no other page of any space maps (spec/10_state.md R73, spec/20_memory.md R151, R152, R161, R162). -/
def Obligations.FramesKept : Prop :=
  (∀ s t : State, s.framesTidy → step s = .next t → t.framesTidy) ∧
  (∀ s : State, s.framesTidy →
    let all := List.range s.paging.frames.length
    (all.filter (fun f => (s.frame f).free)).length +
      (all.filter (fun f => !(s.frame f).free && decide ((s.frame f).owner ≠ .pageTable))).length +
      (all.filter (fun f => !(s.frame f).free && decide ((s.frame f).owner = .pageTable))).length = s.paging.frames.length ∧
    (∀ f ∈ all, (s.frame f).owner ≠ .pageTable → (s.frame f).refcount = (mappersOf s f).length) ∧
    (∀ f ∈ all, (s.frame f).free = true ↔ (s.frame f).owner = .none) ∧
    (∀ f ∈ all, (s.frame f).owner = .pageTable → (s.frame f).free = false ∧ (s.frame f).refcount = 1 ∧ mappersOf s f = []) ∧
    ∀ g h v w p q, s.mapping? g v = some p → s.mapping? h w = some q → p.shared = false → p.ppn = q.ppn → g = h ∧ v = w)

/-- No step changes a parameter or the number of frames; a free scheduler lock stays free; the host's streams only grow and
the clock never goes back (spec/00_scope.md R5, spec/61_dispatcher.md R552, spec/10_state.md R77, spec/60_exceptions.md
R530). -/
def Obligations.RunKeeps : Prop :=
  ∀ s t : State, step s = .next t →
    t.params = s.params ∧ t.paging.frames.length = s.paging.frames.length ∧
    (s.sched.lock = none → t.sched.lock = none) ∧
    s.io.stdout <+: t.io.stdout ∧ s.io.hostLog <+: t.io.hostLog ∧ s.io.stderr <+: t.io.stderr ∧ s.io.clock ≤ t.io.clock

/-- A hart's transition changes no other hart, but for base and limit that follow a block which compaction moves; and neither
the maintenance agent nor the host changes any: there are no interrupts (spec/60_exceptions.md R520, R547). -/
def Obligations.HartsApart : Prop :=
  ∀ s t : State, step s = .next t →
    (∀ h, nextAgent s = .hart h → ∀ g ∈ s.harts, g.id ≠ h → ∃ g' ∈ t.harts, g'.plain s.params = g.plain s.params) ∧
    (nextAgent s = .maintenance → t.hart = s.hart ∧ t.others = s.others) ∧
    (∀ a, nextAgent s = .host a → t.hart = s.hart ∧ t.others = s.others)

/-- The machine right after reset meets the invariants (spec/70_reset_and_hazards.md R700). -/
def Obligations.ResetInvariants : Prop :=
  State.reset.ram.wf = true ∧ State.reset.zeroRegs ∧ State.reset.pidsGiven ∧ State.reset.holds ∧
    State.reset.tidy ∧ State.reset.orderly ∧ State.reset.blocksTidy ∧ State.reset.contexts ∧ State.reset.framesTidy ∧
    Params.standard.valid = true

end
end

