-- ==== Sys2Proof/Laws/State.lean ====
section
/-! SUPPORT. One lemma per field per named update of the state: which fields an update leaves as they were, and what it makes
of the field it writes. -/

namespace Sys2Proof.Machine

/-! ### setPc -/

@[simp] theorem State.setPc_params (s : State) (v : Word) : (s.setPc v).params = s.params := rfl
@[simp] theorem State.setPc_others (s : State) (v : Word) : (s.setPc v).others = s.others := rfl
@[simp] theorem State.setPc_kernel (s : State) (v : Word) : (s.setPc v).kernel = s.kernel := rfl
@[simp] theorem State.setPc_sched (s : State) (v : Word) : (s.setPc v).sched = s.sched := rfl
@[simp] theorem State.setPc_waits (s : State) (v : Word) : (s.setPc v).waits = s.waits := rfl
@[simp] theorem State.setPc_contig (s : State) (v : Word) : (s.setPc v).contig = s.contig := rfl
@[simp] theorem State.setPc_paging (s : State) (v : Word) : (s.setPc v).paging = s.paging := rfl
@[simp] theorem State.setPc_ram (s : State) (v : Word) : (s.setPc v).ram = s.ram := rfl
@[simp] theorem State.setPc_io (s : State) (v : Word) : (s.setPc v).io = s.io := rfl
@[simp] theorem State.setPc_chance (s : State) (v : Word) : (s.setPc v).chance = s.chance := rfl

/-! ### advance -/

@[simp] theorem State.advance_params (s : State) : (s.advance).params = s.params := rfl
@[simp] theorem State.advance_others (s : State) : (s.advance).others = s.others := rfl
@[simp] theorem State.advance_kernel (s : State) : (s.advance).kernel = s.kernel := rfl
@[simp] theorem State.advance_sched (s : State) : (s.advance).sched = s.sched := rfl
@[simp] theorem State.advance_waits (s : State) : (s.advance).waits = s.waits := rfl
@[simp] theorem State.advance_contig (s : State) : (s.advance).contig = s.contig := rfl
@[simp] theorem State.advance_paging (s : State) : (s.advance).paging = s.paging := rfl
@[simp] theorem State.advance_ram (s : State) : (s.advance).ram = s.ram := rfl
@[simp] theorem State.advance_io (s : State) : (s.advance).io = s.io := rfl
@[simp] theorem State.advance_chance (s : State) : (s.advance).chance = s.chance := rfl

/-! ### clearFlags -/

@[simp] theorem State.clearFlags_params (s : State) : (s.clearFlags).params = s.params := rfl
@[simp] theorem State.clearFlags_others (s : State) : (s.clearFlags).others = s.others := rfl
@[simp] theorem State.clearFlags_kernel (s : State) : (s.clearFlags).kernel = s.kernel := rfl
@[simp] theorem State.clearFlags_sched (s : State) : (s.clearFlags).sched = s.sched := rfl
@[simp] theorem State.clearFlags_waits (s : State) : (s.clearFlags).waits = s.waits := rfl
@[simp] theorem State.clearFlags_contig (s : State) : (s.clearFlags).contig = s.contig := rfl
@[simp] theorem State.clearFlags_paging (s : State) : (s.clearFlags).paging = s.paging := rfl
@[simp] theorem State.clearFlags_ram (s : State) : (s.clearFlags).ram = s.ram := rfl
@[simp] theorem State.clearFlags_io (s : State) : (s.clearFlags).io = s.io := rfl
@[simp] theorem State.clearFlags_chance (s : State) : (s.clearFlags).chance = s.chance := rfl

/-! ### signalEcall -/

@[simp] theorem State.signalEcall_params (s : State) : (s.signalEcall).params = s.params := rfl
@[simp] theorem State.signalEcall_others (s : State) : (s.signalEcall).others = s.others := rfl
@[simp] theorem State.signalEcall_kernel (s : State) : (s.signalEcall).kernel = s.kernel := rfl
@[simp] theorem State.signalEcall_sched (s : State) : (s.signalEcall).sched = s.sched := rfl
@[simp] theorem State.signalEcall_waits (s : State) : (s.signalEcall).waits = s.waits := rfl
@[simp] theorem State.signalEcall_contig (s : State) : (s.signalEcall).contig = s.contig := rfl
@[simp] theorem State.signalEcall_paging (s : State) : (s.signalEcall).paging = s.paging := rfl
@[simp] theorem State.signalEcall_ram (s : State) : (s.signalEcall).ram = s.ram := rfl
@[simp] theorem State.signalEcall_io (s : State) : (s.signalEcall).io = s.io := rfl
@[simp] theorem State.signalEcall_chance (s : State) : (s.signalEcall).chance = s.chance := rfl

/-! ### raise -/

@[simp] theorem State.raise_params (s : State) (k : ExcCode) (v : Word) : (s.raise k v).params = s.params := rfl
@[simp] theorem State.raise_others (s : State) (k : ExcCode) (v : Word) : (s.raise k v).others = s.others := rfl
@[simp] theorem State.raise_kernel (s : State) (k : ExcCode) (v : Word) : (s.raise k v).kernel = s.kernel := rfl
@[simp] theorem State.raise_sched (s : State) (k : ExcCode) (v : Word) : (s.raise k v).sched = s.sched := rfl
@[simp] theorem State.raise_waits (s : State) (k : ExcCode) (v : Word) : (s.raise k v).waits = s.waits := rfl
@[simp] theorem State.raise_contig (s : State) (k : ExcCode) (v : Word) : (s.raise k v).contig = s.contig := rfl
@[simp] theorem State.raise_paging (s : State) (k : ExcCode) (v : Word) : (s.raise k v).paging = s.paging := rfl
@[simp] theorem State.raise_ram (s : State) (k : ExcCode) (v : Word) : (s.raise k v).ram = s.ram := rfl
@[simp] theorem State.raise_io (s : State) (k : ExcCode) (v : Word) : (s.raise k v).io = s.io := rfl
@[simp] theorem State.raise_chance (s : State) (k : ExcCode) (v : Word) : (s.raise k v).chance = s.chance := rfl

/-! ### goto -/

@[simp] theorem State.goto_params (s : State) (p : Phase) : (s.goto p).params = s.params := rfl
@[simp] theorem State.goto_others (s : State) (p : Phase) : (s.goto p).others = s.others := rfl
@[simp] theorem State.goto_kernel (s : State) (p : Phase) : (s.goto p).kernel = s.kernel := rfl
@[simp] theorem State.goto_sched (s : State) (p : Phase) : (s.goto p).sched = s.sched := rfl
@[simp] theorem State.goto_waits (s : State) (p : Phase) : (s.goto p).waits = s.waits := rfl
@[simp] theorem State.goto_contig (s : State) (p : Phase) : (s.goto p).contig = s.contig := rfl
@[simp] theorem State.goto_paging (s : State) (p : Phase) : (s.goto p).paging = s.paging := rfl
@[simp] theorem State.goto_ram (s : State) (p : Phase) : (s.goto p).ram = s.ram := rfl
@[simp] theorem State.goto_io (s : State) (p : Phase) : (s.goto p).io = s.io := rfl
@[simp] theorem State.goto_chance (s : State) (p : Phase) : (s.goto p).chance = s.chance := rfl

/-! ### putTask -/

@[simp] theorem State.putTask_params (s : State) (t : Task) : (s.putTask t).params = s.params := rfl
@[simp] theorem State.putTask_hart (s : State) (t : Task) : (s.putTask t).hart = s.hart := rfl
@[simp] theorem State.putTask_others (s : State) (t : Task) : (s.putTask t).others = s.others := rfl
@[simp] theorem State.putTask_sched (s : State) (t : Task) : (s.putTask t).sched = s.sched := rfl
@[simp] theorem State.putTask_waits (s : State) (t : Task) : (s.putTask t).waits = s.waits := rfl
@[simp] theorem State.putTask_contig (s : State) (t : Task) : (s.putTask t).contig = s.contig := rfl
@[simp] theorem State.putTask_paging (s : State) (t : Task) : (s.putTask t).paging = s.paging := rfl
@[simp] theorem State.putTask_ram (s : State) (t : Task) : (s.putTask t).ram = s.ram := rfl
@[simp] theorem State.putTask_io (s : State) (t : Task) : (s.putTask t).io = s.io := rfl
@[simp] theorem State.putTask_chance (s : State) (t : Task) : (s.putTask t).chance = s.chance := rfl

/-! ### modTask -/

@[simp] theorem State.modTask_params (s : State) (pid : Nat) (f : Task → Task) : (s.modTask pid f).params = s.params := rfl
@[simp] theorem State.modTask_hart (s : State) (pid : Nat) (f : Task → Task) : (s.modTask pid f).hart = s.hart := rfl
@[simp] theorem State.modTask_others (s : State) (pid : Nat) (f : Task → Task) : (s.modTask pid f).others = s.others := rfl
@[simp] theorem State.modTask_sched (s : State) (pid : Nat) (f : Task → Task) : (s.modTask pid f).sched = s.sched := rfl
@[simp] theorem State.modTask_waits (s : State) (pid : Nat) (f : Task → Task) : (s.modTask pid f).waits = s.waits := rfl
@[simp] theorem State.modTask_contig (s : State) (pid : Nat) (f : Task → Task) : (s.modTask pid f).contig = s.contig := rfl
@[simp] theorem State.modTask_paging (s : State) (pid : Nat) (f : Task → Task) : (s.modTask pid f).paging = s.paging := rfl
@[simp] theorem State.modTask_ram (s : State) (pid : Nat) (f : Task → Task) : (s.modTask pid f).ram = s.ram := rfl
@[simp] theorem State.modTask_io (s : State) (pid : Nat) (f : Task → Task) : (s.modTask pid f).io = s.io := rfl
@[simp] theorem State.modTask_chance (s : State) (pid : Nat) (f : Task → Task) : (s.modTask pid f).chance = s.chance := rfl

/-! ### dropTask -/

@[simp] theorem State.dropTask_params (s : State) (pid : Nat) : (s.dropTask pid).params = s.params := rfl
@[simp] theorem State.dropTask_hart (s : State) (pid : Nat) : (s.dropTask pid).hart = s.hart := rfl
@[simp] theorem State.dropTask_others (s : State) (pid : Nat) : (s.dropTask pid).others = s.others := rfl
@[simp] theorem State.dropTask_sched (s : State) (pid : Nat) : (s.dropTask pid).sched = s.sched := rfl
@[simp] theorem State.dropTask_waits (s : State) (pid : Nat) : (s.dropTask pid).waits = s.waits := rfl
@[simp] theorem State.dropTask_contig (s : State) (pid : Nat) : (s.dropTask pid).contig = s.contig := rfl
@[simp] theorem State.dropTask_paging (s : State) (pid : Nat) : (s.dropTask pid).paging = s.paging := rfl
@[simp] theorem State.dropTask_ram (s : State) (pid : Nat) : (s.dropTask pid).ram = s.ram := rfl
@[simp] theorem State.dropTask_io (s : State) (pid : Nat) : (s.dropTask pid).io = s.io := rfl
@[simp] theorem State.dropTask_chance (s : State) (pid : Nat) : (s.dropTask pid).chance = s.chance := rfl

/-! ### setPanic -/

@[simp] theorem State.setPanic_params (s : State) (r : PanicReason) : (s.setPanic r).params = s.params := rfl
@[simp] theorem State.setPanic_hart (s : State) (r : PanicReason) : (s.setPanic r).hart = s.hart := rfl
@[simp] theorem State.setPanic_others (s : State) (r : PanicReason) : (s.setPanic r).others = s.others := rfl
@[simp] theorem State.setPanic_sched (s : State) (r : PanicReason) : (s.setPanic r).sched = s.sched := rfl
@[simp] theorem State.setPanic_waits (s : State) (r : PanicReason) : (s.setPanic r).waits = s.waits := rfl
@[simp] theorem State.setPanic_contig (s : State) (r : PanicReason) : (s.setPanic r).contig = s.contig := rfl
@[simp] theorem State.setPanic_paging (s : State) (r : PanicReason) : (s.setPanic r).paging = s.paging := rfl
@[simp] theorem State.setPanic_ram (s : State) (r : PanicReason) : (s.setPanic r).ram = s.ram := rfl
@[simp] theorem State.setPanic_io (s : State) (r : PanicReason) : (s.setPanic r).io = s.io := rfl
@[simp] theorem State.setPanic_chance (s : State) (r : PanicReason) : (s.setPanic r).chance = s.chance := rfl

/-! ### modSpace -/

@[simp] theorem State.modSpace_params (s : State) (h : Nat) (f : AddrSpace → AddrSpace) : (s.modSpace h f).params = s.params := rfl
@[simp] theorem State.modSpace_hart (s : State) (h : Nat) (f : AddrSpace → AddrSpace) : (s.modSpace h f).hart = s.hart := rfl
@[simp] theorem State.modSpace_others (s : State) (h : Nat) (f : AddrSpace → AddrSpace) : (s.modSpace h f).others = s.others := rfl
@[simp] theorem State.modSpace_kernel (s : State) (h : Nat) (f : AddrSpace → AddrSpace) : (s.modSpace h f).kernel = s.kernel := rfl
@[simp] theorem State.modSpace_sched (s : State) (h : Nat) (f : AddrSpace → AddrSpace) : (s.modSpace h f).sched = s.sched := rfl
@[simp] theorem State.modSpace_waits (s : State) (h : Nat) (f : AddrSpace → AddrSpace) : (s.modSpace h f).waits = s.waits := rfl
@[simp] theorem State.modSpace_contig (s : State) (h : Nat) (f : AddrSpace → AddrSpace) : (s.modSpace h f).contig = s.contig := rfl
@[simp] theorem State.modSpace_ram (s : State) (h : Nat) (f : AddrSpace → AddrSpace) : (s.modSpace h f).ram = s.ram := rfl
@[simp] theorem State.modSpace_io (s : State) (h : Nat) (f : AddrSpace → AddrSpace) : (s.modSpace h f).io = s.io := rfl
@[simp] theorem State.modSpace_chance (s : State) (h : Nat) (f : AddrSpace → AddrSpace) : (s.modSpace h f).chance = s.chance := rfl

/-! ### setFrame -/

@[simp] theorem State.setFrame_params (s : State) (f : Nat) (fr : Frame) : (s.setFrame f fr).params = s.params := rfl
@[simp] theorem State.setFrame_hart (s : State) (f : Nat) (fr : Frame) : (s.setFrame f fr).hart = s.hart := rfl
@[simp] theorem State.setFrame_others (s : State) (f : Nat) (fr : Frame) : (s.setFrame f fr).others = s.others := rfl
@[simp] theorem State.setFrame_kernel (s : State) (f : Nat) (fr : Frame) : (s.setFrame f fr).kernel = s.kernel := rfl
@[simp] theorem State.setFrame_sched (s : State) (f : Nat) (fr : Frame) : (s.setFrame f fr).sched = s.sched := rfl
@[simp] theorem State.setFrame_waits (s : State) (f : Nat) (fr : Frame) : (s.setFrame f fr).waits = s.waits := rfl
@[simp] theorem State.setFrame_contig (s : State) (f : Nat) (fr : Frame) : (s.setFrame f fr).contig = s.contig := rfl
@[simp] theorem State.setFrame_ram (s : State) (f : Nat) (fr : Frame) : (s.setFrame f fr).ram = s.ram := rfl
@[simp] theorem State.setFrame_io (s : State) (f : Nat) (fr : Frame) : (s.setFrame f fr).io = s.io := rfl
@[simp] theorem State.setFrame_chance (s : State) (f : Nat) (fr : Frame) : (s.setFrame f fr).chance = s.chance := rfl

/-! ### zeroFrame -/

@[simp] theorem State.zeroFrame_params (s : State) (f : Nat) : (s.zeroFrame f).params = s.params := rfl
@[simp] theorem State.zeroFrame_hart (s : State) (f : Nat) : (s.zeroFrame f).hart = s.hart := rfl
@[simp] theorem State.zeroFrame_others (s : State) (f : Nat) : (s.zeroFrame f).others = s.others := rfl
@[simp] theorem State.zeroFrame_kernel (s : State) (f : Nat) : (s.zeroFrame f).kernel = s.kernel := rfl
@[simp] theorem State.zeroFrame_sched (s : State) (f : Nat) : (s.zeroFrame f).sched = s.sched := rfl
@[simp] theorem State.zeroFrame_waits (s : State) (f : Nat) : (s.zeroFrame f).waits = s.waits := rfl
@[simp] theorem State.zeroFrame_contig (s : State) (f : Nat) : (s.zeroFrame f).contig = s.contig := rfl
@[simp] theorem State.zeroFrame_paging (s : State) (f : Nat) : (s.zeroFrame f).paging = s.paging := rfl
@[simp] theorem State.zeroFrame_io (s : State) (f : Nat) : (s.zeroFrame f).io = s.io := rfl
@[simp] theorem State.zeroFrame_chance (s : State) (f : Nat) : (s.zeroFrame f).chance = s.chance := rfl

/-! ### storeBytes -/

@[simp] theorem State.storeBytes_params (s : State) (pa : Nat) (bs : List Byte) : (s.storeBytes pa bs).params = s.params := rfl
@[simp] theorem State.storeBytes_hart (s : State) (pa : Nat) (bs : List Byte) : (s.storeBytes pa bs).hart = s.hart := rfl
@[simp] theorem State.storeBytes_others (s : State) (pa : Nat) (bs : List Byte) : (s.storeBytes pa bs).others = s.others := rfl
@[simp] theorem State.storeBytes_kernel (s : State) (pa : Nat) (bs : List Byte) : (s.storeBytes pa bs).kernel = s.kernel := rfl
@[simp] theorem State.storeBytes_sched (s : State) (pa : Nat) (bs : List Byte) : (s.storeBytes pa bs).sched = s.sched := rfl
@[simp] theorem State.storeBytes_waits (s : State) (pa : Nat) (bs : List Byte) : (s.storeBytes pa bs).waits = s.waits := rfl
@[simp] theorem State.storeBytes_contig (s : State) (pa : Nat) (bs : List Byte) : (s.storeBytes pa bs).contig = s.contig := rfl
@[simp] theorem State.storeBytes_paging (s : State) (pa : Nat) (bs : List Byte) : (s.storeBytes pa bs).paging = s.paging := rfl
@[simp] theorem State.storeBytes_io (s : State) (pa : Nat) (bs : List Byte) : (s.storeBytes pa bs).io = s.io := rfl
@[simp] theorem State.storeBytes_chance (s : State) (pa : Nat) (bs : List Byte) : (s.storeBytes pa bs).chance = s.chance := rfl

/-! ### logLine -/

@[simp] theorem State.logLine_params (s : State) : (s.logLine).params = s.params := rfl
@[simp] theorem State.logLine_hart (s : State) : (s.logLine).hart = s.hart := rfl
@[simp] theorem State.logLine_others (s : State) : (s.logLine).others = s.others := rfl
@[simp] theorem State.logLine_kernel (s : State) : (s.logLine).kernel = s.kernel := rfl
@[simp] theorem State.logLine_sched (s : State) : (s.logLine).sched = s.sched := rfl
@[simp] theorem State.logLine_waits (s : State) : (s.logLine).waits = s.waits := rfl
@[simp] theorem State.logLine_contig (s : State) : (s.logLine).contig = s.contig := rfl
@[simp] theorem State.logLine_paging (s : State) : (s.logLine).paging = s.paging := rfl
@[simp] theorem State.logLine_ram (s : State) : (s.logLine).ram = s.ram := rfl
/-! ### setReg -/

@[simp] theorem State.setReg_params (s : State) (r : RegIdx) (v : Word) : (s.setReg r v).params = s.params := by
  unfold State.setReg; split <;> rfl
@[simp] theorem State.setReg_others (s : State) (r : RegIdx) (v : Word) : (s.setReg r v).others = s.others := by
  unfold State.setReg; split <;> rfl
@[simp] theorem State.setReg_kernel (s : State) (r : RegIdx) (v : Word) : (s.setReg r v).kernel = s.kernel := by
  unfold State.setReg; split <;> rfl
@[simp] theorem State.setReg_sched (s : State) (r : RegIdx) (v : Word) : (s.setReg r v).sched = s.sched := by
  unfold State.setReg; split <;> rfl
@[simp] theorem State.setReg_waits (s : State) (r : RegIdx) (v : Word) : (s.setReg r v).waits = s.waits := by
  unfold State.setReg; split <;> rfl
@[simp] theorem State.setReg_contig (s : State) (r : RegIdx) (v : Word) : (s.setReg r v).contig = s.contig := by
  unfold State.setReg; split <;> rfl
@[simp] theorem State.setReg_paging (s : State) (r : RegIdx) (v : Word) : (s.setReg r v).paging = s.paging := by
  unfold State.setReg; split <;> rfl
@[simp] theorem State.setReg_ram (s : State) (r : RegIdx) (v : Word) : (s.setReg r v).ram = s.ram := by
  unfold State.setReg; split <;> rfl
@[simp] theorem State.setReg_io (s : State) (r : RegIdx) (v : Word) : (s.setReg r v).io = s.io := by
  unfold State.setReg; split <;> rfl
@[simp] theorem State.setReg_chance (s : State) (r : RegIdx) (v : Word) : (s.setReg r v).chance = s.chance := by
  unfold State.setReg; split <;> rfl
@[simp] theorem State.setReg_hart_id (s : State) (r : RegIdx) (v : Word) : (s.setReg r v).hart.id = s.hart.id := by
  unfold State.setReg; split <;> rfl
@[simp] theorem State.setReg_hart_pc (s : State) (r : RegIdx) (v : Word) : (s.setReg r v).hart.pc = s.hart.pc := by
  unfold State.setReg; split <;> rfl
@[simp] theorem State.setReg_hart_pendingEcall (s : State) (r : RegIdx) (v : Word) : (s.setReg r v).hart.pendingEcall = s.hart.pendingEcall := by
  unfold State.setReg; split <;> rfl
@[simp] theorem State.setReg_hart_pendingException (s : State) (r : RegIdx) (v : Word) : (s.setReg r v).hart.pendingException = s.hart.pendingException := by
  unfold State.setReg; split <;> rfl
@[simp] theorem State.setReg_hart_excCode (s : State) (r : RegIdx) (v : Word) : (s.setReg r v).hart.excCode = s.hart.excCode := by
  unfold State.setReg; split <;> rfl
@[simp] theorem State.setReg_hart_excValue (s : State) (r : RegIdx) (v : Word) : (s.setReg r v).hart.excValue = s.hart.excValue := by
  unfold State.setReg; split <;> rfl
@[simp] theorem State.setReg_hart_curTask (s : State) (r : RegIdx) (v : Word) : (s.setReg r v).hart.curTask = s.hart.curTask := by
  unfold State.setReg; split <;> rfl
@[simp] theorem State.setReg_hart_space (s : State) (r : RegIdx) (v : Word) : (s.setReg r v).hart.space = s.hart.space := by
  unfold State.setReg; split <;> rfl
@[simp] theorem State.setReg_hart_base (s : State) (r : RegIdx) (v : Word) : (s.setReg r v).hart.base = s.hart.base := by
  unfold State.setReg; split <;> rfl
@[simp] theorem State.setReg_hart_limit (s : State) (r : RegIdx) (v : Word) : (s.setReg r v).hart.limit = s.hart.limit := by
  unfold State.setReg; split <;> rfl
@[simp] theorem State.setReg_hart_counter (s : State) (r : RegIdx) (v : Word) : (s.setReg r v).hart.counter = s.hart.counter := by
  unfold State.setReg; split <;> rfl
@[simp] theorem State.setReg_hart_phase (s : State) (r : RegIdx) (v : Word) : (s.setReg r v).hart.phase = s.hart.phase := by
  unfold State.setReg; split <;> rfl

/-! ### What the hart's updates write -/

@[simp] theorem State.setPc_hart (s : State) (v : Word) : (s.setPc v).hart = { s.hart with pc := v } := rfl
@[simp] theorem State.setPc_pc (s : State) (v : Word) : (s.setPc v).pc = v := rfl
@[simp] theorem State.setPc_reg (s : State) (v : Word) (r : RegIdx) : (s.setPc v).reg r = s.reg r := rfl
@[simp] theorem State.advance_hart (s : State) : s.advance.hart = { s.hart with pc := s.pc + 4#32 } := rfl
@[simp] theorem State.advance_pc (s : State) : s.advance.pc = s.pc + 4#32 := rfl
@[simp] theorem State.advance_reg (s : State) (r : RegIdx) : s.advance.reg r = s.reg r := rfl
@[simp] theorem State.setReg_pc (s : State) (r : RegIdx) (v : Word) : (s.setReg r v).pc = s.pc := by
  unfold State.setReg; split <;> rfl
@[simp] theorem State.clearFlags_pc (s : State) : s.clearFlags.pc = s.pc := rfl
@[simp] theorem State.clearFlags_reg (s : State) (r : RegIdx) : s.clearFlags.reg r = s.reg r := rfl
@[simp] theorem State.clearFlags_idem (s : State) : s.clearFlags.clearFlags = s.clearFlags := rfl
@[simp] theorem State.signalEcall_pc (s : State) : s.signalEcall.pc = s.pc := rfl
@[simp] theorem State.signalEcall_hart (s : State) : s.signalEcall.hart = { s.hart with pendingEcall := true } := rfl
@[simp] theorem State.raise_hart (s : State) (k : ExcCode) (v : Word) :
    (s.raise k v).hart = { s.hart with pendingException := true, excCode := k, excValue := v } := rfl
@[simp] theorem State.raise_pc (s : State) (k : ExcCode) (v : Word) : (s.raise k v).pc = s.pc := rfl
@[simp] theorem State.raise_reg (s : State) (k : ExcCode) (v : Word) (r : RegIdx) : (s.raise k v).reg r = s.reg r := rfl
@[simp] theorem State.goto_hart (s : State) (p : Phase) : (s.goto p).hart = { s.hart with phase := p } := rfl

/-- x0 reads 0. -/
@[simp] theorem State.reg_zero (s : State) : s.reg 0#5 = 0#32 := rfl

/-- Reading a register after writing one. -/
theorem State.setReg_reg (s : State) (rd r : RegIdx) (v : Word) :
    (s.setReg rd v).reg r = if r = rd ∧ r ≠ 0#5 then v else s.reg r := by
  by_cases h0 : r = 0#5
  · subst h0; simp [State.reg]
  · by_cases hd : rd = 0#5
    · subst hd; simp [State.setReg, h0]
    · by_cases hr : r = rd
      · subst hr; simp [State.setReg, State.reg, h0]
      · have hn : ¬rd.toNat = r.toNat := fun h => hr (BitVec.eq_of_toNat_eq h.symm)
        simp [State.setReg, State.reg, h0, hd, hr, hn]

/-- The raw x0 cell is never written. -/
@[simp] theorem State.setReg_x0 (s : State) (rd : RegIdx) (v : Word) : (s.setReg rd v).hart.x[0] = s.hart.x[0] := by
  unfold State.setReg
  split
  · rfl
  · rename_i h
    have hn : rd.toNat ≠ 0 := fun e => h (BitVec.eq_of_toNat_eq (by simpa using e))
    simp [hn]

/-! ### What the kernel's and the MMU's updates write -/

@[simp] theorem State.putTask_tasks (s : State) (t : Task) :
    (s.putTask t).kernel.tasks = assocSet s.kernel.tasks t.pid t := rfl
@[simp] theorem State.modTask_tasks (s : State) (pid : Nat) (f : Task → Task) :
    (s.modTask pid f).kernel.tasks = assocModify s.kernel.tasks pid f := rfl
@[simp] theorem State.dropTask_tasks (s : State) (pid : Nat) :
    (s.dropTask pid).kernel.tasks = assocErase s.kernel.tasks pid := rfl
@[simp] theorem State.putTask_pidCounter (s : State) (t : Task) : (s.putTask t).kernel.pidCounter = s.kernel.pidCounter := rfl
@[simp] theorem State.modTask_pidCounter (s : State) (pid : Nat) (f : Task → Task) :
    (s.modTask pid f).kernel.pidCounter = s.kernel.pidCounter := rfl
@[simp] theorem State.dropTask_pidCounter (s : State) (pid : Nat) :
    (s.dropTask pid).kernel.pidCounter = s.kernel.pidCounter := rfl
@[simp] theorem State.setPanic_tasks (s : State) (r : PanicReason) : (s.setPanic r).kernel.tasks = s.kernel.tasks := rfl
@[simp] theorem State.setPanic_pidCounter (s : State) (r : PanicReason) :
    (s.setPanic r).kernel.pidCounter = s.kernel.pidCounter := rfl
@[simp] theorem State.setFrame_frames_length (s : State) (f : Nat) (fr : Frame) :
    (s.setFrame f fr).paging.frames.length = s.paging.frames.length := by simp [State.setFrame]
@[simp] theorem State.setFrame_spaces (s : State) (f : Nat) (fr : Frame) :
    (s.setFrame f fr).paging.spaces = s.paging.spaces := rfl
@[simp] theorem State.modSpace_frames (s : State) (h : Nat) (f : AddrSpace → AddrSpace) :
    (s.modSpace h f).paging.frames = s.paging.frames := rfl
@[simp] theorem State.modSpace_spaces (s : State) (h : Nat) (f : AddrSpace → AddrSpace) :
    (s.modSpace h f).paging.spaces = assocModify s.paging.spaces h f := rfl
@[simp] theorem State.zeroFrame_ram (s : State) (f : Nat) : (s.zeroFrame f).ram = s.ram.zero (f * 4096) 4096 := rfl
@[simp] theorem State.storeBytes_ram (s : State) (pa : Nat) (bs : List Byte) :
    (s.storeBytes pa bs).ram = s.ram.writeBytes pa bs := rfl

end Sys2Proof.Machine
end

