-- ==== Sys2Proof/Laws/Memory.lean ====
section
/-! SUPPORT. The laws of sparse lists and of memory: a read after a write, and that every operation keeps the canonical
form. -/

namespace Sys2Proof.Machine

/-! ### Sparse lists -/

theorem assocGet_set {α : Type} (l : List (Nat × α)) (j k : Nat) (v : α) :
    assocGet (assocSet l k v) j = if j = k then some v else assocGet l j := by
  induction l with
  | nil => simp only [assocSet, assocGet]; split <;> split <;> first | rfl | omega
  | cons e rest ih =>
    obtain ⟨i, u⟩ := e
    simp only [assocSet]
    split
    · simp only [assocGet, ih]
      repeat' split
      all_goals first | rfl | omega
    · split
      · simp only [assocGet]
        repeat' split
        all_goals first | rfl | omega
      · simp only [assocGet]
        repeat' split
        all_goals first | rfl | omega

theorem assocGet_modify {α : Type} (l : List (Nat × α)) (j k : Nat) (f : α → α) :
    assocGet (assocModify l k f) j = if j = k then (assocGet l j).map f else assocGet l j := by
  unfold assocModify
  induction l with
  | nil => simp [assocGet]
  | cons e rest ih =>
    obtain ⟨i, u⟩ := e
    simp only [List.map_cons]
    by_cases hi : i = k
    · simp only [hi, if_true, assocGet, ih]
      repeat' split
      all_goals first | rfl | omega
    · simp only [hi, if_false, assocGet, ih]
      repeat' split
      all_goals first | rfl | omega

theorem assocGet_erase {α : Type} (l : List (Nat × α)) (j k : Nat) :
    assocGet (assocErase l k) j = if j = k then none else assocGet l j := by
  unfold assocErase
  induction l with
  | nil => simp [assocGet]
  | cons e rest ih =>
    obtain ⟨i, u⟩ := e
    by_cases hi : i = k
    · simp only [List.filter_cons, hi, ne_eq, not_true_eq_false, decide_false, Bool.false_eq_true, if_false, ih, assocGet]
      repeat' split
      all_goals first | rfl | omega
    · simp only [List.filter_cons, hi, ne_eq, not_false_eq_true, decide_true, if_true, ih, assocGet]
      repeat' split
      all_goals first | rfl | omega

theorem mem_assocSet {α : Type} {l : List (Nat × α)} {k : Nat} {v : α} {e : Nat × α} (h : e ∈ assocSet l k v) :
    e = (k, v) ∨ e ∈ l := by
  induction l with
  | nil => simpa [assocSet] using h
  | cons d rest ih =>
    obtain ⟨i, u⟩ := d
    simp only [assocSet] at h
    split at h
    · rcases List.mem_cons.1 h with h | h
      · exact .inr (by simp [h])
      · exact (ih h).imp_right (by simp +contextual)
    · split at h
      · rcases List.mem_cons.1 h with h | h
        · exact .inl h
        · exact .inr (by simp [h])
      · rcases List.mem_cons.1 h with h | h
        · exact .inl h
        · exact .inr h

theorem mem_of_assocGet {α : Type} {l : List (Nat × α)} {k : Nat} {v : α} (h : assocGet l k = some v) : (k, v) ∈ l := by
  induction l with
  | nil => simp [assocGet] at h
  | cons d rest ih =>
    obtain ⟨i, u⟩ := d
    simp only [assocGet] at h
    split at h
    · rename_i hi; cases h; subst hi; exact List.mem_cons_self
    · exact List.mem_cons_of_mem _ (ih h)

theorem assocGet_of_mem_key {α : Type} {l : List (Nat × α)} {e : Nat × α} (h : e ∈ l) : (assocGet l e.1).isSome := by
  induction l with
  | nil => cases h
  | cons d rest ih =>
    obtain ⟨i, u⟩ := d
    simp only [assocGet]
    split
    · rfl
    · rename_i hi
      rcases List.mem_cons.1 h with h | h
      · subst h; exact absurd rfl hi
      · exact ih h

/-- Keys strictly rising, said of the list of keys. -/
theorem assocSorted_iff {α : Type} (l : List (Nat × α)) :
    assocSorted l = true ↔ l.Pairwise (fun a b => a.1 < b.1) := by
  induction l with
  | nil => simp [assocSorted]
  | cons a rest ih =>
    cases rest with
    | nil => simp [assocSorted]
    | cons b rest =>
      obtain ⟨i, u⟩ := a
      obtain ⟨j, v⟩ := b
      rw [assocSorted, Bool.and_eq_true, ih, List.pairwise_cons (a := (i, u)), decide_eq_true_iff]
      constructor
      · rintro ⟨hij, hp⟩
        refine ⟨?_, hp⟩
        intro c hc
        rcases List.mem_cons.1 hc with hc | hc
        · subst hc; exact hij
        · exact Nat.lt_trans hij ((List.pairwise_cons.1 hp).1 c hc)
      · rintro ⟨ha, hp⟩
        exact ⟨ha (j, v) List.mem_cons_self, hp⟩

theorem assocSorted_set {α : Type} {l : List (Nat × α)} (h : l.Pairwise (fun a b => a.1 < b.1)) (k : Nat) (v : α) :
    (assocSet l k v).Pairwise (fun a b => a.1 < b.1) := by
  induction l with
  | nil => simp [assocSet]
  | cons d rest ih =>
    obtain ⟨i, u⟩ := d
    have hd := List.pairwise_cons.1 h
    simp only [assocSet]
    split
    · refine List.pairwise_cons.2 ⟨?_, ih hd.2⟩
      intro c hc
      rcases mem_assocSet hc with hc | hc
      · subst hc; assumption
      · exact hd.1 c hc
    · split
      · rename_i hik
        subst hik
        exact List.pairwise_cons.2 ⟨hd.1, hd.2⟩
      · refine List.pairwise_cons.2 ⟨?_, h⟩
        intro c hc
        rcases List.mem_cons.1 hc with hc | hc
        · subst hc; show k < i; omega
        · have := hd.1 c hc; show k < c.1; simp at this; omega

/-! ### Memory -/

theorem Memory.wf_iff (m : Memory) :
    m.wf = true ↔ m.Pairwise (fun a b => a.1 < b.1) ∧ ∀ c ∈ m, c.2 ≠ 0#8 := by
  simp [Memory.wf, assocSorted_iff]

/-- A read after a write. -/
theorem Memory.read_write (m : Memory) (a b : Nat) (v : Byte) :
    (m.write a v).read b = if b = a then v else m.read b := by
  unfold Memory.read Memory.write
  split
  · rename_i hv
    rw [assocGet_erase]
    split <;> simp [hv]
  · rw [assocGet_set]
    split <;> rfl

theorem Memory.wf_write {m : Memory} (h : m.wf = true) (a : Nat) (v : Byte) : (m.write a v).wf = true := by
  rw [Memory.wf_iff] at h ⊢
  unfold Memory.write
  split
  · exact ⟨h.1.filter _, fun c hc => h.2 c (List.mem_filter.1 hc).1⟩
  · rename_i hv
    refine ⟨assocSorted_set h.1 a v, fun c hc => ?_⟩
    rcases mem_assocSet hc with hc | hc
    · subst hc; exact hv
    · exact h.2 c hc

theorem Memory.wf_writeBytes {m : Memory} (h : m.wf = true) (a : Nat) (bs : List Byte) : (m.writeBytes a bs).wf = true := by
  induction bs generalizing m a with
  | nil => exact h
  | cons b bs ih => exact ih (Memory.wf_write h a b) (a + 1)

/-- A read after a write of consecutive bytes. -/
theorem Memory.read_writeBytes (m : Memory) (a b : Nat) (bs : List Byte) :
    (m.writeBytes a bs).read b = if a ≤ b ∧ b < a + bs.length then bs.getD (b - a) 0#8 else m.read b := by
  induction bs generalizing m a with
  | nil => simp [Memory.writeBytes]
  | cons x bs ih =>
    simp only [Memory.writeBytes, ih, Memory.read_write, List.length_cons]
    by_cases h1 : a + 1 ≤ b ∧ b < a + 1 + bs.length
    · have h2 : a ≤ b ∧ b < a + (bs.length + 1) := by omega
      have h3 : b - a = (b - (a + 1)) + 1 := by omega
      simp [h1, h2, h3]
    · by_cases h4 : b = a
      · subst h4
        simp
      · have h2 : ¬(a ≤ b ∧ b < a + (bs.length + 1)) := by omega
        rw [if_neg h1, if_neg h4, if_neg h2]

theorem Memory.wf_zero {m : Memory} (h : m.wf = true) (a n : Nat) : (m.zero a n).wf = true := by
  rw [Memory.wf_iff] at h ⊢
  exact ⟨h.1.filter _, fun c hc => h.2 c (List.mem_filter.1 hc).1⟩

/-- A read after a range is made zero. -/
theorem Memory.read_zero (m : Memory) (a n b : Nat) :
    (m.zero a n).read b = if a ≤ b ∧ b < a + n then 0#8 else m.read b := by
  unfold Memory.zero Memory.read
  induction m with
  | nil => simp [assocGet]
  | cons e rest ih =>
    obtain ⟨i, u⟩ := e
    by_cases hi : a ≤ i ∧ i < a + n
    · have hf : (!(decide (a ≤ i) && decide (i < a + n))) = false := by simp [hi.1, hi.2]
      rw [List.filter_cons, hf]
      simp only [Bool.false_eq_true, if_false, ih, assocGet]
      repeat' split
      all_goals first | rfl | omega
    · have hf : (!(decide (a ≤ i) && decide (i < a + n))) = true := by
        simp only [Bool.not_eq_true', Bool.and_eq_false_iff, decide_eq_false_iff_not]; omega
      rw [List.filter_cons, hf]
      simp only [if_true, assocGet]
      by_cases hib : i = b
      · subst hib; simp [hi]
      · simp only [hib, if_false, ih]

theorem Memory.readBytes_length (m : Memory) (a n : Nat) : (m.readBytes a n).length = n := by
  simp [Memory.readBytes]

theorem Memory.readBytes_getD (m : Memory) (a n k : Nat) (h : k < n) : (m.readBytes a n).getD k 0#8 = m.read (a + k) := by
  simp [Memory.readBytes, h]

theorem Memory.wf_copy {m : Memory} (h : m.wf = true) (src dst n : Nat) : (m.copy src dst n).wf = true :=
  Memory.wf_writeBytes h _ _

/-- A read after a copy: the bytes of the source as they were before it. -/
theorem Memory.read_copy (m : Memory) (src dst n b : Nat) :
    (m.copy src dst n).read b = if dst ≤ b ∧ b < dst + n then m.read (src + (b - dst)) else m.read b := by
  rw [Memory.copy, Memory.read_writeBytes, Memory.readBytes_length]
  split
  · rename_i h
    exact Memory.readBytes_getD m src n (b - dst) (by omega)
  · rfl

/-- Bytes that read the same give the same value. -/
theorem Memory.readBytes_congr {m m' : Memory} {a n : Nat} (h : ∀ k, k < n → m'.read (a + k) = m.read (a + k)) :
    m'.readBytes a n = m.readBytes a n := by
  unfold Memory.readBytes
  exact List.map_congr_left (fun k hk => h k (List.mem_range.1 hk))

theorem littleEndian_zeros (n : Nat) : littleEndian (List.replicate n 0#8) = 0#32 := by
  induction n with
  | zero => rfl
  | succ n ih => simp [List.replicate_succ, littleEndian, ih]

/-- A range of zero bytes reads as the value 0. -/
theorem ramValue_zero {s : State} {pa n : Nat} (h : ∀ k, k < n → s.ram.read (pa + k) = 0#8) : ramValue s pa n = 0#32 := by
  have : s.ram.readBytes pa n = List.replicate n 0#8 := by
    unfold Memory.readBytes
    rw [List.eq_replicate_iff]
    exact ⟨by simp, fun b hb => by
      obtain ⟨k, hk, rfl⟩ := List.mem_map.1 hb
      exact h k (List.mem_range.1 hk)⟩
  rw [ramValue, this, littleEndian_zeros]

end Sys2Proof.Machine
end

