-- ==== Sys2Proof/Laws/Blocks.lean ====
section
/-! SUPPORT. The contiguous MMU's lists: what placing, freeing and sliding blocks does to them, and that they stay tidy. -/

namespace Sys2Proof.Machine

/-- The hole a strategy picks is one of the holes, and large enough. -/
theorem pickHole_mem {st : AllocStrategy} {n : Nat} {holes : List Hole} {h : Hole} (e : pickHole st n holes = some h) :
    h ∈ holes ∧ n ≤ h.size := by
  have key : ∀ (l : List Hole) (acc : Option Hole),
      l.foldl (fun best h => match best with
        | none => some h
        | some b => if h.betterThan st b then some h else some b) acc = some h → h ∈ l ∨ acc = some h := by
    intro l
    induction l with
    | nil => exact fun acc hl => .inr hl
    | cons x l ih =>
      intro acc hl
      rcases ih _ hl with h1 | h1
      · exact .inl (List.mem_cons_of_mem _ h1)
      · cases acc with
        | none => cases h1; exact .inl List.mem_cons_self
        | some b =>
          dsimp only at h1
          split at h1
          · cases h1; exact .inl List.mem_cons_self
          · exact .inr h1
  have hm := (key _ _ e).resolve_right nofun
  simpa using hm

theorem insertBlock_perm (b : Block) (l : List Block) : (insertBlock b l).Perm (b :: l) := by
  induction l with
  | nil => exact .refl _
  | cons c l ih =>
    unfold insertBlock
    split
    · exact .refl _
    · exact (ih.cons c).trans (.swap b c l)

theorem insertBlock_ordered {b : Block} {l : List Block} (hl : BlocksOrdered l) (hb : 0 < b.size) (hp : ∀ c ∈ l, 0 < c.size)
    (hd : ∀ c ∈ l, b.start + b.size ≤ c.start ∨ c.start + c.size ≤ b.start) : BlocksOrdered (insertBlock b l) := by
  induction l with
  | nil => exact List.pairwise_singleton _ _
  | cons c l ih =>
    obtain ⟨h1, h2⟩ := List.pairwise_cons.1 hl
    have hc := hd c List.mem_cons_self
    have hcp := hp c List.mem_cons_self
    unfold insertBlock
    split
    · refine List.pairwise_cons.2 ⟨fun d hm => ?_, hl⟩
      rcases List.mem_cons.1 hm with rfl | hm
      · omega
      · have := h1 d hm
        omega
    · refine List.pairwise_cons.2 ⟨fun d hm => ?_, ih h2 (fun d m => hp d (List.mem_cons_of_mem _ m))
        (fun d m => hd d (List.mem_cons_of_mem _ m))⟩
      rcases List.mem_cons.1 ((insertBlock_perm b l).mem_iff.1 hm) with rfl | hm
      · omega
      · exact h1 d hm

theorem cutHole_other {hole : Hole} {n : Nat} {l : List Hole} (h : hole ∉ l) : cutHole hole n l = l := by
  induction l with
  | nil => rfl
  | cons g l ih =>
    have h1 : hole ≠ g ∧ hole ∉ l := by simpa using h
    have e : cutHole hole n (g :: l) = (if g = hole then if g.size ≤ n then [] else
        [{ start := g.start + n, size := g.size - n }] else [g]) ++ cutHole hole n l := rfl
    rw [e, if_neg (fun e => h1.1 e.symm), ih h1.2]
    rfl

/-- A hole of an ordered list, cut: what is left of it stands in its place. -/
theorem cutHole_split {hole : Hole} {n : Nat} {l : List Hole} (hl : l.Pairwise (fun g h => g.start + g.size < h.start))
    (hm : hole ∈ l) : ∃ before after, l = before ++ hole :: after ∧
      cutHole hole n l = before ++ (if hole.size ≤ n then [] else [{ start := hole.start + n, size := hole.size - n }]) ++ after := by
  obtain ⟨before, after, rfl⟩ := List.append_of_mem hm
  refine ⟨before, after, rfl, ?_⟩
  obtain ⟨-, h2, h3⟩ := List.pairwise_append.1 hl
  have hb : hole ∉ before := fun m => by have := h3 hole m hole List.mem_cons_self; omega
  have ha : hole ∉ after := fun m => by have := (List.pairwise_cons.1 h2).1 hole m; omega
  have e : cutHole hole n (before ++ hole :: after) = cutHole hole n before ++ ((if hole = hole then if hole.size ≤ n then [] else
        [{ start := hole.start + n, size := hole.size - n }] else [hole]) ++ cutHole hole n after) := by
    unfold cutHole; rw [List.flatMap_append, List.flatMap_cons]
  rw [e, if_pos rfl, cutHole_other hb, cutHole_other ha, List.append_assoc]

/-- A hole put back: the list stays ordered and merged, with the size added, and keeps clear of what both kept clear of. -/
theorem insertHole_tidy {h : Hole} {l : List Hole} (hl : l.Pairwise (fun g k => g.start + g.size < k.start)) (hh : 0 < h.size)
    (hp : ∀ g ∈ l, 0 < g.size) (hd : ∀ g ∈ l, h.start + h.size ≤ g.start ∨ g.start + g.size ≤ h.start) :
    (insertHole h l).Pairwise (fun g k => g.start + g.size < k.start) ∧ (∀ g ∈ insertHole h l, 0 < g.size) ∧
    ((insertHole h l).map (fun g => g.size)).sum = h.size + (l.map (fun g => g.size)).sum ∧
    (∀ m, m < h.start → (∀ g ∈ l, m < g.start) → ∀ g ∈ insertHole h l, m < g.start) ∧
    (∀ m, h.start + h.size ≤ m → (∀ g ∈ l, g.start + g.size ≤ m) → ∀ g ∈ insertHole h l, g.start + g.size ≤ m) ∧
    (∀ lo hi, lo < hi → (h.start + h.size ≤ lo ∨ hi ≤ h.start) → (∀ g ∈ l, g.start + g.size ≤ lo ∨ hi ≤ g.start) →
      ∀ g ∈ insertHole h l, g.start + g.size ≤ lo ∨ hi ≤ g.start) := by
  induction l generalizing h with
  | nil =>
    refine ⟨List.pairwise_singleton _ _, ?_, by simp [insertHole], ?_, ?_, ?_⟩ <;> (simp [insertHole]; try tauto)
  | cons c l ih =>
    obtain ⟨h1, h2⟩ := List.pairwise_cons.1 hl
    obtain ⟨hc, hp'⟩ := List.forall_mem_cons.1 hp
    obtain ⟨hcd, hd'⟩ := List.forall_mem_cons.1 hd
    unfold insertHole
    by_cases e1 : c.start + c.size = h.start
    · rw [if_pos e1]
      obtain ⟨k1, k2, k3, k4, k5, k6⟩ := ih (h := { start := c.start, size := c.size + h.size }) h2 (by simp; omega) hp'
        (fun g hg => by have := h1 g hg; have := hd' g hg; simp only; omega)
      refine ⟨k1, k2, ?_, ?_, ?_, ?_⟩
      · rw [k3, List.map_cons, List.sum_cons]; dsimp only; omega
      · intro m hm hg
        obtain ⟨g1, g2⟩ := List.forall_mem_cons.1 hg
        exact k4 m g1 g2
      · intro m hm hg
        obtain ⟨-, g2⟩ := List.forall_mem_cons.1 hg
        exact k5 m (by dsimp only; omega) g2
      · intro lo hi hlh hm hg
        obtain ⟨g1, g2⟩ := List.forall_mem_cons.1 hg
        exact k6 lo hi hlh (by dsimp only; omega) g2
    · rw [if_neg e1]
      by_cases e2 : h.start + h.size = c.start
      · rw [if_pos e2]
        refine ⟨List.pairwise_cons.2 ⟨fun g hg => ?_, h2⟩, ?_, ?_, ?_, ?_, ?_⟩
        · have := h1 g hg; dsimp only; omega
        · exact List.forall_mem_cons.2 ⟨by dsimp only; omega, hp'⟩
        · simp only [List.map_cons, List.sum_cons]; omega
        · intro m hm hg
          obtain ⟨g1, g2⟩ := List.forall_mem_cons.1 hg
          exact List.forall_mem_cons.2 ⟨hm, g2⟩
        · intro m hm hg
          obtain ⟨g1, g2⟩ := List.forall_mem_cons.1 hg
          exact List.forall_mem_cons.2 ⟨by dsimp only; omega, g2⟩
        · intro lo hi hlh hm hg
          obtain ⟨g1, g2⟩ := List.forall_mem_cons.1 hg
          exact List.forall_mem_cons.2 ⟨by dsimp only; omega, g2⟩
      · rw [if_neg e2]
        by_cases e3 : h.start ≤ c.start
        · rw [if_pos e3]
          refine ⟨List.pairwise_cons.2 ⟨fun g hg => ?_, hl⟩, List.forall_mem_cons.2 ⟨hh, hp⟩, ?_, ?_, ?_, ?_⟩
          · rcases List.mem_cons.1 hg with rfl | hg
            · omega
            · have := h1 g hg; omega
          · simp only [List.map_cons, List.sum_cons]
          · exact fun m hm hg => List.forall_mem_cons.2 ⟨hm, hg⟩
          · exact fun m hm hg => List.forall_mem_cons.2 ⟨hm, hg⟩
          · exact fun lo hi _ hm hg => List.forall_mem_cons.2 ⟨hm, hg⟩
        · rw [if_neg e3]
          obtain ⟨k1, k2, k3, k4, k5, k6⟩ := ih h2 hh hp' hd'
          refine ⟨List.pairwise_cons.2 ⟨k4 _ (by omega) h1, k1⟩, List.forall_mem_cons.2 ⟨hc, k2⟩, ?_, ?_, ?_, ?_⟩
          · simp only [List.map_cons, List.sum_cons, k3]; omega
          · intro m hm hg
            obtain ⟨g1, g2⟩ := List.forall_mem_cons.1 hg
            exact List.forall_mem_cons.2 ⟨g1, k4 m hm g2⟩
          · intro m hm hg
            obtain ⟨g1, g2⟩ := List.forall_mem_cons.1 hg
            exact List.forall_mem_cons.2 ⟨g1, k5 m hm g2⟩
          · intro lo hi hlh hm hg
            obtain ⟨g1, g2⟩ := List.forall_mem_cons.1 hg
            exact List.forall_mem_cons.2 ⟨g1, k6 lo hi hlh hm g2⟩

/-- Blocks slid down follow one another from the given address, with their sizes and handles. -/
theorem slideBlocks_tidy (l : List Block) (a : Nat) (m : Memory) :
    BlocksOrdered (slideBlocks l a m).1 ∧ (slideBlocks l a m).2.1 = a + (l.map (fun b => b.size)).sum ∧
    (slideBlocks l a m).1.map (fun b => b.size) = l.map (fun b => b.size) ∧
    (slideBlocks l a m).1.map (fun b => b.space) = l.map (fun b => b.space) ∧
    (∀ b ∈ (slideBlocks l a m).1, a ≤ b.start ∧ b.start + b.size ≤ a + (l.map (fun b => b.size)).sum) := by
  induction l generalizing a m with
  | nil => exact ⟨List.Pairwise.nil, rfl, rfl, rfl, nofun⟩
  | cons b l ih =>
    obtain ⟨k1, k2, k3, k4, k5⟩ := ih (a + b.size) (m.copy b.start a b.size)
    unfold slideBlocks
    dsimp only
    refine ⟨List.pairwise_cons.2 ⟨fun c hc => (k5 c hc).1, k1⟩, ?_, ?_, ?_, ?_⟩
    · rw [k2, List.map_cons, List.sum_cons]; omega
    · rw [List.map_cons, List.map_cons, k3]
    · rw [List.map_cons, List.map_cons, k4]
    · rw [List.map_cons, List.sum_cons]
      refine List.forall_mem_cons.2 ⟨⟨Nat.le_refl _, by dsimp only; omega⟩, fun c hc => ?_⟩
      have := k5 c hc
      omega

/-- What the lists need of the rest of the state. -/
theorem State.blocksTidy_of {s t : State} (hp : t.params = s.params) (hc : t.contig = s.contig)
    (hn : s.kernel.nextSpace ≤ t.kernel.nextSpace) (h : s.blocksTidy) : t.blocksTidy := by
  unfold State.blocksTidy at h ⊢
  rw [hp, hc]
  obtain ⟨h1, h2, h3, h4, h5, h6, h7, h8, h9⟩ := h
  exact ⟨h1, h2, h3, h4, h5, h6, h7, h8, fun b hb => Nat.lt_of_lt_of_le (h9 b hb) hn⟩

theorem blocksTidy_compact {s : State} (h : s.blocksTidy) : (compact s).blocksTidy := by
  obtain ⟨h1, h2, h3, h4, h5, h6, h7, h8, h9⟩ := h
  obtain ⟨k1, k2, k3, k4, k5⟩ := slideBlocks_tidy s.contig.allocated 0 s.ram
  have hpos : ∀ b ∈ (slideBlocks s.contig.allocated 0 s.ram).1, 0 < b.size := fun b hb => by
    have hm : b.size ∈ (slideBlocks s.contig.allocated 0 s.ram).1.map (fun b => b.size) := List.mem_map_of_mem hb
    rw [k3] at hm
    obtain ⟨c, hc, e⟩ := List.mem_map.1 hm
    rw [← e]; exact (h5 c hc).1
  have hspace : ∀ b ∈ (slideBlocks s.contig.allocated 0 s.ram).1, b.space < s.kernel.nextSpace := fun b hb => by
    have hm : b.space ∈ (slideBlocks s.contig.allocated 0 s.ram).1.map (fun b => b.space) := List.mem_map_of_mem hb
    rw [k4] at hm
    obtain ⟨c, hc, e⟩ := List.mem_map.1 hm
    rw [← e]; exact h9 c hc
  have hend : ∀ b ∈ (slideBlocks s.contig.allocated 0 s.ram).1,
      b.start + b.size ≤ (s.contig.allocated.map (fun b => b.size)).sum := fun b hb => by
    have := (k5 b hb).2
    omega
  refine ⟨h1, k1, ?_, ?_, fun b hb => ⟨hpos b hb, ?_⟩, ?_, ?_, ?_, hspace⟩
  · show List.Pairwise _ (if _ then _ else _)
    split
    · exact List.Pairwise.nil
    · exact List.pairwise_singleton _ _
  · intro g hg
    change g ∈ (if _ then _ else _) at hg
    split at hg
    · cases hg
    · rw [List.mem_singleton] at hg
      subst hg
      rename_i e
      constructor
      · show 0 < s.params.ramSize - (slideBlocks s.contig.allocated 0 s.ram).2.1
        omega
      · show (slideBlocks s.contig.allocated 0 s.ram).2.1 + (s.params.ramSize - (slideBlocks s.contig.allocated 0 s.ram).2.1) ≤
          s.params.ramSize
        omega
  · show b.start + b.size ≤ s.params.ramSize
    have := hend b hb
    omega
  · intro g hg b hb
    change g ∈ (if _ then _ else _) at hg
    split at hg
    · cases hg
    · rw [List.mem_singleton] at hg
      subst hg
      right
      show b.start + b.size ≤ (slideBlocks s.contig.allocated 0 s.ram).2.1
      have := hend b hb
      omega
  · show ((if _ then _ else _ : List Hole).map _).sum + ((slideBlocks s.contig.allocated 0 s.ram).1.map _).sum = s.params.ramSize
    rw [k3]
    split
    · rename_i e
      rw [k2] at e
      simp only [List.map_nil, List.sum_nil]
      omega
    · simp only [List.map_cons, List.map_nil, List.sum_cons, List.sum_nil]
      rw [k2]
      rename_i e
      rw [k2] at e
      omega
  · show ((slideBlocks s.contig.allocated 0 s.ram).1.map _).Nodup
    rw [k4]; exact h8

/-- Placing a block at the start of a hole. -/
theorem blocksTidy_place {s t : State} {st : AllocStrategy} {pid n : Nat} {hole : Hole} (h : s.blocksTidy) (hn : 0 < n)
    (hh : pickHole st n s.contig.holes = some hole) (hp : t.params = s.params)
    (hs : t.kernel.nextSpace = s.kernel.nextSpace + 1)
    (hc : t.contig = { holes := cutHole hole n s.contig.holes
                       allocated := insertBlock { pid := pid, start := hole.start, size := n, space := s.kernel.nextSpace }
                         s.contig.allocated }) : t.blocksTidy := by
  obtain ⟨hm, hle⟩ := pickHole_mem hh
  obtain ⟨h1, h2, h3, h4, h5, h6, h7, h8, h9⟩ := h
  obtain ⟨before, after, e, hcut⟩ := cutHole_split (n := n) h3 hm
  have hb6 := h6 hole hm
  have hperm := insertBlock_perm { pid := pid, start := hole.start, size := n, space := s.kernel.nextSpace } s.contig.allocated
  have hmem : ∀ g ∈ cutHole hole n s.contig.holes, g ∈ s.contig.holes ∧ g ∈ before ∨ g ∈ s.contig.holes ∧ g ∈ after ∨
      n < hole.size ∧ g = { start := hole.start + n, size := hole.size - n } := by
    intro g hg
    rw [hcut, List.mem_append, List.mem_append] at hg
    rcases hg with (hg | hg) | hg
    · exact .inl ⟨by rw [e]; exact List.mem_append_left _ hg, hg⟩
    · split at hg
      · cases hg
      · rw [List.mem_singleton] at hg
        exact .inr (.inr ⟨by omega, hg⟩)
    · exact .inr (.inl ⟨by rw [e]; exact List.mem_append_right _ (List.mem_cons_of_mem _ hg), hg⟩)
  rw [e] at h3
  obtain ⟨p1, p2, p3⟩ := List.pairwise_append.1 h3
  obtain ⟨p4, p5⟩ := List.pairwise_cons.1 p2
  unfold State.blocksTidy
  rw [hp, hs, hc]
  refine ⟨h1, ?_, ?_, ?_, ?_, ?_, ?_, ?_, ?_⟩
  · exact insertBlock_ordered h2 hn (fun c m => (h5 c m).1) (fun c m => by
      have := hb6 c m
      have := (h5 c m).1
      dsimp only
      omega)
  · show List.Pairwise _ (cutHole hole n s.contig.holes)
    rw [hcut]
    split
    · rw [List.append_nil]
      exact List.pairwise_append.2 ⟨p1, p5, fun g m k m' => p3 g m k (List.mem_cons_of_mem _ m')⟩
    · rw [List.append_assoc]
      refine List.pairwise_append.2 ⟨p1, List.pairwise_cons.2 ⟨fun k m => ?_, p5⟩, fun g m k m' => ?_⟩
      · have := p4 k m
        dsimp only
        omega
      · rcases List.mem_cons.1 m' with rfl | m'
        · have := p3 g m hole List.mem_cons_self
          dsimp only
          omega
        · exact p3 g m k (List.mem_cons_of_mem _ m')
  · intro g hg
    rcases hmem g hg with ⟨hg, -⟩ | ⟨hg, -⟩ | ⟨hlt, rfl⟩
    · exact h4 g hg
    · exact h4 g hg
    · have := h4 hole hm
      dsimp only
      omega
  · intro b hb
    rcases List.mem_cons.1 (hperm.mem_iff.1 hb) with rfl | hb
    · have := h4 hole hm
      exact ⟨hn, by dsimp only; omega⟩
    · exact h5 b hb
  · intro g hg b hb
    rcases List.mem_cons.1 (hperm.mem_iff.1 hb) with rfl | hb
    · rcases hmem g hg with ⟨-, hg⟩ | ⟨-, hg⟩ | ⟨hlt, rfl⟩
      · have := p3 g hg hole List.mem_cons_self
        dsimp only
        omega
      · have := p4 g hg
        dsimp only
        omega
      · dsimp only
        omega
    · rcases hmem g hg with ⟨hg, -⟩ | ⟨hg, -⟩ | ⟨hlt, rfl⟩
      · exact h6 g hg b hb
      · exact h6 g hg b hb
      · have := hb6 b hb
        have := (h5 b hb).1
        dsimp only
        omega
  · show ((cutHole hole n s.contig.holes).map _).sum + _ = _
    rw [(hperm.map (fun b => b.size)).sum_eq, hcut]
    rw [e] at h7
    simp only [List.map_append, List.map_cons, List.sum_append, List.sum_cons] at h7 ⊢
    split
    · simp only [List.map_nil, List.sum_nil]
      omega
    · simp only [List.map_cons, List.map_nil, List.sum_cons, List.sum_nil]
      omega
  · refine ((hperm.map (fun b => b.space)).nodup_iff).2 (List.nodup_cons.2 ⟨fun hin => ?_, h8⟩)
    obtain ⟨b, hb, eb⟩ := List.mem_map.1 hin
    have := h9 b hb
    dsimp only at eb
    omega
  · intro b hb
    rcases List.mem_cons.1 (hperm.mem_iff.1 hb) with rfl | hb
    · exact Nat.lt_succ_self _
    · exact Nat.lt_succ_of_lt (h9 b hb)

/-- Taking the one block of a handle out of a list. -/
theorem filter_space {l : List Block} {b : Block} (hn : (l.map (fun c => c.space)).Nodup) (hb : b ∈ l) :
    ((l.filter (fun c => c.space ≠ b.space)).map (fun c => c.size)).sum + b.size = (l.map (fun c => c.size)).sum := by
  induction l with
  | nil => cases hb
  | cons c l ih =>
    rw [List.map_cons, List.nodup_cons] at hn
    by_cases e : c.space = b.space
    · have hbc : b = c := by
        rcases List.mem_cons.1 hb with rfl | hb
        · rfl
        · exact absurd (by rw [e]; exact List.mem_map_of_mem hb) hn.1
      subst hbc
      have hf : l.filter (fun c => c.space ≠ b.space) = l := by
        rw [List.filter_eq_self]
        intro d hd
        simp only [ne_eq, decide_not, Bool.not_eq_true', decide_eq_false_iff_not]
        intro ed
        exact hn.1 (by rw [← ed]; exact List.mem_map_of_mem hd)
      rw [List.filter_cons_of_neg (by simp), hf, List.map_cons, List.sum_cons, Nat.add_comm]
    · rw [List.filter_cons_of_pos (by simpa using e)]
      have hbl : b ∈ l := by
        rcases List.mem_cons.1 hb with rfl | hb
        · exact absurd rfl e
        · exact hb
      have := ih hn.2 hbl
      simp only [List.map_cons, List.sum_cons]
      omega

theorem blocksTidy_free {s : State} (hd : Nat) (h : s.blocksTidy) : (freeBlock hd s).blocksTidy := by
  unfold freeBlock
  split
  · exact h
  · rename_i b hb
    have hbm : b ∈ s.contig.allocated := List.mem_of_find?_eq_some hb
    have hbs : b.space = hd := by simpa using List.find?_some hb
    subst hbs
    obtain ⟨h1, h2, h3, h4, h5, h6, h7, h8, h9⟩ := h
    have hb5 := h5 b hbm
    obtain ⟨k1, k2, k3, -, k5, k6⟩ := insertHole_tidy (h := { start := b.start, size := b.size }) h3 hb5.1
      (fun g m => (h4 g m).1) (fun g m => (h6 g m b hbm).symm)
    have hsum := filter_space h8 hbm
    have hsub : ∀ c ∈ s.contig.allocated.filter (fun c => c.space ≠ b.space), c ∈ s.contig.allocated ∧ c ≠ b := fun c hc =>
      ⟨(List.mem_filter.1 hc).1, fun e => by have := (List.mem_filter.1 hc).2; rw [e] at this; simp at this⟩
    have hapart : ∀ c ∈ s.contig.allocated, c ≠ b → b.start + b.size ≤ c.start ∨ c.start + c.size ≤ b.start := by
      intro c hc hne
      obtain ⟨before, after, e⟩ := List.append_of_mem hbm
      have h2' := h2
      unfold BlocksOrdered at h2'
      rw [e] at h2' hc
      obtain ⟨-, q2, q3⟩ := List.pairwise_append.1 h2'
      rcases List.mem_append.1 hc with hc | hc
      · exact .inr (q3 c hc b List.mem_cons_self)
      · rcases List.mem_cons.1 hc with hc | hc
        · exact absurd hc hne
        · exact .inl ((List.pairwise_cons.1 q2).1 c hc)
    refine ⟨h1, List.Pairwise.sublist List.filter_sublist h2, k1, fun g hg => ⟨k2 g hg, ?_⟩, fun c hc => h5 c (hsub c hc).1,
      fun g hg c hc => ?_, ?_, ?_, fun c hc => h9 c (hsub c hc).1⟩
    · exact k5 _ hb5.2 (fun g m => (h4 g m).2) g hg
    · obtain ⟨hc1, hc2⟩ := hsub c hc
      have hcp := (h5 c hc1).1
      exact k6 c.start (c.start + c.size) (by omega) (hapart c hc1 hc2) (fun g m => h6 g m c hc1) g hg
    · show ((insertHole _ s.contig.holes).map _).sum + _ = _
      rw [k3]
      dsimp only
      omega
    · exact h8.sublist (List.filter_sublist.map _)

end Sys2Proof.Machine
end

