-- ==== Sys2Proof/Laws/Contexts.lean ====
section
/-! SUPPORT. A hart's memory context on a CONTIGUOUS machine: what compaction leaves of a hart, and that each hart's base and limit
go on being those of the block it works in. -/

namespace Sys2Proof.Machine

/-! ### A hart without its base and limit -/

@[simp] theorem Hart.plain_id (p : Params) (h : Hart) : (h.plain p).id = h.id := by unfold Hart.plain; split <;> rfl
@[simp] theorem Hart.plain_x (p : Params) (h : Hart) : (h.plain p).x = h.x := by unfold Hart.plain; split <;> rfl
@[simp] theorem Hart.plain_pc (p : Params) (h : Hart) : (h.plain p).pc = h.pc := by unfold Hart.plain; split <;> rfl
@[simp] theorem Hart.plain_phase (p : Params) (h : Hart) : (h.plain p).phase = h.phase := by unfold Hart.plain; split <;> rfl
@[simp] theorem Hart.plain_curTask (p : Params) (h : Hart) : (h.plain p).curTask = h.curTask := by
  unfold Hart.plain; split <;> rfl
@[simp] theorem Hart.plain_space (p : Params) (h : Hart) : (h.plain p).space = h.space := by unfold Hart.plain; split <;> rfl

theorem Hart.plain_paged {p : Params} {f : FetchPolicy} {r : Replacement} (hp : p.memMode = .paged f r) (h : Hart) :
    h.plain p = h := by
  unfold Hart.plain; rw [hp]

theorem Hart.plain_goto {p : Params} {g h : Hart} (e : g.plain p = h.plain p) (ph : Phase) :
    ({ g with phase := ph } : Hart).plain p = ({ h with phase := ph } : Hart).plain p := by
  unfold Hart.plain at e ⊢
  split at e
  · rename_i st _
    have := congrArg (fun k : Hart => { k with phase := ph }) e
    exact this
  · rw [e]

theorem Hart.switchTo_plain {p : Params} {st : AllocStrategy} (hp : p.memMode = .contiguous st) (l : List Block) (h : Hart)
    (k : Nat) : (h.switchTo l k).plain p = ({ h with space := some k } : Hart).plain p := by
  unfold Hart.plain Hart.switchTo; rw [hp]; dsimp only; split <;> rfl

theorem Hart.follow_plain {p : Params} {st : AllocStrategy} (hp : p.memMode = .contiguous st) (l : List Block) (h : Hart) :
    (h.follow l).plain p = h.plain p := by
  unfold Hart.follow
  split
  · rename_i k hk
    rw [Hart.switchTo_plain hp]
    unfold Hart.plain; rw [hp]; dsimp only; rw [← hk]
  · rfl

theorem Hart.switchTo_space (l : List Block) (h : Hart) (k : Nat) : (h.switchTo l k).space = some k := by
  unfold Hart.switchTo; split <;> rfl

theorem Hart.follow_space (l : List Block) (h : Hart) : (h.follow l).space = h.space := by
  unfold Hart.follow
  split
  · rename_i k hk; rw [Hart.switchTo_space, hk]
  · rfl

theorem Hart.switchTo_block {l : List Block} {k : Nat} {b : Block} (hb : blockOf l k = some b) (h : Hart) :
    (h.switchTo l k).base = BitVec.ofNat 32 b.start ∧ (h.switchTo l k).limit = BitVec.ofNat 32 b.size := by
  unfold Hart.switchTo; rw [hb]; exact ⟨rfl, rfl⟩

/-! ### The block of a handle -/

theorem blockOf_insert (b : Block) (l : List Block) {k : Nat} (h : b.space ≠ k) : blockOf (insertBlock b l) k = blockOf l k := by
  unfold blockOf
  induction l with
  | nil => simp [insertBlock, h]
  | cons c l ih =>
    unfold insertBlock
    split
    · rw [List.find?_cons_of_neg (by simpa using h)]
    · rw [List.find?_cons, List.find?_cons, ih]

theorem blockOf_filter (l : List Block) (h k : Nat) :
    blockOf (l.filter (fun c => c.space ≠ h)) k = if k = h then none else blockOf l k := by
  unfold blockOf
  rw [List.find?_filter]
  split
  · rename_i e; subst e
    rw [List.find?_eq_none]; simp
  · rename_i e
    congr 1; funext c
    by_cases hc : c.space = k
    · simp [hc, e]
    · simp [hc]

/-! ### Contexts -/

/-- What the contexts need of the rest of the state. -/
theorem State.contexts_of {s t : State} (hp : t.params = s.params) (hh : t.hart = s.hart) (ho : t.others = s.others)
    (ht : t.kernel.tasks = s.kernel.tasks) (hn : s.kernel.nextSpace ≤ t.kernel.nextSpace) (hc : t.contig = s.contig)
    (h : s.contexts) : t.contexts := by
  obtain ⟨h1, h2, h3⟩ := h
  unfold State.contexts State.harts State.block?
  rw [hp, hh, ho, ht, hc]
  exact ⟨fun e he => Nat.lt_of_lt_of_le (h1 e he) hn, fun g hg k hk => Nat.lt_of_lt_of_le (h2 g hg k hk) hn, h3⟩

theorem contexts_compact {s : State} (h : s.contexts) : (compact s).contexts := by
  obtain ⟨h1, h2, h3⟩ := h
  have hh : ∀ g ∈ (compact s).harts, ∃ g0 ∈ s.harts, g = g0.follow (compact s).contig.allocated := by
    intro g hg
    have hg' : g ∈ (s.hart.follow (compact s).contig.allocated) :: s.others.map (Hart.follow (compact s).contig.allocated) := hg
    rcases List.mem_cons.1 hg' with rfl | hg'
    · exact ⟨s.hart, List.mem_cons_self, rfl⟩
    · obtain ⟨g0, hg0, rfl⟩ := List.mem_map.1 hg'
      exact ⟨g0, List.mem_cons_of_mem _ hg0, rfl⟩
  refine ⟨h1, fun g hg k hk => ?_, fun st hm g hg k b hk hb => ?_⟩
  · obtain ⟨g0, hg0, rfl⟩ := hh g hg
    rw [Hart.follow_space] at hk
    exact h2 g0 hg0 k hk
  · obtain ⟨g0, hg0, rfl⟩ := hh g hg
    rw [Hart.follow_space] at hk
    unfold Hart.follow
    rw [hk]
    exact Hart.switchTo_block hb _

/-- Placing a block, whose handle no hart has. -/
theorem contexts_place {s t : State} {b : Block} {holes : List Hole} (hp : t.params = s.params) (hh : t.hart = s.hart)
    (ho : t.others = s.others) (ht : t.kernel.tasks = s.kernel.tasks) (hn : t.kernel.nextSpace = s.kernel.nextSpace + 1)
    (hb : b.space = s.kernel.nextSpace) (hc : t.contig = { holes := holes, allocated := insertBlock b s.contig.allocated })
    (h : s.contexts) : t.contexts := by
  obtain ⟨h1, h2, h3⟩ := h
  unfold State.contexts State.harts State.block?
  rw [hp, hh, ho, ht, hn, hc]
  refine ⟨fun e he => Nat.lt_succ_of_lt (h1 e he), fun g hg k hk => Nat.lt_succ_of_lt (h2 g hg k hk),
    fun st hm g hg k c hk hbk => h3 st hm g hg k c hk ?_⟩
  have := h2 g hg k hk
  dsimp only at hbk
  rwa [blockOf_insert _ _ (by omega)] at hbk

theorem contexts_free {s : State} (hd : Nat) (h : s.contexts) : (freeBlock hd s).contexts := by
  unfold freeBlock
  split
  · exact h
  · obtain ⟨h1, h2, h3⟩ := h
    refine ⟨h1, h2, fun st hm g hg k c hk hb => h3 st hm g hg k c hk ?_⟩
    unfold State.block? at hb
    dsimp only at hb
    rw [blockOf_filter] at hb
    split at hb
    · cases hb
    · exact hb

end Sys2Proof.Machine
end

