-- ==== Sys2Proof/Laws/Paging.lean ====
section
/-! SUPPORT. What the paged MMU, its allocator and its replacement policies can do to a state, said once: `PagingStep`. Every
operation of Frames and of the translation side of Paging is one. -/

namespace Sys2Proof.Machine

/-- A property of the state an operation ends in, however it ends. -/
def Res.Sat {ε α : Type} (P : State → Prop) : Res ε α → Prop
  | .ok _ s => P s
  | .fail _ s => P s
  | .refuse _ => True

theorem Res.Sat.andThen {ε α β : Type} {P : State → Prop} {x : Res ε α} {f : α → State → Res ε β} (h : x.Sat P)
    (hf : ∀ a s, P s → (f a s).Sat P) : (x.andThen f).Sat P := by
  cases x with
  | ok a s => exact hf a s h
  | fail e s => exact h
  | refuse r => trivial

theorem Res.Sat.andThen' {ε α β : Type} {P Q : State → Prop} {x : Res ε α} {f : α → State → Res ε β} (h : x.Sat P)
    (hPQ : ∀ s, P s → Q s) (hf : ∀ a s, P s → (f a s).Sat Q) : (x.andThen f).Sat Q := by
  cases x with
  | ok a s => exact hf a s h
  | fail e s => exact hPQ s h
  | refuse r => trivial

theorem Res.Sat.mapFail {ε ε' α : Type} {P : State → Prop} {x : Res ε α} (g : ε → ε') (h : x.Sat P) :
    (x.mapFail g).Sat P := by
  cases x <;> exact h

theorem Res.Sat.imp {ε α : Type} {P Q : State → Prop} {x : Res ε α} (h : x.Sat P) (hPQ : ∀ s, P s → Q s) : x.Sat Q := by
  cases x with
  | ok a s => exact hPQ s h
  | fail e s => exact hPQ s h
  | refuse r => trivial

/-- What allocation, eviction and translation leave as it was: everything but the paging structures, the draws, and bytes of
RAM that become 0. -/
structure PagingStep (s t : State) : Prop where
  params : t.params = s.params
  hart : t.hart = s.hart
  others : t.others = s.others
  kernel : t.kernel = s.kernel
  sched : t.sched = s.sched
  waits : t.waits = s.waits
  contig : t.contig = s.contig
  io : t.io = s.io
  agenda : t.chance.agenda = s.chance.agenda
  turns : t.chance.turns = s.chance.turns
  frames : t.paging.frames.length = s.paging.frames.length
  wf : s.ram.wf = true → t.ram.wf = true
  bytes : ∀ a, t.ram.read a = s.ram.read a ∨ t.ram.read a = 0#8

theorem PagingStep.refl (s : State) : PagingStep s s :=
  ⟨rfl, rfl, rfl, rfl, rfl, rfl, rfl, rfl, rfl, rfl, rfl, id, fun _ => .inl rfl⟩

theorem PagingStep.trans {s t u : State} (h : PagingStep s t) (k : PagingStep t u) : PagingStep s u :=
  ⟨k.params.trans h.params, k.hart.trans h.hart, k.others.trans h.others, k.kernel.trans h.kernel, k.sched.trans h.sched,
   k.waits.trans h.waits, k.contig.trans h.contig, k.io.trans h.io, k.agenda.trans h.agenda, k.turns.trans h.turns,
   k.frames.trans h.frames, fun w => k.wf (h.wf w),
   fun a => (k.bytes a).elim (fun e => (h.bytes a).imp e.trans e.trans) .inr⟩

/-- A change of the paging structures that keeps the number of frames. -/
theorem PagingStep.ofPaging {s : State} {p : Paging} (h : p.frames.length = s.paging.frames.length) :
    PagingStep s { s with paging := p } :=
  ⟨rfl, rfl, rfl, rfl, rfl, rfl, rfl, rfl, rfl, rfl, h, id, fun _ => .inl rfl⟩

theorem PagingStep.draw (s : State) : PagingStep s s.draw.2 := by
  unfold State.draw
  split <;> exact ⟨rfl, rfl, rfl, rfl, rfl, rfl, rfl, rfl, rfl, rfl, rfl, id, fun _ => .inl rfl⟩

/-- What a draw leaves as it was beyond that. -/
theorem State.draw_paging (s : State) : s.draw.2.paging = s.paging := by unfold State.draw; split <;> rfl

theorem State.draw_ram (s : State) : s.draw.2.ram = s.ram := by unfold State.draw; split <;> rfl

theorem PagingStep.choose {α : Type} {s : State} {l : List α} {r : α × State} (h : s.choose l = some r) :
    PagingStep s r.2 ∧ r.1 ∈ l ∧ r.2.paging = s.paging ∧ r.2.ram = s.ram := by
  cases l with
  | nil => cases h
  | cons a l =>
    cases l with
    | nil => cases h; exact ⟨.refl s, List.mem_cons_self, rfl, rfl⟩
    | cons b l =>
      simp only [State.choose, Option.some.injEq] at h
      subst h
      refine ⟨.draw s, ?_, s.draw_paging, s.draw_ram⟩
      have hk : s.draw.1 % (l.length + 2) < (a :: b :: l).length := by
        simpa using Nat.mod_lt s.draw.1 (Nat.succ_pos _)
      rw [List.getD_eq_getElem?_getD, List.getElem?_eq_getElem hk, Option.getD_some]
      exact List.getElem_mem hk

theorem State.choose_isSome {α : Type} (s : State) {l : List α} (h : l ≠ []) : ∃ r, s.choose l = some r := by
  cases l with
  | nil => exact absurd rfl h
  | cons a l => cases l <;> exact ⟨_, rfl⟩

theorem PagingStep.modSpace (s : State) (h : Nat) (f : AddrSpace → AddrSpace) : PagingStep s (s.modSpace h f) := .ofPaging rfl

theorem PagingStep.setFrame (s : State) (f : Nat) (fr : Frame) : PagingStep s (s.setFrame f fr) :=
  .ofPaging (List.length_set ..)

theorem PagingStep.zeroFrame (s : State) (f : Nat) : PagingStep s (s.zeroFrame f) :=
  ⟨rfl, rfl, rfl, rfl, rfl, rfl, rfl, rfl, rfl, rfl, rfl, fun w => Memory.wf_zero w _ _, fun a => by
    rw [State.zeroFrame_ram, Memory.read_zero]; split
    · exact .inr rfl
    · exact .inl rfl⟩

/-! ### Policies -/

theorem PagingStep.onMap (f : Nat) (s : State) : PagingStep s (onMap f s) := by
  unfold Machine.onMap
  split
  · split
    · rename_i h
      exact (PagingStep.choose h).1.trans (.ofPaging rfl)
    · exact .refl s
  · exact .ofPaging rfl
  · exact .refl s

theorem PagingStep.onUnmap (f : Nat) (s : State) : PagingStep s (onUnmap f s) :=
  (PagingStep.setFrame s f _).trans (.ofPaging rfl)

theorem PagingStep.onAccess (f : Nat) (s : State) : PagingStep s (onAccess f s) := by
  unfold Machine.onAccess
  split
  · exact .setFrame ..
  · exact .ofPaging rfl
  · exact .refl s

theorem PagingStep.clockOrder (s : State) : PagingStep s (clockOrder s).2 := by
  unfold Machine.clockOrder
  split
  · exact .refl s
  · split
    · rename_i h; exact (PagingStep.choose h).1
    · exact .refl s

theorem PagingStep.clockSweep (pid vpn : Nat) (l : List Nat) (s : State) : PagingStep s (clockSweep pid vpn l s).2 := by
  induction l generalizing s with
  | nil => exact .refl s
  | cons f l ih =>
    unfold Machine.clockSweep
    split
    · split
      · exact (PagingStep.setFrame ..).trans (ih _)
      · exact .refl s
    · exact ih s

theorem PagingStep.policyPick (pid vpn : Nat) (s : State) : PagingStep s (policyPick pid vpn s).2 := by
  unfold Machine.policyPick
  split
  · exact (((PagingStep.clockOrder s).trans (.clockSweep ..)).trans (.draw _)).trans (.ofPaging rfl)
  · exact .refl s
  · exact .refl s

theorem PagingStep.pickVictim {pid vpn : Nat} {s : State} {r : Nat × State} (h : pickVictim pid vpn s = some r) :
    PagingStep s r.2 := by
  unfold Machine.pickVictim at h
  have hp := PagingStep.policyPick pid vpn s
  split at h
  · cases h
  · split at h
    · rename_i hq; rw [hq] at hp; cases h; exact hp
    · rename_i hq; rw [hq] at hp; exact hp.trans (PagingStep.choose h).1

/-! ### Allocation and eviction -/

theorem PagingStep.incRef (f : Nat) (s : State) : PagingStep s (incRef f s) := .setFrame ..

theorem PagingStep.decRef (f : Nat) (s : State) : PagingStep s (decRef f s) := by
  unfold Machine.decRef
  dsimp only
  split <;> exact .setFrame ..

theorem PagingStep.takeFree {o : FrameOwner} {s : State} {r : Nat × State} (h : takeFree o s = some r) :
    PagingStep s r.2 := by
  unfold Machine.takeFree at h
  split at h
  · rename_i hc; cases h; exact (PagingStep.choose hc).1.trans (.setFrame ..)
  · cases h

theorem PagingStep.unmapVictim (v : Nat) (s : State) : PagingStep s (unmapVictim v s) := by
  unfold Machine.unmapVictim
  split
  · split
    · exact .modSpace ..
    · exact .refl s
  · split
    · rename_i h; exact (PagingStep.choose h).1.trans (.modSpace ..)
    · exact .refl s
  · exact .refl s
  · exact .refl s

theorem PagingStep.evictOne {pid vpn : Nat} {s t : State} (h : evictOne pid vpn s = some t) : PagingStep s t := by
  unfold Machine.evictOne at h
  split at h
  · rename_i hv
    cases h
    exact (((PagingStep.pickVictim hv).trans (.unmapVictim ..)).trans (.onUnmap ..)).trans (.decRef ..)
  · cases h

theorem PagingStep.allocFrame (o : FrameOwner) (pid vpn : Nat) (e : Bool) (s : State) :
    (allocFrame o pid vpn e s).Sat (PagingStep s) := by
  unfold Machine.allocFrame
  split
  · rename_i h; exact .takeFree h
  · split
    · split
      · exact .refl s
      · rename_i he
        split
        · rename_i ht; exact (PagingStep.evictOne he).trans (.takeFree ht)
        · exact .evictOne he
    · exact .refl s

theorem PagingStep.ensureTable (h pid vpn : Nat) (e : Bool) (s : State) :
    (ensureTable h pid vpn e s).Sat (PagingStep s) := by
  unfold Machine.ensureTable
  split
  · exact .refl s
  · split
    · exact .refl s
    · exact (PagingStep.allocFrame ..).andThen (fun _ t ht => ht.trans (.modSpace ..))

theorem PagingStep.installPage (h pid vpn : Nat) (p : Perms) (e : Bool) (s : State) :
    (installPage h pid vpn p e s).Sat (PagingStep s) :=
  (PagingStep.ensureTable h pid vpn e s).andThen (fun _ _ ht =>
    Res.Sat.andThen ((PagingStep.allocFrame ..).imp (fun _ hu => ht.trans hu)) (fun f u hu =>
      hu.trans (((PagingStep.zeroFrame u f).trans (.modSpace ..)).trans (.onMap ..))))

/-! ### Translation, regions, sharing, destruction -/

theorem PagingStep.touch (h vpn : Nat) (k : AccessKind) (s : State) : PagingStep s (touch h vpn k s) := by
  unfold Machine.touch
  split
  · exact .refl s
  · exact (PagingStep.modSpace ..).trans (.onAccess ..)

theorem PagingStep.translatePaged (h : Nat) (va : Word) (k : AccessKind) (c : Bool) (s : State) :
    (translatePaged h va k c s).Sat (PagingStep s) := by
  unfold Machine.translatePaged
  dsimp only
  split
  · exact .refl s
  · split
    · split
      · exact .refl s
      · exact .touch ..
    · split
      · exact .refl s
      · split
        · exact .refl s
        · refine (Res.Sat.mapFail _ (PagingStep.installPage ..)).andThen (fun f t ht => ?_)
          split
          · exact ht
          · exact ht.trans (.touch ..)

theorem PagingStep.recordRegion (h : Nat) (r : Region) (s : State) : PagingStep s (recordRegion h r s) := .modSpace ..

theorem PagingStep.mapPages (h : Nat) (l : List Nat) (s : State) : (mapPages h l s).Sat (PagingStep s) := by
  induction l generalizing s with
  | nil => exact .refl s
  | cons v l ih =>
    unfold Machine.mapPages
    split
    · exact .refl s
    · dsimp only
      repeat' split
      all_goals first
        | exact ih s
        | exact (PagingStep.installPage ..).andThen (fun _ t ht => (ih t).imp (fun _ hu => ht.trans hu))

theorem PagingStep.mapRegion (h a n : Nat) (p : Perms) (s : State) : (mapRegion h a n p s).Sat (PagingStep s) := by
  unfold Machine.mapRegion
  dsimp only
  split
  · exact .recordRegion ..
  · exact (PagingStep.mapPages ..).imp (fun _ ht => (PagingStep.recordRegion ..).trans ht)

theorem PagingStep.releaseFrame (f : Nat) (s : State) : PagingStep s (releaseFrame f s) := by
  unfold Machine.releaseFrame
  dsimp only
  split
  · exact (PagingStep.decRef ..).trans (.onUnmap ..)
  · exact .decRef ..

theorem PagingStep.foldl {α : Type} (f : State → α → State) (hf : ∀ s a, PagingStep s (f s a)) (l : List α) (s : State) :
    PagingStep s (l.foldl f s) := by
  induction l generalizing s with
  | nil => exact .refl s
  | cons a l ih => exact (hf s a).trans (ih _)

theorem PagingStep.destroyPaged (h : Nat) (s : State) : PagingStep s (destroyPaged h s) := by
  unfold Machine.destroyPaged
  split
  · exact .refl s
  · rename_i a _
    have h1 := PagingStep.foldl (fun st m => Machine.releaseFrame m.2.ppn st) (fun s m => .releaseFrame m.2.ppn s)
      a.mappings s
    have h2 := PagingStep.foldl (fun st f => freeTableFrame f st) (fun s f => .setFrame s f _) a.tableFrames
      (a.mappings.foldl (fun st m => Machine.releaseFrame m.2.ppn st) s)
    exact (h1.trans h2).trans (.ofPaging rfl)

end Sys2Proof.Machine
end

