-- ==== Sys2Proof/Laws/Pages.lean ====
section
/-! SUPPORT. What an access of a resident page changes, and what the allocator and the page tables give: taking a free frame,
installing a page, and the PTE after an access. -/

namespace Sys2Proof.Machine

/-! ### What an access of a resident page changes -/

theorem onAccess_paging (f : Nat) (s : State) : onAccess f s = { s with paging := (onAccess f s).paging } := by
  unfold onAccess
  split <;> rfl

theorem touch_paging (h vpn : Nat) (k : AccessKind) (s : State) :
    touch h vpn k s = { s with paging := (touch h vpn k s).paging } := by
  unfold touch
  split
  · rfl
  · exact onAccess_paging ..

theorem State.frame_setFrame (s : State) (f g : Nat) (fr : Frame) (h : f < s.paging.frames.length) :
    (s.setFrame f fr).frame g = if g = f then fr else s.frame g := by
  unfold State.frame State.setFrame
  simp only [List.getD_eq_getElem?_getD, List.getElem?_set]
  by_cases hg : f = g
  · subst hg; simp [h]
  · rw [if_neg hg, if_neg (fun e => hg e.symm)]

theorem State.setFrame_none (s : State) (f : Nat) (fr : Frame) (h : ¬f < s.paging.frames.length) :
    s.setFrame f fr = s := by
  unfold State.setFrame
  rw [List.set_eq_of_length_le (by omega)]

theorem SameFrames.refl (s : State) : SameFrames s s := ⟨rfl, fun _ => ⟨rfl, rfl, rfl⟩⟩

theorem SameFrames.trans {s t u : State} (h : SameFrames s t) (k : SameFrames t u) : SameFrames s u :=
  ⟨k.1.trans h.1, fun f => ⟨(k.2 f).1.trans (h.2 f).1, (k.2 f).2.1.trans (h.2 f).2.1, (k.2 f).2.2.trans (h.2 f).2.2⟩⟩

theorem SameFrames.modSpace (s : State) (h : Nat) (f : AddrSpace → AddrSpace) : SameFrames s (s.modSpace h f) :=
  ⟨rfl, fun _ => ⟨rfl, rfl, rfl⟩⟩

theorem SameFrames.setFrame (s : State) (f : Nat) (fr : Frame) (h1 : fr.free = (s.frame f).free)
    (h2 : fr.refcount = (s.frame f).refcount) (h3 : fr.owner = (s.frame f).owner) : SameFrames s (s.setFrame f fr) := by
  refine ⟨List.length_set .., fun g => ?_⟩
  by_cases hf : f < s.paging.frames.length
  · rw [State.frame_setFrame s f g fr hf]
    by_cases hg : g = f
    · subst hg; rw [if_pos rfl]; exact ⟨h1, h2, h3⟩
    · rw [if_neg hg]; exact ⟨rfl, rfl, rfl⟩
  · rw [State.setFrame_none s f fr hf]; exact ⟨rfl, rfl, rfl⟩

theorem SameFrames.onAccess (f : Nat) (s : State) : SameFrames s (onAccess f s) := by
  unfold Machine.onAccess
  split
  · exact .setFrame s f _ rfl rfl rfl
  · exact ⟨rfl, fun _ => ⟨rfl, rfl, rfl⟩⟩
  · exact .refl s

theorem SameFrames.touch (h vpn : Nat) (k : AccessKind) (s : State) : SameFrames s (touch h vpn k s) := by
  unfold Machine.touch
  split
  · exact .refl s
  · exact (SameFrames.modSpace ..).trans (.onAccess ..)

theorem touch_ram (h vpn : Nat) (k : AccessKind) (s : State) : (touch h vpn k s).ram = s.ram := by
  rw [touch_paging]

/-! ### Frames taken and pages installed -/

theorem State.space?_modSpace (s : State) (h k : Nat) (f : AddrSpace → AddrSpace) :
    (s.modSpace h f).space? k = if k = h then (s.space? k).map f else s.space? k := assocGet_modify ..

theorem onAccess_spaces (f : Nat) (s : State) (k : Nat) : (onAccess f s).space? k = s.space? k := by
  unfold onAccess; split <;> rfl

theorem onMap_spaces (f : Nat) (s : State) (k : Nat) : (onMap f s).space? k = s.space? k := by
  unfold onMap
  split
  · split
    · rename_i h
      have h1 := (PagingStep.choose h).2.2.1
      unfold State.space?; dsimp only; rw [h1]
    · rfl
  · rfl
  · rfl

theorem onMap_ram (f : Nat) (s : State) : (onMap f s).ram = s.ram := by
  unfold onMap
  split
  · split
    · rename_i h; exact (PagingStep.choose h).2.2.2
    · rfl
  · rfl
  · rfl

/-- A PTE just installed is the one the walk finds. -/
theorem AddrSpace.pte?_setPte (a : AddrSpace) (vpn : Nat) (p : Pte) (h : assocGet a.directory (l1Index vpn) ≠ none) :
    (a.setPte vpn p).pte? vpn = some p := by
  unfold AddrSpace.setPte AddrSpace.pte?
  dsimp only
  rw [assocGet_modify, if_pos rfl]
  cases ht : assocGet a.directory (l1Index vpn) with
  | none => exact absurd ht h
  | some t => simp [assocGet_set]

/-- Everything a taken frame changes: it was free, and no other frame, no space and no byte is touched. -/
theorem takeFree_some {o : FrameOwner} {s t : State} {f : Nat} (h : takeFree o s = some (f, t)) :
    f ∈ s.freeFrames ∧ (∀ k, t.space? k = s.space? k) ∧ (∀ g, g ≠ f → t.frame g = s.frame g) ∧ t.ram = s.ram ∧
      t.paging.frames.length = s.paging.frames.length := by
  unfold takeFree at h
  split at h
  · rename_i f' s1 hc
    obtain ⟨-, hm, hp, hr⟩ := PagingStep.choose hc
    cases h
    refine ⟨hm, fun k => ?_, fun g hg => ?_, hr, ?_⟩
    · show assocGet s1.paging.spaces k = _; rw [hp]; rfl
    · show ((s1.setFrame f _).frame g) = _
      by_cases hf : f < s1.paging.frames.length
      · rw [State.frame_setFrame _ _ _ _ hf, if_neg hg]; unfold State.frame; rw [hp]
      · rw [State.setFrame_none _ _ _ hf]; unfold State.frame; rw [hp]
    · rw [State.setFrame]; simp only [List.length_set]; exact congrArg (fun q => q.frames.length) hp
  · cases h

theorem takeFree_isSome (o : FrameOwner) (s : State) (h : s.freeFrames ≠ []) : ∃ f t, takeFree o s = some (f, t) := by
  obtain ⟨r, hr⟩ := State.choose_isSome s h
  unfold takeFree
  rw [hr]
  exact ⟨_, _, rfl⟩

/-- Of two free frames one is left. -/
theorem takeFree_rest {o : FrameOwner} {s t : State} {f : Nat} (h : takeFree o s = some (f, t))
    (h2 : 2 ≤ s.freeFrames.length) : t.freeFrames ≠ [] := by
  obtain ⟨hm, -, hg, -, hl⟩ := takeFree_some h
  have hn : s.freeFrames.Nodup := (List.nodup_range).filter _
  have hex : ∃ g ∈ s.freeFrames, g ≠ f := by
    by_contra hc
    have hall : ∀ g ∈ s.freeFrames, g = f := fun g hgm => by by_contra hne; exact hc ⟨g, hgm, hne⟩
    match hs : s.freeFrames with
    | [] => rw [hs] at h2; simp at h2
    | [a] => rw [hs] at h2; simp at h2
    | a :: b :: l =>
      rw [hs] at hall hn
      have ha := hall a (by simp)
      have hb := hall b (by simp)
      subst ha; subst hb; simp at hn
  obtain ⟨g, hgm, hne⟩ := hex
  intro he
  have : g ∈ t.freeFrames := by
    unfold State.freeFrames at hgm ⊢
    simp only [List.mem_filter, List.mem_range] at hgm ⊢
    rw [hl, hg g hne]; exact hgm
  rw [he] at this; cases this

/-- The PTE of an accessed page. -/
theorem touch_pte {s : State} {h : Nat} {a : AddrSpace} {vpn : Nat} {p : Pte} (ha : s.space? h = some a)
    (hp : a.pte? vpn = some p) (k : AccessKind) :
    ∃ b, (touch h vpn k s).space? h = some b ∧
      b.pte? vpn = some { p with accessed := true, dirty := p.dirty || decide (k = .write) } := by
  unfold touch
  rw [ha]
  simp only [Option.bind_some, hp]
  rw [onAccess_spaces, State.space?_modSpace, if_pos rfl, ha]
  refine ⟨_, rfl, ?_⟩
  show (a.setPte vpn _).pte? vpn = _
  apply AddrSpace.pte?_setPte
  intro hn
  unfold AddrSpace.pte? at hp
  rw [hn] at hp; cases hp

theorem touch_other (h k vpn : Nat) (kind : AccessKind) (s : State) (hk : k ≠ h) :
    (touch h vpn kind s).space? k = s.space? k := by
  unfold touch
  split
  · rfl
  · rw [onAccess_spaces, State.space?_modSpace, if_neg hk]

/-- With two frames free a page is installed: its PTE, and its bytes zero. -/
theorem installPage_gives {s : State} {h pid vpn : Nat} {perms : Perms} {a : AddrSpace} (ha : s.space? h = some a)
    (h2 : 2 ≤ s.freeFrames.length) :
    ∃ f t b, installPage h pid vpn perms true s = .ok f t ∧ t.space? h = some b ∧
      b.pte? vpn =
        some { valid := true, perms := perms, shared := false, accessed := false, dirty := false, ppn := f } ∧
      ∀ x, f * 4096 ≤ x → x < f * 4096 + 4096 → t.ram.read x = 0#8 := by
  have hne : s.freeFrames ≠ [] := by intro he; rw [he] at h2; simp at h2
  have hens : ∃ s1 b, ensureTable h pid vpn true s = .ok () s1 ∧ s1.space? h = some b ∧
      assocGet b.directory (l1Index vpn) ≠ none ∧ s1.freeFrames ≠ [] := by
    unfold ensureTable
    rw [ha]
    dsimp only
    cases hd : assocGet a.directory (l1Index vpn) with
    | some x => exact ⟨s, a, rfl, ha, by rw [hd]; simp, hne⟩
    | none =>
      obtain ⟨f, t, ht⟩ := takeFree_isSome .pageTable s hne
      unfold allocFrame
      rw [ht]
      obtain ⟨-, hsp, -⟩ := takeFree_some ht
      refine ⟨_, { a with directory := assocSet a.directory (l1Index vpn) { frame := f, ptes := [] } }, rfl, ?_, ?_, ?_⟩
      · rw [State.space?_modSpace, if_pos rfl, hsp, ha]; rfl
      · show assocGet (assocSet a.directory (l1Index vpn) _) (l1Index vpn) ≠ none
        rw [assocGet_set, if_pos rfl]; simp
      · exact (show t.freeFrames ≠ [] from takeFree_rest ht h2)
  obtain ⟨s1, b, h1, hb, hd, hf⟩ := hens
  obtain ⟨f, t, ht⟩ := takeFree_isSome (.page pid vpn) s1 hf
  obtain ⟨-, hsp, -, -, -⟩ := takeFree_some ht
  unfold installPage
  rw [h1]
  simp only [Res.andThen, allocFrame, ht]
  refine ⟨f, _, b.setPte vpn _, rfl, ?_, AddrSpace.pte?_setPte _ _ _ hd, ?_⟩
  · rw [onMap_spaces, State.space?_modSpace, if_pos rfl]
    show ((t.space? h).map _) = _
    rw [hsp, hb]; rfl
  · intro x hx hx2
    rw [onMap_ram]
    show (t.ram.zero (f * 4096) 4096).read x = _
    rw [Memory.read_zero, if_pos ⟨hx, hx2⟩]

theorem takeFree_ram {o : FrameOwner} {s t : State} {f : Nat} (h : takeFree o s = some (f, t)) : t.ram = s.ram :=
  (takeFree_some h).2.2.2.1

end Sys2Proof.Machine
end

