-- ==== Sys2Proof/Laws/Frames.lean ====
section
/-! SUPPORT. The frame allocator's records and the page tables agree, and every operation of the paged MMU keeps it so:
`State.framesTidy`. -/

namespace Sys2Proof.Machine

/-! ### Lists by key: what an update makes of a sum over the list -/

/-- Keys of a list in canonical form are strictly rising. -/
abbrev Keyed {α : Type} (l : List (Nat × α)) : Prop := l.Pairwise (fun a b => a.1 < b.1)

theorem Keyed.unique {α : Type} {l : List (Nat × α)} (h : Keyed l) {k : Nat} {v : α} (hm : (k, v) ∈ l) :
    assocGet l k = some v := by
  induction l with
  | nil => cases hm
  | cons d rest ih =>
    obtain ⟨h1, h2⟩ := List.pairwise_cons.1 h
    unfold assocGet
    rcases List.mem_cons.1 hm with rfl | hm
    · simp
    · have := h1 _ hm
      rw [if_neg (by simp only at this; omega)]
      exact ih h2 hm

theorem assocModify_keys {α : Type} (l : List (Nat × α)) (k : Nat) (f : α → α) :
    (assocModify l k f).map (fun e => e.1) = l.map (fun e => e.1) := by
  unfold assocModify
  rw [List.map_map]
  apply List.map_congr_left
  intro e _
  simp only [Function.comp]
  split <;> rfl

theorem keyed_iff {α : Type} {l : List (Nat × α)} : Keyed l ↔ (l.map (fun e => e.1)).Pairwise (fun a b => a < b) := by
  unfold Keyed; rw [List.pairwise_map]

theorem Keyed.modify {α : Type} {l : List (Nat × α)} (h : Keyed l) (k : Nat) (f : α → α) : Keyed (assocModify l k f) := by
  rw [keyed_iff, assocModify_keys, ← keyed_iff]; exact h

theorem Keyed.mapValues {α : Type} {l : List (Nat × α)} (h : Keyed l) (f : Nat × α → Nat × α) (hf : ∀ e, (f e).1 = e.1) :
    Keyed (l.map f) := by
  rw [keyed_iff, List.map_map]
  have : (fun e : Nat × α => e.1) ∘ f = fun e => e.1 := funext hf
  rw [this, ← keyed_iff]; exact h

theorem Keyed.erase {α : Type} {l : List (Nat × α)} (h : Keyed l) (k : Nat) : Keyed (assocErase l k) := h.filter _

theorem assocModify_absent {α : Type} {l : List (Nat × α)} {k : Nat} (h : assocGet l k = none) (f : α → α) :
    assocModify l k f = l := by
  unfold assocModify
  conv_rhs => rw [← List.map_id l]
  apply List.map_congr_left
  intro e he
  rw [if_neg]
  · rfl
  · intro hk
    have := assocGet_of_mem_key he
    rw [hk, h] at this; cases this

theorem sum_modify {α : Type} {l : List (Nat × α)} (h : Keyed l) {k : Nat} {a : α} (ha : assocGet l k = some a) (f : α → α)
    (F : Nat × α → Nat) :
    ((assocModify l k f).map F).sum + F (k, a) = (l.map F).sum + F (k, f a) := by
  induction l with
  | nil => cases ha
  | cons d rest ih =>
    obtain ⟨h1, h2⟩ := List.pairwise_cons.1 h
    by_cases hd : d.1 = k
    · subst hd
      have hda : d.2 = a := by simpa [assocGet] using ha
      have hrest : assocGet rest d.1 = none := by
        cases hr : assocGet rest d.1 with
        | none => rfl
        | some v => have := h1 _ (mem_of_assocGet hr); simp at this
      have := assocModify_absent hrest f
      unfold assocModify at this ⊢
      rw [List.map_cons, this, if_pos rfl, List.map_cons, List.map_cons, List.sum_cons, List.sum_cons, hda]
      have he : F (d.1, a) = F d := by rw [← hda]
      omega
    · have ha' : assocGet rest k = some a := by simpa [assocGet, hd] using ha
      have := ih h2 ha'
      unfold assocModify at this ⊢
      simp only [List.map_cons, List.sum_cons, if_neg hd]
      omega

theorem sum_erase {α : Type} {l : List (Nat × α)} (h : Keyed l) {k : Nat} {a : α} (ha : assocGet l k = some a)
    (F : Nat × α → Nat) : (l.map F).sum = ((assocErase l k).map F).sum + F (k, a) := by
  induction l with
  | nil => cases ha
  | cons d rest ih =>
    obtain ⟨h1, h2⟩ := List.pairwise_cons.1 h
    by_cases hd : d.1 = k
    · subst hd
      have hda : d.2 = a := by simpa [assocGet] using ha
      have hrest : assocErase (d :: rest) d.1 = rest := by
        unfold assocErase
        rw [List.filter_cons_of_neg (by simp), List.filter_eq_self]
        intro e he
        have := h1 e he
        simp; omega
      rw [hrest, List.map_cons, List.sum_cons]
      have he : F (d.1, a) = F d := by rw [← hda]
      omega
    · have ha' : assocGet rest k = some a := by simpa [assocGet, hd] using ha
      have := ih h2 ha'
      unfold assocErase at this ⊢
      rw [List.filter_cons_of_pos (by simpa using hd)]
      simp only [List.map_cons, List.sum_cons]
      omega

theorem sum_set {α : Type} {l : List (Nat × α)} (h : Keyed l) (k : Nat) (v : α) (F : Nat × α → Nat) :
    ((assocSet l k v).map F).sum + ((assocGet l k).map (fun u => F (k, u))).getD 0 = (l.map F).sum + F (k, v) := by
  induction l with
  | nil => simp [assocSet, assocGet]
  | cons d rest ih =>
    obtain ⟨j, u⟩ := d
    obtain ⟨h1, h2⟩ := List.pairwise_cons.1 h
    unfold assocSet assocGet
    by_cases hlt : j < k
    · rw [if_pos hlt, if_neg (by omega)]
      have := ih h2
      simp only [List.map_cons, List.sum_cons]
      omega
    · rw [if_neg hlt]
      by_cases he : j = k
      · subst he
        rw [if_pos rfl, if_pos rfl]
        simp only [List.map_cons, List.sum_cons, Option.map_some, Option.getD_some]
        omega
      · rw [if_neg he, if_neg he]
        have hnone : assocGet rest k = none := by
          cases hr : assocGet rest k with
          | none => rfl
          | some w => have := h1 _ (mem_of_assocGet hr); simp only at this; omega
        rw [hnone]
        simp only [List.map_cons, List.sum_cons, Option.map_none, Option.getD_none]
        omega

/-! ### Counting the valid PTEs of a frame -/

/-- 1 where a PTE is valid and maps the frame, else 0. -/
def Pte.refs (p : Pte) (f : Nat) : Nat := if p.valid = true ∧ p.ppn = f then 1 else 0

/-- The valid PTEs of an L2 table that map a frame. -/
def L2Table.refs (t : L2Table) (f : Nat) : Nat := (t.ptes.map (fun q => q.2.refs f)).sum

/-- The valid PTEs of an address space that map a frame. -/
def AddrSpace.refs (a : AddrSpace) (f : Nat) : Nat := (a.directory.map (fun d => d.2.refs f)).sum

/-- The valid PTEs of all address spaces that map a frame. -/
def State.refs (s : State) (f : Nat) : Nat := (s.paging.spaces.map (fun e => e.2.refs f)).sum

theorem AddrSpace.refs_eq (a : AddrSpace) (f : Nat) : (a.mappings.filter (fun m => m.2.ppn = f)).length = a.refs f := by
  unfold AddrSpace.mappings AddrSpace.refs
  rw [List.filter_flatMap, List.length_flatMap]
  congr 1
  apply List.map_congr_left
  intro d _
  unfold L2Table.refs
  rw [List.filter_filter, List.filter_map, List.length_map]
  induction d.2.ptes with
  | nil => rfl
  | cons q l ih =>
    rw [List.map_cons, List.sum_cons, ← ih, List.filter_cons]
    unfold Pte.refs
    by_cases h1 : q.2.valid = true <;> by_cases h2 : q.2.ppn = f <;> simp [h1, h2, Nat.add_comm]

theorem mappersOf_length (s : State) (f : Nat) : (mappersOf s f).length = s.refs f := by
  unfold mappersOf State.refs
  rw [List.length_flatMap]
  congr 1
  apply List.map_congr_left
  intro e _
  rw [List.length_map, AddrSpace.refs_eq]

theorem AddrSpace.refs_setPte {a : AddrSpace} (hd : Keyed a.directory) (ht : ∀ d ∈ a.directory, Keyed d.2.ptes) {vpn : Nat}
    {t : L2Table} (hg : assocGet a.directory (l1Index vpn) = some t) (p : Pte) (f : Nat) :
    (a.setPte vpn p).refs f + ((a.pte? vpn).map (fun q => q.refs f)).getD 0 = a.refs f + p.refs f := by
  have h1 := sum_modify hd hg (fun t => { t with ptes := assocSet t.ptes (l2Index vpn) p }) (fun d => d.2.refs f)
  have h2 := sum_set (ht _ (mem_of_assocGet hg)) (l2Index vpn) p (fun q => q.2.refs f)
  have hp : a.pte? vpn = assocGet t.ptes (l2Index vpn) := by unfold AddrSpace.pte?; rw [hg]
  rw [hp]
  unfold AddrSpace.setPte AddrSpace.refs
  have e1 : ∀ u : L2Table, u.refs f = (u.ptes.map (fun q => q.2.refs f)).sum := fun _ => rfl
  dsimp only at h1 h2 ⊢
  rw [e1 t, e1 { t with ptes := assocSet t.ptes (l2Index vpn) p }] at h1
  dsimp only at h1
  omega

theorem State.refs_modSpace {s : State} (hs : Keyed s.paging.spaces) {h : Nat} {a : AddrSpace} (ha : s.space? h = some a)
    (g : AddrSpace → AddrSpace) (f : Nat) : (s.modSpace h g).refs f + a.refs f = s.refs f + (g a).refs f :=
  sum_modify hs ha g (fun e => e.2.refs f)

/-! ### The walk after an update of the tables -/

theorem index_split (d q : Nat) (h : q < 1024) : l1Index (d * 1024 + q) = d ∧ l2Index (d * 1024 + q) = q := by
  unfold l1Index l2Index; omega

theorem index_join (v : Nat) : l1Index v * 1024 + l2Index v = v := by unfold l1Index l2Index; omega

theorem AddrSpace.pte?_setPte_ne (a : AddrSpace) {v w : Nat} (p : Pte) (h : w ≠ v) : (a.setPte v p).pte? w = a.pte? w := by
  unfold AddrSpace.setPte AddrSpace.pte?
  dsimp only
  rw [assocGet_modify]
  by_cases h1 : l1Index w = l1Index v
  · rw [if_pos h1]
    cases hg : assocGet a.directory (l1Index w) with
    | none => rfl
    | some t =>
      dsimp only [Option.map_some]
      rw [assocGet_set, if_neg]
      intro h2
      exact h (by rw [← index_join w, ← index_join v, h1, h2])
  · rw [if_neg h1]

theorem State.mapping?_eq {s : State} {h : Nat} {a : AddrSpace} (ha : s.space? h = some a) (v : Nat) :
    s.mapping? h v = (a.pte? v).filter (fun p => p.valid) := by
  unfold State.mapping?; rw [ha]; rfl

theorem State.mapping?_some {s : State} {h v : Nat} {p : Pte} (e : s.mapping? h v = some p) :
    ∃ a, s.space? h = some a ∧ a.pte? v = some p ∧ p.valid = true := by
  unfold State.mapping? at e
  cases ha : s.space? h with
  | none => rw [ha] at e; cases e
  | some a =>
    rw [ha, Option.bind_some] at e
    obtain ⟨h1, h2⟩ := Option.filter_eq_some_iff.1 e
    exact ⟨a, rfl, h1, h2⟩

theorem State.mapping?_congr {s t : State} (e : t.paging.spaces = s.paging.spaces) (h v : Nat) :
    t.mapping? h v = s.mapping? h v := by
  unfold State.mapping? State.space?; rw [e]

theorem State.tableAt_congr {s t : State} (e : t.paging.spaces = s.paging.spaces) (h l : Nat) :
    t.tableAt h l = s.tableAt h l := by
  unfold State.tableAt State.space?; rw [e]

theorem State.refs_congr {s t : State} (e : t.paging.spaces = s.paging.spaces) (f : Nat) : t.refs f = s.refs f := by
  unfold State.refs; rw [e]

theorem tablesKeyed_iff (s : State) : s.tablesKeyed ↔ Keyed s.paging.spaces ∧ ∀ e ∈ s.paging.spaces,
    e.1 < s.kernel.nextSpace ∧ Keyed e.2.directory ∧ ∀ d ∈ e.2.directory, Keyed d.2.ptes ∧ ∀ q ∈ d.2.ptes, q.1 < 1024 := by
  unfold State.tablesKeyed
  simp only [assocSorted_iff]

theorem State.tablesKeyed.space {s : State} (hk : s.tablesKeyed) {h : Nat} {a : AddrSpace} (ha : s.space? h = some a) :
    h < s.kernel.nextSpace ∧ Keyed a.directory ∧ ∀ d ∈ a.directory, Keyed d.2.ptes ∧ ∀ q ∈ d.2.ptes, q.1 < 1024 :=
  ((tablesKeyed_iff s).1 hk).2 (h, a) (mem_of_assocGet ha)

/-- The pages a frame is listed as mapped by are those whose valid PTE maps it. -/
theorem mem_mappersOf {s : State} (hk : s.tablesKeyed) {f : Nat} {m : Nat × Nat} :
    m ∈ mappersOf s f ↔ ∃ p, s.mapping? m.1 m.2 = some p ∧ p.ppn = f := by
  obtain ⟨k1, k2⟩ := (tablesKeyed_iff s).1 hk
  constructor
  · intro hm
    unfold mappersOf AddrSpace.mappings at hm
    simp only [List.mem_flatMap, List.mem_map, List.mem_filter, decide_eq_true_eq] at hm
    obtain ⟨e, he, x, ⟨⟨d, hd, ⟨q, hq, rfl⟩, hv⟩, hf⟩, rfl⟩ := hm
    obtain ⟨-, k3, k4⟩ := k2 e he
    obtain ⟨k5, k6⟩ := k4 d hd
    have hs : s.space? e.1 = some e.2 := k1.unique he
    obtain ⟨i1, i2⟩ := index_split d.1 q.1 (k6 q hq)
    refine ⟨q.2, ?_, hf⟩
    dsimp only
    rw [State.mapping?_eq hs]
    unfold AddrSpace.pte?
    rw [i1, i2, k3.unique hd]
    dsimp only
    rw [k5.unique hq]
    exact Option.filter_eq_some_iff.2 ⟨rfl, hv⟩
  · rintro ⟨p, hp, rfl⟩
    obtain ⟨a, ha, hpte, hv⟩ := State.mapping?_some hp
    unfold AddrSpace.pte? at hpte
    split at hpte
    · rename_i t ht
      unfold mappersOf AddrSpace.mappings
      simp only [List.mem_flatMap, List.mem_map, List.mem_filter, decide_eq_true_eq]
      refine ⟨(m.1, a), mem_of_assocGet ha, (m.2, p), ⟨⟨(l1Index m.2, t), mem_of_assocGet ht, ⟨(l2Index m.2, p),
        mem_of_assocGet hpte, ?_⟩, hv⟩, rfl⟩, rfl⟩
      dsimp only
      rw [index_join]
    · cases hpte

theorem refs_pos {s : State} (hk : s.tablesKeyed) {f : Nat} : 0 < s.refs f ↔ ∃ h v p, s.mapping? h v = some p ∧ p.ppn = f := by
  rw [← mappersOf_length, List.length_pos_iff_exists_mem]
  constructor
  · rintro ⟨m, hm⟩
    obtain ⟨p, hp⟩ := (mem_mappersOf hk).1 hm
    exact ⟨m.1, m.2, p, hp⟩
  · rintro ⟨h, v, p, hp⟩
    exact ⟨(h, v), (mem_mappersOf hk).2 ⟨p, hp⟩⟩

theorem AddrSpace.setPte_keyed {a : AddrSpace} (hd : Keyed a.directory)
    (hp : ∀ d ∈ a.directory, Keyed d.2.ptes ∧ ∀ q ∈ d.2.ptes, q.1 < 1024) (v : Nat) (p : Pte) :
    Keyed (a.setPte v p).directory ∧
      ∀ d ∈ (a.setPte v p).directory, Keyed d.2.ptes ∧ ∀ q ∈ d.2.ptes, q.1 < 1024 := by
  refine ⟨hd.modify (l1Index v) (fun t => { t with ptes := assocSet t.ptes (l2Index v) p }), fun d hdm => ?_⟩
  obtain ⟨e, he, rfl⟩ := List.mem_map.1 hdm
  obtain ⟨h1, h2⟩ := hp e he
  split
  · refine ⟨assocSorted_set h1 _ _, fun q hq => ?_⟩
    rcases mem_assocSet hq with rfl | hq
    · unfold l2Index; dsimp only; omega
    · exact h2 q hq
  · exact ⟨h1, h2⟩

theorem tablesKeyed_congr {s t : State} (h : t.paging.spaces = s.paging.spaces)
    (hn : s.kernel.nextSpace ≤ t.kernel.nextSpace) (hk : s.tablesKeyed) : t.tablesKeyed := by
  unfold State.tablesKeyed at hk ⊢
  rw [h]
  exact ⟨hk.1, fun e he => ⟨Nat.lt_of_lt_of_le (hk.2 e he).1 hn, (hk.2 e he).2⟩⟩

/-- Changing one space keeps the lists in order if the new space's lists are. -/
theorem tablesKeyed_modSpace {s t : State} {h : Nat} {g : AddrSpace → AddrSpace}
    (ht : t.paging.spaces = assocModify s.paging.spaces h g) (hn : t.kernel.nextSpace = s.kernel.nextSpace)
    (hk : s.tablesKeyed)
    (hg : ∀ a, s.space? h = some a → Keyed (g a).directory ∧
      ∀ d ∈ (g a).directory, Keyed d.2.ptes ∧ ∀ q ∈ d.2.ptes, q.1 < 1024) : t.tablesKeyed := by
  obtain ⟨k1, k2⟩ := (tablesKeyed_iff s).1 hk
  refine (tablesKeyed_iff t).2 ⟨by rw [ht]; exact k1.modify _ _, fun e he => ?_⟩
  rw [ht] at he
  obtain ⟨d, hd, rfl⟩ := List.mem_map.1 he
  rw [hn]
  split
  · rename_i hh
    refine ⟨(k2 d hd).1, hg d.2 ?_⟩
    rw [← hh]; exact k1.unique hd
  · exact k2 d hd

/-! ### What keeps the records and the tables in agreement -/

theorem State.space?_set {s t : State} {h : Nat} {g : AddrSpace → AddrSpace}
    (ht : t.paging.spaces = assocModify s.paging.spaces h g) (k : Nat) :
    t.space? k = if k = h then (s.space? k).map g else s.space? k := by
  unfold State.space?; rw [ht, assocGet_modify]

/-- The records, the PTEs' frames and their numbers, and the tables' frames are as they were. -/
theorem framesTidy_same {s t : State} (hs : s.framesTidy) (hk : t.tablesKeyed)
    (hl : t.paging.frames.length = s.paging.frames.length)
    (hf : ∀ f, (t.frame f).free = (s.frame f).free ∧ (t.frame f).refcount = (s.frame f).refcount ∧
      (t.frame f).owner = (s.frame f).owner)
    (ht : ∀ h l, t.tableAt h l = s.tableAt h l)
    (hm : ∀ h a v p, t.space? h = some a → t.mapping? h v = some p →
      ∃ b q, s.space? h = some b ∧ s.mapping? h v = some q ∧ q.ppn = p.ppn ∧ q.shared = p.shared ∧ b.pid = a.pid)
    (hr : ∀ f, t.refs f = s.refs f) : t.framesTidy := by
  obtain ⟨-, h2, h3, h4⟩ := hs
  refine ⟨hk, ?_, ?_, ?_⟩
  · intro h l f e
    rw [ht] at e
    obtain ⟨i1, i2, i3, i4, i5⟩ := h2 h l f e
    exact ⟨hl ▸ i1, (hf f).1.trans i2, (hf f).2.1.trans i3, (hf f).2.2.trans i4, fun h' l' e' => i5 h' l' (by rw [← ht]; exact e')⟩
  · intro h a v p ha hp
    obtain ⟨b, q, hb, hq, e1, e2, e3⟩ := hm h a v p ha hp
    obtain ⟨i1, i2⟩ := h3 h b v q hb hq
    rw [e1, e2, e3] at i2
    rw [e1] at i1
    rw [hl, (hf _).2.2]
    exact ⟨i1, i2⟩
  · intro f hlt
    have := h4 f (hl ▸ hlt)
    rw [(hf f).1, (hf f).2.1, (hf f).2.2, mappersOf_length, hr, ← mappersOf_length]
    simp only [ht]
    exact this

/-- The records are as they were, and the spaces too. -/
theorem framesTidy_records {s t : State} (hs : s.framesTidy) (he : t.paging.spaces = s.paging.spaces)
    (hn : s.kernel.nextSpace ≤ t.kernel.nextSpace) (hf : SameFrames s t) : t.framesTidy :=
  framesTidy_same hs (tablesKeyed_congr he hn hs.1) hf.1 hf.2 (State.tableAt_congr he)
    (fun h a v p ha hp => ⟨a, p, by unfold State.space? at ha ⊢; rw [← he]; exact ha, by
      rw [← State.mapping?_congr he]; exact hp, rfl, rfl, rfl⟩) (State.refs_congr he)

/-- The paging structures are as they were. -/
theorem framesTidy_congr {s t : State} (he : t.paging = s.paging) (hn : s.kernel.nextSpace ≤ t.kernel.nextSpace)
    (hs : s.framesTidy) : t.framesTidy :=
  framesTidy_records hs (by rw [he]) hn ⟨by rw [he], fun f => by unfold State.frame; rw [he]; exact ⟨rfl, rfl, rfl⟩⟩

/-- The tables' frames after a PTE is set. -/
theorem tableAt_setPte {s t : State} {h vpn : Nat} {p : Pte}
    (ht : t.paging.spaces = assocModify s.paging.spaces h (fun a => a.setPte vpn p)) (k l : Nat) :
    t.tableAt k l = s.tableAt k l := by
  unfold State.tableAt
  rw [State.space?_set ht]
  split
  · cases s.space? k with
    | none => rfl
    | some a =>
      simp only [Option.map_some, Option.bind_some, AddrSpace.setPte]
      rw [assocGet_modify]
      split
      · cases assocGet a.directory l <;> rfl
      · rfl
  · rfl

/-- The walks after a PTE is set in a table that is there. -/
theorem mapping?_setPte {s t : State} {h vpn : Nat} {p : Pte} {a : AddrSpace} (ha : s.space? h = some a)
    (hd : assocGet a.directory (l1Index vpn) ≠ none)
    (ht : t.paging.spaces = assocModify s.paging.spaces h (fun a => a.setPte vpn p)) (k v : Nat) :
    t.mapping? k v = if k = h ∧ v = vpn then (if p.valid then some p else none) else s.mapping? k v := by
  unfold State.mapping?
  rw [State.space?_set ht]
  by_cases hk : k = h
  · subst hk
    rw [if_pos rfl, ha, Option.map_some, Option.bind_some]
    by_cases hv : v = vpn
    · subst hv
      rw [if_pos ⟨rfl, rfl⟩, AddrSpace.pte?_setPte _ _ _ hd]
      cases h : p.valid <;> simp [Option.filter, h]
    · rw [if_neg (fun e => hv e.2), AddrSpace.pte?_setPte_ne _ _ hv]; rfl
  · rw [if_neg hk, if_neg (fun e => hk e.1)]

theorem mapping?_none_refs {s : State} {h vpn : Nat} {a : AddrSpace} (ha : s.space? h = some a)
    (hm : s.mapping? h vpn = none) (f : Nat) : ((a.pte? vpn).map (fun q => q.refs f)).getD 0 = 0 := by
  rw [State.mapping?_eq ha] at hm
  cases hp : a.pte? vpn with
  | none => rfl
  | some q =>
    rw [hp] at hm
    have hv : q.valid = false := by
      cases h : q.valid with
      | false => rfl
      | true => simp [Option.filter, h] at hm
    simp [Pte.refs, hv]

theorem mapping?_some_refs {s : State} {h vpn : Nat} {a : AddrSpace} {q : Pte} (ha : s.space? h = some a)
    (hm : s.mapping? h vpn = some q) (f : Nat) :
    ((a.pte? vpn).map (fun q => q.refs f)).getD 0 = if q.ppn = f then 1 else 0 := by
  obtain ⟨b, hb, hp, hv⟩ := State.mapping?_some hm
  rw [ha] at hb; cases hb
  rw [hp]
  simp [Pte.refs, hv]

/-- How many valid PTEs map a frame after one is set. -/
theorem refs_setPte {s t : State} (hk : s.tablesKeyed) {h vpn : Nat} {p : Pte} {a : AddrSpace} (ha : s.space? h = some a)
    (hd : assocGet a.directory (l1Index vpn) ≠ none)
    (ht : t.paging.spaces = assocModify s.paging.spaces h (fun a => a.setPte vpn p)) (f : Nat) :
    t.refs f + ((a.pte? vpn).map (fun q => q.refs f)).getD 0 = s.refs f + p.refs f := by
  obtain ⟨tb, htb⟩ := Option.ne_none_iff_exists'.1 hd
  obtain ⟨-, k1, k2⟩ := hk.space ha
  have h1 := AddrSpace.refs_setPte k1 (fun d hd => (k2 d hd).1) htb p f
  have h2 : t.refs f + a.refs f = s.refs f + (a.setPte vpn p).refs f := by
    have := State.refs_modSpace ((tablesKeyed_iff s).1 hk).1 ha (fun a => a.setPte vpn p) f
    unfold State.refs at this ⊢
    rw [ht]; exact this
  omega

/-- A frame no page owns and no table has is mapped by no valid PTE. -/
theorem State.framesTidy.unmapped {s : State} (hs : s.framesTidy) {f : Nat} (ho : (s.frame f).owner = .none) :
    s.refs f = 0 := by
  rw [← Nat.le_zero, ← Nat.not_lt]
  intro hp
  obtain ⟨h, v, p, hm, rfl⟩ := (refs_pos hs.1).1 hp
  obtain ⟨a, ha, -⟩ := State.mapping?_some hm
  have := (hs.2.2.1 h a v p ha hm).2
  split at this
  · obtain ⟨k, hk⟩ := this; rw [ho] at hk; cases hk
  · rw [ho] at this; cases this

/-- A free frame has no owner. -/
theorem State.framesTidy.free {s : State} (hs : s.framesTidy) {f : Nat} (hl : f < s.paging.frames.length)
    (h : (s.frame f).free = true) : (s.frame f).owner = .none ∧ (s.frame f).refcount = 0 := by
  have := hs.2.2.2 f hl
  split at this
  · rename_i ho; exact ⟨ho, this.2⟩
  all_goals rw [h] at this; cases this.1

/-- A PTE is set where none was valid: for a page, to a frame that was free; for a shared page, to a SHARED frame that gets one
more reference. -/
theorem framesTidy_map {s t : State} (hs : s.framesTidy) {h vpn f : Nat} {p : Pte} {a : AddrSpace}
    (ha : s.space? h = some a) (hd : assocGet a.directory (l1Index vpn) ≠ none) (hm : s.mapping? h vpn = none)
    (hv : p.valid = true) (hp : p.ppn = f) (hf : f < s.paging.frames.length)
    (ht : t.paging.spaces = assocModify s.paging.spaces h (fun a => a.setPte vpn p))
    (hn : t.kernel.nextSpace = s.kernel.nextSpace) (hl : t.paging.frames.length = s.paging.frames.length)
    (hg : ∀ g, g ≠ f → (t.frame g).free = (s.frame g).free ∧ (t.frame g).refcount = (s.frame g).refcount ∧
      (t.frame g).owner = (s.frame g).owner)
    (hfr : (t.frame f).free = false ∧
      ((p.shared = false ∧ (s.frame f).owner = .none ∧ (t.frame f).refcount = 1 ∧ (t.frame f).owner = .page a.pid vpn) ∨
        (p.shared = true ∧ ∃ key, (s.frame f).owner = .shared key ∧ (t.frame f).owner = .shared key ∧
          (t.frame f).refcount = (s.frame f).refcount + 1))) : t.framesTidy := by
  have hk := hs.1
  obtain ⟨-, ka, kb⟩ := hk.space ha
  have hmap := mapping?_setPte ha hd ht
  have hrefs : ∀ g, t.refs g = s.refs g + (if f = g then 1 else 0) := fun g => by
    have h1 := refs_setPte hk ha hd ht g
    have h2 := mapping?_none_refs ha hm g
    have h3 : p.refs g = if f = g then 1 else 0 := by unfold Pte.refs; simp [hv, hp]
    omega
  obtain ⟨-, h2, h3, h4⟩ := hs
  have hnot : ∀ k l, s.tableAt k l ≠ some f := by
    intro k l e
    have := (h2 k l f e).2.2.2.1
    rcases hfr.2 with ⟨-, ho, -⟩ | ⟨-, key, ho, -⟩ <;> rw [ho] at this <;> cases this
  refine ⟨tablesKeyed_modSpace ht hn hk (fun b hb => ?_), ?_, ?_, ?_⟩
  · rw [ha] at hb; cases hb; exact AddrSpace.setPte_keyed ka kb _ _
  · intro k l g e
    rw [tableAt_setPte ht] at e
    obtain ⟨i1, i2, i3, i4, i5⟩ := h2 k l g e
    have hgf : g ≠ f := fun e' => hnot k l (e' ▸ e)
    refine ⟨hl ▸ i1, (hg g hgf).1.trans i2, (hg g hgf).2.1.trans i3, (hg g hgf).2.2.trans i4, fun k' l' e' => i5 k' l' ?_⟩
    rw [← tableAt_setPte ht]; exact e'
  · intro k b v q hb hq
    rw [hmap] at hq
    by_cases hkv : k = h ∧ v = vpn
    · rw [if_pos hkv, hv, if_pos rfl] at hq
      cases hq
      obtain ⟨rfl, rfl⟩ := hkv
      have hbp : b.pid = a.pid := by
        rw [State.space?_set ht, if_pos rfl, ha] at hb; cases hb; rfl
      rw [hp, hl]
      refine ⟨hf, ?_⟩
      rcases hfr.2 with ⟨e1, -, -, e2⟩ | ⟨e1, key, -, e2, -⟩
      · rw [e1, hbp]; exact e2
      · rw [e1]; exact ⟨key, e2⟩
    · rw [if_neg hkv] at hq
      obtain ⟨c, hc, hcp⟩ : ∃ c, s.space? k = some c ∧ c.pid = b.pid := by
        rw [State.space?_set ht] at hb
        split at hb
        · obtain ⟨c, hc, rfl⟩ := Option.map_eq_some_iff.1 hb; exact ⟨c, hc, rfl⟩
        · exact ⟨b, hb, rfl⟩
      obtain ⟨i1, i2⟩ := h3 k c v q hc hq
      rw [hl]
      refine ⟨i1, ?_⟩
      by_cases hqf : q.ppn = f
      · rw [hqf] at i2 ⊢
        rcases hfr.2 with ⟨-, ho, -⟩ | ⟨-, key, ho, e2, -⟩
        · rw [ho] at i2
          split at i2
          · obtain ⟨_, hx⟩ := i2; cases hx
          · cases i2
        · rw [ho] at i2
          split at i2
          · rename_i hsh; rw [hsh, if_pos rfl]; exact ⟨key, e2⟩
          · cases i2
      · rw [(hg _ hqf).2.2, ← hcp]; exact i2
  · intro g hlt
    rw [hl] at hlt
    have hold := h4 g hlt
    rw [mappersOf_length] at hold ⊢
    rw [hrefs]
    by_cases hgf : g = f
    · subst hgf
      rw [if_pos rfl]
      rcases hfr.2 with ⟨-, ho, e1, e2⟩ | ⟨-, key, ho, e2, e1⟩
      · rw [e2]
        dsimp only
        have : s.refs g = 0 := State.framesTidy.unmapped ⟨hk, h2, h3, h4⟩ ho
        exact ⟨hfr.1, e1, by omega⟩
      · rw [ho] at hold
        rw [e2]
        dsimp only at hold ⊢
        exact ⟨hfr.1, by omega⟩
    · rw [if_neg (fun e => hgf e.symm), Nat.add_zero, (hg g hgf).1, (hg g hgf).2.1, (hg g hgf).2.2]
      simp only [tableAt_setPte ht]
      exact hold

/-- A valid PTE becomes invalid, and its frame gives up one reference. -/
theorem framesTidy_unmap {s t : State} (hs : s.framesTidy) {h vpn : Nat} {p q : Pte}
    (hm : s.mapping? h vpn = some p) (hq : q.valid = false)
    (ht : t.paging.spaces = assocModify s.paging.spaces h (fun a => a.setPte vpn q))
    (hn : t.kernel.nextSpace = s.kernel.nextSpace) (hl : t.paging.frames.length = s.paging.frames.length)
    (hg : ∀ g, g ≠ p.ppn → (t.frame g).free = (s.frame g).free ∧ (t.frame g).refcount = (s.frame g).refcount ∧
      (t.frame g).owner = (s.frame g).owner)
    (hfr : if (s.frame p.ppn).refcount ≤ 1 then (t.frame p.ppn).free = true ∧ (t.frame p.ppn).refcount = 0 ∧
        (t.frame p.ppn).owner = .none
      else (t.frame p.ppn).free = (s.frame p.ppn).free ∧ (t.frame p.ppn).refcount = (s.frame p.ppn).refcount - 1 ∧
        (t.frame p.ppn).owner = (s.frame p.ppn).owner) : t.framesTidy := by
  have hk := hs.1
  obtain ⟨a, ha, hpte, hval⟩ := State.mapping?_some hm
  have hd : assocGet a.directory (l1Index vpn) ≠ none := by
    intro e; unfold AddrSpace.pte? at hpte; rw [e] at hpte; cases hpte
  obtain ⟨-, ka, kb⟩ := hk.space ha
  have hmap := mapping?_setPte ha hd ht
  have hrefs : ∀ g, t.refs g + (if p.ppn = g then 1 else 0) = s.refs g := fun g => by
    have h1 := refs_setPte hk ha hd ht g
    have h2 := mapping?_some_refs ha hm g
    have h3 : q.refs g = 0 := by unfold Pte.refs; simp [hq]
    omega
  obtain ⟨-, h2, h3, h4⟩ := hs
  obtain ⟨hpl, hpo⟩ := h3 h a vpn p ha hm
  have hnot : ∀ k l, s.tableAt k l ≠ some p.ppn := by
    intro k l e
    have := (h2 k l p.ppn e).2.2.2.1
    rw [this] at hpo
    split at hpo
    · obtain ⟨_, hx⟩ := hpo; cases hx
    · cases hpo
  have hkeyed : t.tablesKeyed := tablesKeyed_modSpace ht hn hk (fun b hb => by
    rw [ha] at hb; cases hb; exact AddrSpace.setPte_keyed ka kb _ _)
  have hold := h4 p.ppn hpl
  rw [mappersOf_length] at hold
  have hcount := hrefs p.ppn
  rw [if_pos rfl] at hcount
  -- what the frame is afterwards
  have hnew : ((t.frame p.ppn).owner = .none ∧ (t.frame p.ppn).free = true ∧ (t.frame p.ppn).refcount = 0 ∧ t.refs p.ppn = 0) ∨
      (∃ key, (t.frame p.ppn).owner = .shared key ∧ (s.frame p.ppn).owner = .shared key ∧ (t.frame p.ppn).free = false ∧
        (t.frame p.ppn).refcount = t.refs p.ppn) := by
    split at hpo
    · obtain ⟨key, hkey⟩ := hpo
      rw [hkey] at hold
      dsimp only at hold
      split at hfr
      · exact .inl ⟨hfr.2.2, hfr.1, hfr.2.1, by omega⟩
      · exact .inr ⟨key, hfr.2.2.trans hkey, hkey, hfr.1.trans hold.1, by omega⟩
    · rw [hpo] at hold
      dsimp only at hold
      rw [if_pos (by omega)] at hfr
      exact .inl ⟨hfr.2.2, hfr.1, hfr.2.1, by omega⟩
  refine ⟨hkeyed, ?_, ?_, ?_⟩
  · intro k l g e
    rw [tableAt_setPte ht] at e
    obtain ⟨i1, i2, i3, i4, i5⟩ := h2 k l g e
    have hgf : g ≠ p.ppn := fun e' => hnot k l (e' ▸ e)
    refine ⟨hl ▸ i1, (hg g hgf).1.trans i2, (hg g hgf).2.1.trans i3, (hg g hgf).2.2.trans i4, fun k' l' e' => i5 k' l' ?_⟩
    rw [← tableAt_setPte ht]; exact e'
  · intro k b v r hb hr
    have hr0 := hr
    rw [hmap] at hr
    by_cases hkv : k = h ∧ v = vpn
    · rw [if_pos hkv, hq, if_neg (by simp)] at hr; cases hr
    · rw [if_neg hkv] at hr
      obtain ⟨c, hc, hcp⟩ : ∃ c, s.space? k = some c ∧ c.pid = b.pid := by
        rw [State.space?_set ht] at hb
        split at hb
        · obtain ⟨c, hc, rfl⟩ := Option.map_eq_some_iff.1 hb; exact ⟨c, hc, rfl⟩
        · exact ⟨b, hb, rfl⟩
      obtain ⟨i1, i2⟩ := h3 k c v r hc hr
      rw [hl]
      refine ⟨i1, ?_⟩
      by_cases hqf : r.ppn = p.ppn
      · rcases hnew with ⟨-, -, -, h0⟩ | ⟨key, e1, e2, -⟩
        · have : 0 < t.refs p.ppn := (refs_pos hkeyed).2 ⟨k, v, r, hr0, hqf⟩
          omega
        · rw [hqf] at i2 ⊢
          rw [e2] at i2
          split at i2
          · rename_i hsh; rw [hsh, if_pos rfl]; exact ⟨key, e1⟩
          · cases i2
      · rw [(hg _ hqf).2.2, ← hcp]; exact i2
  · intro g hlt
    rw [hl] at hlt
    have hold := h4 g hlt
    rw [mappersOf_length] at hold ⊢
    by_cases hgf : g = p.ppn
    · subst hgf
      rcases hnew with ⟨e1, e2, e3, -⟩ | ⟨key, e1, -, e2, e3⟩
      · rw [e1]; exact ⟨e2, e3⟩
      · rw [e1]; exact ⟨e2, e3⟩
    · have hr := hrefs g
      rw [if_neg (fun e => hgf e.symm), Nat.add_zero] at hr
      rw [hr, (hg g hgf).1, (hg g hgf).2.1, (hg g hgf).2.2]
      simp only [tableAt_setPte ht]
      exact hold

/-- The number of valid PTEs of a space, after its directory is set at an L1 entry that was empty. -/
theorem AddrSpace.refs_addTable {a : AddrSpace} (hd : Keyed a.directory) {l : Nat} (hn : assocGet a.directory l = none)
    (f g : Nat) :
    ({ a with directory := assocSet a.directory l { frame := f, ptes := [] } } : AddrSpace).refs g = a.refs g := by
  have := sum_set hd l { frame := f, ptes := [] } (fun d => d.2.refs g)
  rw [hn] at this
  have e : ({ frame := f, ptes := [] } : L2Table).refs g = 0 := rfl
  simp only [Option.map_none, Option.getD_none, e] at this
  unfold AddrSpace.refs
  dsimp only
  omega

theorem AddrSpace.pte?_addTable (a : AddrSpace) {l : Nat} (hn : assocGet a.directory l = none) (f v : Nat) :
    ({ a with directory := assocSet a.directory l { frame := f, ptes := [] } } : AddrSpace).pte? v = a.pte? v := by
  unfold AddrSpace.pte?
  dsimp only
  rw [assocGet_set]
  by_cases h : l1Index v = l
  · rw [if_pos h, h, hn]; rfl
  · rw [if_neg h]

/-- An L2 table is added, in a frame that was free. -/
theorem framesTidy_table {s t : State} (hs : s.framesTidy) {h l f : Nat} {a : AddrSpace}
    (ha : s.space? h = some a) (hd : assocGet a.directory l = none) (hf : f < s.paging.frames.length)
    (ho : (s.frame f).owner = .none)
    (ht : t.paging.spaces = assocModify s.paging.spaces h
      (fun b => { b with directory := assocSet b.directory l { frame := f, ptes := [] } }))
    (hn : t.kernel.nextSpace = s.kernel.nextSpace) (hl : t.paging.frames.length = s.paging.frames.length)
    (hg : ∀ g, g ≠ f → (t.frame g).free = (s.frame g).free ∧ (t.frame g).refcount = (s.frame g).refcount ∧
      (t.frame g).owner = (s.frame g).owner)
    (hfr : (t.frame f).free = false ∧ (t.frame f).refcount = 1 ∧ (t.frame f).owner = .pageTable) : t.framesTidy := by
  have hk := hs.1
  obtain ⟨-, ka, kb⟩ := hk.space ha
  have hsp : ∀ k, t.space? k = if k = h then
      some { a with directory := assocSet a.directory l { frame := f, ptes := [] } } else s.space? k := fun k => by
    rw [State.space?_set ht]
    by_cases e : k = h
    · rw [if_pos e, if_pos e, e, ha]; rfl
    · rw [if_neg e, if_neg e]
  have hmap : ∀ k v, t.mapping? k v = s.mapping? k v := fun k v => by
    unfold State.mapping?
    rw [hsp]
    by_cases e : k = h
    · subst e; rw [if_pos rfl, ha, Option.bind_some, Option.bind_some, AddrSpace.pte?_addTable a hd]
    · rw [if_neg e]
  have htab : ∀ k m, t.tableAt k m = if k = h ∧ m = l then some f else s.tableAt k m := fun k m => by
    unfold State.tableAt
    rw [hsp]
    by_cases e : k = h
    · subst e
      rw [if_pos rfl, ha, Option.bind_some, Option.bind_some]
      dsimp only
      rw [assocGet_set]
      by_cases e2 : m = l
      · rw [if_pos e2, if_pos ⟨rfl, e2⟩]; rfl
      · rw [if_neg e2, if_neg (fun x => e2 x.2)]
    · rw [if_neg e, if_neg (fun x => e x.1)]
  have hrefs : ∀ g, t.refs g = s.refs g := fun g => by
    have h2 := sum_modify ((tablesKeyed_iff s).1 hk).1 ha
      (fun b => { b with directory := assocSet b.directory l { frame := f, ptes := [] } }) (fun e => e.2.refs g)
    dsimp only at h2
    rw [AddrSpace.refs_addTable ka hd] at h2
    unfold State.refs
    rw [ht]; omega
  have hnot : ∀ k m, s.tableAt k m ≠ some f := by
    intro k m e
    have := (hs.2.1 k m f e).2.2.2.1
    rw [ho] at this; cases this
  have hunm := hs.unmapped ho
  obtain ⟨-, h2, h3, h4⟩ := hs
  refine ⟨tablesKeyed_modSpace ht hn hk (fun b hb => ?_), ?_, ?_, ?_⟩
  · rw [ha] at hb; cases hb
    refine ⟨assocSorted_set ka _ _, fun d hd => ?_⟩
    rcases mem_assocSet hd with rfl | hd
    · exact ⟨.nil, fun q hq => by cases hq⟩
    · exact kb d hd
  · intro k m g e
    rw [htab] at e
    by_cases hkm : k = h ∧ m = l
    · rw [if_pos hkm] at e; cases e
      refine ⟨hl ▸ hf, hfr.1, hfr.2.1, hfr.2.2, fun k' m' e' => ?_⟩
      rw [htab] at e'
      by_cases hkm' : k' = h ∧ m' = l
      · exact ⟨hkm'.1.trans hkm.1.symm, hkm'.2.trans hkm.2.symm⟩
      · rw [if_neg hkm'] at e'; exact absurd e' (hnot _ _)
    · rw [if_neg hkm] at e
      obtain ⟨i1, i2, i3, i4, i5⟩ := h2 k m g e
      have hgf : g ≠ f := fun e' => hnot k m (e' ▸ e)
      refine ⟨hl ▸ i1, (hg g hgf).1.trans i2, (hg g hgf).2.1.trans i3, (hg g hgf).2.2.trans i4, fun k' m' e' => ?_⟩
      rw [htab] at e'
      by_cases hkm' : k' = h ∧ m' = l
      · rw [if_pos hkm'] at e'; cases e'; exact absurd rfl hgf
      · rw [if_neg hkm'] at e'; exact i5 k' m' e'
  · intro k b v q hb hq
    rw [hmap] at hq
    obtain ⟨c, hc, hcp⟩ : ∃ c, s.space? k = some c ∧ c.pid = b.pid := by
      rw [hsp] at hb
      split at hb
      · rename_i e; cases hb; exact ⟨a, by rw [e]; exact ha, rfl⟩
      · exact ⟨b, hb, rfl⟩
    obtain ⟨i1, i2⟩ := h3 k c v q hc hq
    rw [hl]
    refine ⟨i1, ?_⟩
    have hqf : q.ppn ≠ f := by
      intro e
      have : 0 < s.refs f := (refs_pos hk).2 ⟨k, v, q, hq, e⟩
      omega
    rw [(hg _ hqf).2.2, ← hcp]; exact i2
  · intro g hlt
    rw [hl] at hlt
    have hold := h4 g hlt
    rw [mappersOf_length] at hold ⊢
    rw [hrefs]
    by_cases hgf : g = f
    · subst hgf
      rw [hfr.2.2]
      exact ⟨hfr.1, h, l, by rw [htab, if_pos ⟨rfl, rfl⟩]⟩
    · rw [(hg g hgf).1, (hg g hgf).2.1, (hg g hgf).2.2]
      split
      · rename_i o e; rw [e] at hold; exact hold
      · rename_i o e; rw [e] at hold; exact hold
      · rename_i o e
        rw [e] at hold
        obtain ⟨x1, k, m, x2⟩ := hold
        refine ⟨x1, k, m, ?_⟩
        rw [htab, if_neg]
        · exact x2
        · rintro ⟨rfl, rfl⟩
          unfold State.tableAt at x2
          rw [ha, Option.bind_some, hd] at x2
          cases x2
      · rename_i o e; rw [e] at hold; exact hold

/-! ### The allocator -/

theorem takeFree_frame {o : FrameOwner} {s t : State} {f : Nat} (h : takeFree o s = some (f, t)) :
    f < s.paging.frames.length ∧ (s.frame f).free = true ∧ (t.frame f).free = false ∧ (t.frame f).owner = o ∧
      ((∀ k, o ≠ .shared k) → (t.frame f).refcount = 1) ∧ t.paging.spaces = s.paging.spaces ∧ t.kernel = s.kernel := by
  have hm := (takeFree_some h).1
  have hk := (PagingStep.takeFree h).kernel
  simp only [State.freeFrames, List.mem_filter, List.mem_range] at hm
  unfold takeFree at h
  split at h
  · rename_i f' s1 hc
    obtain ⟨-, -, hp, -⟩ := PagingStep.choose hc
    cases h
    have hf : f < s1.paging.frames.length := by rw [hp]; exact hm.1
    refine ⟨hm.1, hm.2, ?_, ?_, ?_, ?_, hk⟩
    · rw [State.frame_setFrame _ _ _ _ hf, if_pos rfl]
    · rw [State.frame_setFrame _ _ _ _ hf, if_pos rfl]
    · rw [State.frame_setFrame _ _ _ _ hf, if_pos rfl]
      intro hne
      cases o with
      | shared k => exact absurd rfl (hne k)
      | none => rfl
      | page => rfl
      | pageTable => rfl
    · show s1.paging.spaces = _; rw [hp]
  · cases h

theorem onMap_frames (f : Nat) (s : State) : SameFrames s (onMap f s) ∧ (onMap f s).paging.spaces = s.paging.spaces := by
  unfold onMap
  split
  · split
    · rename_i h
      have hp := (PagingStep.choose h).2.2.1
      refine ⟨⟨by dsimp only; rw [hp], fun g => ?_⟩, by dsimp only; rw [hp]⟩
      unfold State.frame
      dsimp only
      rw [hp]
      exact ⟨rfl, rfl, rfl⟩
    · exact ⟨.refl s, rfl⟩
  · exact ⟨⟨rfl, fun _ => ⟨rfl, rfl, rfl⟩⟩, rfl⟩
  · exact ⟨.refl s, rfl⟩

theorem onUnmap_frames (f : Nat) (s : State) :
    SameFrames s (onUnmap f s) ∧ (onUnmap f s).paging.spaces = s.paging.spaces :=
  ⟨(SameFrames.setFrame s f { s.frame f with accessed := false } rfl rfl rfl).trans ⟨rfl, fun _ => ⟨rfl, rfl, rfl⟩⟩, rfl⟩

theorem onAccess_frames (f : Nat) (s : State) :
    SameFrames s (onAccess f s) ∧ (onAccess f s).paging.spaces = s.paging.spaces := by
  refine ⟨.onAccess f s, ?_⟩
  unfold onAccess
  split <;> rfl

theorem clockSweep_frames (pid vpn : Nat) (l : List Nat) (s : State) :
    SameFrames s (clockSweep pid vpn l s).2 ∧ (clockSweep pid vpn l s).2.paging.spaces = s.paging.spaces := by
  induction l generalizing s with
  | nil => exact ⟨.refl s, rfl⟩
  | cons f l ih =>
    unfold clockSweep
    split
    · split
      · obtain ⟨h1, h2⟩ := ih (s.setFrame f { s.frame f with accessed := false })
        exact ⟨(SameFrames.setFrame s f { s.frame f with accessed := false } rfl rfl rfl).trans h1, h2⟩
      · exact ⟨.refl s, rfl⟩
    · exact ih s

theorem samePaging {s t : State} (h : t.paging = s.paging) : SameFrames s t ∧ t.paging.spaces = s.paging.spaces := by
  refine ⟨⟨by rw [h], fun f => ?_⟩, by rw [h]⟩
  unfold State.frame; rw [h]; exact ⟨rfl, rfl, rfl⟩

theorem pickVictim_frames {pid vpn v : Nat} {s t : State} (h : pickVictim pid vpn s = some (v, t)) :
    SameFrames s t ∧ t.paging.spaces = s.paging.spaces := by
  have hpick : SameFrames s (policyPick pid vpn s).2 ∧ (policyPick pid vpn s).2.paging.spaces = s.paging.spaces := by
    unfold policyPick
    split
    · have ho : SameFrames s (clockOrder s).2 ∧ (clockOrder s).2.paging.spaces = s.paging.spaces := by
        unfold clockOrder
        split
        · exact ⟨.refl s, rfl⟩
        · split
          · rename_i hc; exact samePaging (PagingStep.choose hc).2.2.1
          · exact ⟨.refl s, rfl⟩
      obtain ⟨h1, h2⟩ := clockSweep_frames pid vpn ((clockOrder s).1 ++ (clockOrder s).1) (clockOrder s).2
      obtain ⟨h3, h4⟩ := samePaging (State.draw_paging (clockSweep pid vpn ((clockOrder s).1 ++ (clockOrder s).1)
        (clockOrder s).2).2)
      exact ⟨(ho.1.trans h1).trans (h3.trans ⟨rfl, fun _ => ⟨rfl, rfl, rfl⟩⟩), (h4.trans h2).trans ho.2⟩
    · exact ⟨.refl s, rfl⟩
    · exact ⟨.refl s, rfl⟩
  unfold pickVictim at h
  split at h
  · cases h
  · split at h
    · rename_i hq; rw [hq] at hpick; cases h; exact hpick
    · rename_i s1 hq
      rw [hq] at hpick
      obtain ⟨h1, h2⟩ := samePaging (PagingStep.choose h).2.2.1
      exact ⟨hpick.1.trans h1, h2.trans hpick.2⟩

theorem eligible_congr {s t : State} (h : SameFrames s t) (pid vpn f : Nat) : eligible t pid vpn f = eligible s pid vpn f := by
  obtain ⟨h1, h2, h3⟩ := h.2 f
  unfold eligible
  dsimp only
  rw [h1, h2, h3]

theorem clockSweep_eligible {pid vpn v : Nat} {l : List Nat} {s : State} (h : (clockSweep pid vpn l s).1 = some v) :
    eligible s pid vpn v = true := by
  induction l generalizing s with
  | nil => cases h
  | cons f l ih =>
    unfold clockSweep at h
    split at h
    · rename_i he
      split at h
      · rw [← eligible_congr (SameFrames.setFrame s f { s.frame f with accessed := false } rfl rfl rfl)]
        exact ih h
      · cases h; exact he
    · exact ih h

/-- A victim is eligible. -/
theorem pickVictim_eligible {pid vpn v : Nat} {s t : State} (h : pickVictim pid vpn s = some (v, t)) :
    eligible s pid vpn v = true := by
  unfold pickVictim at h
  split at h
  · cases h
  · rename_i f rest hl
    split at h
    · rename_i s1 hq
      cases h
      unfold policyPick at hq
      split at hq
      · have h1 : (clockSweep pid vpn ((clockOrder s).1 ++ (clockOrder s).1) (clockOrder s).2).1 = some v :=
          (Prod.mk.inj hq).1
        have h2 := clockSweep_eligible h1
        have h3 : SameFrames s (clockOrder s).2 := by
          unfold clockOrder
          split
          · exact .refl s
          · split
            · rename_i hc; exact (samePaging (PagingStep.choose hc).2.2.1).1
            · exact .refl s
        rw [eligible_congr h3] at h2; exact h2
      · have h1 : s.paging.recency.find? (eligible s pid vpn) = some v := (Prod.mk.inj hq).1
        exact List.find?_some h1
      · cases hq
    · have hm := (PagingStep.choose h).2.1
      rw [← hl] at hm
      exact (List.mem_filter.1 hm).2

theorem eligible_iff (s : State) (pid vpn f : Nat) : eligible s pid vpn f = true ↔
    (s.frame f).free = false ∧ 1 ≤ (s.frame f).refcount ∧ (s.frame f).owner ≠ .pageTable ∧ (s.frame f).owner ≠ .none ∧
      (s.frame f).owner ≠ .page pid vpn := by
  unfold eligible
  simp [and_assoc]

/-- A frame number out of range reads as a free frame. -/
theorem State.frame_range {s : State} {f : Nat} (h : (s.frame f).free = false) : f < s.paging.frames.length := by
  by_contra hn
  unfold State.frame at h
  rw [List.getD_eq_getElem?_getD, List.getElem?_eq_none (by omega)] at h
  cases h

/-- What giving up one reference makes of the records. -/
theorem decRef_frame {s : State} {v : Nat} (hv : v < s.paging.frames.length) (g : Nat) :
    (decRef v s).frame g =
      if g = v then
        (if (s.frame v).refcount ≤ 1 then { s.frame v with free := true, refcount := 0, owner := .none }
         else { s.frame v with refcount := (s.frame v).refcount - 1 })
      else s.frame g := by
  unfold decRef
  dsimp only
  split <;> rw [State.frame_setFrame _ _ _ _ hv]

theorem assocModify_congr {α : Type} {l : List (Nat × α)} (hl : Keyed l) {k : Nat} {a : α} (ha : assocGet l k = some a)
    {f g : α → α} (h : f a = g a) : assocModify l k f = assocModify l k g := by
  unfold assocModify
  apply List.map_congr_left
  intro e he
  split
  · rename_i hk
    have h1 := hl.unique (show (e.1, e.2) ∈ l from he)
    rw [hk, ha] at h1
    cases h1
    rw [h]
  · rfl

theorem invalidate_spaces {s : State} (hk : s.tablesKeyed) {h v : Nat} {p : Pte} (hm : s.mapping? h v = some p) :
    (invalidate h v s).paging.spaces = assocModify s.paging.spaces h (fun a => a.setPte v { p with valid := false }) := by
  obtain ⟨a, ha, hp, -⟩ := State.mapping?_some hm
  unfold invalidate State.modSpace
  dsimp only
  refine assocModify_congr ((tablesKeyed_iff s).1 hk).1 ha ?_
  rw [hp]

/-- The PTE an eviction clears is a valid one that maps the victim. -/
theorem unmapVictim_gives {s : State} (hs : s.framesTidy) {pid vpn v : Nat} (he : eligible s pid vpn v = true) :
    ∃ h w p u, s.mapping? h w = some p ∧ p.ppn = v ∧ unmapVictim v s = invalidate h w u ∧ u.paging = s.paging ∧
      u.kernel = s.kernel := by
  obtain ⟨e1, e2, e3, e4, -⟩ := (eligible_iff ..).1 he
  have hv := State.frame_range e1
  have hk := hs.1
  have hrec := hs.2.2.2 v hv
  unfold unmapVictim
  cases ho : (s.frame v).owner with
  | none => exact absurd ho e4
  | pageTable => exact absurd ho e3
  | page pid' vpn' =>
    rw [ho] at hrec
    dsimp only at hrec ⊢
    have hne : mappersOf s v ≠ [] := by intro e; rw [e] at hrec; simp at hrec
    obtain ⟨m, hm⟩ := List.exists_mem_of_ne_nil _ hne
    obtain ⟨p, hp, hpv⟩ := (mem_mappersOf hk).1 hm
    obtain ⟨a, ha, -⟩ := State.mapping?_some hp
    have hown := (hs.2.2.1 m.1 a m.2 p ha hp).2
    rw [hpv, ho] at hown
    split at hown
    · obtain ⟨_, hx⟩ := hown; cases hx
    · cases hown
      split
      · rename_i n hn
        obtain ⟨q, hq, hqv⟩ := (mem_mappersOf hk).1 (List.mem_of_find?_eq_some hn)
        exact ⟨n.1, n.2, q, s, hq, hqv, rfl, rfl, rfl⟩
      · rename_i hn
        exact absurd (by rw [ha]; simp) (List.find?_eq_none.1 hn m hm)
  | shared key =>
    rw [ho] at hrec
    dsimp only at hrec ⊢
    have hne : mappersOf s v ≠ [] := by intro e; rw [e, List.length_nil] at hrec; omega
    obtain ⟨r, hr⟩ := State.choose_isSome s hne
    rw [hr]
    obtain ⟨h1, h2, h3, -⟩ := PagingStep.choose hr
    obtain ⟨p, hp, hpv⟩ := (mem_mappersOf hk).1 h2
    exact ⟨r.1.1, r.1.2, p, r.2, hp, hpv, rfl, h3, h1.kernel⟩

theorem framesTidy_evictOne {pid vpn : Nat} {s t : State} (hs : s.framesTidy) (h : evictOne pid vpn s = some t) :
    t.framesTidy := by
  have hkt := (PagingStep.evictOne h).kernel
  unfold evictOne at h
  split at h
  · rename_i v s1 hv
    cases h
    obtain ⟨hf, hsp⟩ := pickVictim_frames hv
    have hk1 := (PagingStep.pickVictim hv).kernel
    dsimp only at hk1
    have hs1 : s1.framesTidy := framesTidy_records hs hsp (by rw [hk1]) hf
    have he : eligible s1 pid vpn v = true := by rw [eligible_congr hf]; exact pickVictim_eligible hv
    obtain ⟨k, w, p, u, hm, rfl, hu, hup, huk⟩ := unmapVictim_gives hs1 he
    have hvl : p.ppn < s1.paging.frames.length := State.frame_range ((eligible_iff ..).1 he).1
    rw [hu] at hkt ⊢
    have hmu : u.mapping? k w = some p := by
      rw [State.mapping?_congr (s := s1) (by rw [hup])]; exact hm
    have hku : u.tablesKeyed := tablesKeyed_congr (by rw [hup]) (by rw [huk]) hs1.1
    have hun := onUnmap_frames p.ppn (invalidate k w u)
    have hlen : (onUnmap p.ppn (invalidate k w u)).paging.frames.length = s1.paging.frames.length := by
      rw [hun.1.1]; show u.paging.frames.length = _; rw [hup]
    have hfr : ∀ g, ((onUnmap p.ppn (invalidate k w u)).frame g).free = (s1.frame g).free ∧
        ((onUnmap p.ppn (invalidate k w u)).frame g).refcount = (s1.frame g).refcount ∧
        ((onUnmap p.ppn (invalidate k w u)).frame g).owner = (s1.frame g).owner := fun g => by
      have h1 := hun.1.2 g
      have h2 : (invalidate k w u).frame g = s1.frame g := by
        show u.paging.frames.getD g Frame.unused = _; rw [hup]; rfl
      rw [h2] at h1; exact h1
    refine framesTidy_unmap (q := { p with valid := false }) hs1 hm rfl ?_ (by rw [hkt, hk1]) ?_ ?_ ?_
    · have h1 : (decRef p.ppn (onUnmap p.ppn (invalidate k w u))).paging.spaces = (invalidate k w u).paging.spaces := by
        unfold decRef; dsimp only; split <;> exact hun.2
      rw [h1, invalidate_spaces hku hmu, hup]
    · exact ((PagingStep.decRef ..).frames.trans hlen)
    · intro g hg
      rw [decRef_frame (by rw [hlen]; exact hvl), if_neg hg]; exact hfr g
    · rw [decRef_frame (by rw [hlen]; exact hvl), if_pos rfl]
      obtain ⟨i1, i2, i3⟩ := hfr p.ppn
      rw [i2]
      split
      · exact ⟨rfl, rfl, rfl⟩
      · exact ⟨i1, rfl, i3⟩
  · cases h

/-- Whoever gets a frame finds the records tidy before it was taken, after an eviction at most: in that state no walk has
become longer. -/
theorem allocFrame_gives {o : FrameOwner} {pid vpn : Nat} {e : Bool} {s t : State} {f : Nat} (hs : s.framesTidy)
    (h : allocFrame o pid vpn e s = .ok f t) :
    ∃ u, u.framesTidy ∧ takeFree o u = some (f, t) ∧ (u = s ∨ evictOne pid vpn s = some u) := by
  unfold allocFrame at h
  split at h
  · rename_i ht; cases h; exact ⟨s, hs, ht, .inl rfl⟩
  · split at h
    · split at h
      · cases h
      · rename_i u hu
        split at h
        · rename_i ht; cases h; exact ⟨u, framesTidy_evictOne hs hu, ht, .inr hu⟩
        · cases h
    · cases h

theorem allocFrame_fails {o : FrameOwner} {pid vpn : Nat} {e : Bool} {s t : State} {x : KernelError} (hs : s.framesTidy)
    (h : allocFrame o pid vpn e s = .fail x t) : t.framesTidy := by
  unfold allocFrame at h
  split at h
  · cases h
  · split at h
    · split at h
      · cases h; exact hs
      · rename_i u hu
        split at h
        · cases h
        · cases h; exact framesTidy_evictOne hs hu
    · cases h; exact hs

/-- An eviction takes a mapping away and leaves every other walk as it was, but for the accessed and dirty bits of none. -/
theorem evictOne_walks {pid vpn : Nat} {s t : State} (hs : s.framesTidy) (h : evictOne pid vpn s = some t) :
    ∃ k w, (s.mapping? k w ≠ none) ∧
      (∀ x, (t.space? x).map (fun a => a.pid) = (s.space? x).map (fun a => a.pid)) ∧
      (∀ x l, t.tableAt x l = s.tableAt x l) ∧
      ∀ x y, t.mapping? x y = if x = k ∧ y = w then none else s.mapping? x y := by
  unfold evictOne at h
  split at h
  · rename_i v s1 hv
    cases h
    obtain ⟨hf, hsp⟩ := pickVictim_frames hv
    have hk1 := (PagingStep.pickVictim hv).kernel
    dsimp only at hk1
    have hs1 : s1.framesTidy := framesTidy_records hs hsp (by rw [hk1]) hf
    have he : eligible s1 pid vpn v = true := by rw [eligible_congr hf]; exact pickVictim_eligible hv
    obtain ⟨k, w, p, u, hm, rfl, hu, hup, huk⟩ := unmapVictim_gives hs1 he
    rw [hu]
    have hmu : u.mapping? k w = some p := by
      rw [State.mapping?_congr (s := s1) (by rw [hup])]; exact hm
    have hku : u.tablesKeyed := tablesKeyed_congr (by rw [hup]) (by rw [huk]) hs1.1
    have h1 : (decRef p.ppn (onUnmap p.ppn (invalidate k w u))).paging.spaces =
        assocModify s.paging.spaces k (fun a => a.setPte w { p with valid := false }) := by
      have h2 : (decRef p.ppn (onUnmap p.ppn (invalidate k w u))).paging.spaces = (invalidate k w u).paging.spaces := by
        unfold decRef; dsimp only; split <;> exact (onUnmap_frames p.ppn (invalidate k w u)).2
      rw [h2, invalidate_spaces hku hmu, hup, hsp]
    have hms : s.mapping? k w = some p := by rw [← State.mapping?_congr hsp]; exact hm
    obtain ⟨a, ha, hpte, -⟩ := State.mapping?_some hms
    have hd : assocGet a.directory (l1Index w) ≠ none := by
      intro e; unfold AddrSpace.pte? at hpte; rw [e] at hpte; cases hpte
    refine ⟨k, w, by rw [hms]; simp, fun x => ?_, fun x l => tableAt_setPte h1 x l, fun x y => ?_⟩
    · rw [State.space?_set h1]
      split
      · cases s.space? x <;> rfl
      · rfl
    · rw [mapping?_setPte ha hd h1]; rfl
  · cases h

/-! ### Changes of a space that leave its frames alone -/

/-- The tables' frames and the PTEs' frames of a space are as they were. -/
structure SameMaps (a b : AddrSpace) : Prop where
  pid : b.pid = a.pid
  tables : ∀ l, (assocGet b.directory l).map (fun t => t.frame) = (assocGet a.directory l).map (fun t => t.frame)
  walks : ∀ v q, b.pte? v = some q → q.valid = true →
    ∃ p, a.pte? v = some p ∧ p.valid = true ∧ p.ppn = q.ppn ∧ p.shared = q.shared
  count : ∀ f, b.refs f = a.refs f

theorem framesTidy_modSame {s t : State} (hs : s.framesTidy) {h : Nat} {g : AddrSpace → AddrSpace}
    (ht : t.paging.spaces = assocModify s.paging.spaces h g) (hn : t.kernel.nextSpace = s.kernel.nextSpace)
    (hf : SameFrames s t)
    (hg : ∀ a, s.space? h = some a → SameMaps a (g a) ∧ Keyed (g a).directory ∧
      ∀ d ∈ (g a).directory, Keyed d.2.ptes ∧ ∀ q ∈ d.2.ptes, q.1 < 1024) : t.framesTidy := by
  refine framesTidy_same hs (tablesKeyed_modSpace ht hn hs.1 (fun a ha => (hg a ha).2)) hf.1 hf.2 ?_ ?_ ?_
  · intro k l
    unfold State.tableAt
    rw [State.space?_set ht]
    split
    · rename_i e
      cases hk : s.space? k with
      | none => rfl
      | some a =>
        rw [e] at hk
        exact (hg a hk).1.tables l
    · rfl
  · intro k b v q hb hq
    obtain ⟨b', hb', hq', hv⟩ := State.mapping?_some hq
    rw [hb] at hb'; cases hb'
    rw [State.space?_set ht] at hb
    split at hb
    · rename_i e
      obtain ⟨a, ha, rfl⟩ := Option.map_eq_some_iff.1 hb
      rw [e] at ha ⊢
      obtain ⟨p, hp, hpv, e1, e2⟩ := (hg a ha).1.walks v q hq' hv
      exact ⟨a, p, ha, by rw [State.mapping?_eq ha, hp]; exact Option.filter_eq_some_iff.2 ⟨rfl, hpv⟩, e1, e2,
        (hg a ha).1.pid.symm⟩
    · exact ⟨b, q, hb, by rw [State.mapping?_eq hb, hq']; exact Option.filter_eq_some_iff.2 ⟨rfl, hv⟩, rfl, rfl, rfl⟩
  · intro f
    unfold State.refs
    rw [ht]
    cases ha : s.space? h with
    | none => rw [assocModify_absent ha]
    | some a =>
      have := sum_modify ((tablesKeyed_iff s).1 hs.1).1 ha g (fun e => e.2.refs f)
      dsimp only at this
      rw [(hg a ha).1.count f] at this
      omega

/-- Setting a PTE over one with the same frame. -/
theorem SameMaps.setPte {a : AddrSpace} (hd : Keyed a.directory) (ht : ∀ d ∈ a.directory, Keyed d.2.ptes) {v : Nat} {p q : Pte}
    (hp : a.pte? v = some p) (h1 : q.valid = p.valid) (h2 : q.ppn = p.ppn) (h3 : q.shared = p.shared) :
    SameMaps a (a.setPte v q) := by
  have hdir : assocGet a.directory (l1Index v) ≠ none := by
    intro e; unfold AddrSpace.pte? at hp; rw [e] at hp; cases hp
  refine ⟨rfl, fun l => ?_, fun w r hr hv => ?_, fun f => ?_⟩
  · unfold AddrSpace.setPte
    rw [assocGet_modify]
    split
    · cases assocGet a.directory l <;> rfl
    · rfl
  · by_cases hw : w = v
    · subst hw
      rw [AddrSpace.pte?_setPte _ _ _ hdir] at hr
      cases hr
      exact ⟨p, hp, h1 ▸ hv, h2.symm, h3.symm⟩
    · rw [AddrSpace.pte?_setPte_ne _ _ hw] at hr
      exact ⟨r, hr, hv, rfl, rfl⟩
  · obtain ⟨tb, htb⟩ := Option.ne_none_iff_exists'.1 hdir
    have := AddrSpace.refs_setPte hd ht htb q f
    rw [hp] at this
    have e : q.refs f = p.refs f := by unfold Pte.refs; rw [h1, h2]
    simp only [Option.map_some, Option.getD_some] at this
    omega

theorem framesTidy_touch {s : State} (hs : s.framesTidy) (h v : Nat) (k : AccessKind) : (touch h v k s).framesTidy := by
  unfold touch
  split
  · exact hs
  · rename_i p hp
    obtain ⟨a, ha, hpte⟩ := Option.bind_eq_some_iff.1 hp
    let g : AddrSpace → AddrSpace := fun a =>
      { a.setPte v { p with accessed := true, dirty := p.dirty || decide (k = .write) } with
        counters := assocSet a.counters v (((assocGet a.counters v).getD { count := 0, dirty := false }).bump
          (decide (k = .write))) }
    obtain ⟨h1, h2⟩ := onAccess_frames p.ppn (s.modSpace h g)
    refine framesTidy_modSame (g := g) hs h2 (by rw [(PagingStep.onAccess ..).kernel]; rfl) ((SameFrames.modSpace ..).trans h1) ?_
    intro b hb
    rw [ha] at hb; cases hb
    obtain ⟨-, k1, k2⟩ := hs.1.space ha
    have hsame := SameMaps.setPte k1 (fun d hd => (k2 d hd).1) hpte
      (q := { p with accessed := true, dirty := p.dirty || decide (k = .write) }) rfl rfl rfl
    exact ⟨⟨hsame.pid, hsame.tables, hsame.walks, hsame.count⟩, AddrSpace.setPte_keyed k1 k2 _ _⟩

theorem assocGet_mapValues {α : Type} (l : List (Nat × α)) (F : Nat × α → α) (k : Nat) :
    assocGet (l.map (fun e => (e.1, F e))) k = (assocGet l k).map (fun v => F (k, v)) := by
  induction l with
  | nil => rfl
  | cons e l ih =>
    simp only [List.map_cons, assocGet]
    split
    · rename_i h; subst h; rfl
    · exact ih

/-- What recording a region makes of a PTE: its permissions at most. -/
theorem framesTidy_recordRegion {s : State} (hs : s.framesTidy) (h : Nat) (r : Region) :
    (recordRegion h r s).framesTidy := by
  unfold recordRegion
  refine framesTidy_modSame hs (State.modSpace_spaces ..) rfl (.modSpace ..) (fun a ha => ?_)
  obtain ⟨-, k1, k2⟩ := hs.1.space ha
  generalize hrs : a.regions ++ [r] = rs
  dsimp only
  -- the change of a PTE at an index of the table under an L1 entry
  let F : Nat → Nat × Pte → Pte := fun d q =>
    if r.covers (d * 1024 + q.1) && q.2.valid && !q.2.shared then
      { q.2 with perms := (regionsPerms s.params.segmentOverlap rs (d * 1024 + q.1)).getD q.2.perms }
    else q.2
  have hF : ∀ d q, (F d q).valid = q.2.valid ∧ (F d q).ppn = q.2.ppn ∧ (F d q).shared = q.2.shared := fun d q => by
    show (if _ then _ else _ : Pte).valid = _ ∧ (if _ then _ else _ : Pte).ppn = _ ∧ (if _ then _ else _ : Pte).shared = _
    split <;> exact ⟨rfl, rfl, rfl⟩
  have hpt : ∀ d : Nat × L2Table, (d.2.ptes.map (fun q =>
      if r.covers (d.1 * 1024 + q.1) && q.2.valid && !q.2.shared then
        (q.1, { q.2 with perms := (regionsPerms s.params.segmentOverlap rs (d.1 * 1024 + q.1)).getD q.2.perms })
      else q)) = d.2.ptes.map (fun q => (q.1, F d.1 q)) := fun d => by
    apply List.map_congr_left
    intro q _
    show _ = (q.1, if _ then _ else _)
    split <;> rfl
  simp only [hpt]
  have hg : ∀ l, assocGet (a.directory.map (fun e : Nat × L2Table =>
      (e.1, ({ e.2 with ptes := e.2.ptes.map (fun q => (q.1, F e.1 q)) } : L2Table)))) l =
      (assocGet a.directory l).map (fun t => { t with ptes := t.ptes.map (fun q => (q.1, F l q)) }) := fun l =>
    assocGet_mapValues a.directory (fun e => { e.2 with ptes := e.2.ptes.map (fun q => (q.1, F e.1 q)) }) l
  refine ⟨⟨rfl, fun l => ?_, fun v q hq hv => ?_, fun f => ?_⟩, ?_, ?_⟩
  · dsimp only
    rw [hg]
    cases assocGet a.directory l <;> rfl
  · unfold AddrSpace.pte? at hq ⊢
    dsimp only at hq
    rw [hg] at hq
    cases hd : assocGet a.directory (l1Index v) with
    | none => rw [hd] at hq; cases hq
    | some t =>
      rw [hd] at hq
      simp only [Option.map_some] at hq
      rw [assocGet_mapValues t.ptes (F (l1Index v))] at hq
      obtain ⟨p, hp, rfl⟩ := Option.map_eq_some_iff.1 hq
      obtain ⟨e1, e2, e3⟩ := hF (l1Index v) (l2Index v, p)
      exact ⟨p, hp, e1 ▸ hv, e2.symm, e3.symm⟩
  · unfold AddrSpace.refs
    dsimp only
    rw [List.map_map]
    congr 1
    apply List.map_congr_left
    intro d _
    simp only [Function.comp, L2Table.refs, List.map_map]
    congr 1
    apply List.map_congr_left
    intro q _
    obtain ⟨e1, e2, -⟩ := hF d.1 q
    simp only [Function.comp, Pte.refs, e1, e2]
  · exact Keyed.mapValues k1 _ (fun _ => rfl)
  · intro d hd
    obtain ⟨e, he, rfl⟩ := List.mem_map.1 hd
    obtain ⟨h1, h2⟩ := k2 e he
    refine ⟨Keyed.mapValues h1 _ (fun _ => rfl), fun q hq => ?_⟩
    obtain ⟨p, hp, rfl⟩ := List.mem_map.1 hq
    exact h2 p hp

/-! ### Tables and pages given out -/

/-- Walks are lost at most, and the spaces and their tables are there still: what allocations and evictions can do to a
walk. -/
structure Shrinks (s t : State) : Prop where
  walks : ∀ x y, t.mapping? x y = none ∨ t.mapping? x y = s.mapping? x y
  pids : ∀ x, (t.space? x).map (fun a => a.pid) = (s.space? x).map (fun a => a.pid)
  tables : ∀ x l f, s.tableAt x l = some f → t.tableAt x l = some f

theorem Shrinks.refl (s : State) : Shrinks s s := ⟨fun _ _ => .inr rfl, fun _ => rfl, fun _ _ _ => id⟩

theorem Shrinks.trans {s t u : State} (h : Shrinks s t) (k : Shrinks t u) : Shrinks s u :=
  ⟨fun x y => (k.walks x y).elim .inl (fun e => by rw [e]; exact h.walks x y), fun x => (k.pids x).trans (h.pids x),
   fun x l f e => k.tables x l f (h.tables x l f e)⟩

theorem Shrinks.ofSpaces {s t : State} (h : t.paging.spaces = s.paging.spaces) : Shrinks s t :=
  ⟨fun x y => .inr (State.mapping?_congr h x y), fun x => by unfold State.space?; rw [h],
   fun x l f e => by rw [State.tableAt_congr h]; exact e⟩

theorem Shrinks.evictOne {pid vpn : Nat} {s t : State} (hs : s.framesTidy) (h : evictOne pid vpn s = some t) :
    Shrinks s t := by
  obtain ⟨k, w, -, h1, h2, h3⟩ := evictOne_walks hs h
  refine ⟨fun x y => ?_, h1, fun x l f e => by rw [h2]; exact e⟩
  rw [h3]
  split
  · exact .inl rfl
  · exact .inr rfl

theorem Shrinks.allocFrame {o : FrameOwner} {pid vpn : Nat} {e : Bool} {s t : State} {f : Nat} (hs : s.framesTidy)
    (h : allocFrame o pid vpn e s = .ok f t) : Shrinks s t := by
  obtain ⟨u, -, ht, rfl | hu⟩ := allocFrame_gives hs h
  · exact .ofSpaces (takeFree_frame ht).2.2.2.2.2.1
  · exact (Shrinks.evictOne hs hu).trans (.ofSpaces (takeFree_frame ht).2.2.2.2.2.1)

/-- A space has a table under an L1 entry. -/
theorem tableAt_ne_none {s : State} {h : Nat} {a : AddrSpace} (ha : s.space? h = some a) (l : Nat) :
    s.tableAt h l ≠ none ↔ assocGet a.directory l ≠ none := by
  unfold State.tableAt
  rw [ha, Option.bind_some]
  cases assocGet a.directory l <;> simp

theorem Shrinks.mapping_none {s t : State} (h : Shrinks s t) {x y : Nat} (hn : s.mapping? x y = none) :
    t.mapping? x y = none := by
  rcases h.walks x y with e | e
  · exact e
  · rw [e, hn]

theorem Shrinks.space {s t : State} (h : Shrinks s t) {x : Nat} {a : AddrSpace} (ha : s.space? x = some a) :
    ∃ b, t.space? x = some b ∧ b.pid = a.pid := by
  have := h.pids x
  rw [ha, Option.map_some] at this
  obtain ⟨b, hb, e⟩ := Option.map_eq_some_iff.1 this
  exact ⟨b, hb, e⟩

/-- The L2 table of a page is there, and a new one is in a frame that was free. -/
theorem ensureTable_gives {h pid vpn : Nat} {e : Bool} {s t : State} (hs : s.framesTidy)
    (hr : ensureTable h pid vpn e s = .ok () t) :
    t.framesTidy ∧ Shrinks s t ∧ ∃ b, t.space? h = some b ∧ assocGet b.directory (l1Index vpn) ≠ none := by
  unfold ensureTable at hr
  split at hr
  · cases hr
  · rename_i a ha
    split at hr
    · rename_i x hx; cases hr; exact ⟨hs, .refl _, a, ha, by rw [hx]; simp⟩
    · rename_i hx
      cases hal : Machine.allocFrame .pageTable pid vpn e s with
      | fail => rw [hal] at hr; cases hr
      | refuse => rw [hal] at hr; cases hr
      | ok f s1 =>
        rw [hal] at hr
        simp only [Res.andThen, Res.ok.injEq, true_and] at hr
        subst hr
        have hshr := Shrinks.allocFrame hs hal
        obtain ⟨u, hu, ht, hcase⟩ := allocFrame_gives hs hal
        obtain ⟨f1, f2, f3, f4, f5, f6, f7⟩ := takeFree_frame ht
        have hushr : Shrinks s u := by
          rcases hcase with rfl | hev
          · exact .refl _
          · exact .evictOne hs hev
        obtain ⟨b, hb, hbp⟩ := hushr.space ha
        -- the entry is empty still: an eviction leaves the tables
        have hbd : assocGet b.directory (l1Index vpn) = none := by
          rcases hcase with rfl | hev
          · rw [ha] at hb; cases hb; exact hx
          · obtain ⟨-, -, -, -, h2, -⟩ := evictOne_walks hs hev
            by_contra hne
            have h3 := (tableAt_ne_none hb (l1Index vpn)).2 hne
            rw [h2] at h3
            exact (tableAt_ne_none ha (l1Index vpn)).1 h3 hx
        have hfree := hu.free f1 f2
        have hsp1 : s1.space? h = some b := by unfold State.space? at hb ⊢; rw [f6]; exact hb
        have hinst : (s1.modSpace h (fun b =>
            { b with directory := assocSet b.directory (l1Index vpn) { frame := f, ptes := [] } })).framesTidy :=
          framesTidy_table hu hb hbd f1 hfree.1 (by rw [State.modSpace_spaces, f6])
            (by show s1.kernel.nextSpace = _; rw [f7])
            ((PagingStep.takeFree ht).frames)
            (fun g hg => by
              have := (takeFree_some ht).2.2.1 g hg
              show ((s1.frame g).free = _ ∧ (s1.frame g).refcount = _ ∧ (s1.frame g).owner = _)
              rw [this]; exact ⟨rfl, rfl, rfl⟩)
            ⟨f3, f5 (fun _ => nofun), f4⟩
        refine ⟨hinst, hshr.trans ⟨fun x y => .inr ?_, fun x => ?_, fun x l g e => ?_⟩, ?_⟩
        · unfold State.mapping?
          rw [State.space?_modSpace]
          split
          · rename_i e; subst e
            rw [hsp1, Option.map_some, Option.bind_some, Option.bind_some, AddrSpace.pte?_addTable _ hbd]
          · rfl
        · rw [State.space?_modSpace]
          split
          · cases s1.space? x <;> rfl
          · rfl
        · unfold State.tableAt at e ⊢
          rw [State.space?_modSpace]
          split
          · rename_i e'; subst e'
            rw [hsp1, Option.bind_some] at e
            rw [hsp1, Option.map_some, Option.bind_some]
            dsimp only
            rw [assocGet_set, if_neg]
            · exact e
            · rintro rfl; rw [hbd] at e; cases e
          · exact e
        · rw [State.space?_modSpace, if_pos rfl, hsp1]
          refine ⟨_, rfl, ?_⟩
          dsimp only
          rw [assocGet_set, if_pos rfl]
          simp

theorem ensureTable_fails {h pid vpn : Nat} {e : Bool} {s t : State} {x : KernelError} (hs : s.framesTidy)
    (hr : ensureTable h pid vpn e s = .fail x t) : t.framesTidy := by
  unfold ensureTable at hr
  split at hr
  · cases hr; exact hs
  · split at hr
    · cases hr
    · cases hal : Machine.allocFrame .pageTable pid vpn e s with
      | fail => rw [hal] at hr; cases hr; exact allocFrame_fails hs hal
      | refuse => rw [hal] at hr; cases hr
      | ok f s1 => rw [hal] at hr; cases hr

/-- A free frame taken for a page and mapped by it, where no valid PTE was and the L2 table is there. `t` may differ from the
state the frame was taken in by its bytes and by the policy's state. -/
theorem takeFree_mapped {pid vpn h f : Nat} {u s1 t : State} {a : AddrSpace} {p : Pte} (hu : u.framesTidy)
    (ht : takeFree (.page pid vpn) u = some (f, s1)) (ha : u.space? h = some a) (hp : a.pid = pid)
    (hd : assocGet a.directory (l1Index vpn) ≠ none) (hm : u.mapping? h vpn = none)
    (hv : p.valid = true) (hs : p.shared = false) (hf : p.ppn = f)
    (hsp : t.paging.spaces = assocModify s1.paging.spaces h (fun a => a.setPte vpn p)) (hfr : SameFrames s1 t)
    (hn : t.kernel.nextSpace = s1.kernel.nextSpace) : t.framesTidy := by
  obtain ⟨f1, f2, f3, f4, f5, f6, f7⟩ := takeFree_frame ht
  obtain ⟨i1, i2, i3⟩ := hfr.2 f
  refine framesTidy_map hu ha hd hm hv hf f1 (by rw [hsp, f6]) (by rw [hn, f7]) (hfr.1.trans (PagingStep.takeFree ht).frames)
    (fun g hg => ?_) ⟨i1.trans f3, .inl ⟨hs, (hu.free f1 f2).1, i2.trans (f5 (fun _ => nofun)), ?_⟩⟩
  · obtain ⟨j1, j2, j3⟩ := hfr.2 g
    have := (takeFree_some ht).2.2.1 g hg
    rw [this] at j1 j2 j3
    exact ⟨j1, j2, j3⟩
  · rw [i3, f4, hp]

/-- What a frame for a page, taken after the L2 table, and its mapping make of tidy records. -/
theorem allocFrame_mapped {pid vpn h f : Nat} {e : Bool} {s s1 t : State} {a : AddrSpace} {p : Pte} (hs : s.framesTidy)
    (hal : allocFrame (.page pid vpn) pid vpn e s = .ok f s1) (ha : s.space? h = some a) (hp : a.pid = pid)
    (hd : assocGet a.directory (l1Index vpn) ≠ none) (hm : s.mapping? h vpn = none)
    (hv : p.valid = true) (hsh : p.shared = false) (hf : p.ppn = f)
    (hsp : t.paging.spaces = assocModify s1.paging.spaces h (fun a => a.setPte vpn p)) (hfr : SameFrames s1 t)
    (hn : t.kernel.nextSpace = s1.kernel.nextSpace) : t.framesTidy := by
  obtain ⟨u, hu, ht, hcase⟩ := allocFrame_gives hs hal
  have hushr : Shrinks s u := by
    rcases hcase with rfl | hev
    · exact .refl _
    · exact .evictOne hs hev
  obtain ⟨b, hb, hbp⟩ := hushr.space ha
  have hbd : assocGet b.directory (l1Index vpn) ≠ none := by
    rw [← tableAt_ne_none hb]
    obtain ⟨g, hg⟩ := Option.ne_none_iff_exists'.1 ((tableAt_ne_none ha (l1Index vpn)).2 hd)
    rw [hushr.tables _ _ _ hg]; simp
  exact takeFree_mapped hu ht hb (hbp.trans hp) hbd (hushr.mapping_none hm) hv hsh hf hsp hfr hn

/-- A page is given a frame: the records stay tidy, however it ends. -/
theorem framesTidy_installPage {h vpn : Nat} {perms : Perms} {e : Bool} {s : State} {a : AddrSpace} (hs : s.framesTidy)
    (ha : s.space? h = some a) (hm : s.mapping? h vpn = none) :
    (installPage h a.pid vpn perms e s).Sat State.framesTidy := by
  unfold installPage
  cases h1 : ensureTable h a.pid vpn e s with
  | refuse => trivial
  | fail x t => exact ensureTable_fails hs h1
  | ok u s1 =>
    obtain ⟨k1, k2, b, hb, hd⟩ := ensureTable_gives hs h1
    simp only [Res.andThen]
    cases h2 : allocFrame (.page a.pid vpn) a.pid vpn e s1 with
    | refuse => trivial
    | fail x t => exact allocFrame_fails k1 h2
    | ok f s2 =>
      obtain ⟨b', hb', hbp⟩ := k2.space ha
      rw [hb] at hb'; cases hb'
      have hmap := onMap_frames f ((s2.zeroFrame f).modSpace h (fun a => a.setPte vpn
        { valid := true, perms := perms, shared := false, accessed := false, dirty := false, ppn := f }))
      refine allocFrame_mapped
        (p := { valid := true, perms := perms, shared := false, accessed := false, dirty := false, ppn := f }) k1 h2 hb hbp hd (k2.mapping_none hm) rfl rfl rfl ?_ ?_ ?_
      · exact hmap.2
      · exact SameFrames.trans ⟨rfl, fun _ => ⟨rfl, rfl, rfl⟩⟩ hmap.1
      · rw [(PagingStep.onMap ..).kernel]; rfl

theorem framesTidy_translatePaged (h : Nat) (va : Word) (k : AccessKind) (c : Bool) {s : State} (hs : s.framesTidy) :
    (translatePaged h va k c s).Sat State.framesTidy := by
  unfold translatePaged
  dsimp only
  split
  · exact hs
  · rename_i a ha
    split
    · split
      · exact hs
      · exact framesTidy_touch hs ..
    · rename_i hmiss
      split
      · exact hs
      · split
        · exact hs
        · have hm : s.mapping? h (vpnOf va) = none := by
            rw [State.mapping?_eq ha]
            cases hp : a.pte? (vpnOf va) with
            | none => rfl
            | some p =>
              rw [hp] at hmiss
              cases hv : p.valid with
              | false => simp [Option.filter, hv]
              | true => simp [hv] at hmiss
          refine Res.Sat.andThen (Res.Sat.mapFail _ (framesTidy_installPage hs ha hm)) (fun f t ht => ?_)
          split
          · exact ht
          · exact framesTidy_touch ht ..

theorem framesTidy_mapPages (h : Nat) (l : List Nat) {s : State} (hs : s.framesTidy) :
    (mapPages h l s).Sat State.framesTidy := by
  induction l generalizing s with
  | nil => exact hs
  | cons v l ih =>
    unfold mapPages
    split
    · exact hs
    · rename_i a ha
      split
      · exact ih hs
      · rename_i hm
        exact (framesTidy_installPage hs ha (by simpa using hm)).andThen (fun _ t ht => ih ht)

theorem framesTidy_mapRegion (h a n : Nat) (p : Perms) {s : State} (hs : s.framesTidy) :
    (mapRegion h a n p s).Sat State.framesTidy := by
  unfold mapRegion
  dsimp only
  split
  · exact framesTidy_recordRegion hs ..
  · exact framesTidy_mapPages _ _ (framesTidy_recordRegion hs ..)

/-! ### New spaces, destruction, copies -/

theorem framesTidy_newPagedSpace (pid : Nat) (rs : List Region) {s : State} (hs : s.framesTidy) :
    (newPagedSpace pid rs s).2.framesTidy ∧ s.space? (newPagedSpace pid rs s).1 = none ∧
      (newPagedSpace pid rs s).2.space? (newPagedSpace pid rs s).1 =
        some { pid := pid, directory := [], regions := rs, counters := [] } ∧
      (∀ k, k ≠ (newPagedSpace pid rs s).1 → (newPagedSpace pid rs s).2.space? k = s.space? k) ∧
      (∀ k v, (newPagedSpace pid rs s).2.mapping? k v = s.mapping? k v) := by
  have hno : s.space? s.kernel.nextSpace = none := by
    cases h : s.space? s.kernel.nextSpace with
    | none => rfl
    | some a => exact absurd (hs.1.space h).1 (Nat.lt_irrefl _)
  have hsp : ∀ k, (newPagedSpace pid rs s).2.space? k = if k = s.kernel.nextSpace then
      some { pid := pid, directory := [], regions := rs, counters := [] } else s.space? k := fun k => assocGet_set ..
  have hmap : ∀ k v, (newPagedSpace pid rs s).2.mapping? k v = s.mapping? k v := fun k v => by
    unfold State.mapping?
    rw [hsp]
    split
    · rename_i e; rw [e, hno]; rfl
    · rfl
  refine ⟨?_, hno, by rw [hsp]; exact if_pos rfl, fun k hk => by rw [hsp]; exact if_neg hk, hmap⟩
  obtain ⟨k1, k2⟩ := (tablesKeyed_iff s).1 hs.1
  refine framesTidy_same hs ?_ rfl (fun _ => ⟨rfl, rfl, rfl⟩) ?_ ?_ ?_
  · refine (tablesKeyed_iff _).2 ⟨assocSorted_set k1 _ _, fun e he => ?_⟩
    rcases mem_assocSet he with rfl | he
    · exact ⟨Nat.lt_succ_self _, .nil, fun d hd => by cases hd⟩
    · exact ⟨Nat.lt_succ_of_lt (k2 e he).1, (k2 e he).2⟩
  · intro h l
    unfold State.tableAt
    rw [hsp]
    split
    · rename_i e; rw [e, hno]; rfl
    · rfl
  · intro h a v p ha hp
    rw [hmap] at hp
    rw [hsp] at ha
    split at ha
    · rename_i e; rw [e] at hp; unfold State.mapping? at hp; rw [hno] at hp; cases hp
    · exact ⟨a, p, ha, hp, rfl, rfl, rfl⟩
  · intro f
    have := sum_set k1 s.kernel.nextSpace { pid := pid, directory := [], regions := rs, counters := [] }
      (fun e => e.2.refs f)
    have h0 : assocGet s.paging.spaces s.kernel.nextSpace = none := hno
    have h1 : ({ pid := pid, directory := [], regions := rs, counters := [] } : AddrSpace).refs f = 0 := rfl
    rw [h0] at this
    simp only [Option.map_none, Option.getD_none, h1] at this
    unfold State.refs
    show ((assocSet s.paging.spaces s.kernel.nextSpace _).map _).sum = _
    omega

/-- The allocator's record of a frame: its free bit, its refcount and its owner. -/
def State.record (s : State) (f : Nat) : Bool × Nat × FrameOwner :=
  ((s.frame f).free, (s.frame f).refcount, (s.frame f).owner)

/-- A record after one reference is given up. -/
def lessOne (r : Bool × Nat × FrameOwner) : Bool × Nat × FrameOwner :=
  if r.2.1 ≤ 1 then (true, 0, .none) else (r.1, r.2.1 - 1, r.2.2)

theorem lessOne_iterate (c : Nat) (r : Bool × Nat × FrameOwner) :
    lessOne^[c] r = if c = 0 then r else if r.2.1 ≤ c then (true, 0, .none) else (r.1, r.2.1 - c, r.2.2) := by
  induction c generalizing r with
  | zero => rfl
  | succ c ih =>
    rw [Function.iterate_succ_apply, ih, if_neg (Nat.succ_ne_zero c)]
    unfold lessOne
    by_cases h1 : r.2.1 ≤ 1
    · have h2 : r.2.1 ≤ c + 1 := by omega
      simp [h1, h2]
    · rw [if_neg h1]
      by_cases h2 : c = 0
      · subst h2; simp [h1]
      · by_cases h3 : r.2.1 ≤ c + 1
        · have h4 : r.2.1 - 1 ≤ c := by omega
          simp [h2, h3, h4]
        · have h4 : ¬r.2.1 - 1 ≤ c := by omega
          simp [h2, h3, h4, Nat.sub_sub, Nat.add_comm 1 c]

theorem record_same {s t : State} (h : SameFrames s t) (f : Nat) : t.record f = s.record f := by
  obtain ⟨h1, h2, h3⟩ := h.2 f
  unfold State.record; rw [h1, h2, h3]

theorem releaseFrame_gives (v : Nat) (s : State) :
    (releaseFrame v s).paging.spaces = s.paging.spaces ∧
      ∀ g, g < s.paging.frames.length →
        (releaseFrame v s).record g = if g = v then lessOne (s.record g) else s.record g := by
  have h0 : (decRef v s).paging.spaces = s.paging.spaces := by unfold decRef; dsimp only; split <;> rfl
  have h1 : (releaseFrame v s).paging.spaces = s.paging.spaces ∧ SameFrames (decRef v s) (releaseFrame v s) := by
    unfold releaseFrame
    dsimp only
    split
    · obtain ⟨i1, i2⟩ := onUnmap_frames v (decRef v s); exact ⟨i2.trans h0, i1⟩
    · exact ⟨h0, .refl _⟩
  refine ⟨h1.1, fun g hg => ?_⟩
  rw [record_same h1.2]
  by_cases hv : v < s.paging.frames.length
  · unfold State.record lessOne
    rw [decRef_frame hv]
    by_cases e : g = v
    · subst e
      rw [if_pos rfl, if_pos rfl]
      split <;> rfl
    · rw [if_neg e, if_neg e]
  · have : decRef v s = s := by
      unfold decRef
      dsimp only
      split <;> exact State.setFrame_none _ _ _ hv
    rw [this, if_neg (by omega)]

theorem releaseFrames_gives (l : List (Nat × Pte)) (s : State) :
    (l.foldl (fun st m => releaseFrame m.2.ppn st) s).paging.spaces = s.paging.spaces ∧
      ∀ g, g < s.paging.frames.length →
        (l.foldl (fun st m => releaseFrame m.2.ppn st) s).record g =
          lessOne^[(l.filter (fun m => m.2.ppn = g)).length] (s.record g) := by
  induction l generalizing s with
  | nil => exact ⟨rfl, fun _ _ => rfl⟩
  | cons m l ih =>
    obtain ⟨h1, h2⟩ := releaseFrame_gives m.2.ppn s
    obtain ⟨h3, h4⟩ := ih (releaseFrame m.2.ppn s)
    refine ⟨h3.trans h1, fun g hg => ?_⟩
    have hl := (PagingStep.releaseFrame m.2.ppn s).frames
    rw [List.foldl_cons, h4 g (by rw [hl]; exact hg), h2 g hg, List.filter_cons]
    by_cases e : m.2.ppn = g
    · rw [if_pos e.symm, if_pos (by simpa using e), List.length_cons, Function.iterate_succ_apply]
    · rw [if_neg (fun x => e x.symm), if_neg (by simpa using e)]

theorem freeTables_gives (l : List Nat) (s : State) :
    (l.foldl (fun st f => freeTableFrame f st) s).paging.spaces = s.paging.spaces ∧
      ∀ g, g < s.paging.frames.length →
        (l.foldl (fun st f => freeTableFrame f st) s).record g = if g ∈ l then (true, 0, .none) else s.record g := by
  induction l generalizing s with
  | nil => exact ⟨rfl, fun g _ => by rw [if_neg (by simp)]; rfl⟩
  | cons f l ih =>
    obtain ⟨h3, h4⟩ := ih (freeTableFrame f s)
    refine ⟨h3, fun g hg => ?_⟩
    have hl : (freeTableFrame f s).paging.frames.length = s.paging.frames.length := (PagingStep.setFrame s f _).frames
    rw [List.foldl_cons, h4 g (by rw [hl]; exact hg)]
    by_cases hm : g ∈ l
    · rw [if_pos hm, if_pos (List.mem_cons_of_mem _ hm)]
    · rw [if_neg hm]
      by_cases e : g = f
      · subst e
        rw [if_pos List.mem_cons_self]
        unfold State.record freeTableFrame
        rw [State.frame_setFrame _ _ _ _ hg, if_pos rfl]
      · rw [if_neg (by simp [e, hm])]
        unfold State.record freeTableFrame
        by_cases hf : f < s.paging.frames.length
        · rw [State.frame_setFrame _ _ _ _ hf, if_neg e]
        · rw [State.setFrame_none _ _ _ hf]

/-- What destruction makes of the spaces and the records. -/
theorem destroyPaged_gives {h : Nat} {s : State} {a : AddrSpace} (ha : s.space? h = some a) :
    (destroyPaged h s).paging.spaces = assocErase s.paging.spaces h ∧
      ∀ g, g < s.paging.frames.length →
        (destroyPaged h s).record g =
          if g ∈ a.tableFrames then (true, 0, .none) else lessOne^[a.refs g] (s.record g) := by
  unfold destroyPaged
  rw [ha]
  dsimp only
  obtain ⟨h1, h2⟩ := releaseFrames_gives a.mappings s
  obtain ⟨h3, h4⟩ := freeTables_gives a.tableFrames (a.mappings.foldl (fun st m => releaseFrame m.2.ppn st) s)
  have hl := (PagingStep.foldl (fun st m => releaseFrame m.2.ppn st) (fun s m => .releaseFrame m.2.ppn s) a.mappings s).frames
  refine ⟨by rw [h3, h1], fun g hg => ?_⟩
  have := h4 g (by rw [hl]; exact hg)
  rw [h2 g hg, AddrSpace.refs_eq] at this
  exact this

theorem framesTidy_destroyPaged (h : Nat) {s : State} (hs : s.framesTidy) : (destroyPaged h s).framesTidy := by
  cases ha : s.space? h with
  | none => unfold destroyPaged; rw [ha]; exact hs
  | some a =>
    obtain ⟨d1, d2⟩ := destroyPaged_gives ha
    have hlen := (PagingStep.destroyPaged h s).frames
    have hker := (PagingStep.destroyPaged h s).kernel
    generalize destroyPaged h s = t at d1 d2 hlen hker
    have hk := hs.1
    obtain ⟨k1, k2⟩ := (tablesKeyed_iff s).1 hk
    obtain ⟨-, h2, h3, h4⟩ := hs
    have hsp : ∀ k, t.space? k = if k = h then none else s.space? k := fun k => by
      unfold State.space?; rw [d1, assocGet_erase]
    have htab : ∀ k l, t.tableAt k l = if k = h then none else s.tableAt k l := fun k l => by
      unfold State.tableAt
      rw [hsp]
      split <;> rfl
    have hmap : ∀ k v, t.mapping? k v = if k = h then none else s.mapping? k v := fun k v => by
      unfold State.mapping?
      rw [hsp]
      split <;> rfl
    have hrefs : ∀ f, s.refs f = t.refs f + a.refs f := fun f => by
      have := sum_erase k1 ha (fun e => e.2.refs f)
      unfold State.refs
      rw [d1]; exact this
    have htf : ∀ g, g ∈ a.tableFrames ↔ ∃ l, s.tableAt h l = some g := fun g => by
      unfold AddrSpace.tableFrames State.tableAt
      simp only [ha, Option.bind_some]
      rw [List.mem_map]
      obtain ⟨-, ka, -⟩ := hk.space ha
      constructor
      · rintro ⟨d, hd, rfl⟩
        exact ⟨d.1, by rw [Keyed.unique ka hd]; rfl⟩
      · rintro ⟨l, hl⟩
        obtain ⟨tb, htb, rfl⟩ := Option.map_eq_some_iff.1 hl
        exact ⟨(l, tb), mem_of_assocGet htb, rfl⟩
    have hrec : ∀ g, g < s.paging.frames.length → t.record g =
        if g ∈ a.tableFrames then (true, 0, .none) else if a.refs g = 0 then s.record g
          else if (s.frame g).refcount ≤ a.refs g then (true, 0, .none)
          else ((s.frame g).free, (s.frame g).refcount - a.refs g, (s.frame g).owner) := fun g hg => by
      rw [d2 g hg, lessOne_iterate]; rfl
    -- a frame a table has is mapped by nothing
    have htabrefs : ∀ k l g, s.tableAt k l = some g → s.refs g = 0 := fun k l g e => by
      rw [← Nat.le_zero, ← Nat.not_lt]
      intro hp
      obtain ⟨x, v, p, hm, rfl⟩ := (refs_pos hk).1 hp
      obtain ⟨b, hb, -⟩ := State.mapping?_some hm
      have i1 := (h3 x b v p hb hm).2
      have i2 := (h2 k l p.ppn e).2.2.2.1
      rw [i2] at i1
      split at i1
      · obtain ⟨_, hx⟩ := i1; cases hx
      · cases i1
    have hcomp : ∀ g r, t.record g = r → (t.frame g).free = r.1 ∧ (t.frame g).refcount = r.2.1 ∧ (t.frame g).owner = r.2.2 :=
      fun g r e => by subst e; exact ⟨rfl, rfl, rfl⟩
    have hkt : t.tablesKeyed := (tablesKeyed_iff t).2 ⟨by rw [d1]; exact k1.erase h, fun e he => by
      rw [d1] at he; rw [hker]; exact k2 e (List.mem_filter.1 he).1⟩
    refine ⟨hkt, ?_, ?_, ?_⟩
    · intro k l g e
      rw [htab] at e
      split at e
      · cases e
      · rename_i hkh
        obtain ⟨i1, i2, i3, i4, i5⟩ := h2 k l g e
        have hnt : g ∉ a.tableFrames := fun hx => by
          obtain ⟨l', hl'⟩ := (htf g).1 hx
          exact hkh (i5 h l' hl').1.symm
        have hz : a.refs g = 0 := by have := htabrefs k l g e; have := hrefs g; omega
        have hr := hrec g i1
        rw [if_neg hnt, if_pos hz] at hr
        obtain ⟨j1, j2, j3⟩ := hcomp g _ hr
        refine ⟨hlen ▸ i1, j1.trans i2, j2.trans i3, j3.trans i4, fun k' l' e' => ?_⟩
        rw [htab] at e'
        split at e'
        · cases e'
        · exact i5 k' l' e'
    · intro k b v p hb hp
      have hp0 := hp
      rw [hmap] at hp
      split at hp
      · cases hp
      · rename_i hkh
        rw [hsp, if_neg hkh] at hb
        obtain ⟨i1, i2⟩ := h3 k b v p hb hp
        have hnt : p.ppn ∉ a.tableFrames := fun hx => by
          obtain ⟨l', hl'⟩ := (htf _).1 hx
          have := htabrefs h l' _ hl'
          have : 0 < s.refs p.ppn := (refs_pos hk).2 ⟨k, v, p, hp, rfl⟩
          omega
        have hpos : 0 < t.refs p.ppn := (refs_pos hkt).2 ⟨k, v, p, hp0, rfl⟩
        have hr := hrec _ i1
        rw [if_neg hnt] at hr
        have hold := h4 _ i1
        rw [mappersOf_length] at hold
        have hsum := hrefs p.ppn
        rw [hlen]
        refine ⟨i1, ?_⟩
        have hown : (t.frame p.ppn).owner = (s.frame p.ppn).owner := by
          by_cases hz : a.refs p.ppn = 0
          · rw [if_pos hz] at hr; exact (hcomp _ _ hr).2.2
          · rw [if_neg hz] at hr
            have hrc : ¬(s.frame p.ppn).refcount ≤ a.refs p.ppn := by
              split at i2
              · obtain ⟨key, hkey⟩ := i2
                rw [hkey] at hold; dsimp only at hold; omega
              · rw [i2] at hold; dsimp only at hold; omega
            rw [if_neg hrc] at hr
            exact (hcomp _ _ hr).2.2
        rw [hown]; exact i2
    · intro g hg
      rw [hlen] at hg
      have hold := h4 g hg
      have hr := hrec g hg
      have hsum := hrefs g
      rw [mappersOf_length] at hold ⊢
      by_cases hnt : g ∈ a.tableFrames
      · rw [if_pos hnt] at hr
        obtain ⟨j1, j2, j3⟩ := hcomp g _ hr
        rw [j3]; exact ⟨j1, j2⟩
      · rw [if_neg hnt] at hr
        by_cases hz : a.refs g = 0
        · rw [if_pos hz] at hr
          obtain ⟨j1, j2, j3⟩ := hcomp g _ hr
          have ht : t.refs g = s.refs g := by omega
          have j1' : (t.frame g).free = (s.frame g).free := j1
          have j2' : (t.frame g).refcount = (s.frame g).refcount := j2
          have j3' : (t.frame g).owner = (s.frame g).owner := j3
          rw [j1', j2', j3', ht]
          split
          · rename_i e; rw [e] at hold; exact hold
          · rename_i e; rw [e] at hold; exact hold
          · rename_i e
            rw [e] at hold
            obtain ⟨x1, k, l, x2⟩ := hold
            refine ⟨x1, k, l, ?_⟩
            rw [htab, if_neg]
            · exact x2
            · rintro rfl; exact hnt ((htf g).2 ⟨l, x2⟩)
          · rename_i e; rw [e] at hold; exact hold
        · rw [if_neg hz] at hr
          by_cases hrc : (s.frame g).refcount ≤ a.refs g
          · rw [if_pos hrc] at hr
            obtain ⟨j1, j2, j3⟩ := hcomp g _ hr
            rw [j3]; exact ⟨j1, j2⟩
          · rw [if_neg hrc] at hr
            obtain ⟨j1, j2, j3⟩ := hcomp g _ hr
            have j1' : (t.frame g).free = (s.frame g).free := j1
            have j2' : (t.frame g).refcount = (s.frame g).refcount - a.refs g := j2
            have j3' : (t.frame g).owner = (s.frame g).owner := j3
            rw [j1', j2', j3']
            split
            · rename_i e; rw [e] at hold; dsimp only at hold; omega
            · rename_i e; rw [e] at hold; dsimp only at hold; omega
            · rename_i e
              rw [e] at hold
              obtain ⟨-, k, l, x2⟩ := hold
              have := htabrefs k l g x2
              omega
            · rename_i e; rw [e] at hold; dsimp only at hold; exact ⟨hold.1, by omega⟩

/-- The pages of a space are listed in rising order. -/
theorem mappings_rise {a : AddrSpace} (hd : Keyed a.directory)
    (ht : ∀ d ∈ a.directory, Keyed d.2.ptes ∧ ∀ q ∈ d.2.ptes, q.1 < 1024) :
    (a.mappings.map (fun m => m.1)).Pairwise (fun x y => x < y) := by
  rw [List.pairwise_map]
  unfold AddrSpace.mappings
  rw [List.pairwise_flatMap]
  refine ⟨fun d hdm => List.Pairwise.filter _ ?_, hd.imp_of_mem (fun {c e} hc he hlt x hx y hy => ?_)⟩
  · rw [List.pairwise_map]
    exact (ht d hdm).1.imp (fun h => by dsimp only; omega)
  · obtain ⟨q, hq, rfl⟩ := List.mem_map.1 (List.mem_filter.1 hx).1
    obtain ⟨r, hr, rfl⟩ := List.mem_map.1 (List.mem_filter.1 hy).1
    have h1 := (ht c hc).2 q hq
    dsimp only
    omega

theorem incRef_gives (f : Nat) (s : State) (hf : f < s.paging.frames.length) (g : Nat) :
    (incRef f s).frame g = if g = f then { s.frame f with refcount := (s.frame f).refcount + 1 } else s.frame g :=
  State.frame_setFrame _ _ _ _ hf

/-- One leaf is copied: the records stay tidy, and no walk of the space gains a page but the one copied. -/
theorem copyLeaf_gives {src dst cpid vpn : Nat} {p : Pte} {s : State} {a : AddrSpace} (hs : s.framesTidy)
    (hp : s.mapping? src vpn = some p) (ha : s.space? dst = some a) (hc : a.pid = cpid)
    (hd : assocGet a.directory (l1Index vpn) ≠ none) (hm : s.mapping? dst vpn = none) :
    (∀ e t, copyLeaf dst cpid vpn p s = .fail e t → t.framesTidy) ∧
    ∀ t, copyLeaf dst cpid vpn p s = .ok () t →
      t.framesTidy ∧ (∃ b, t.space? dst = some b ∧ b.pid = cpid) ∧
        ∀ x y, ¬(x = dst ∧ y = vpn) → t.mapping? x y = none ∨ t.mapping? x y = s.mapping? x y := by
  obtain ⟨b, hb, -, hv⟩ := State.mapping?_some hp
  unfold copyLeaf
  dsimp only
  by_cases hsh : p.shared = true
  · rw [if_pos hsh]
    refine ⟨fun e t h => (by cases h), fun t h => ?_⟩
    cases h
    obtain ⟨i1, i2⟩ := hs.2.2.1 src b vpn p hb hp
    rw [if_pos hsh] at i2
    obtain ⟨key, hkey⟩ := i2
    have hfree : (s.frame p.ppn).free = false := by
      have := hs.2.2.2 p.ppn i1
      rw [hkey] at this; exact this.1
    have hsp : (incRef p.ppn (s.modSpace dst (fun a => a.setPte vpn { p with accessed := false, dirty := false }))).paging.spaces
        = assocModify s.paging.spaces dst (fun a => a.setPte vpn { p with accessed := false, dirty := false }) := rfl
    have hfr := incRef_gives p.ppn (s.modSpace dst (fun a => a.setPte vpn { p with accessed := false, dirty := false })) i1
    refine ⟨framesTidy_map (p := { p with accessed := false, dirty := false }) hs ha hd hm hv rfl i1 hsp rfl
      ((PagingStep.incRef ..).frames) (fun g hg => ?_) ⟨?_, .inr ⟨hsh, key, hkey, ?_, ?_⟩⟩, ?_, fun x y hxy => .inr ?_⟩
    · rw [hfr, if_neg hg]; exact ⟨rfl, rfl, rfl⟩
    · rw [hfr, if_pos rfl]; exact hfree
    · rw [hfr, if_pos rfl]; exact hkey
    · rw [hfr, if_pos rfl]; rfl
    · refine ⟨a.setPte vpn { p with accessed := false, dirty := false }, ?_, hc⟩
      rw [State.space?_set hsp, if_pos rfl, ha]; rfl
    · rw [mapping?_setPte ha hd hsp, if_neg hxy]
  · rw [if_neg hsh]
    cases hal : allocFrame (.page cpid vpn) cpid vpn true s with
    | refuse => exact ⟨fun e t h => (by cases h), fun t h => (by cases h)⟩
    | fail e u => exact ⟨fun e t h => (by cases h; exact allocFrame_fails hs hal), fun t h => (by cases h)⟩
    | ok f s1 =>
      refine ⟨fun e t h => (by cases h), fun t h => ?_⟩
      simp only [Res.andThen, Res.ok.injEq, true_and] at h
      subst h
      have hshr := Shrinks.allocFrame hs hal
      let q : Pte := { p with accessed := false, dirty := false, ppn := f }
      let u : State := { s1 with ram := s1.ram.copy (p.ppn * 4096) (f * 4096) 4096 }
      have hmap := onMap_frames f (u.modSpace dst (fun a => a.setPte vpn q))
      have hsp : (onMap f (u.modSpace dst (fun a => a.setPte vpn q))).paging.spaces =
          assocModify s1.paging.spaces dst (fun a => a.setPte vpn q) := hmap.2
      obtain ⟨b', hb', hbp⟩ := hshr.space ha
      have hbd : assocGet b'.directory (l1Index vpn) ≠ none := by
        rw [← tableAt_ne_none hb']
        obtain ⟨g, hg⟩ := Option.ne_none_iff_exists'.1 ((tableAt_ne_none ha (l1Index vpn)).2 hd)
        rw [hshr.tables _ _ _ hg]; simp
      refine ⟨allocFrame_mapped (p := q) hs hal ha hc hd hm hv (by simpa using hsh) rfl hsp
        (SameFrames.trans ⟨rfl, fun _ => ⟨rfl, rfl, rfl⟩⟩ hmap.1) (by rw [(PagingStep.onMap ..).kernel]; rfl), ?_,
        fun x y hxy => ?_⟩
      · refine ⟨b'.setPte vpn q, ?_, hbp.trans hc⟩
        rw [State.space?_set hsp, if_pos rfl, hb']; rfl
      · rw [mapping?_setPte hb' hbd hsp, if_neg hxy]
        exact hshr.walks x y

theorem framesTidy_copyPages {src dst cpid : Nat} (l : List Nat) {s : State} {a : AddrSpace} (hs : s.framesTidy)
    (ha : s.space? dst = some a) (hc : a.pid = cpid) (hn : l.Nodup) (hm : ∀ v ∈ l, s.mapping? dst v = none) :
    (copyPages src dst cpid l s).Sat State.framesTidy := by
  induction l generalizing s a with
  | nil => exact hs
  | cons v l ih =>
    obtain ⟨hn1, hn2⟩ := List.nodup_cons.1 hn
    unfold copyPages
    split
    · exact ih hs ha hc hn2 (fun w hw => hm w (List.mem_cons_of_mem _ hw))
    · cases h1 : ensureTable dst cpid v true s with
      | refuse => trivial
      | fail e t => exact ensureTable_fails hs h1
      | ok u s1 =>
        obtain ⟨k1, k2, b, hb, hd⟩ := ensureTable_gives hs h1
        obtain ⟨b', hb', hbp⟩ := k2.space ha
        rw [hb] at hb'; cases hb'
        simp only [Res.andThen]
        split
        · exact ih k1 hb (hbp.trans hc) hn2 (fun w hw => k2.mapping_none (hm w (List.mem_cons_of_mem _ hw)))
        · rename_i p hp
          obtain ⟨c1, c2⟩ := copyLeaf_gives k1 hp hb (hbp.trans hc) hd (k2.mapping_none (hm v List.mem_cons_self))
          cases h2 : copyLeaf dst cpid v p s1 with
          | refuse => trivial
          | fail e t => exact c1 e t h2
          | ok u s2 =>
            obtain ⟨d1, ⟨c, hcs, hcp⟩, d3⟩ := c2 s2 h2
            refine ih d1 hcs hcp hn2 (fun w hw => ?_)
            have hw0 := k2.mapping_none (hm w (List.mem_cons_of_mem _ hw))
            rcases d3 dst w (fun e => hn1 (e.2 ▸ hw)) with e | e
            · exact e
            · rw [e, hw0]

theorem framesTidy_copyPaged (src cpid : Nat) {s : State} (hs : s.framesTidy) :
    (copyPaged src cpid s).Sat State.framesTidy := by
  unfold copyPaged
  split
  · exact hs
  · rename_i a ha
    obtain ⟨n1, n2, n3, -, n5⟩ := framesTidy_newPagedSpace cpid a.regions hs
    obtain ⟨-, k1, k2⟩ := hs.1.space ha
    have hn : (a.mappings.map (fun m => m.1)).Nodup := (mappings_rise k1 k2).imp (fun h => Nat.ne_of_lt h)
    have h := framesTidy_copyPages (src := src) (a.mappings.map (fun m => m.1)) n1 n3 rfl hn (fun v _ => by
      rw [n5]; unfold State.mapping?; rw [n2]; rfl)
    dsimp only
    split
    · rename_i hc; rw [hc] at h; exact h
    · rename_i hc; rw [hc] at h; exact framesTidy_destroyPaged _ h
    · trivial

end Sys2Proof.Machine
end

