-- ==== Sys2Proof/Laws/Access.lean ====
section
/-! SUPPORT. What a memory access, a loader's write, an address-space operation and an ELF load can do to a state, said once:
`AccessStep` for the accesses of instructions and syscalls, `LoaderStep` for the kernel's own work on address spaces. -/

namespace Sys2Proof.Machine

/-- What a read or write through the memory interface leaves as it was. -/
structure AccessStep (s t : State) : Prop where
  params : t.params = s.params
  hart : t.hart = s.hart
  others : t.others = s.others
  kernel : t.kernel = s.kernel
  sched : t.sched = s.sched
  waits : t.waits = s.waits
  contig : t.contig = s.contig
  stdout : s.io.stdout <+: t.io.stdout
  hostLog : t.io.hostLog = s.io.hostLog
  stderr : t.io.stderr = s.io.stderr
  clock : t.io.clock = s.io.clock
  agenda : t.chance.agenda = s.chance.agenda
  turns : t.chance.turns = s.chance.turns
  frames : t.paging.frames.length = s.paging.frames.length
  wf : s.ram.wf = true → t.ram.wf = true
  pages : s.framesTidy → t.framesTidy

theorem AccessStep.refl (s : State) : AccessStep s s :=
  ⟨rfl, rfl, rfl, rfl, rfl, rfl, rfl, List.prefix_refl _, rfl, rfl, rfl, rfl, rfl, rfl, id, id⟩

theorem AccessStep.trans {s t u : State} (h : AccessStep s t) (k : AccessStep t u) : AccessStep s u :=
  ⟨k.params.trans h.params, k.hart.trans h.hart, k.others.trans h.others, k.kernel.trans h.kernel, k.sched.trans h.sched,
   k.waits.trans h.waits, k.contig.trans h.contig, h.stdout.trans k.stdout, k.hostLog.trans h.hostLog,
   k.stderr.trans h.stderr, k.clock.trans h.clock, k.agenda.trans h.agenda, k.turns.trans h.turns,
   k.frames.trans h.frames, fun w => k.wf (h.wf w), fun p => k.pages (h.pages p)⟩

theorem PagingStep.access {s t : State} (h : PagingStep s t) (hp : s.framesTidy → t.framesTidy) : AccessStep s t :=
  ⟨h.params, h.hart, h.others, h.kernel, h.sched, h.waits, h.contig, by rw [h.io], by rw [h.io], by rw [h.io], by rw [h.io],
   h.agenda, h.turns, h.frames, h.wf, hp⟩

theorem AccessStep.draw (s : State) : AccessStep s s.draw.2 :=
  (PagingStep.draw s).access (framesTidy_congr s.draw_paging (by rw [(PagingStep.draw s).kernel]))

theorem AccessStep.choose {α : Type} {s : State} {l : List α} {r : α × State} (h : s.choose l = some r) :
    AccessStep s r.2 :=
  (PagingStep.choose h).1.access (framesTidy_congr (PagingStep.choose h).2.2.1 (by rw [(PagingStep.choose h).1.kernel]))

theorem AccessStep.storeBytes (s : State) (pa : Nat) (bs : List Byte) : AccessStep s (s.storeBytes pa bs) :=
  ⟨rfl, rfl, rfl, rfl, rfl, rfl, rfl, List.prefix_refl _, rfl, rfl, rfl, rfl, rfl, rfl, fun w => Memory.wf_writeBytes w _ _,
   framesTidy_congr rfl (Nat.le_refl _)⟩

theorem AccessStep.readRx (s : State) : AccessStep s (readRx s).2 := by
  unfold Machine.readRx
  split
  · exact ⟨rfl, rfl, rfl, rfl, rfl, rfl, rfl, List.prefix_refl _, rfl, rfl, rfl, rfl, rfl, rfl, id,
      framesTidy_congr rfl (Nat.le_refl _)⟩
  · exact .draw s

theorem AccessStep.emit (b : Byte) (s : State) : AccessStep s (emit b s) :=
  ⟨rfl, rfl, rfl, rfl, rfl, rfl, rfl, List.prefix_append _ _, rfl, rfl, rfl, rfl, rfl, rfl, id,
   framesTidy_congr rfl (Nat.le_refl _)⟩

theorem AccessStep.uartRead {ε : Type} (o : Nat) (s : State) : (uartRead (ε := ε) o s).Sat (AccessStep s) := by
  unfold Machine.uartRead
  split
  · exact .draw s
  · split
    · exact .readRx s
    · trivial

theorem AccessStep.uartWrite {ε : Type} (o : Nat) (b : Byte) (s : State) :
    (uartWrite (ε := ε) o b s).Sat (AccessStep s) := by
  unfold Machine.uartWrite
  split
  · exact .emit b s
  · trivial

theorem translateContig_state {base limit va : Word} {n : Nat} {s : State} :
    (translateContig base limit va n s).Sat (fun t => t = s) := by
  unfold translateContig
  split
  · rfl
  · split <;> rfl

theorem PagingStep.translate (c : Ctx) (va : Word) (n : Nat) (k : AccessKind) (ck : Bool) (s : State) :
    (translate c va n k ck s).Sat (PagingStep s) := by
  unfold Machine.translate
  split
  · exact translateContig_state.imp (fun t ht => by subst ht; exact .refl _)
  · exact PagingStep.translatePaged ..
  · exact .refl s

/-- What holds of the end of an operation under a hypothesis. -/
theorem Res.Sat.given {ε α : Type} {P : Prop} {Q : State → Prop} {x : Res ε α} (h : P → x.Sat Q) :
    x.Sat (fun t => P → Q t) := by
  cases x with
  | ok a t => exact h
  | fail e t => exact h
  | refuse r => trivial

theorem Res.Sat.and {ε α : Type} {P Q : State → Prop} {x : Res ε α} (h : x.Sat P) (k : x.Sat Q) :
    x.Sat (fun t => P t ∧ Q t) := by
  cases x with
  | ok a t => exact ⟨h, k⟩
  | fail e t => exact ⟨h, k⟩
  | refuse r => trivial

theorem framesTidy_translate (c : Ctx) (va : Word) (n : Nat) (k : AccessKind) (ck : Bool) {s : State} (hs : s.framesTidy) :
    (translate c va n k ck s).Sat State.framesTidy := by
  unfold Machine.translate
  split
  · exact translateContig_state.imp (fun t ht => by subst ht; exact hs)
  · exact framesTidy_translatePaged _ _ _ _ hs
  · exact hs

theorem AccessStep.translate (c : Ctx) (va : Word) (n : Nat) (k : AccessKind) (ck : Bool) (s : State) :
    (translate c va n k ck s).Sat (AccessStep s) :=
  ((PagingStep.translate ..).and (.given (framesTidy_translate c va n k ck))).imp (fun _ h => h.1.access h.2)

theorem AccessStep.fetch (c : Ctx) (va : Word) (s : State) : (fetch c va s).Sat (AccessStep s) := by
  unfold Machine.fetch
  split
  · exact .refl s
  · split
    · trivial
    · exact (AccessStep.translate ..).andThen (fun _ t ht => ht)

/-- A fetch. -/
theorem PagingStep.fetch (c : Ctx) (va : Word) (s : State) : (fetch c va s).Sat (PagingStep s) := by
  unfold Machine.fetch
  split
  · exact .refl s
  · split
    · trivial
    · exact (PagingStep.translate ..).andThen (fun _ t ht => ht)

/-- A read. -/
theorem AccessStep.memRead (c : Ctx) (va : Word) (n : Nat) (s : State) : (memRead c va n s).Sat (AccessStep s) := by
  unfold Machine.memRead
  split
  · exact .refl s
  · split
    · exact (AccessStep.uartRead ..).andThen (fun _ t ht => ht)
    · split
      · trivial
      · exact (AccessStep.translate ..).andThen (fun _ t ht => ht)

/-- A write. -/
theorem AccessStep.memWrite (c : Ctx) (va : Word) (n : Nat) (v : Word) (s : State) :
    (memWrite c va n v s).Sat (AccessStep s) := by
  unfold Machine.memWrite
  split
  · exact .refl s
  · split
    · exact AccessStep.uartWrite ..
    · split
      · trivial
      · exact (AccessStep.translate ..).andThen (fun _ t ht => ht.trans (.storeBytes ..))

/-! ### The kernel's work on address spaces -/

/-- What building, copying and destroying address spaces and blocks leaves as it was. Of a hart of a CONTIGUOUS machine base and
limit may follow its block. -/
structure SpaceStep (s t : State) : Prop where
  params : t.params = s.params
  hart : t.hart.plain s.params = s.hart.plain s.params
  others : t.others.map (Hart.plain s.params) = s.others.map (Hart.plain s.params)
  kernel : t.kernel = { s.kernel with nextSpace := t.kernel.nextSpace }
  handles : s.kernel.nextSpace ≤ t.kernel.nextSpace
  sched : t.sched = s.sched
  waits : t.waits = s.waits
  io : t.io = s.io
  agenda : t.chance.agenda = s.chance.agenda
  turns : t.chance.turns = s.chance.turns
  frames : t.paging.frames.length = s.paging.frames.length
  wf : s.ram.wf = true → t.ram.wf = true
  blocks : s.blocksTidy → t.blocksTidy
  contexts : s.contexts → t.contexts

/-- The same, and the frame allocator's records stay in agreement with the page tables. -/
structure LoaderStep (s t : State) : Prop extends SpaceStep s t where
  pages : s.framesTidy → t.framesTidy

theorem SpaceStep.refl (s : State) : SpaceStep s s :=
  ⟨rfl, rfl, rfl, rfl, Nat.le_refl _, rfl, rfl, rfl, rfl, rfl, rfl, id, id, id⟩

theorem LoaderStep.refl (s : State) : LoaderStep s s := ⟨.refl s, id⟩

theorem SpaceStep.trans {s t u : State} (h : SpaceStep s t) (k : SpaceStep t u) : SpaceStep s u :=
  ⟨k.params.trans h.params, (by rw [← h.params]; exact k.hart : u.hart.plain s.params = t.hart.plain s.params).trans h.hart,
   (by rw [← h.params]; exact k.others : u.others.map (Hart.plain s.params) = t.others.map (Hart.plain s.params)).trans h.others,
   by rw [k.kernel, h.kernel], Nat.le_trans h.handles k.handles,
   k.sched.trans h.sched, k.waits.trans h.waits, k.io.trans h.io, k.agenda.trans h.agenda, k.turns.trans h.turns,
   k.frames.trans h.frames, fun w => k.wf (h.wf w), fun b => k.blocks (h.blocks b), fun c => k.contexts (h.contexts c)⟩

theorem LoaderStep.trans {s t u : State} (h : LoaderStep s t) (k : LoaderStep t u) : LoaderStep s u :=
  ⟨h.toSpaceStep.trans k.toSpaceStep, fun p => k.pages (h.pages p)⟩

theorem PagingStep.space {s t : State} (h : PagingStep s t) : SpaceStep s t :=
  ⟨h.params, by rw [h.hart], by rw [h.others], by rw [h.kernel], by rw [h.kernel], h.sched, h.waits, h.io, h.agenda, h.turns,
   h.frames, h.wf, State.blocksTidy_of h.params h.contig (by rw [h.kernel]),
   State.contexts_of h.params h.hart h.others (by rw [h.kernel]) (by rw [h.kernel]) h.contig⟩

theorem PagingStep.loader {s t : State} (h : PagingStep s t) (hp : s.framesTidy → t.framesTidy) : LoaderStep s t := ⟨h.space, hp⟩

theorem LoaderStep.storeBytes (s : State) (pa : Nat) (bs : List Byte) : LoaderStep s (s.storeBytes pa bs) :=
  ⟨⟨rfl, rfl, rfl, rfl, Nat.le_refl _, rfl, rfl, rfl, rfl, rfl, rfl, fun w => Memory.wf_writeBytes w _ _, id, id⟩,
   framesTidy_congr rfl (Nat.le_refl _)⟩

theorem LoaderStep.copy (s : State) (a b n : Nat) : LoaderStep s { s with ram := s.ram.copy a b n } :=
  ⟨⟨rfl, rfl, rfl, rfl, Nat.le_refl _, rfl, rfl, rfl, rfl, rfl, rfl, fun w => Memory.wf_copy w _ _ _, id, id⟩,
   framesTidy_congr rfl (Nat.le_refl _)⟩

theorem Res.Sat.after {ε α : Type} {s t : State} {x : Res ε α} (h : LoaderStep s t) (hx : x.Sat (LoaderStep t)) :
    x.Sat (LoaderStep s) := hx.imp (fun _ hu => h.trans hu)

theorem LoaderStep.translate (c : Ctx) (va : Word) (n : Nat) (k : AccessKind) (ck : Bool) (s : State) :
    (translate c va n k ck s).Sat (LoaderStep s) :=
  ((PagingStep.translate ..).and (.given (framesTidy_translate c va n k ck))).imp (fun _ h => h.1.loader h.2)

theorem LoaderStep.writeByteToVirtual (c : Ctx) (va : Word) (b : Byte) (s : State) :
    (writeByteToVirtual c va b s).Sat (LoaderStep s) := by
  unfold Machine.writeByteToVirtual
  split
  · trivial
  · exact (LoaderStep.translate ..).andThen (fun _ t ht => ht.trans (.storeBytes ..))

theorem LoaderStep.writeVirtual (c : Ctx) (va : Nat) (bs : List Byte) (s : State) :
    (writeVirtual c va bs s).Sat (LoaderStep s) := by
  induction bs generalizing va s with
  | nil => exact .refl s
  | cons b bs ih =>
    exact (LoaderStep.writeByteToVirtual ..).andThen (fun _ t ht => Res.Sat.after ht (ih (va + 1) t))

theorem LoaderStep.newPagedSpace (pid : Nat) (rs : List Region) (s : State) : LoaderStep s (newPagedSpace pid rs s).2 :=
  ⟨⟨rfl, rfl, rfl, rfl, Nat.le_succ _, rfl, rfl, rfl, rfl, rfl, rfl, id, State.blocksTidy_of rfl rfl (Nat.le_succ _),
    State.contexts_of rfl rfl rfl rfl (Nat.le_succ _) rfl⟩, fun h => (framesTidy_newPagedSpace pid rs h).1⟩

theorem SpaceStep.copyLeaf (dst cpid vpn : Nat) (p : Pte) (s : State) : (copyLeaf dst cpid vpn p s).Sat (SpaceStep s) := by
  unfold Machine.copyLeaf
  dsimp only
  split
  · exact ((PagingStep.modSpace ..).trans (.incRef ..)).space
  · exact ((PagingStep.allocFrame ..).imp (fun _ h => h.space)).andThen (fun f u hu =>
      (hu.trans (LoaderStep.copy u _ _ _).toSpaceStep).trans ((PagingStep.modSpace ..).trans (.onMap ..)).space)

theorem SpaceStep.copyPages (src dst cpid : Nat) (l : List Nat) (s : State) :
    (copyPages src dst cpid l s).Sat (SpaceStep s) := by
  induction l generalizing s with
  | nil => exact .refl s
  | cons v l ih =>
    unfold Machine.copyPages
    split
    · exact ih s
    · refine ((PagingStep.ensureTable ..).imp (fun _ h => h.space)).andThen (fun _ t ht => ?_)
      split
      · exact (ih t).imp (fun _ hu => ht.trans hu)
      · refine Res.Sat.andThen ((SpaceStep.copyLeaf ..).imp (fun _ hu => ht.trans hu)) (fun _ u hu => ?_)
        exact (ih u).imp (fun _ hv => hu.trans hv)

theorem SpaceStep.copyPaged (src cpid : Nat) (s : State) : (copyPaged src cpid s).Sat (SpaceStep s) := by
  unfold Machine.copyPaged
  split
  · exact .refl s
  · rename_i a _
    have h := (SpaceStep.copyPages src (Machine.newPagedSpace cpid a.regions s).1 cpid (a.mappings.map (fun m => m.1)) _).imp
      (fun _ h => (LoaderStep.newPagedSpace cpid a.regions s).toSpaceStep.trans h)
    dsimp only
    split
    · rename_i hc; rw [hc] at h; exact h
    · rename_i hc; rw [hc] at h; exact SpaceStep.trans h (PagingStep.destroyPaged ..).space
    · trivial

theorem LoaderStep.copyPaged (src cpid : Nat) (s : State) : (copyPaged src cpid s).Sat (LoaderStep s) :=
  ((SpaceStep.copyPaged ..).and (.given (framesTidy_copyPaged src cpid))).imp (fun _ h => ⟨h.1, h.2⟩)

/-! ### Blocks -/

theorem State.drawBytes_step (n : Nat) (s : State) : PagingStep s (State.drawBytes n s).2 := by
  induction n generalizing s with
  | zero => exact .refl s
  | succ n ih => exact (PagingStep.draw s).trans (ih _)

theorem LoaderStep.slide (l : List Block) (a : Nat) (m : Memory) (h : m.wf = true) : (slideBlocks l a m).2.2.wf = true := by
  induction l generalizing a m with
  | nil => exact h
  | cons b l ih => exact ih _ _ (Memory.wf_copy h _ _ _)

theorem SpaceStep.compact {st : AllocStrategy} (s : State) (hm : s.params.memMode = .contiguous st) : SpaceStep s (compact s) :=
  ⟨rfl, Hart.follow_plain hm _ _, by
    show (s.others.map (Hart.follow _)).map (Hart.plain s.params) = _
    rw [List.map_map]
    exact List.map_congr_left (fun h _ => Hart.follow_plain hm _ h),
   rfl, Nat.le_refl _, rfl, rfl, rfl, rfl, rfl, rfl, fun w => LoaderStep.slide _ _ _ w, blocksTidy_compact, contexts_compact⟩

theorem LoaderStep.compact {st : AllocStrategy} (s : State) (hm : s.params.memMode = .contiguous st) : LoaderStep s (compact s) :=
  ⟨.compact s hm, framesTidy_congr rfl (Nat.le_refl _)⟩

theorem State.drawBytes_paging (n : Nat) (s : State) : (State.drawBytes n s).2.paging = s.paging := by
  induction n generalizing s with
  | zero => rfl
  | succ n ih => exact (ih _).trans s.draw_paging

theorem LoaderStep.placeBlock {pid n : Nat} {s : State} {r : Nat × State} (h : placeBlock pid n s = some r)
    (hn : 0 < s.params.contigTaskSize → 0 < n) : LoaderStep s r.2 := by
  unfold Machine.placeBlock at h
  split at h
  · cases h
  · rename_i hole hh
    cases h
    have hd := State.drawBytes_step n s
    exact ⟨⟨hd.params, by dsimp only; rw [hd.hart], by dsimp only; rw [hd.others], by dsimp only; rw [hd.kernel],
      Nat.le_succ _, hd.sched, hd.waits, hd.io, hd.agenda, hd.turns,
      hd.frames, fun w => Memory.wf_writeBytes (hd.wf w) _ _,
      fun b => blocksTidy_place (pid := pid) b (hn b.1) hh hd.params rfl rfl,
      contexts_place hd.params hd.hart hd.others (by dsimp only; rw [hd.kernel]) rfl rfl rfl⟩,
      framesTidy_congr (State.drawBytes_paging n s) (Nat.le_succ _)⟩

theorem LoaderStep.allocateBlock {st : AllocStrategy} (pid n : Nat) (s : State) (hm : s.params.memMode = .contiguous st)
    (hn : 0 < s.params.contigTaskSize → 0 < n) :
    (allocateBlock pid n s).Sat (LoaderStep s) := by
  unfold Machine.allocateBlock
  split
  · rename_i h; exact .placeBlock h hn
  · split
    · split
      · rename_i h
        exact (LoaderStep.compact s hm).trans (.placeBlock h hn)
      · exact .compact s hm
    · exact .refl s

theorem LoaderStep.freeBlock (h : Nat) (s : State) : LoaderStep s (freeBlock h s) := by
  unfold Machine.freeBlock
  split
  · exact .refl s
  · rename_i b hb
    refine ⟨⟨rfl, rfl, rfl, rfl, Nat.le_refl _, rfl, rfl, rfl, rfl, rfl, rfl, id, fun t => ?_, fun t => ?_⟩,
      framesTidy_congr rfl (Nat.le_refl _)⟩
    · have := blocksTidy_free h t
      unfold Machine.freeBlock at this
      rw [hb] at this
      exact this
    · have := contexts_free h t
      unfold Machine.freeBlock at this
      rw [hb] at this
      exact this

theorem LoaderStep.newSpace (pid : Nat) (s : State) : (newSpace pid s).Sat (LoaderStep s) := by
  unfold Machine.newSpace
  split
  · rename_i hm; exact LoaderStep.allocateBlock _ _ _ hm id
  · exact .newPagedSpace ..

theorem LoaderStep.destroySpace (h : Nat) (s : State) : LoaderStep s (destroySpace h s) := by
  unfold Machine.destroySpace
  split
  · exact .freeBlock ..
  · exact (PagingStep.destroyPaged ..).loader (framesTidy_destroyPaged h)

/-! ### Images and stacks -/

theorem Res.Sat.orDestroy {α : Type} {s : State} {x : Res KernelError α} (h : Nat) (hx : x.Sat (LoaderStep s)) :
    (orDestroy h x).Sat (LoaderStep s) := by
  cases x with
  | ok a t => exact hx
  | fail e t => exact LoaderStep.trans hx (.destroySpace ..)
  | refuse r => trivial

theorem LoaderStep.mapRegion (h a n : Nat) (p : Perms) (s : State) : (mapRegion h a n p s).Sat (LoaderStep s) :=
  ((PagingStep.mapRegion ..).and (.given (framesTidy_mapRegion h a n p))).imp (fun _ k => k.1.loader k.2)

theorem LoaderStep.mapSegment (h : Nat) (g : Segment) (s : State) : (mapSegment h g s).Sat (LoaderStep s) := by
  unfold Machine.mapSegment
  split
  · exact LoaderStep.mapRegion ..
  · split <;> exact .refl s

theorem LoaderStep.loadSegments (buf : List Byte) (h : Nat) (l : List Segment) (s : State) :
    (loadSegments buf h l s).Sat (LoaderStep s) := by
  induction l generalizing s with
  | nil => exact .refl s
  | cons g l ih =>
    unfold Machine.loadSegments
    split
    · exact ih s
    · refine (LoaderStep.mapSegment ..).andThen (fun _ t ht => ?_)
      refine Res.Sat.andThen (Res.Sat.after ht (Res.Sat.mapFail _ (LoaderStep.writeVirtual ..))) (fun _ u hu => ?_)
      refine Res.Sat.andThen (Res.Sat.after hu (Res.Sat.mapFail _ (LoaderStep.writeVirtual ..))) (fun _ v hv => ?_)
      exact Res.Sat.after hv (ih v)

theorem LoaderStep.loadImage (buf : List Byte) (pid : Nat) (s : State) : (loadImage buf pid s).Sat (LoaderStep s) := by
  unfold Machine.loadImage
  split
  · exact .refl s
  · refine (LoaderStep.newSpace ..).andThen (fun h t ht => Res.Sat.orDestroy h ?_)
    exact Res.Sat.andThen (Res.Sat.after ht (LoaderStep.loadSegments ..)) (fun _ u hu => hu)

theorem LoaderStep.mapStack (h : Nat) (s : State) : (mapStack h s).Sat (LoaderStep s) := by
  unfold Machine.mapStack
  split
  · exact Res.Sat.orDestroy h (LoaderStep.mapRegion ..)
  · split
    · exact Res.Sat.orDestroy h (LoaderStep.refl s)
    · exact .refl s

/-! ### Handles -/

/-- What an operation that ends well gives. -/
def Res.Gives {ε α : Type} (P : α → State → Prop) (x : Res ε α) : Prop :=
  match x with
  | .ok a t => P a t
  | .fail _ _ => True
  | .refuse _ => True

theorem Res.Gives.andThen {ε α β : Type} {P : α → State → Prop} {Q : β → State → Prop} {x : Res ε α} {f : α → State → Res ε β}
    (h : x.Gives P) (hf : ∀ a t, P a t → (f a t).Gives Q) : (x.andThen f).Gives Q := by
  cases x with
  | ok a t => exact hf a t h
  | fail e t => trivial
  | refuse r => trivial

theorem Res.Sat.gives {ε α : Type} {P : State → Prop} {x : Res ε α} (h : x.Sat P) : x.Gives (fun _ t => P t) := by
  cases x with
  | ok a t => exact h
  | fail e t => trivial
  | refuse r => trivial

theorem Res.Gives.orDestroy {α : Type} {P : α → State → Prop} {x : Res KernelError α} (h : Nat) (hx : x.Gives P) :
    (orDestroy h x).Gives P := by
  cases x with
  | ok a t => exact hx
  | fail e t => trivial
  | refuse r => trivial

theorem placeBlock_handle {pid n : Nat} {s : State} {r : Nat × State} (h : placeBlock pid n s = some r) :
    r.1 < r.2.kernel.nextSpace := by
  unfold placeBlock at h
  split at h
  · cases h
  · cases h; exact Nat.lt_succ_self _

/-- The handle of a new block is one given out. -/
theorem allocateBlock_handle (pid n : Nat) (s : State) :
    (allocateBlock pid n s).Gives (fun h t => h < t.kernel.nextSpace) := by
  unfold allocateBlock
  split
  · rename_i h; exact placeBlock_handle h
  · split
    · split
      · rename_i h; exact placeBlock_handle h
      · trivial
    · trivial

theorem newSpace_handle (pid : Nat) (s : State) : (newSpace pid s).Gives (fun h t => h < t.kernel.nextSpace) := by
  unfold newSpace
  split
  · exact allocateBlock_handle ..
  · exact Nat.lt_succ_self _

theorem copyPaged_handle (src cpid : Nat) (s : State) : (copyPaged src cpid s).Gives (fun h t => h < t.kernel.nextSpace) := by
  unfold copyPaged
  split
  · trivial
  · rename_i a _
    have h := SpaceStep.copyPages src (newPagedSpace cpid a.regions s).1 cpid (a.mappings.map (fun m => m.1))
      (newPagedSpace cpid a.regions s).2
    dsimp only
    split
    · rename_i hc; rw [hc] at h; exact Nat.lt_of_lt_of_le (Nat.lt_succ_self _) (SpaceStep.handles h)
    · trivial
    · trivial

theorem loadImage_handle (buf : List Byte) (pid : Nat) (s : State) :
    (loadImage buf pid s).Gives (fun i t => i.1 < t.kernel.nextSpace) := by
  unfold loadImage
  split
  · trivial
  · exact (newSpace_handle pid s).andThen (fun h t ht => Res.Gives.orDestroy h
      ((LoaderStep.loadSegments ..).gives.andThen (fun _ u hu => Nat.lt_of_lt_of_le ht hu.handles)))

theorem AccessStep.drawRegs (l : List Nat) (v : Vector Word 32) (s : State) : AccessStep s (drawRegs l v s).2 := by
  induction l generalizing v s with
  | nil => exact .refl s
  | cons i l ih => exact (AccessStep.draw s).trans (ih _ _)

end Sys2Proof.Machine
end

