-- ==== Sys2Proof/Laws/Hits.lean ====
section
/-! SUPPORT. How an access ends: on a resident page, inside a block, where it has no mapping, and where it fails, after which
only the paging structures can have changed (`QuietStep`). -/

namespace Sys2Proof.Machine

/-! ### What a failed access changes -/

/-- A paging step in which RAM changes only where pages are given out on demand. -/
structure QuietStep (s t : State) : Prop extends PagingStep s t where
  eager : demandPaged s = false → t.ram = s.ram

theorem QuietStep.refl (s : State) : QuietStep s s := ⟨.refl s, fun _ => rfl⟩

theorem demandPaged_congr {s t : State} (h : t.params = s.params) : demandPaged t = demandPaged s := by
  unfold demandPaged evictsOnDemand; rw [h]

theorem QuietStep.trans {s t u : State} (h : QuietStep s t) (k : QuietStep t u) : QuietStep s u :=
  ⟨h.toPagingStep.trans k.toPagingStep, fun hd =>
    (k.eager ((demandPaged_congr h.params).trans hd)).trans (h.eager hd)⟩

theorem QuietStep.bytesDemand {s t : State} (h : QuietStep s t) (a : Nat) :
    t.ram.read a = s.ram.read a ∨ (demandPaged s = true ∧ t.ram.read a = 0#8) := by
  cases hd : demandPaged s with
  | false => exact .inl (by rw [h.eager hd])
  | true => exact (h.bytes a).imp_right (fun e => ⟨rfl, e⟩)

theorem translate_ram (c : Ctx) (va : Word) (n : Nat) (k : AccessKind) (ck : Bool) (s : State)
    (hd : demandPaged s = false) : (translate c va n k ck s).Sat (fun t => t.ram = s.ram) := by
  unfold translate
  split
  · exact translateContig_state.imp (fun t ht => by rw [ht])
  · unfold translatePaged
    dsimp only
    split
    · rfl
    · split
      · split
        · rfl
        · exact touch_ram ..
      · simp only [hd, Bool.not_false, if_true]; rfl
  · rfl

theorem QuietStep.translate (c : Ctx) (va : Word) (n : Nat) (k : AccessKind) (ck : Bool) (s : State) :
    (translate c va n k ck s).Sat (QuietStep s) := by
  have h1 := PagingStep.translate c va n k ck s
  have h2 := translate_ram c va n k ck s
  cases h : Machine.translate c va n k ck s with
  | ok a t => rw [h] at h1 h2; exact ⟨h1, h2⟩
  | fail a t => rw [h] at h1 h2; exact ⟨h1, h2⟩
  | refuse r => trivial

theorem QuietStep.fetch (c : Ctx) (va : Word) (s : State) : (fetch c va s).Sat (QuietStep s) := by
  unfold Machine.fetch
  split
  · exact .refl s
  · split
    · trivial
    · exact (QuietStep.translate ..).andThen (fun _ t ht => ht)

/-- The walk of a page that is not resident goes on to the fetch policy. -/
theorem NotResident.translate {s : State} {h : Nat} {va : Word} {a : AddrSpace} (k : AccessKind) (ck : Bool)
    (ha : s.space? h = some a) (hn : NotResident a va) :
    translatePaged h va k ck s =
      if !demandPaged s then .fail { subcause := .unmapped, va := va } s
      else
        match demandPerms s a (vpnOf va) k with
        | none => .fail { subcause := .unmapped, va := va } s
        | some perms =>
          ((installPage h a.pid (vpnOf va) perms true s).mapFail
              (fun _ => ({ subcause := .oom, va := va } : MemFailure))).andThen (fun f s1 =>
            if ck && !permits perms k then .fail { subcause := .permission, va := va } s1
            else .ok (f * 4096 + pageOffset va) (touch h (vpnOf va) k s1)) := by
  unfold translatePaged
  simp only [ha]
  cases hp : a.pte? (vpnOf va) with
  | none => rfl
  | some p => simp only [hn p hp, Bool.false_eq_true, if_false] <;> rfl

/-! ### The frame an access gives out -/

/-- L1 entries once made stay. -/
def TablesStay (s t : State) : Prop :=
  ∀ h a, s.space? h = some a → ∃ b, t.space? h = some b ∧
    ∀ l, assocGet a.directory l ≠ none → assocGet b.directory l ≠ none

theorem TablesStay.same {s t : State} (h : t.paging.spaces = s.paging.spaces) : TablesStay s t :=
  fun k a ha => ⟨a, by unfold State.space? at ha ⊢; rw [h]; exact ha, fun _ => id⟩

theorem TablesStay.trans {s t u : State} (h : TablesStay s t) (k : TablesStay t u) : TablesStay s u := fun x a ha => by
  obtain ⟨b, hb, h1⟩ := h x a ha
  obtain ⟨c, hc, h2⟩ := k x b hb
  exact ⟨c, hc, fun l hl => h2 l (h1 l hl)⟩

theorem AddrSpace.setPte_directory (a : AddrSpace) (v : Nat) (p : Pte) (l : Nat) (h : assocGet a.directory l ≠ none) :
    assocGet (a.setPte v p).directory l ≠ none := by
  unfold AddrSpace.setPte
  dsimp only
  rw [assocGet_modify]
  split
  · cases ht : assocGet a.directory l with
    | none => exact absurd ht h
    | some t => simp
  · exact h

theorem TablesStay.invalidate (k v : Nat) (s : State) : TablesStay s (invalidate k v s) := fun h a ha => by
  unfold Machine.invalidate
  rw [State.space?_modSpace]
  split
  · rw [ha]
    refine ⟨_, rfl, fun l hl => ?_⟩
    dsimp only
    split
    · exact AddrSpace.setPte_directory _ _ _ _ hl
    · exact hl
  · exact ⟨a, ha, fun _ => id⟩

theorem TablesStay.unmapVictim (v : Nat) (s : State) : TablesStay s (unmapVictim v s) := by
  unfold Machine.unmapVictim
  split
  · split
    · exact TablesStay.invalidate _ _ s
    · exact .same rfl
  · split
    · rename_i h
      exact TablesStay.trans (.same (by rw [(PagingStep.choose h).2.2.1])) (TablesStay.invalidate _ _ _)
    · exact .same rfl
  · exact .same rfl
  · exact .same rfl

theorem TablesStay.allocFrame {o : FrameOwner} {pid vpn : Nat} {e : Bool} {s t : State} {f : Nat}
    (h : allocFrame o pid vpn e s = .ok f t) : TablesStay s t := by
  have htake : ∀ {u v : State} {g : Nat}, takeFree o u = some (g, v) → TablesStay u v := fun hu => by
    unfold takeFree at hu
    split at hu
    · rename_i hc
      cases hu
      have h1 := congrArg (fun q : Paging => q.spaces) (PagingStep.choose hc).2.2.1
      exact .same h1
    · cases hu
  unfold Machine.allocFrame at h
  split at h
  · rename_i ht; cases h; exact htake ht
  · split at h
    · split at h
      · cases h
      · rename_i s1 he
        split at h
        · rename_i ht
          cases h
          refine TablesStay.trans ?_ (htake ht)
          unfold evictOne at he
          split at he
          · rename_i v u hv
            cases he
            refine TablesStay.trans (.same (pickVictim_frames hv).2) ((TablesStay.unmapVictim v u).trans (.same ?_))
            unfold decRef; dsimp only; split <;> exact (onUnmap_frames v _).2
          · cases he
        · cases h
    · cases h

theorem clockSweep_ram (pid vpn : Nat) (l : List Nat) (s : State) : (clockSweep pid vpn l s).2.ram = s.ram := by
  induction l generalizing s with
  | nil => rfl
  | cons f l ih =>
    unfold clockSweep
    split
    · split
      · rw [ih]; rfl
      · rfl
    · exact ih s

theorem pickVictim_ram {pid vpn : Nat} {s : State} {r : Nat × State} (h : pickVictim pid vpn s = some r) :
    r.2.ram = s.ram := by
  have hp : (policyPick pid vpn s).2.ram = s.ram := by
    unfold policyPick
    split
    · show (clockSweep _ _ _ _).2.draw.2.ram = s.ram
      rw [State.draw_ram, clockSweep_ram]
      unfold clockOrder
      split
      · rfl
      · split
        · rename_i hc; exact (PagingStep.choose hc).2.2.2
        · rfl
    · rfl
    · rfl
  unfold pickVictim at h
  split at h
  · cases h
  · split at h
    · rename_i hq; rw [hq] at hp; cases h; exact hp
    · rename_i hq; rw [hq] at hp; exact (PagingStep.choose h).2.2.2.trans hp

theorem unmapVictim_ram (v : Nat) (s : State) : (unmapVictim v s).ram = s.ram := by
  unfold unmapVictim
  split
  · split <;> rfl
  · split
    · rename_i h; exact (PagingStep.choose h).2.2.2
    · rfl
  · rfl
  · rfl

theorem decRef_ram (f : Nat) (s : State) : (decRef f s).ram = s.ram := by
  unfold decRef; dsimp only; split <;> rfl

theorem onUnmap_ram (f : Nat) (s : State) : (onUnmap f s).ram = s.ram := rfl

/-- An allocation stores no byte. -/
theorem allocFrame_sat_ram (o : FrameOwner) (pid vpn : Nat) (e : Bool) (s : State) :
    (allocFrame o pid vpn e s).Sat (fun t => t.ram = s.ram) := by
  unfold allocFrame
  split
  · rename_i h; exact takeFree_ram h
  · split
    · split
      · rfl
      · rename_i s1 he
        have h1 : s1.ram = s.ram := by
          unfold evictOne at he
          split at he
          · rename_i hv
            cases he
            rw [decRef_ram, onUnmap_ram, unmapVictim_ram]; exact pickVictim_ram hv
          · cases he
        split
        · rename_i h; exact (takeFree_ram h).trans h1
        · exact h1
    · rfl

theorem allocFrame_ram {o : FrameOwner} {pid vpn : Nat} {e : Bool} {s t : State} {f : Nat}
    (h : allocFrame o pid vpn e s = .ok f t) : t.ram = s.ram := by
  have := allocFrame_sat_ram o pid vpn e s
  rw [h] at this; exact this

theorem ensureTable_sat_ram (h pid vpn : Nat) (e : Bool) (s : State) :
    (ensureTable h pid vpn e s).Sat (fun t => t.ram = s.ram) := by
  unfold ensureTable
  split
  · rfl
  · split
    · rfl
    · exact (allocFrame_sat_ram ..).andThen (fun _ t ht => ht)

theorem installPage_fail_ram {h pid vpn : Nat} {perms : Perms} {b : Bool} {s t : State} {e : KernelError}
    (hi : installPage h pid vpn perms b s = .fail e t) : t.ram = s.ram := by
  unfold installPage at hi
  have h1 := ensureTable_sat_ram h pid vpn b s
  cases h2 : ensureTable h pid vpn b s with
  | fail => rw [h2] at hi h1; cases hi; exact h1
  | refuse => rw [h2] at hi; cases hi
  | ok u s1 =>
    rw [h2] at hi h1
    simp only [Res.andThen] at hi
    have h3 := allocFrame_sat_ram (.page pid vpn) pid vpn b s1
    cases h4 : allocFrame (.page pid vpn) pid vpn b s1 with
    | fail => rw [h4] at hi h3; cases hi; exact Eq.trans h3 h1
    | refuse => rw [h4] at hi; cases hi
    | ok g s2 => rw [h4] at hi; cases hi

/-- What a page that an access gives out leaves: its PTE maps the new frame, and no other byte has changed. -/
theorem installPage_bytes {h pid vpn : Nat} {perms : Perms} {s t : State} {f : Nat}
    (e : installPage h pid vpn perms true s = .ok f t) :
    (∃ b p, t.space? h = some b ∧ b.pte? vpn = some p ∧ p.valid = true ∧ p.ppn = f) ∧
      ∀ x, t.ram.read x = if f * 4096 ≤ x ∧ x < f * 4096 + 4096 then 0#8 else s.ram.read x := by
  unfold installPage at e
  cases h1 : ensureTable h pid vpn true s with
  | fail => rw [h1] at e; cases e
  | refuse => rw [h1] at e; cases e
  | ok u s1 =>
    rw [h1] at e
    simp only [Res.andThen] at e
    have hd : (∃ b, s1.space? h = some b ∧ assocGet b.directory (l1Index vpn) ≠ none) ∧ s1.ram = s.ram := by
      unfold ensureTable at h1
      split at h1
      · cases h1
      · rename_i a ha
        split at h1
        · rename_i d hd; cases h1; exact ⟨⟨a, ha, by rw [hd]; simp⟩, rfl⟩
        · cases h2 : allocFrame .pageTable pid vpn true s with
          | fail => rw [h2] at h1; cases h1
          | refuse => rw [h2] at h1; cases h1
          | ok g s2 =>
            rw [h2] at h1
            simp only [Res.andThen, Res.ok.injEq, true_and] at h1
            subst h1
            obtain ⟨b, hb, -⟩ := TablesStay.allocFrame h2 h a ha
            have hr2 := allocFrame_ram h2
            refine ⟨⟨_, by rw [State.space?_modSpace, if_pos rfl, hb]; rfl, ?_⟩, hr2⟩
            dsimp only
            rw [assocGet_set, if_pos rfl]; simp
    obtain ⟨⟨b, hb, hbd⟩, hr⟩ := hd
    cases h3 : allocFrame (.page pid vpn) pid vpn true s1 with
    | fail => rw [h3] at e; cases e
    | refuse => rw [h3] at e; cases e
    | ok g s2 =>
      rw [h3] at e
      simp only [Res.ok.injEq] at e
      obtain ⟨rfl, rfl⟩ := e
      obtain ⟨c, hc, hcd⟩ := TablesStay.allocFrame h3 h b hb
      refine ⟨⟨_, { valid := true, perms := perms, shared := false, accessed := false, dirty := false, ppn := g }, ?_,
        AddrSpace.pte?_setPte c vpn _ (hcd _ hbd), rfl, rfl⟩, fun x => ?_⟩
      · rw [onMap_spaces, State.space?_modSpace, if_pos rfl]
        show (s2.space? h).map _ = _
        rw [hc]; rfl
      · rw [onMap_ram]
        show (s2.ram.zero (g * 4096) 4096).read x = _
        rw [Memory.read_zero, allocFrame_ram h3, hr]

/-- The bytes an access's translation changes: those of the frame it gives out. -/
theorem translate_bytes (va : Word) (n : Nat) (k : AccessKind) (ck : Bool) (s : State) :
    (translate (hartCtx s) va n k ck s).Sat (fun t => ∀ a, t.ram.read a = s.ram.read a ∨ GivenOut s t va a) := by
  cases hc : hartCtx s with
  | block b l => exact translateContig_state.imp (fun t ht a => .inl (by rw [ht]))
  | space o =>
    cases o with
    | none => exact fun a => .inl rfl
    | some h =>
      show (translatePaged h va k ck s).Sat _
      cases ha : s.space? h with
      | none => unfold translatePaged; rw [ha]; exact fun a => .inl rfl
      | some b =>
        by_cases hn : NotResident b va
        · rw [hn.translate k ck ha]
          split
          · exact fun a => .inl rfl
          · rename_i hd
            split
            · exact fun a => .inl rfl
            · rename_i perms _
              cases hi : installPage h b.pid (vpnOf va) perms true s with
              | refuse r => trivial
              | fail e t =>
                have h1 := installPage_fail_ram hi
                exact fun a => .inl (by rw [h1])
              | ok f t =>
                obtain ⟨⟨b1, p1, hb1, hp1, hv1, hf1⟩, hby⟩ := installPage_bytes hi
                have hgo : ∀ (u : State) (p : Pte), u.ram = t.ram → Resident u h va p → p.ppn = f →
                    ∀ a, u.ram.read a = s.ram.read a ∨ GivenOut s u va a := by
                  intro u p hr hp hpf a
                  rw [hr, hby]
                  by_cases hx : f * 4096 ≤ a ∧ a < f * 4096 + 4096
                  · refine .inr ⟨by simpa using hd, by rw [hr, hby, if_pos hx], h, b, p, hc, ha, hn, hp, ?_⟩
                    rw [hpf]; omega
                  · rw [if_neg hx]; exact .inl rfl
                simp only [Res.mapFail, Res.andThen]
                split
                · exact hgo t p1 rfl ⟨b1, hb1, hp1, hv1⟩ hf1
                · obtain ⟨b2, hb2, hp2⟩ := touch_pte hb1 hp1 k
                  exact hgo _ _ (touch_ram ..) ⟨b2, hb2, hp2, hv1⟩ hf1
        · have hr : ∃ p, b.pte? (vpnOf va) = some p ∧ p.valid = true := by
            unfold NotResident at hn
            simp only [not_forall] at hn
            obtain ⟨p, hp, hv⟩ := hn
            exact ⟨p, hp, by simpa using hv⟩
          obtain ⟨p, hp, hv⟩ := hr
          unfold translatePaged
          simp only [ha, hp, hv, if_true]
          split
          · exact fun a => .inl rfl
          · exact fun a => .inl (by rw [touch_ram])

/-- A read that fails. -/
theorem memRead_fail {c : Ctx} {va : Word} {n : Nat} {s t : State} {f : MemFailure} (h : memRead c va n s = .fail f t) :
    QuietStep s t := by
  unfold memRead at h
  split at h
  · cases h; exact .refl s
  · split at h
    · unfold uartRead at h
      split at h
      · cases h
      · split at h <;> cases h
    · split at h
      · cases h
      · have h1 := QuietStep.translate c va n .read true s
        cases ht : Machine.translate c va n .read true s with
        | ok a u => rw [ht] at h; cases h
        | fail e u => rw [ht] at h h1; cases h; exact h1
        | refuse r => rw [ht] at h; cases h

/-- A write that fails. -/
theorem memWrite_fail {c : Ctx} {va : Word} {n : Nat} {v : Word} {s t : State} {f : MemFailure}
    (h : memWrite c va n v s = .fail f t) : QuietStep s t := by
  unfold memWrite at h
  split at h
  · cases h; exact .refl s
  · split at h
    · unfold uartWrite at h
      split at h <;> cases h
    · split at h
      · cases h
      · have h1 := QuietStep.translate c va n .write true s
        cases ht : Machine.translate c va n .write true s with
        | ok a u => rw [ht] at h; cases h
        | fail e u => rw [ht] at h h1; cases h; exact h1
        | refuse r => rw [ht] at h; cases h

/-! ### Accesses outside the UART range -/

theorem aligned_iff (va : Word) (n : Nat) : aligned va n = true ↔ va.toNat % n = 0 := by simp [aligned]

theorem touchesUart_iff (p : Params) (a n : Nat) : touchesUart p a n = true ↔ ∃ k, k < n ∧ inUart p (a + k) = true := by
  simp [touchesUart]

theorem PlainAccess.quiet {s : State} {va : Word} {n : Nat} (h : PlainAccess s va n) :
    aligned va n = true ∧ touchesUart s.params va.toNat n = false := by
  refine ⟨(aligned_iff va n).2 h.1, ?_⟩
  rw [Bool.eq_false_iff]
  intro ht
  obtain ⟨k, hk, hu⟩ := (touchesUart_iff ..).1 ht
  exact h.2 k hk (by simpa [inUart] using hu)

/-- A byte access decides by its one byte. -/
theorem PlainAccess.byte {s : State} {va : Word} {n : Nat} (h : PlainAccess s va n) :
    (decide (n = 1) && inUart s.params va.toNat) = false := by
  by_cases hn : n = 1
  · subst hn
    have h1 := h.2 0 (by omega)
    simp only [inUart, decide_true, Bool.true_and, Bool.and_eq_false_iff, decide_eq_false_iff_not]
    simp only [Nat.add_zero] at h1
    omega
  · simp [hn]

theorem PlainAccess.memRead {s : State} {va : Word} {n : Nat} (c : Ctx) (h : PlainAccess s va n) :
    memRead c va n s =
      (translate c va n .read true s).andThen (fun pa s1 => .ok (littleEndian (s1.ram.readBytes pa n)) s1) := by
  unfold Machine.memRead
  rw [if_neg (by simp [h.quiet.1]), if_neg (by rw [h.byte]; simp), if_neg (by simp [h.quiet.2])]

theorem PlainAccess.memWrite {s : State} {va : Word} {n : Nat} (c : Ctx) (v : Word) (h : PlainAccess s va n) :
    memWrite c va n v s =
      (translate c va n .write true s).andThen (fun pa s1 => .ok () (s1.storeBytes pa (lowBytes v n))) := by
  unfold Machine.memWrite
  rw [if_neg (by simp [h.quiet.1]), if_neg (by rw [h.byte]; simp), if_neg (by simp [h.quiet.2])]

theorem PlainAccess.fetch {s : State} {va : Word} (c : Ctx) (h : PlainAccess s va 4) :
    fetch c va s =
      (translate c va 4 .exec true s).andThen (fun pa s1 => .ok (littleEndian (s1.ram.readBytes pa 4)) s1) := by
  unfold Machine.fetch
  rw [if_neg (by simp [h.quiet.1]), if_neg (by simp [h.quiet.2])]

/-! ### Accesses in the UART range -/

theorem memRead_uart {s : State} {va : Word} (c : Ctx) (h : inUart s.params va.toNat = true) :
    memRead c va 1 s =
      (uartRead (va.toNat - s.params.uartBase) s).andThen (fun b s1 => .ok (b.setWidth 32) s1) := by
  unfold memRead
  rw [if_neg (by simp [aligned, Nat.mod_one]), if_pos (by simp [h])]

theorem memWrite_uart {s : State} {va : Word} (c : Ctx) (v : Word) (h : inUart s.params va.toNat = true) :
    memWrite c va 1 v s = uartWrite (va.toNat - s.params.uartBase) (v.setWidth 8) s := by
  unfold memWrite
  rw [if_neg (by simp [aligned, Nat.mod_one]), if_pos (by simp [h])]

theorem memRead_wide {s : State} {va : Word} {n : Nat} (c : Ctx) (hn : n ≠ 1) (ha : va.toNat % n = 0)
    (h : ∃ k, k < n ∧ inUart s.params (va.toNat + k) = true) : memRead c va n s = .refuse .uartWideAccess := by
  unfold memRead
  rw [if_neg (by simp [aligned, ha]), if_neg (by simp [hn]), if_pos ((touchesUart_iff ..).2 h)]

theorem memWrite_wide {s : State} {va : Word} {n : Nat} (c : Ctx) (v : Word) (hn : n ≠ 1) (ha : va.toNat % n = 0)
    (h : ∃ k, k < n ∧ inUart s.params (va.toNat + k) = true) : memWrite c va n v s = .refuse .uartWideAccess := by
  unfold memWrite
  rw [if_neg (by simp [aligned, ha]), if_neg (by simp [hn]), if_pos ((touchesUart_iff ..).2 h)]

theorem fetch_uart {s : State} {va : Word} (c : Ctx) (ha : va.toNat % 4 = 0)
    (h : ∃ k, k < 4 ∧ inUart s.params (va.toNat + k) = true) : fetch c va s = .refuse .uartFetch := by
  unfold fetch
  rw [if_neg (by simp [aligned, ha]), if_pos ((touchesUart_iff ..).2 h)]

/-! ### Translation -/

theorem InSpace.ctx {s : State} {h : Nat} (hs : InSpace s h) : hartCtx s = .space (some h) := by
  obtain ⟨⟨f, p, hm⟩, hh⟩ := hs
  unfold hartCtx; rw [hm, hh]

theorem InBlock.ctx {s : State} {va : Word} {n : Nat} (hs : InBlock s va n) :
    hartCtx s = .block s.hart.base s.hart.limit := by
  obtain ⟨⟨f, hm⟩, -⟩ := hs
  unfold hartCtx; rw [hm]

/-- A resident page whose permissions allow the access. -/
theorem translate_resident {s : State} {h : Nat} {va : Word} {p : Pte} (n : Nat) (k : AccessKind) (hs : InSpace s h)
    (hr : Resident s h va p) (hp : permits p.perms k = true) :
    translate (hartCtx s) va n k true s = .ok (p.physical va) (touch h (vpnOf va) k s) := by
  obtain ⟨a, ha, hpte, hv⟩ := hr
  rw [hs.ctx]
  simp only [translate, translatePaged, ha, hpte, hv, if_true, hp, Bool.not_true, Bool.and_false, Bool.false_eq_true,
    if_false]
  rfl

/-- A resident page whose permissions do not. -/
theorem translate_denied {s : State} {h : Nat} {va : Word} {p : Pte} (n : Nat) (k : AccessKind) (hs : InSpace s h)
    (hr : Resident s h va p) (hp : permits p.perms k = false) :
    translate (hartCtx s) va n k true s = .fail { subcause := .permission, va := va } s := by
  obtain ⟨a, ha, hpte, hv⟩ := hr
  rw [hs.ctx]
  simp only [translate, translatePaged, ha, hpte, hv, if_true, hp, Bool.not_false, Bool.and_true, if_true]

/-- A page that is not resident and that no policy gives. -/
theorem translate_unmapped {s : State} {h : Nat} {va : Word} {a : AddrSpace} (n : Nat) (k : AccessKind) (hs : InSpace s h)
    (ha : s.space? h = some a) (hn : NotResident a va)
    (hd : (∃ p, s.params.memMode = .paged .eager p) ∨ demandPerms s a (vpnOf va) k = none) :
    translate (hartCtx s) va n k true s = .fail { subcause := .unmapped, va := va } s := by
  rw [hs.ctx]
  show translatePaged h va k true s = _
  rw [hn.translate k true ha]
  rcases hd with ⟨p, hm⟩ | hd
  · rw [if_pos (by unfold demandPaged evictsOnDemand; rw [hm]; rfl)]
  · rw [hd]; split <;> rfl

/-- Inside the hart's block. -/
theorem translate_inBlock {s : State} {va : Word} {n : Nat} (k : AccessKind) (ck : Bool) (h : InBlock s va n) :
    translate (hartCtx s) va n k ck s = .ok (s.hart.base.toNat + va.toNat) s := by
  rw [h.ctx]
  simp only [translate, translateContig]
  rw [if_neg (by have := h.2.1; omega), if_neg (by have := h.2.2; omega)]

/-- Beyond the limit, or beyond the end of RAM. -/
theorem translate_outside {s : State} {va : Word} {n : Nat} (st : AllocStrategy) (k : AccessKind) (ck : Bool)
    (hm : s.params.memMode = .contiguous st)
    (h : s.hart.limit.toNat < va.toNat + n ∨ s.params.ramSize < s.hart.base.toNat + va.toNat + n) :
    ∃ f : MemFailure, translate (hartCtx s) va n k ck s = .fail f s ∧ f.kind = .memFault ∧ f.va = va := by
  have hc : hartCtx s = .block s.hart.base s.hart.limit := by unfold hartCtx; rw [hm]
  rw [hc]
  simp only [translate, translateContig]
  by_cases h1 : s.hart.limit.toNat < va.toNat + n
  · rw [if_pos h1]; exact ⟨_, rfl, rfl, rfl⟩
  · rw [if_neg h1, if_pos (h.resolve_left h1)]; exact ⟨_, rfl, rfl, rfl⟩

/-- A context that is a block, or no space, leaves the state alone. -/
theorem translate_state {c : Ctx} (hc : ∀ h, c ≠ .space (some h)) (va : Word) (n : Nat) (k : AccessKind) (ck : Bool)
    (s : State) : (translate c va n k ck s).Sat (fun t => t = s) := by
  cases c with
  | block b l => exact translateContig_state
  | space h =>
    cases h with
    | none => rfl
    | some h => exact absurd rfl (hc h)

/-! ### Stored bytes -/

theorem lowBytes_length (v : Word) {n : Nat} (h : n ≤ 4) : (lowBytes v n).length = n := by
  simp [lowBytes, bytesOfWord]; omega

theorem lowBytes_getD (v : Word) {n k : Nat} (hn : n ≤ 4) (hk : k < n) :
    (lowBytes v n).getD k 0#8 = v.extractLsb' (8 * k) 8 := by
  have h4 : k = 0 ∨ k = 1 ∨ k = 2 ∨ k = 3 := by omega
  have h5 : n = 1 ∨ n = 2 ∨ n = 3 ∨ n = 4 := by omega
  rcases h5 with rfl | rfl | rfl | rfl <;> rcases h4 with rfl | rfl | rfl | rfl <;>
    first | omega | rfl

/-- What a store makes of memory. -/
theorem read_stored (s : State) (pa : Nat) (v : Word) {n : Nat} (hn : n ≤ 4) (a : Nat) :
    (s.storeBytes pa (lowBytes v n)).ram.read a =
      if pa ≤ a ∧ a < pa + n then v.extractLsb' (8 * (a - pa)) 8 else s.ram.read a := by
  rw [State.storeBytes_ram, Memory.read_writeBytes, lowBytes_length v hn]
  split
  · exact lowBytes_getD v hn (by omega)
  · rfl

/-! ### The bytes of an access -/

theorem GivenOut.congr {s t u : State} {va : Word} {a : Nat} (hr : u.ram.read a = t.ram.read a)
    (hp : u.paging = t.paging) (h : GivenOut s t va a) : GivenOut s u va a := by
  obtain ⟨h1, h2, k, b, p, h3, h4, h5, ⟨c, hc, h6⟩, h7⟩ := h
  exact ⟨h1, hr.trans h2, k, b, p, h3, h4, h5, ⟨c, by unfold State.space? at hc ⊢; rw [hp]; exact hc, h6⟩, h7⟩

/-- A fetch changes the bytes of the frame it gives out alone. -/
theorem fetch_bytes (va : Word) (s : State) :
    (fetch (hartCtx s) va s).Sat (fun t => ∀ a, t.ram.read a = s.ram.read a ∨ GivenOut s t va a) := by
  unfold fetch
  split
  · exact fun a => .inl rfl
  · split
    · trivial
    · exact (translate_bytes ..).andThen (fun _ t ht => ht)

/-- A read changes the bytes of the frame it gives out alone. -/
theorem memRead_bytes (va : Word) (n : Nat) (s : State) :
    (memRead (hartCtx s) va n s).Sat (fun t => ∀ a, t.ram.read a = s.ram.read a ∨ GivenOut s t va a) := by
  unfold memRead
  split
  · exact fun a => .inl rfl
  · split
    · have h : (uartRead (ε := MemFailure) (va.toNat - s.params.uartBase) s).Sat (fun t => t.ram = s.ram) := by
        unfold uartRead
        split
        · exact s.draw_ram
        · split
          · unfold readRx
            split
            · rfl
            · exact s.draw_ram
          · trivial
      exact (h.imp (fun t ht a => .inl (by rw [ht]))).andThen (fun _ t ht => ht)
    · split
      · trivial
      · exact (translate_bytes ..).andThen (fun _ t ht => ht)

/-- A write that ends well changes the bytes it stores and those of the frame it gives out. -/
theorem memWrite_bytes {va : Word} {n : Nat} {v : Word} {s u : State} {x : Unit} (hn : n ≤ 4)
    (h : memWrite (hartCtx s) va n v s = .ok x u) (a : Nat)
    (ha : ∀ pa w, translate (hartCtx s) va n .write true s = .ok pa w → ¬(pa ≤ a ∧ a < pa + n)) :
    u.ram.read a = s.ram.read a ∨ GivenOut s u va a := by
  unfold memWrite at h
  split at h
  · cases h
  · split at h
    · unfold uartWrite at h
      split at h
      · cases h; exact .inl rfl
      · cases h
    · split at h
      · cases h
      · have h1 := translate_bytes va n .write true s
        cases ht : Machine.translate (hartCtx s) va n .write true s with
        | ok p w =>
          rw [ht] at h h1
          cases h
          have hr : (w.storeBytes p (lowBytes v n)).ram.read a = w.ram.read a := by
            rw [read_stored _ _ _ hn, if_neg (ha p w ht)]
          rw [hr]
          exact (h1 a).imp_right (GivenOut.congr hr rfl)
        | fail e u => rw [ht] at h; cases h
        | refuse r => rw [ht] at h; cases h

theorem memWrite_fail_bytes {va : Word} {n : Nat} {v : Word} {s u : State} {f : MemFailure}
    (h : memWrite (hartCtx s) va n v s = .fail f u) (a : Nat) : u.ram.read a = s.ram.read a ∨ GivenOut s u va a := by
  unfold memWrite at h
  split at h
  · cases h; exact .inl rfl
  · split at h
    · unfold uartWrite at h
      split at h <;> cases h
    · split at h
      · cases h
      · have h1 := translate_bytes va n .write true s
        cases ht : Machine.translate (hartCtx s) va n .write true s with
        | ok p w => rw [ht] at h; cases h
        | fail e u => rw [ht] at h h1; cases h; exact h1 a
        | refuse r => rw [ht] at h; cases h

/-- A translation that fails answers for its own address. -/
theorem translate_va (c : Ctx) (va : Word) (n : Nat) (k : AccessKind) (ck : Bool) (s : State) (f : MemFailure) (t : State)
    (h : translate c va n k ck s = .fail f t) : f.va = va := by
  unfold translate at h
  split at h
  · unfold translateContig at h
    split at h
    · cases h; rfl
    · split at h
      · cases h; rfl
      · cases h
  · unfold translatePaged at h
    dsimp only at h
    split at h
    · cases h; rfl
    · split at h
      · split at h
        · cases h; rfl
        · cases h
      · split at h
        · cases h; rfl
        · split at h
          · cases h; rfl
          · generalize installPage _ _ _ _ _ s = r at h
            cases r with
            | refuse r => cases h
            | fail e u => cases h; rfl
            | ok g u =>
              simp only [Res.mapFail, Res.andThen] at h
              split at h
              · cases h; rfl
              · cases h
  · cases h; rfl

theorem memRead_va {c : Ctx} {va : Word} {n : Nat} {s t : State} {f : MemFailure} (h : memRead c va n s = .fail f t) :
    f.va = va := by
  unfold memRead at h
  split at h
  · cases h; rfl
  · split at h
    · unfold uartRead at h
      split at h
      · cases h
      · split at h <;> cases h
    · split at h
      · cases h
      · cases ht : Machine.translate c va n .read true s with
        | ok a u => rw [ht] at h; cases h
        | fail e u => rw [ht] at h; cases h; exact translate_va _ _ _ _ _ _ _ _ ht
        | refuse r => rw [ht] at h; cases h

theorem memWrite_va {c : Ctx} {va : Word} {n : Nat} {v : Word} {s t : State} {f : MemFailure}
    (h : memWrite c va n v s = .fail f t) : f.va = va := by
  unfold memWrite at h
  split at h
  · cases h; rfl
  · split at h
    · unfold uartWrite at h
      split at h <;> cases h
    · split at h
      · cases h
      · cases ht : Machine.translate c va n .write true s with
        | ok a u => rw [ht] at h; cases h
        | fail e u => rw [ht] at h; cases h; exact translate_va _ _ _ _ _ _ _ _ ht
        | refuse r => rw [ht] at h; cases h

/-! ### What an access of a resident page changes in the page tables -/

/-- `Touched` speaks of the paging structures alone. -/
theorem Touched.congr {s t u : State} {h : Nat} {va : Word} {w : Bool} (k : Touched s t h va w) (e : u.paging = t.paging) :
    Touched s u h va w := by
  unfold Touched State.tableAt State.space? at k ⊢
  rw [e]; exact k

/-- The access of a resident page. -/
theorem touch_touched {s : State} {h : Nat} {va : Word} {p : Pte} (hr : Resident s h va p) (k : AccessKind) :
    Touched s (touch h (vpnOf va) k s) h va (decide (k = .write)) := by
  obtain ⟨a, ha, hp, -⟩ := hr
  have hdir : assocGet a.directory (l1Index (vpnOf va)) ≠ none := fun hn => by
    unfold AddrSpace.pte? at hp; rw [hn] at hp; cases hp
  have ht : touch h (vpnOf va) k s = onAccess p.ppn (s.modSpace h (fun a =>
      { a.setPte (vpnOf va) { p with accessed := true, dirty := p.dirty || decide (k = .write) } with
        counters := assocSet (a.setPte (vpnOf va) { p with accessed := true, dirty := p.dirty || decide (k = .write) }).counters
          (vpnOf va) (((assocGet a.counters (vpnOf va)).getD { count := 0, dirty := false }).bump (decide (k = .write))) })) := by
    unfold touch; rw [ha]; simp only [Option.bind_some, hp]
  have hb : (touch h (vpnOf va) k s).space? h = some
      { a.setPte (vpnOf va) { p with accessed := true, dirty := p.dirty || decide (k = .write) } with
        counters := assocSet a.counters (vpnOf va)
          (((assocGet a.counters (vpnOf va)).getD { count := 0, dirty := false }).bump (decide (k = .write))) } := by
    rw [ht, onAccess_spaces, State.space?_modSpace, if_pos rfl, ha]; rfl
  refine ⟨fun g hg => touch_other h g _ k s hg, a, _, ha, hb, rfl, rfl, fun l => ?_, fun v => ?_, fun v hv => ?_, fun c hc => ?_⟩
  · unfold State.tableAt
    rw [hb, ha]
    simp only [Option.bind_some, AddrSpace.setPte, assocGet_modify]
    split
    · cases assocGet a.directory l <;> rfl
    · rfl
  · show (a.setPte _ _).pte? v = _
    split
    · rename_i hv
      rw [hv, AddrSpace.pte?_setPte _ _ _ hdir, hp]; rfl
    · rename_i hv
      exact AddrSpace.pte?_setPte_ne _ _ hv
  · exact (assocGet_set ..).trans (if_neg hv)
  · refine (assocGet_set ..).trans ((if_pos rfl).trans ?_)
    rw [hc]; rfl

end Sys2Proof.Machine
end

