-- ==== Sys2Proof/Laws/Kernel.lean ====
section
/-! SUPPORT. What a syscall, the maintenance agent, the host and task creation can do to a state, said once: `Evolves` holds of
every transition of the machine, `KernelStep` of those that leave the harts alone. -/

namespace Sys2Proof.Machine

/-- x0's cell of every saved register file holds 0. -/
def State.zeroSaved (s : State) : Prop := ∀ e ∈ s.kernel.tasks, e.2.regs[0] = 0#32

/-- What every transition of the machine keeps. -/
structure Evolves (s t : State) : Prop where
  params : t.params = s.params
  frames : t.paging.frames.length = s.paging.frames.length
  wf : s.ram.wf = true → t.ram.wf = true
  stdout : s.io.stdout <+: t.io.stdout
  hostLog : s.io.hostLog <+: t.io.hostLog
  stderr : s.io.stderr <+: t.io.stderr
  clock : s.io.clock ≤ t.io.clock
  lock : s.sched.lock = none → t.sched.lock = none
  pids : s.kernel.pidCounter ≤ t.kernel.pidCounter
  given : s.pidsGiven → t.pidsGiven
  zero : s.zeroSaved → t.zeroSaved
  gone : ∀ pid, pid < s.kernel.pidCounter → s.task? pid = none → t.task? pid = none
  ended : ∀ pid k k', pid < s.kernel.pidCounter → s.task? pid = some k → k.state = .terminated → t.task? pid = some k' →
    k'.state = .terminated
  blocks : s.blocksTidy → t.blocksTidy
  tidy : s.tidy → t.tidy
  pages : s.framesTidy → t.framesTidy
  contexts : s.contexts → t.contexts

/-- What a transition that leaves the harts alone keeps; base and limit of a hart may follow its block. -/
structure KernelStep (s t : State) : Prop extends Evolves s t where
  hart : t.hart.plain s.params = s.hart.plain s.params
  others : t.others.map (Hart.plain s.params) = s.others.map (Hart.plain s.params)
  owners : ∀ pid k, pid < s.kernel.pidCounter → s.task? pid = some k → k.activeHartId ≠ none →
    ∃ k', t.task? pid = some k' ∧ k'.activeHartId = k.activeHartId

theorem Evolves.refl (s : State) : Evolves s s :=
  ⟨rfl, rfl, id, List.prefix_refl _, List.prefix_refl _, List.prefix_refl _, Nat.le_refl _, id, Nat.le_refl _, id, id,
   fun _ _ => id, fun _ k k' _ h1 h2 h3 => by rw [h1] at h3; cases h3; exact h2, id, id, id, id⟩

theorem Evolves.trans {s t u : State} (h : Evolves s t) (k : Evolves t u) : Evolves s u :=
  ⟨k.params.trans h.params, k.frames.trans h.frames, fun w => k.wf (h.wf w), h.stdout.trans k.stdout,
   h.hostLog.trans k.hostLog, h.stderr.trans k.stderr, Nat.le_trans h.clock k.clock, fun l => k.lock (h.lock l),
   Nat.le_trans h.pids k.pids, fun g => k.given (h.given g), fun z => k.zero (h.zero z),
   fun pid hp hn => k.gone pid (Nat.lt_of_lt_of_le hp h.pids) (h.gone pid hp hn),
   fun pid a c hp ha hs hc => by
     cases hb : t.task? pid with
     | none => rw [k.gone pid (Nat.lt_of_lt_of_le hp h.pids) hb] at hc; cases hc
     | some b => exact k.ended pid b c (Nat.lt_of_lt_of_le hp h.pids) hb (h.ended pid a b hp ha hs hb) hc,
   fun b => k.blocks (h.blocks b), fun y => k.tidy (h.tidy y), fun p => k.pages (h.pages p),
   fun c => k.contexts (h.contexts c)⟩

theorem KernelStep.refl (s : State) : KernelStep s s :=
  ⟨.refl s, rfl, rfl, fun _ k _ h _ => ⟨k, h, rfl⟩⟩

theorem KernelStep.trans {s t u : State} (h : KernelStep s t) (k : KernelStep t u) : KernelStep s u :=
  ⟨h.toEvolves.trans k.toEvolves,
   (by rw [← h.params]; exact k.hart : u.hart.plain s.params = t.hart.plain s.params).trans h.hart,
   (by rw [← h.params]; exact k.others : u.others.map (Hart.plain s.params) = t.others.map (Hart.plain s.params)).trans h.others,
   fun pid a hp ha hn => by
    obtain ⟨b, hb, hba⟩ := h.owners pid a hp ha hn
    obtain ⟨c, hc, hcb⟩ := k.owners pid b (Nat.lt_of_lt_of_le hp h.pids) hb (by rw [hba]; exact hn)
    exact ⟨c, hc, hcb.trans hba⟩⟩

/-- The kernel's lists depend on nothing but the task table, the PID counter and the scheduler. -/
theorem State.tidy_of {s t : State} (ht : t.kernel.tasks = s.kernel.tasks) (hn : s.kernel.pidCounter ≤ t.kernel.pidCounter)
    (hs : t.sched = s.sched) (h : s.tidy) : t.tidy := by
  unfold State.tidy State.pidsGiven at h ⊢
  rw [ht, hs]
  obtain ⟨h1, h2, h3, h4, h5⟩ := h
  exact ⟨fun e he => Nat.lt_of_lt_of_le (h1 e he) hn, h2, h3, fun p hp => Nat.lt_of_lt_of_le (h4 p hp) hn, h5⟩

/-- A change that leaves the task table alone. -/
theorem KernelStep.ofTasks {s t : State} (hp : t.params = s.params)
    (hf : t.paging.frames.length = s.paging.frames.length) (hw : s.ram.wf = true → t.ram.wf = true)
    (ho : s.io.stdout <+: t.io.stdout) (hl : s.io.hostLog <+: t.io.hostLog) (he : s.io.stderr <+: t.io.stderr)
    (hc : s.io.clock ≤ t.io.clock) (hk : s.sched.lock = none → t.sched.lock = none)
    (ht : t.kernel.tasks = s.kernel.tasks) (hn : s.kernel.pidCounter ≤ t.kernel.pidCounter)
    (hh : t.hart.plain s.params = s.hart.plain s.params)
    (hr : t.others.map (Hart.plain s.params) = s.others.map (Hart.plain s.params)) (hb : s.blocksTidy → t.blocksTidy)
    (hy : s.tidy → t.tidy) (hg : s.framesTidy → t.framesTidy) (hx : s.contexts → t.contexts) : KernelStep s t := by
  have h? : ∀ pid, t.task? pid = s.task? pid := fun pid => by unfold State.task?; rw [ht]
  refine ⟨⟨hp, hf, hw, ho, hl, he, hc, hk, hn, ?_, ?_, ?_, ?_, hb, hy, hg, hx⟩, hh, hr, ?_⟩
  · intro g e h
    rw [ht] at h
    exact Nat.lt_of_lt_of_le (g e h) hn
  · intro z e h
    rw [ht] at h
    exact z e h
  · intro pid _ h
    rw [h?, h]
  · intro pid k k' _ h1 h2 h3
    rw [h?, h1] at h3
    cases h3
    exact h2
  · intro pid k _ h1 _
    exact ⟨k, by rw [h?, h1], rfl⟩

/-- A change of the kernel's other registers, of the host's streams and of the model's draws. -/
theorem KernelStep.aside {s : State} {k : Kernel} {io : HostIo} {ch : Chance} (ht : k.tasks = s.kernel.tasks := by rfl)
    (hn : s.kernel.pidCounter ≤ k.pidCounter := by exact Nat.le_refl _)
    (hx : s.kernel.nextSpace ≤ k.nextSpace := by exact Nat.le_refl _)
    (ho : s.io.stdout <+: io.stdout := by exact List.prefix_refl _)
    (hl : s.io.hostLog <+: io.hostLog := by exact List.prefix_refl _)
    (he : s.io.stderr <+: io.stderr := by exact List.prefix_refl _)
    (hc : s.io.clock ≤ io.clock := by exact Nat.le_refl _) : KernelStep s { s with kernel := k, io := io, chance := ch } :=
  .ofTasks rfl rfl id ho hl he hc id ht hn rfl rfl (State.blocksTidy_of rfl rfl hx) (State.tidy_of ht hn rfl)
    (framesTidy_congr rfl hx) (State.contexts_of rfl rfl rfl ht hx rfl)

theorem AccessStep.kernelStep {s t : State} (h : AccessStep s t) : KernelStep s t :=
  .ofTasks h.params h.frames h.wf h.stdout (by rw [h.hostLog]) (by rw [h.stderr]) (by rw [h.clock])
    (by rw [h.sched]; exact id) (by rw [h.kernel]) (by rw [h.kernel]) (by rw [h.hart]) (by rw [h.others])
    (State.blocksTidy_of h.params h.contig (by rw [h.kernel]))
    (State.tidy_of (by rw [h.kernel]) (by rw [h.kernel]) h.sched) h.pages
    (State.contexts_of h.params h.hart h.others (by rw [h.kernel]) (by rw [h.kernel]) h.contig)

theorem LoaderStep.kernelStep {s t : State} (h : LoaderStep s t) : KernelStep s t :=
  .ofTasks h.params h.frames h.wf (by rw [h.io]) (by rw [h.io]) (by rw [h.io]) (by rw [h.io])
    (by rw [h.sched]; exact id) (by rw [h.kernel]) (by rw [h.kernel]) h.hart h.others h.blocks
    (State.tidy_of (by rw [h.kernel]) (by rw [h.kernel]) h.sched) h.pages h.contexts

/-- A change of the scheduler that keeps a free lock free, and of the wait queues. -/
theorem KernelStep.ofSched {s : State} {sc : Sched} {w : WaitQueues} (h : s.sched.lock = none → sc.lock = none)
    (hy : s.tidy → State.tidy { s with sched := sc, waits := w }) : KernelStep s { s with sched := sc, waits := w } :=
  .ofTasks rfl rfl id (List.prefix_refl _) (List.prefix_refl _) (List.prefix_refl _) (Nat.le_refl _) h rfl (Nat.le_refl _)
    rfl rfl id hy (framesTidy_congr rfl (Nat.le_refl _)) id

/-- A change of the wait queues. -/
theorem KernelStep.ofWaits {s : State} {w : WaitQueues} : KernelStep s { s with waits := w } :=
  .ofSched (sc := s.sched) id id

theorem KernelStep.setPanic (s : State) (r : PanicReason) : KernelStep s (s.setPanic r) := .aside

theorem KernelStep.logLine (s : State) : KernelStep s s.logLine := .aside (he := List.prefix_append _ _)

theorem State.task?_modTask (s : State) (p q : Nat) (f : Task → Task) :
    (s.modTask p f).task? q = if q = p then (s.task? q).map f else s.task? q := assocGet_modify ..

theorem State.task?_putTask (s : State) (t : Task) (q : Nat) :
    (s.putTask t).task? q = if q = t.pid then some t else s.task? q := assocGet_set ..

theorem State.task?_dropTask (s : State) (p q : Nat) :
    (s.dropTask p).task? q = if q = p then none else s.task? q := assocGet_erase ..

/-- A change of a record that leaves its PID and its parent, and gives it no new children. -/
def KeepsKin (f : Task → Task) : Prop :=
  ∀ k : Task, (f k).pid = k.pid ∧ (f k).parent = k.parent ∧ ∀ c ∈ (f k).children, c ∈ k.children

/-- A change of a record that leaves its PID, its parent, its children and its memory. -/
def KeepsPlace (f : Task → Task) : Prop :=
  ∀ k : Task, (f k).pid = k.pid ∧ (f k).parent = k.parent ∧ (f k).children = k.children ∧ (f k).space = k.space

theorem KeepsPlace.kin {f : Task → Task} (h : KeepsPlace f) : KeepsKin f :=
  fun k => ⟨(h k).1, (h k).2.1, fun _ hc => by rw [← (h k).2.2.1]; exact hc⟩

theorem Task.goTo_place (t : Task) (st : TaskState) (w : WaitReason) :
    (t.goTo st w).pid = t.pid ∧ (t.goTo st w).parent = t.parent ∧ (t.goTo st w).children = t.children ∧
      (t.goTo st w).space = t.space := by
  unfold Task.goTo; split <;> exact ⟨rfl, rfl, rfl, rfl⟩

/-- The contexts after a change of one record that gives it no handle yet to be given out. -/
theorem State.contexts_modTask {s : State} {p : Nat} {f : Task → Task} (h : s.contexts)
    (hf : ∀ k : Task, k.space < s.kernel.nextSpace → (f k).space < s.kernel.nextSpace) : (s.modTask p f).contexts := by
  refine ⟨fun e he => ?_, h.2⟩
  obtain ⟨d, hd, rfl⟩ := List.mem_map.1 he
  have := h.1 d hd
  split
  · exact hf _ this
  · exact this

theorem State.tidy_modTask {s : State} {p : Nat} {f : Task → Task} (h : s.tidy)
    (hf : ∀ k : Task, p < s.kernel.pidCounter → (f k).pid = k.pid ∧ (f k).parent = k.parent ∧
      ∀ c ∈ (f k).children, c ∈ k.children ∨ p < c) : (s.modTask p f).tidy := by
  obtain ⟨h1, h2, h3, h4, h5⟩ := h
  refine ⟨?_, h2, h3, h4, ?_⟩
  · intro e he
    obtain ⟨d, hd, rfl⟩ := List.mem_map.1 he
    have := h1 d hd
    split <;> exact this
  · intro e he
    obtain ⟨d, hd, rfl⟩ := List.mem_map.1 he
    obtain ⟨k1, k2, k3⟩ := h5 d hd
    split
    · rename_i hp
      obtain ⟨f1, f2, f3⟩ := hf d.2 (hp ▸ h1 d hd)
      refine ⟨f1.trans k1, fun q hq => k2 q (by rw [← f2]; exact hq), fun c hc => ?_⟩
      rcases f3 c hc with hc | hc
      · exact k3 c hc
      · rw [hp]; exact hc
    · exact ⟨k1, k2, k3⟩

/-- A change of task records that keeps saved x0, a TERMINATED state and the record's place. -/
theorem Evolves.modTask (s : State) (p : Nat) (f : Task → Task) (hz : ∀ k : Task, k.regs[0] = 0#32 → (f k).regs[0] = 0#32)
    (he : ∀ k : Task, k.state = .terminated → (f k).state = .terminated) (hy : s.tidy → (s.modTask p f).tidy)
    (hx : s.contexts → (s.modTask p f).contexts) : Evolves s (s.modTask p f) := by
  refine ⟨rfl, rfl, id, List.prefix_refl _, List.prefix_refl _, List.prefix_refl _, Nat.le_refl _, id, Nat.le_refl _,
    ?_, ?_, ?_, ?_, id, hy, framesTidy_congr rfl (Nat.le_refl _), hx⟩
  · intro g e h
    obtain ⟨d, hd, rfl⟩ := List.mem_map.1 h
    have := g d hd
    split <;> exact this
  · intro z e h
    obtain ⟨d, hd, rfl⟩ := List.mem_map.1 h
    have := z d hd
    split
    · exact hz _ this
    · exact this
  · intro pid _ h
    rw [State.task?_modTask, h]
    split <;> rfl
  · intro pid k k' _ h1 h2 h3
    rw [State.task?_modTask, h1] at h3
    split at h3
    · cases h3; exact he k h2
    · cases h3; exact h2

theorem KernelStep.modRecord (s : State) (p : Nat) (f : Task → Task)
    (hz : ∀ k : Task, k.regs[0] = 0#32 → (f k).regs[0] = 0#32)
    (he : ∀ k : Task, k.state = .terminated → (f k).state = .terminated)
    (ha : ∀ k : Task, (f k).activeHartId = k.activeHartId)
    (hy : KeepsKin f) (hx : s.contexts → (s.modTask p f).contexts) : KernelStep s (s.modTask p f) := by
  refine ⟨.modTask s p f hz he (fun h => State.tidy_modTask h (fun k _ => ⟨(hy k).1, (hy k).2.1, fun c hc =>
    .inl ((hy k).2.2 c hc)⟩)) hx, rfl, rfl, ?_⟩
  intro pid k _ h _
  rw [State.task?_modTask, h]
  split
  · exact ⟨f k, rfl, ha k⟩
  · exact ⟨k, rfl, rfl⟩

theorem KernelStep.modTask (s : State) (p : Nat) (f : Task → Task)
    (hz : ∀ k : Task, k.regs[0] = 0#32 → (f k).regs[0] = 0#32)
    (he : ∀ k : Task, k.state = .terminated → (f k).state = .terminated)
    (ha : ∀ k : Task, (f k).activeHartId = k.activeHartId)
    (hy : KeepsPlace f) : KernelStep s (s.modTask p f) :=
  .modRecord s p f hz he ha hy.kin (fun h => State.contexts_modTask h (fun k hk => by rw [(hy k).2.2.2]; exact hk))

/-- A record gets a new child, whose PID was not yet given out. -/
theorem KernelStep.newChild {s u : State} (h : KernelStep s u) (p : Nat) {c : Nat} (hc : s.kernel.pidCounter ≤ c)
    (ht : u.kernel.tasks = s.kernel.tasks) :
    KernelStep s (u.modTask p (fun k => { k with children := k.children ++ [c] })) := by
  have hq : ∀ q, (u.modTask p (fun k => { k with children := k.children ++ [c] })).task? q = if q = p then
      (u.task? q).map (fun k => { k with children := k.children ++ [c] }) else u.task? q := fun q => State.task?_modTask ..
  refine ⟨⟨h.params, h.frames, h.wf, h.stdout, h.hostLog, h.stderr, h.clock, h.lock, h.pids, fun g e he => ?_,
    fun z e he => ?_, fun pid hp hn => ?_, fun pid k k' hp h1 h2 h3 => ?_, h.blocks, fun y => ?_,
    fun x => framesTidy_congr rfl (Nat.le_refl _) (h.pages x),
    fun x => State.contexts_modTask (h.contexts x) (fun _ hk => hk)⟩, h.hart, h.others, fun pid k hp h1 h2 => ?_⟩
  · obtain ⟨d, hd, rfl⟩ := List.mem_map.1 he
    have := h.given g d hd
    split <;> exact this
  · obtain ⟨d, hd, rfl⟩ := List.mem_map.1 he
    have := h.zero z d hd
    split <;> exact this
  · rw [hq, h.gone pid hp hn]; split <;> rfl
  · rw [hq] at h3
    split at h3
    · obtain ⟨k0, hk0, rfl⟩ := Option.map_eq_some_iff.1 h3
      exact h.ended pid k k0 hp h1 h2 hk0
    · exact h.ended pid k k' hp h1 h2 h3
  · obtain ⟨y1, y2, y3, y4, y5⟩ := h.tidy y
    refine ⟨fun e he => ?_, y2, y3, y4, fun e he => ?_⟩
    · obtain ⟨d, hd, rfl⟩ := List.mem_map.1 he
      have := y1 d hd
      split <;> exact this
    · obtain ⟨d, hd, rfl⟩ := List.mem_map.1 he
      obtain ⟨k1, k2, k3⟩ := y5 d hd
      have hlt := y.1 d (ht ▸ hd)
      split
      · refine ⟨k1, k2, fun x hx => ?_⟩
        rcases List.mem_append.1 hx with hx | hx
        · exact k3 x hx
        · rw [List.mem_singleton] at hx; subst hx; exact Nat.lt_of_lt_of_le hlt hc
      · exact ⟨k1, k2, k3⟩
  · obtain ⟨k', hk', ha⟩ := h.owners pid k hp h1 h2
    rw [hq, hk']
    split
    · exact ⟨_, rfl, ha⟩
    · exact ⟨k', rfl, ha⟩

/-- A record under a PID that was not yet given out. -/
theorem KernelStep.putNew {s u : State} {t : Task} (h : KernelStep s u)
    (hc : s.kernel.pidCounter < u.kernel.pidCounter) (hp : t.pid = s.kernel.pidCounter)
    (hz : s.zeroSaved → t.regs[0] = 0#32)
    (hy : s.tidy → (∀ q, t.parent = some q → q < t.pid) ∧ ∀ c ∈ t.children, t.pid < c)
    (hx : t.space < u.kernel.nextSpace) : KernelStep s (u.putTask t) := by
  have hq : ∀ pid, pid < s.kernel.pidCounter → (u.putTask t).task? pid = u.task? pid := fun pid hlt => by
    rw [State.task?_putTask, if_neg (by omega)]
  refine ⟨⟨h.params, h.frames, h.wf, h.stdout, h.hostLog, h.stderr, h.clock, h.lock, h.pids, ?_, ?_, ?_, ?_,
    h.blocks, ?_, fun x => framesTidy_congr rfl (Nat.le_refl _) (h.pages x), fun x => ⟨fun e he => ?_, (h.contexts x).2⟩⟩,
    h.hart, h.others, ?_⟩
  · intro g e he
    rcases mem_assocSet he with he | he
    · subst he; exact hp ▸ hc
    · exact h.given g e he
  · intro z e he
    rcases mem_assocSet he with he | he
    · subst he; exact hz z
    · exact h.zero z e he
  · intro pid hlt hn
    rw [hq pid hlt]; exact h.gone pid hlt hn
  · intro pid k k' hlt h1 h2 h3
    rw [hq pid hlt] at h3; exact h.ended pid k k' hlt h1 h2 h3
  · intro y
    obtain ⟨h1, h2, h3, h4, h5⟩ := h.tidy y
    refine ⟨fun e he => ?_, h2, h3, h4, fun e he => ?_⟩
    · rcases mem_assocSet he with rfl | he
      · exact hp ▸ hc
      · exact h1 e he
    · rcases mem_assocSet he with rfl | he
      · exact ⟨rfl, hy y⟩
      · exact h5 e he
  · rcases mem_assocSet he with rfl | he
    · exact hx
    · exact (h.contexts x).1 e he
  · intro pid k hlt h1 h2
    rw [hq pid hlt]; exact h.owners pid k hlt h1 h2

/-- A record removed that no hart holds. -/
theorem KernelStep.dropTask (s : State) (p : Nat) (h : ∀ k, s.task? p = some k → k.activeHartId = none) :
    KernelStep s (s.dropTask p) := by
  refine ⟨⟨rfl, rfl, id, List.prefix_refl _, List.prefix_refl _, List.prefix_refl _, Nat.le_refl _, id, Nat.le_refl _,
    fun g e he => g e (List.mem_filter.1 he).1, fun z e he => z e (List.mem_filter.1 he).1, ?_, ?_, id,
    fun ⟨h1, h2, h3, h4, h5⟩ => ⟨fun e he => h1 e (List.mem_filter.1 he).1, h2, h3, h4,
      fun e he => h5 e (List.mem_filter.1 he).1⟩, framesTidy_congr rfl (Nat.le_refl _),
    fun x => ⟨fun e he => x.1 e (List.mem_filter.1 he).1, x.2⟩⟩, rfl, rfl, ?_⟩
  · intro pid _ hn
    rw [State.task?_dropTask, hn]; split <;> rfl
  · intro pid k k' _ h1 h2 h3
    rw [State.task?_dropTask, h1] at h3
    split at h3
    · cases h3
    · cases h3; exact h2
  · intro pid k _ h1 h2
    rw [State.task?_dropTask]
    by_cases hq : pid = p
    · subst hq; exact absurd (h k h1) h2
    · rw [if_neg hq]; exact ⟨k, h1, rfl⟩

/-! ### Changes of a record -/

theorem Task.goTo_regs (t : Task) (st : TaskState) (w : WaitReason) : (t.goTo st w).regs = t.regs := by
  unfold Task.goTo; split <;> rfl

theorem Task.goTo_pc (t : Task) (st : TaskState) (w : WaitReason) : (t.goTo st w).pc = t.pc := by
  unfold Task.goTo; split <;> rfl

theorem Task.goTo_owner (t : Task) (st : TaskState) (w : WaitReason) : (t.goTo st w).activeHartId = t.activeHartId := by
  unfold Task.goTo; split <;> rfl

theorem Task.goTo_ended (t : Task) (st : TaskState) (w : WaitReason) (h : t.state = .terminated) :
    (t.goTo st w).state = .terminated := by
  unfold Task.goTo; rw [if_pos h]; exact h

theorem Task.setReg_zero {t : Task} (r : RegIdx) (v : Word) (hr : r ≠ 0#5) (h : t.regs[0] = 0#32) :
    (t.setReg r v).regs[0] = 0#32 := by
  have hn : r.toNat ≠ 0 := fun e => hr (BitVec.eq_of_toNat_eq (by simpa using e))
  simp [Task.setReg, hn, h]

theorem KernelStep.setRet (pid : Nat) (v : Word) (s : State) : KernelStep s (setRet pid v s) :=
  .modTask s pid _ (fun _ h => Task.setReg_zero a0 v (by decide) h) (fun _ h => h) (fun _ => rfl)
    (fun _ => ⟨rfl, rfl, rfl, rfl⟩)

theorem KernelStep.woken (s : State) (pid : Nat) : KernelStep s (s.modTask pid Task.woken) :=
  .modTask s pid _ (fun k h => by unfold Task.woken; rw [Task.goTo_regs]; exact h) (fun k h => Task.goTo_ended k _ _ h)
    (fun k => Task.goTo_owner k _ _) (fun k => Task.goTo_place k _ _)

/-! ### Scheduler -/

theorem KernelStep.withLock (who : Holder) (op : State → State) (s : State) (h : KernelStep s (op s)) :
    KernelStep s (withLock who op s) := by
  unfold Machine.withLock
  split
  · exact h
  · split
    · exact .setPanic ..
    · exact .refl s

theorem KernelStep.addTask (who : Holder) (pid : Nat) (s : State) : KernelStep s (addTask who pid s) := by
  refine .withLock who _ s ?_
  unfold enqueue
  split
  · exact .refl s
  · rename_i hc
    refine .ofSched (w := s.waits) id (fun ⟨h1, h2, h3, h4, h5⟩ => ?_)
    simp only [Bool.or_eq_true, List.contains_iff_mem, Bool.not_eq_true', not_or, Bool.not_eq_false] at hc
    have hlt : pid < s.kernel.pidCounter := by
      have h6 := hc.2
      unfold State.taskIs at h6
      split at h6
      · rename_i t ht; exact h1 (pid, t) (mem_of_assocGet ht)
      · cases h6
    refine ⟨h1, ?_, fun p => ?_, fun p hp => ?_, h5⟩
    · exact h2.append (List.nodup_singleton _) (fun p hp hq => by
        rw [List.mem_singleton] at hq; subst hq; exact hc.1 ((h3 p).1 hp))
    · show p ∈ s.sched.ready ++ [pid] ↔ p ∈ s.sched.members ++ [pid]
      rw [List.mem_append, List.mem_append, h3]
    · rcases List.mem_append.1 hp with hp | hp
      · exact h4 p hp
      · rw [List.mem_singleton] at hp; subst hp; exact hlt

theorem KernelStep.removeTask (who : Holder) (pid : Nat) (s : State) : KernelStep s (removeTask who pid s) :=
  .withLock who _ s (.ofSched (w := s.waits) id (fun ⟨h1, h2, h3, h4, h5⟩ => ⟨h1, h2.filter _, fun p => by
    show p ∈ s.sched.ready.filter _ ↔ p ∈ s.sched.members.filter _
    rw [List.mem_filter, List.mem_filter, h3], fun p hp => h4 p (List.mem_filter.1 hp).1, h5⟩))

theorem KernelStep.schedule (who : Holder) (s : State) : KernelStep s (schedule who s).2 := by
  unfold Machine.schedule
  split
  · split
    · rename_i pid _
      refine .ofSched (w := s.waits) id (fun ⟨h1, h2, h3, h4, h5⟩ => ⟨h1, h2.erase _, fun p => ?_,
        fun p hp => h4 p (List.mem_filter.1 hp).1, h5⟩)
      show p ∈ s.sched.ready.erase pid ↔ p ∈ s.sched.members.filter _
      rw [h2.mem_erase_iff, List.mem_filter, h3]
      simp [and_comm]
    · exact .refl s
  · dsimp only
    split
    · exact .setPanic ..
    · exact .refl s

theorem KernelStep.unqueue (pid : Nat) (s : State) : KernelStep s (unqueue pid s) := .ofWaits

theorem KernelStep.wakeParentOf (who : Holder) (c : Nat) (s : State) : KernelStep s (wakeParentOf who c s) := by
  unfold Machine.wakeParentOf
  split
  · exact .refl s
  · split
    · exact .refl s
    · split
      · dsimp only
        split
        · exact (KernelStep.ofWaits.trans (.woken ..)).trans (.addTask ..)
        · exact KernelStep.ofWaits.trans (.woken ..)
      · exact .refl s

theorem KernelStep.enterQueue (pid : Nat) (t : Task) (s : State) : KernelStep s (enterQueue pid t s) := by
  unfold Machine.enterQueue
  split
  · exact .ofWaits
  · exact .ofWaits
  · split <;> exact .ofWaits
  · exact .refl s
  · exact .refl s

theorem KernelStep.dispatchTask (who : Holder) (pid : Nat) (s : State) : KernelStep s (dispatchTask who pid s) := by
  unfold Machine.dispatchTask
  split
  · exact .refl s
  · split
    · exact .addTask ..
    · exact .enterQueue ..
    · exact .wakeParentOf ..
    · exact .refl s

/-! ### Task creation -/

theorem drawRegs_zero (l : List Nat) (v : Vector Word 32) (s : State) (hl : 0 ∉ l) (h : v[0] = 0#32) :
    (drawRegs l v s).1[0] = 0#32 := by
  induction l generalizing v s with
  | nil => exact h
  | cons i l ih =>
    have hi : i ≠ 0 := fun e => hl (by rw [e]; exact List.mem_cons_self)
    refine ih _ _ (fun hm => hl (List.mem_cons_of_mem _ hm)) ?_
    rw [Vector.getElem_setIfInBounds, if_neg hi]; exact h

theorem Res.Sat.kernel {ε α : Type} {s t : State} {x : Res ε α} (h : KernelStep s t) (hx : x.Sat (LoaderStep t)) :
    x.Sat (KernelStep s) := hx.imp (fun _ hu => h.trans hu.kernelStep)

/-- The PID counter moves on. -/
theorem KernelStep.nextPid (s : State) :
    KernelStep s { s with kernel := { s.kernel with pidCounter := s.kernel.pidCounter + 1 } } :=
  .aside (hn := Nat.le_succ _)

theorem KernelStep.createTask (who : Holder) (name buf : List Byte) (s : State) :
    (createTask who name buf s).Sat (KernelStep s) := by
  unfold Machine.createTask
  dsimp only
  have hn := KernelStep.nextPid s
  have hto : ∀ u, LoaderStep { s with kernel := { s.kernel with pidCounter := s.kernel.pidCounter + 1 } } u →
      KernelStep s u := fun u hu => hn.trans hu.kernelStep
  have hfresh := loadImage_handle buf s.kernel.pidCounter
    { s with kernel := { s.kernel with pidCounter := s.kernel.pidCounter + 1 } }
  have hload := LoaderStep.loadImage buf s.kernel.pidCounter
    { s with kernel := { s.kernel with pidCounter := s.kernel.pidCounter + 1 } }
  cases hi : loadImage buf s.kernel.pidCounter { s with kernel := { s.kernel with pidCounter := s.kernel.pidCounter + 1 } } with
  | refuse r => trivial
  | fail e s1 => rw [hi] at hload; exact hto _ hload
  | ok img s1 =>
    rw [hi] at hload hfresh
    have h0 : LoaderStep { s with kernel := { s.kernel with pidCounter := s.kernel.pidCounter + 1 } } s1 := hload
    have hst : (mapStack img.1 s1).Sat (fun u =>
        LoaderStep { s with kernel := { s.kernel with pidCounter := s.kernel.pidCounter + 1 } } u ∧
          s1.kernel.nextSpace ≤ u.kernel.nextSpace) :=
      (LoaderStep.mapStack img.1 s1).imp (fun u hu => ⟨h0.trans hu, hu.handles⟩)
    change ((mapStack img.1 s1).andThen _).Sat _
    refine Res.Sat.andThen' hst (fun u hu => hto u hu.1) (fun _ s2 h2 => ?_)
    have h3 := AccessStep.drawRegs drawnRegs (Vector.replicate 32 0#32) s2
    refine KernelStep.trans (KernelStep.putNew ((hto _ h2.1).trans h3.kernelStep) ?_ rfl ?_
      (fun _ => ⟨fun _ h => (by cases h), fun _ h => (by cases h)⟩) ?_) (.addTask ..)
    · rw [h3.kernel, h2.1.kernel]; exact Nat.lt_succ_self _
    · intro _
      rw [Vector.getElem_set, if_neg (by decide)]
      exact drawRegs_zero _ _ _ (by decide) (by simp)
    · rw [h3.kernel]; exact Nat.lt_of_lt_of_le hfresh h2.2

/-! ### Syscalls -/

/-- A property of the state a syscall or an instruction ends in. -/
def NextSat (P : State → Prop) (o : Host.Outcome State Fault Refusal) : Prop := ∀ t, o = .next t → P t

theorem NextSat.next {P : State → Prop} {t : State} (h : P t) : NextSat P (.next t) := fun u hu => by cases hu; exact h

theorem NextSat.refused {P : State → Prop} {r : Refusal} : NextSat P (.refused r) := fun u hu => by cases hu

theorem NextSat.fault {P : State → Prop} {r : Fault} : NextSat P (.fault r) := fun u hu => by cases hu

theorem KernelStep.sysRead (pid : Nat) (t : Task) (s : State) : NextSat (KernelStep s) (sysRead pid t s) := by
  unfold Machine.sysRead
  split
  · exact .next (.setRet ..)
  · split
    · exact .next (.modTask s pid _ (fun k h => by simpa [Task.rewind, Task.goTo_regs] using h)
        (fun k h => Task.goTo_ended k _ _ h) (fun k => Task.goTo_owner k _ _) (fun k => Task.goTo_place k _ _))
    · have h1 := (AccessStep.readRx s).trans (t := (readRx s).2) (.refl _)
      have h2 := AccessStep.memWrite (hartCtx (readRx s).2) (t.reg a1) 1 ((readRx s).1.setWidth 32) (readRx s).2
      dsimp only
      split
      · rename_i h; rw [h] at h2; exact .next ((h1.trans h2).kernelStep.trans (.setRet ..))
      · rename_i h; rw [h] at h2; exact .next ((h1.trans h2).kernelStep.trans (.setRet ..))
      · exact .refused

theorem KernelStep.writeLoop (pid : Nat) (buf : Word) (n k : Nat) (s : State) :
    NextSat (KernelStep s) (writeLoop pid buf n k s) := by
  induction n generalizing k s with
  | zero => exact .next (.setRet ..)
  | succ n ih =>
    unfold Machine.writeLoop
    have h1 := AccessStep.memRead (hartCtx s) (buf + BitVec.ofNat 32 k) 1 s
    split
    · rename_i h; rw [h] at h1; exact .next (KernelStep.trans (AccessStep.kernelStep h1) (.setRet ..))
    · exact .refused
    · rename_i h
      rw [h] at h1
      split
      · exact .next (KernelStep.trans (AccessStep.kernelStep h1) (.setRet ..))
      · intro u hu
        exact (AccessStep.trans h1 (.emit ..)).kernelStep.trans (ih _ _ u hu)

theorem KernelStep.sysWrite (pid : Nat) (t : Task) (s : State) : NextSat (KernelStep s) (sysWrite pid t s) := by
  unfold Machine.sysWrite
  split
  · exact KernelStep.writeLoop _ _ _ _ _
  · exact .next (.setRet ..)

theorem AccessStep.readString (c : Ctx) (n : Nat) (va : Word) (acc : List Byte) (s : State) :
    (readString c n va acc s).Sat (AccessStep s) := by
  induction n generalizing va acc s with
  | zero => exact .refl s
  | succ n ih =>
    refine Res.Sat.andThen (Res.Sat.mapFail _ (AccessStep.memRead ..)) (fun v t ht => ?_)
    split
    · exact ht
    · exact (ih _ _ t).imp (fun _ hu => ht.trans hu)

theorem KernelStep.sysDebugPrint (pid : Nat) (t : Task) (s : State) : NextSat (KernelStep s) (sysDebugPrint pid t s) := by
  unfold Machine.sysDebugPrint
  have h1 := AccessStep.readString (hartCtx s) debugPrintMax (t.reg a0) [] s
  split
  · rename_i text s1 h
    rw [h] at h1
    have h2 : KernelStep s1 { s1 with io := { s1.io with hostLog := s1.io.hostLog ++ text } } :=
      .aside (hl := List.prefix_append _ _)
    exact .next ((KernelStep.trans (AccessStep.kernelStep h1) h2).trans ((AccessStep.draw _).kernelStep.trans (.setRet ..)))
  · rename_i h; rw [h] at h1; exact .next (KernelStep.trans (AccessStep.kernelStep h1) (.setRet ..))
  · exact .refused

theorem LoaderStep.copySpace (src cpid : Nat) (s : State) : (copySpace src cpid s).Sat (LoaderStep s) := by
  unfold Machine.copySpace
  split
  · exact LoaderStep.copyPaged ..
  · rename_i hm
    refine (LoaderStep.allocateBlock _ _ _ hm id).andThen (fun h t ht => ?_)
    split
    · exact ht.trans (.copy ..)
    · exact ht

theorem copySpace_handle (src cpid : Nat) (s : State) : (copySpace src cpid s).Gives (fun h t => h < t.kernel.nextSpace) := by
  unfold copySpace
  split
  · exact copyPaged_handle ..
  · refine (allocateBlock_handle ..).andThen (fun h t ht => ?_)
    split <;> exact ht

theorem KernelStep.sysFork (who : Holder) (pid : Nat) (t : Task) (s : State)
    (hz : s.zeroSaved → t.regs[0] = 0#32) (hy : s.tidy → t.pid < s.kernel.pidCounter) :
    NextSat (KernelStep s) (sysFork who pid t s) := by
  unfold Machine.sysFork
  dsimp only
  have hn := KernelStep.nextPid s
  have h1 := LoaderStep.copySpace t.space s.kernel.pidCounter
    { s with kernel := { s.kernel with pidCounter := s.kernel.pidCounter + 1 } }
  have hf := copySpace_handle t.space s.kernel.pidCounter
    { s with kernel := { s.kernel with pidCounter := s.kernel.pidCounter + 1 } }
  split
  · rename_i h; rw [h] at h1; exact .next ((hn.trans (LoaderStep.kernelStep h1)).trans (.setRet ..))
  · exact .refused
  · rename_i h s1 hc
    rw [hc] at h1 hf
    have h0 : LoaderStep _ s1 := h1
    have hk : s1.kernel.pidCounter = s.kernel.pidCounter + 1 := by rw [h0.kernel]
    have h2 := (hn.trans h0.kernelStep).newChild pid (c := s.kernel.pidCounter) (Nat.le_refl _) (by rw [h0.kernel])
    refine .next (KernelStep.trans (KernelStep.trans (.putNew (t := t.child s.kernel.pidCounter h) h2 ?_ rfl ?_ ?_ hf)
      (.addTask ..)) (.setRet ..))
    · show s.kernel.pidCounter < s1.kernel.pidCounter
      omega
    · exact fun z => Task.setReg_zero a0 _ (by decide) (hz z)
    · exact fun y => ⟨fun q hq => by cases hq; exact hy y, fun _ h => (by cases h)⟩

theorem AccessStep.readArgs (c : Ctx) (argv : Word) (n k : Nat) (acc : List (List Byte)) (s : State) :
    (readArgs c argv n k acc s).Sat (AccessStep s) := by
  induction n generalizing k acc s with
  | zero => exact .refl s
  | succ n ih =>
    refine Res.Sat.andThen (Res.Sat.mapFail _ (AccessStep.memRead ..)) (fun v t ht => ?_)
    split
    · exact ht
    · split
      · exact ht
      · exact Res.Sat.andThen ((AccessStep.readString ..).imp (fun _ hu => ht.trans hu)) (fun a u hu =>
          (ih _ _ u).imp (fun _ hv => hu.trans hv))

theorem AccessStep.readExecArgs (c : Ctx) (path argv : Word) (s : State) :
    (readExecArgs c path argv s).Sat (AccessStep s) := by
  refine Res.Sat.andThen (AccessStep.readString ..) (fun p t ht => ?_)
  split
  · exact ht
  · exact Res.Sat.andThen ((AccessStep.readArgs ..).imp (fun _ hu => ht.trans hu)) (fun _ u hu => hu)

theorem LoaderStep.pushStrings (h : Nat) (l : List (List Byte)) (at0 : Word) (ptrs : List Word) (s : State) :
    (pushStrings h l at0 ptrs s).Sat (LoaderStep s) := by
  induction l generalizing at0 ptrs s with
  | nil => exact .refl s
  | cons a l ih =>
    exact Res.Sat.andThen (Res.Sat.mapFail _ (LoaderStep.writeVirtual ..)) (fun _ t ht => Res.Sat.after ht (ih _ _ t))

theorem LoaderStep.buildArgs (h : Nat) (args : List (List Byte)) (s : State) : (buildArgs h args s).Sat (LoaderStep s) :=
  Res.Sat.andThen (LoaderStep.pushStrings ..) (fun _ _ ht =>
    Res.Sat.andThen (Res.Sat.after ht (Res.Sat.mapFail _ (LoaderStep.writeVirtual ..))) (fun _ _ hu => hu))

theorem LoaderStep.buildImage (pid : Nat) (path : List Byte) (args : List (List Byte)) (s : State) :
    (buildImage pid path args s).Sat (LoaderStep s) := by
  unfold Machine.buildImage
  split
  · exact .refl s
  · refine Res.Sat.andThen (LoaderStep.loadImage ..) (fun img t ht => ?_)
    refine Res.Sat.andThen (Res.Sat.after ht (LoaderStep.mapStack ..)) (fun _ u hu => ?_)
    exact Res.Sat.orDestroy _ (Res.Sat.andThen (Res.Sat.after hu (LoaderStep.buildArgs ..)) (fun _ v hv => hv))

theorem buildImage_handle (pid : Nat) (path : List Byte) (args : List (List Byte)) (s : State) :
    (buildImage pid path args s).Gives (fun r t => r.1 < t.kernel.nextSpace) := by
  unfold Machine.buildImage
  split
  · trivial
  · refine (loadImage_handle ..).andThen (fun img t ht => ?_)
    refine (((LoaderStep.mapStack img.1 t).imp (fun _ hu => hu.handles)).gives).andThen (fun _ u hu => ?_)
    refine Res.Gives.orDestroy _ ((LoaderStep.buildArgs ..).gives.andThen (fun _ v hv => ?_))
    exact Nat.lt_of_lt_of_le ht (Nat.le_trans hu hv.handles)

theorem KernelStep.sysExec (pid : Nat) (t : Task) (s : State) : NextSat (KernelStep s) (sysExec pid t s) := by
  unfold Machine.sysExec
  have h1 := AccessStep.readExecArgs (hartCtx s) (t.reg a0) (t.reg a1) s
  split
  · rename_i h; rw [h] at h1; exact .next (KernelStep.trans (AccessStep.kernelStep h1) (.setRet ..))
  · exact .refused
  · rename_i path args s1 h
    rw [h] at h1
    have h2 := LoaderStep.buildImage pid path args s1
    have h3 := buildImage_handle pid path args s1
    split
    · rename_i hb
      exact .next ((KernelStep.trans (AccessStep.kernelStep h1) .aside).trans (.setRet ..))
    · exact .refused
    · rename_i hb
      rw [hb] at h2 h3
      refine .next (KernelStep.trans ?_ (LoaderStep.destroySpace ..).kernelStep)
      refine KernelStep.trans (KernelStep.trans (AccessStep.kernelStep h1) (LoaderStep.kernelStep h2))
        (KernelStep.modRecord _ pid _ ?_ (fun _ h => h) (fun _ => rfl) (fun _ => ⟨rfl, rfl, fun _ h => h⟩)
          (fun x => State.contexts_modTask x (fun _ _ => h3)))
      intro k hk
      exact Task.setReg_zero a0 _ (by decide) (Task.setReg_zero a1 _ (by decide) (Task.setReg_zero sp _ (by decide) hk))

theorem KernelStep.reap (pid c : Nat) (s : State) (h : ∀ k, s.task? c = some k → k.activeHartId = none) :
    KernelStep s (reap pid c s) := by
  unfold Machine.reap
  dsimp only
  have h1 := KernelStep.modRecord s pid (fun u => { u with children := u.children.filter (fun k => k ≠ c) }) (fun _ h => h)
    (fun _ h => h) (fun _ => rfl) (fun _ => ⟨rfl, rfl, fun _ hc => (List.mem_filter.1 hc).1⟩)
    (fun x => State.contexts_modTask x (fun _ h => h))
  split
  · refine h1.trans (((KernelStep.dropTask _ c ?_).trans (LoaderStep.destroySpace ..).kernelStep).trans (.setRet ..))
    intro k hk
    rw [State.task?_modTask] at hk
    split at hk
    · obtain ⟨k0, hk0, rfl⟩ := Option.map_eq_some_iff.1 hk
      exact h k0 hk0
    · exact h k hk
  · exact h1

theorem zombies_free {s : State} {t : Task} {c : Nat} (h : c ∈ zombies s t) (k : Task) (hk : s.task? c = some k) :
    k.activeHartId = none := by
  have := (List.mem_filter.1 h).2
  rw [hk] at this
  simp only [Bool.and_eq_true, decide_eq_true_eq] at this
  exact this.2

theorem KernelStep.sysWait (pid : Nat) (t : Task) (s : State) : NextSat (KernelStep s) (sysWait pid t s) := by
  unfold Machine.sysWait
  split
  · rename_i c s1 hc
    have h1 := AccessStep.choose hc
    have hm := (PagingStep.choose hc).2.1
    have hf : ∀ k, s1.task? c = some k → k.activeHartId = none := fun k hk =>
      zombies_free hm k (by unfold State.task? at hk ⊢; rwa [← h1.kernel])
    split
    · exact .next (h1.kernelStep.trans (.reap pid c s1 hf))
    · have h2 := AccessStep.memWrite (hartCtx s1) (t.reg a0) 4 (exitCodeOf s1 c) s1
      split
      · rename_i s2 hw
        rw [hw] at h2
        refine .next ((h1.kernelStep.trans (AccessStep.kernelStep h2)).trans (.reap pid c s2 ?_))
        intro k hk
        exact hf k (by unfold State.task? at hk ⊢; rwa [← AccessStep.kernel h2])
      · rename_i hw; rw [hw] at h2
        exact .next ((h1.kernelStep.trans (AccessStep.kernelStep h2)).trans (.setRet ..))
      · exact .refused
  · split
    · exact .next (.setRet ..)
    · exact .next (.modTask s pid _ (fun k h => by simpa [Task.rewind, Task.goTo_regs] using h)
        (fun k h => Task.goTo_ended _ _ _ h) (fun k => Task.goTo_owner _ _ _) (fun _ => Task.goTo_place _ _ _))

theorem KernelStep.syscall (who : Holder) (pid : Nat) (s : State) :
    NextSat (KernelStep s) (syscall who pid s) := by
  unfold Machine.syscall
  split
  · exact .next (.refl s)
  · rename_i t ht
    have hz0 : s.zeroSaved → t.regs[0] = 0#32 := fun hz => hz (pid, t) (mem_of_assocGet ht)
    have hy0 : s.tidy → t.pid < s.kernel.pidCounter := fun ⟨h1, _, _, _, h5⟩ => by
      have hm := mem_of_assocGet ht
      rw [(h5 (pid, t) hm).1]; exact h1 (pid, t) hm
    dsimp only
    repeat' split
    · exact KernelStep.sysRead _ _ _
    · exact KernelStep.sysWrite _ _ _
    · exact .next (.modTask s pid _ (fun _ h => h) (fun _ _ => rfl) (fun _ => rfl) (fun _ => ⟨rfl, rfl, rfl, rfl⟩))
    · refine .next ((AccessStep.draw s).kernelStep.trans (.modTask _ pid _ ?_ ?_ ?_ ?_))
      · intro k h; exact Task.setReg_zero a0 _ (by decide) (by rw [Task.goTo_regs]; exact h)
      · intro k h; exact Task.goTo_ended k _ _ h
      · intro k; exact Task.goTo_owner k _ _
      · exact fun k => Task.goTo_place k _ _
    · exact .next (.setRet ..)
    · exact KernelStep.sysFork _ _ _ _ hz0 hy0
    · exact KernelStep.sysExec _ _ _
    · exact KernelStep.sysWait _ _ _
    · exact KernelStep.sysDebugPrint _ _ _
    · exact .next (.setRet ..)
    · exact .next (.setRet ..)
    · refine .next ((AccessStep.draw s).kernelStep.trans (.modTask _ pid _ ?_ ?_ ?_ ?_))
      · intro k h; exact Task.setReg_zero a0 _ (by decide) (by rw [Task.goTo_regs]; exact h)
      · intro k h; exact Task.goTo_ended _ _ _ h
      · intro k; exact Task.goTo_owner _ _ _
      · exact fun k => Task.goTo_place _ _ _
    · exact .next (.setRet ..)

/-! ### The maintenance agent and the host -/

theorem KernelStep.wakeReaders (l : List Nat) (s : State) : KernelStep s (wakeReaders l s) := by
  induction l generalizing s with
  | nil => exact .refl s
  | cons w l ih =>
    unfold Machine.wakeReaders
    split
    · exact ih s
    · split
      · exact ((KernelStep.ofWaits.trans (.woken ..)).trans (.addTask ..)).trans (ih _)
      · exact ih s

theorem KernelStep.wakeSleepers (n : Nat) (s : State) : KernelStep s (wakeSleepers n s) := by
  induction n generalizing s with
  | zero => exact .refl s
  | succ n ih =>
    unfold Machine.wakeSleepers
    split
    · exact .refl s
    · split
      · split
        · exact .refl s
        · rename_i h
          exact ((((AccessStep.choose h).kernelStep.trans .ofWaits).trans (.woken ..)).trans
            (.addTask ..)).trans (ih _)
      · exact .refl s

theorem KernelStep.maintain (s : State) : KernelStep s (maintain s) := by
  unfold Machine.maintain
  split
  · exact .refl s
  · dsimp only
    split
    · exact (KernelStep.wakeReaders ..).trans (.wakeSleepers ..)
    · exact .wakeSleepers ..

theorem KernelStep.terminateTask (pid : Nat) (s : State) : KernelStep s (terminateTask pid s) := by
  unfold Machine.terminateTask
  split
  · exact .refl s
  · split
    · exact .refl s
    · have h1 := (((AccessStep.draw s).kernelStep.trans
        (.modTask _ pid (fun u => u.exit s.drawWord.1) (fun _ h => h) (fun _ _ => rfl) (fun _ => rfl)
        (fun _ => ⟨rfl, rfl, rfl, rfl⟩))).trans
        (.removeTask .host pid _)).trans (.unqueue pid _)
      dsimp only
      split
      · exact h1.trans (.wakeParentOf ..)
      · exact h1

theorem KernelStep.hostStep (a : HostAction) (s : State) : KernelStep s (hostStep a s) := by
  cases a with
  | terminateTask pid => exact .terminateTask pid s
  | pushByte b => exact .aside
  | advanceClock ms => exact .aside (hc := Nat.le_add_right ..)
  | shutdown => exact .aside
  | setPaused p => exact .aside
  | setDelay ms => exact .aside

end Sys2Proof.Machine
end

