-- ==== Sys2Proof/Laws/Instruction.lean ====
section
/-! SUPPORT. What any instruction can do to a state, said once: `ExecStep`; and how each shape of instruction ends. -/

namespace Sys2Proof.Machine

/-- What an instruction does to the pending flags: it leaves the exception flag and code as they were, or it raises and
leaves the ECALL flag as it was. -/
def FlagsMove (s t : State) : Prop :=
  (t.hart.pendingException = s.hart.pendingException ∧ t.hart.excCode = s.hart.excCode) ∨
    (t.hart.pendingEcall = s.hart.pendingEcall ∧ t.hart.pendingException = true ∧ t.hart.excCode ≠ .none)

/-- What every instruction keeps, whether it completes or raises. -/
structure ExecStep (s t : State) : Prop where
  params : t.params = s.params
  others : t.others = s.others
  kernel : t.kernel = s.kernel
  sched : t.sched = s.sched
  waits : t.waits = s.waits
  contig : t.contig = s.contig
  stdout : s.io.stdout <+: t.io.stdout
  hostLog : t.io.hostLog = s.io.hostLog
  stderr : t.io.stderr = s.io.stderr
  clock : t.io.clock = s.io.clock
  agenda : t.chance.agenda = s.chance.agenda
  turns : t.chance.turns = s.chance.turns
  frames : t.paging.frames.length = s.paging.frames.length
  wf : s.ram.wf = true → t.ram.wf = true
  pages : s.framesTidy → t.framesTidy
  hart : t.hart = { s.hart with
    x := t.hart.x, pc := t.hart.pc, pendingEcall := t.hart.pendingEcall, pendingException := t.hart.pendingException,
    excCode := t.hart.excCode, excValue := t.hart.excValue }
  x0 : t.hart.x[0] = s.hart.x[0]
  flags : FlagsMove s t

/-- An access, and then only registers, the pc and the flags of the hart. -/
theorem ExecStep.ofAccess {s u t : State} (h : AccessStep s u) (ht : t = { u with hart := t.hart })
    (hh : t.hart = { s.hart with
      x := t.hart.x, pc := t.hart.pc, pendingEcall := t.hart.pendingEcall, pendingException := t.hart.pendingException,
      excCode := t.hart.excCode, excValue := t.hart.excValue })
    (h0 : t.hart.x[0] = s.hart.x[0])
    (hf : FlagsMove s t) : ExecStep s t := by
  refine ⟨?_, ?_, ?_, ?_, ?_, ?_, ?_, ?_, ?_, ?_, ?_, ?_, ?_, ?_, ?_, hh, h0, hf⟩ <;> rw [ht]
  · exact h.params
  · exact h.others
  · exact h.kernel
  · exact h.sched
  · exact h.waits
  · exact h.contig
  · exact h.stdout
  · exact h.hostLog
  · exact h.stderr
  · exact h.clock
  · exact h.agenda
  · exact h.turns
  · exact h.frames
  · exact h.wf
  · exact fun x => framesTidy_congr rfl (Nat.le_refl _) (h.pages x)

theorem ExecStep.writeNext (rd : RegIdx) (v : Word) (s : State) : NextSat (ExecStep s) (writeNext rd v s) := by
  refine .next (.ofAccess (.refl s) ?_ ?_ ?_ (.inl ⟨?_, ?_⟩))
  · unfold State.setReg; split <;> rfl
  · unfold State.setReg; split <;> rfl
  · exact State.setReg_x0 s rd v
  · exact State.setReg_hart_pendingException s rd v
  · exact State.setReg_hart_excCode s rd v

theorem ExecStep.branchNext (b : Bool) (off : BitVec 13) (s : State) : NextSat (ExecStep s) (branchNext b off s) := by
  unfold Machine.branchNext
  split <;> exact .next (.ofAccess (.refl s) rfl rfl rfl (.inl ⟨rfl, rfl⟩))

theorem ExecStep.jumpNext (rd : RegIdx) (w : Word) (s : State) : NextSat (ExecStep s) (jumpNext rd w s) := by
  refine .next (.ofAccess (.refl s) ?_ ?_ ?_ (.inl ⟨?_, ?_⟩))
  · unfold State.setReg; split <;> rfl
  · unfold State.setReg; split <;> rfl
  · exact State.setReg_x0 s rd _
  · exact State.setReg_hart_pendingException s rd _
  · exact State.setReg_hart_excCode s rd _

theorem ExecStep.raiseMem {s u : State} (f : MemFailure) (h : AccessStep s u) : ExecStep s (u.raiseMem f) :=
  .ofAccess h rfl (by rw [← h.hart]; rfl) (by rw [← h.hart]; rfl)
    (.inr ⟨by rw [← h.hart]; rfl, rfl, by show f.kind ≠ .none; unfold MemFailure.kind; split <;> decide⟩)

theorem ExecStep.loadInto (rd rs1 : RegIdx) (imm : BitVec 12) (n : Nat) (ext : Word → Word) (s : State) :
    NextSat (ExecStep s) (loadInto rd rs1 imm n ext s) := by
  unfold Machine.loadInto Res.toOutcome
  have h1 := AccessStep.memRead (hartCtx s) (effAddr s rs1 imm) n s
  split
  · rename_i v u h
    rw [h] at h1
    refine .next (.ofAccess h1 ?_ ?_ ?_ (.inl ⟨?_, ?_⟩))
    · unfold State.setReg; split <;> rfl
    · have h2 : u.hart = s.hart := AccessStep.hart h1
      rw [← h2]; unfold State.setReg; split <;> rfl
    · have h2 : u.hart = s.hart := AccessStep.hart h1
      rw [← h2]; exact State.setReg_x0 u rd _
    · have h2 : u.hart = s.hart := AccessStep.hart h1
      rw [← h2]; exact State.setReg_hart_pendingException u rd _
    · have h2 : u.hart = s.hart := AccessStep.hart h1
      rw [← h2]; exact State.setReg_hart_excCode u rd _
  · rename_i h; rw [h] at h1; exact .next (.raiseMem _ h1)
  · exact .refused

theorem ExecStep.storeFrom (rs2 rs1 : RegIdx) (imm : BitVec 12) (n : Nat) (s : State) :
    NextSat (ExecStep s) (storeFrom rs2 rs1 imm n s) := by
  unfold Machine.storeFrom Res.toOutcome
  have h1 := AccessStep.memWrite (hartCtx s) (effAddr s rs1 imm) n (s.reg rs2) s
  split
  · rename_i v u h
    rw [h] at h1
    have h2 : u.hart = s.hart := AccessStep.hart h1
    exact .next (.ofAccess h1 rfl (by rw [← h2]; rfl) (by rw [← h2]; rfl)
      (.inl ⟨by rw [← h2]; rfl, by rw [← h2]; rfl⟩))
  · rename_i h; rw [h] at h1; exact .next (.raiseMem _ h1)
  · exact .refused

/-- Every instruction. -/
theorem ExecStep.exec (i : Instr) (s : State) : NextSat (ExecStep s) (exec i s) := by
  have he : ExecStep s s.signalEcall.advance := .ofAccess (.refl s) rfl rfl rfl (.inl ⟨rfl, rfl⟩)
  cases i with
  | lui | auipc | addi | slti | sltiu | xori | ori | andi | slli | srli | srai | add | sub | sll | slt | sltu | xor | srl
  | sra | or | and | mul | mulh | mulhsu | mulhu | div | divu | rem | remu => exact ExecStep.writeNext _ _ _
  | jal | jalr => exact ExecStep.jumpNext _ _ _
  | beq | bne | blt | bge | bltu | bgeu => exact ExecStep.branchNext _ _ _
  | lb | lh | lw | lbu | lhu => exact ExecStep.loadInto _ _ _ _ _ _
  | sb | sh | sw => exact ExecStep.storeFrom _ _ _ _ _
  | fence => exact .next (.ofAccess (.refl s) rfl rfl rfl (.inl ⟨rfl, rfl⟩))
  | ecall | ebreak => exact .next he
  | csrrw | csrrs | csrrc | csrrwi | csrrsi | csrrci => exact .refused

/-! ### How an instruction that writes one register, a jump and a branch end -/

/-- The general form of a register write followed by a pc. -/
theorem writes_intro (s : State) (rd : RegIdx) (v target : Word) : Writes s ((s.setReg rd v).setPc target) rd v target := by
  refine ⟨fun r => ?_, rfl, State.setReg_x0 s rd v, ?_⟩
  · rw [State.setPc_reg, State.setReg_reg]
  · unfold SameButRegs State.setReg; split <;> rfl

theorem writeNext_writes (rd : RegIdx) (v : Word) (s : State) :
    ∃ t, writeNext rd v s = .next t ∧ Writes s t rd v (s.pc + 4#32) := by
  refine ⟨_, rfl, ?_⟩
  have h := writes_intro s rd v (s.pc + 4#32)
  unfold State.advance
  rwa [State.setReg_pc]

theorem jumpNext_writes (rd : RegIdx) (w : Word) (s : State) :
    ∃ t, jumpNext rd w s = .next t ∧ Writes s t rd (s.pc + 4#32) w := ⟨_, rfl, writes_intro s rd _ w⟩

theorem branchNext_goes (b : Bool) (off : BitVec 13) (s : State) :
    ∃ t, branchNext b off s = .next t ∧ Goes s t (if b then s.pc + immB off else s.pc + 4#32) := by
  unfold branchNext
  cases b <;> exact ⟨_, rfl, rfl⟩

end Sys2Proof.Machine
end

