-- ==== Sys2Proof/Laws/Machine.lean ====
section
/-! SUPPORT. What a transition of a hart and a step of the machine can do, said once: `HartMove` and `step_cases`; the
invariants of the statements follow from them. -/

namespace Sys2Proof.Machine

/-- A task's record names a hart. -/
def State.ownedBy (s : State) (pid o : Nat) : Prop := ∃ k, s.task? pid = some k ∧ k.activeHartId = some o

/-- The hart's curTask is what its place in the loop says, and that task's record names the hart. -/
def State.holdsOwn (s : State) : Prop :=
  s.hart.curTask = s.hart.phase.held ∧
    ∀ p, s.hart.curTask = some p → p < s.kernel.pidCounter ∧ s.ownedBy p s.hart.id

/-- What every transition of a hart keeps. -/
structure HartMove (s t : State) : Prop where
  evolves : Evolves s t
  others : t.others.map (Hart.plain s.params) = s.others.map (Hart.plain s.params)
  ident : t.hart.id = s.hart.id
  x0 : s.zeroSaved → s.hart.x[0] = 0#32 → t.hart.x[0] = 0#32
  held : s.hart.curTask = s.hart.phase.held → t.hart.curTask = t.hart.phase.held
  foreign : s.holdsOwn → ∀ pid o, pid < s.kernel.pidCounter → o ≠ s.hart.id → s.ownedBy pid o → t.ownedBy pid o
  own : s.holdsOwn → ∀ p, t.hart.curTask = some p → t.ownedBy p s.hart.id

theorem KernelStep.ownedBy {s t : State} (h : KernelStep s t) {pid o : Nat} (hp : pid < s.kernel.pidCounter)
    (ho : s.ownedBy pid o) : t.ownedBy pid o := by
  obtain ⟨k, hk, ha⟩ := ho
  obtain ⟨k', hk', ha'⟩ := h.owners pid k hp hk (by rw [ha]; simp)
  exact ⟨k', hk', ha'.trans ha⟩

/-- The contexts after a change of the hart alone that keeps its context. -/
theorem State.contexts_hart {u t : State} (ht : t = { u with hart := t.hart }) (hs : t.hart.space = u.hart.space)
    (hb : t.hart.base = u.hart.base) (hl : t.hart.limit = u.hart.limit) (h : u.contexts) : t.contexts := by
  obtain ⟨h1, h2, h3⟩ := h
  have hm : ∀ g ∈ t.harts, ∃ g0 ∈ u.harts, g.space = g0.space ∧ g.base = g0.base ∧ g.limit = g0.limit := by
    intro g hg
    rw [ht] at hg
    rcases List.mem_cons.1 hg with rfl | hg
    · exact ⟨u.hart, List.mem_cons_self, hs, hb, hl⟩
    · exact ⟨g, List.mem_cons_of_mem _ hg, rfl, rfl, rfl⟩
  have hk : t.kernel = u.kernel := by rw [ht]
  have hp : t.params = u.params := by rw [ht]
  have hc : t.contig = u.contig := by rw [ht]
  refine ⟨by rw [hk]; exact h1, fun g hg k e => ?_, fun st hst g hg k b e hbk => ?_⟩
  · obtain ⟨g0, hg0, e1, -⟩ := hm g hg
    rw [hk]; exact h2 g0 hg0 k (e1 ▸ e)
  · obtain ⟨g0, hg0, e1, e2, e3⟩ := hm g hg
    rw [e2, e3]
    exact h3 st (hp ▸ hst) g0 hg0 k b (e1 ▸ e) (by unfold State.block? at hbk ⊢; rw [← hc]; exact hbk)

/-- A change of the hart alone. -/
theorem Evolves.withHart {s u t : State} (h : Evolves s u) (ht : t = { u with hart := t.hart })
    (hx : s.contexts → t.contexts) : Evolves s t := by
  refine ⟨?_, ?_, ?_, ?_, ?_, ?_, ?_, ?_, ?_, ?_, ?_, ?_, ?_, ?_, ?_, ?_, hx⟩ <;> rw [ht]
  · exact h.params
  · exact h.frames
  · exact h.wf
  · exact h.stdout
  · exact h.hostLog
  · exact h.stderr
  · exact h.clock
  · exact h.lock
  · exact h.pids
  · exact h.given
  · exact h.zero
  · exact h.gone
  · exact h.ended
  · exact h.blocks
  · exact h.tidy
  · exact fun x => framesTidy_congr rfl (Nat.le_refl _) (h.pages x)

/-- What a kernel step leaves of its hart. -/
theorem KernelStep.hartField {α : Type} {s t : State} (h : KernelStep s t) (F : Hart → α)
    (hF : ∀ k : Hart, F (k.plain s.params) = F k) : F t.hart = F s.hart := by
  rw [← hF t.hart, h.hart, hF]

/-- Harts that are the same but for base and limit, one by one. -/
theorem plain_members {p : Params} {l m : List Hart} (h : l.map (Hart.plain p) = m.map (Hart.plain p)) {g : Hart} (hg : g ∈ l) :
    ∃ g0 ∈ m, g.plain p = g0.plain p := by
  have h1 : g.plain p ∈ m.map (Hart.plain p) := h ▸ List.mem_map_of_mem hg
  obtain ⟨g0, hg0, e⟩ := List.mem_map.1 h1
  exact ⟨g0, hg0, e.symm⟩

theorem KernelStep.harts {s t : State} (h : KernelStep s t) :
    t.harts.map (Hart.plain s.params) = s.harts.map (Hart.plain s.params) := by
  unfold State.harts
  rw [List.map_cons, List.map_cons, h.hart, h.others]

/-- A kernel step, and then only a change of the hart that keeps its task. -/
theorem HartMove.ofKernel {s u t : State} (h : KernelStep s u) (ht : t = { u with hart := t.hart })
    (hi : t.hart.id = s.hart.id) (hx : s.zeroSaved → s.hart.x[0] = 0#32 → t.hart.x[0] = 0#32)
    (hc : t.hart.curTask = s.hart.curTask)
    (hp : s.hart.curTask = s.hart.phase.held → s.hart.curTask = t.hart.phase.held)
    (hm : s.contexts → t.contexts) : HartMove s t := by
  have hk : t.kernel = u.kernel := by rw [ht]
  have h? : ∀ pid, t.task? pid = u.task? pid := fun pid => by unfold State.task?; rw [hk]
  have ho : ∀ pid o, u.ownedBy pid o → t.ownedBy pid o := fun pid o ⟨k, h1, h2⟩ => ⟨k, by rw [h?, h1], h2⟩
  refine ⟨h.toEvolves.withHart ht hm, ?_, hi, hx, fun e => hc.trans (hp e),
    fun _ pid o hlt _ hs => ho _ _ (h.ownedBy hlt hs), fun hs p hcp => ?_⟩
  · rw [ht]; exact h.others
  · rw [hc] at hcp
    exact ho _ _ (h.ownedBy (hs.2 p hcp).1 (hs.2 p hcp).2)

/-- A move of the hart in its loop. -/
theorem HartMove.goto {s u : State} (h : KernelStep s u) (p : Phase)
    (hp : s.hart.curTask = s.hart.phase.held → s.hart.curTask = p.held) : HartMove s (u.goto p) :=
  .ofKernel h rfl (h.hartField (fun k => k.id) (fun k => k.plain_id _))
    (fun _ e => by rw [State.goto_hart]; exact (h.hartField (fun k => k.x) (fun k => k.plain_x _)) ▸ e)
    (h.hartField (fun k => k.curTask) (fun k => k.plain_curTask _)) hp
    (fun c => State.contexts_hart rfl rfl rfl rfl (h.contexts c))

theorem HartMove.stay {s u : State} (h : KernelStep s u) : HartMove s u :=
  .ofKernel h rfl (h.hartField (fun k => k.id) (fun k => k.plain_id _))
    (fun _ e => (h.hartField (fun k => k.x) (fun k => k.plain_x _)) ▸ e)
    (h.hartField (fun k => k.curTask) (fun k => k.plain_curTask _))
    (fun e => e.trans (congrArg Phase.held (h.hartField (fun k => k.phase) (fun k => k.plain_phase _)).symm)) h.contexts

theorem HartMove.bootStep (s : State) (hp : s.hart.phase = .boot) : NextSat (HartMove s) (bootStep s) := by
  have hh : s.hart.curTask = s.hart.phase.held → s.hart.curTask = Phase.loopTop.held := by rw [hp]; exact id
  have hstart : ∀ u, KernelStep s u →
      HartMove s ({ u with kernel := { u.kernel with started := true } }.goto .loopTop) := fun u hu =>
    .goto (u := { u with kernel := { u.kernel with started := true } })
      (hu.trans .aside) _ hh
  unfold Machine.bootStep
  split
  · unfold initKernel
    dsimp only
    split
    · exact .next (hstart s (.refl s))
    · rename_i buf _
      have h1 := KernelStep.createTask s.holder initName buf s
      split
      · rename_i h; rw [h] at h1; exact .next (hstart _ h1)
      · rename_i h; rw [h] at h1; exact .next (hstart _ h1)
      · exact .refused
  · split
    · exact .next (.goto (.refl s) _ hh)
    · exact .next (.stay (.refl s))

theorem HartMove.loopTopStep (s : State) (hp : s.hart.phase = .loopTop) : HartMove s (loopTopStep s) := by
  unfold Machine.loopTopStep
  split
  · exact .goto (.refl s) _ (by rw [hp]; exact id)
  · split
    · exact .stay (.refl s)
    · split <;> exact .goto (.refl s) _ (by rw [hp]; exact id)

theorem HartMove.scheduleStep (s : State) (hp : s.hart.phase = .scheduling) : HartMove s (scheduleStep s) := by
  unfold Machine.scheduleStep
  have h := KernelStep.schedule s.holder s
  split
  · rename_i e; rw [e] at h; exact .goto h _ (by rw [hp]; exact id)
  · rename_i e; rw [e] at h; exact .goto h _ (by rw [hp]; exact id)

/-- A change of one record that keeps the PID table's other records: which hart it names may change. -/
theorem State.ownedBy_modTask {s : State} {p q o : Nat} {f : Task → Task} (h : q ≠ p) (ho : s.ownedBy q o) :
    (s.modTask p f).ownedBy q o := by
  obtain ⟨k, h1, h2⟩ := ho
  exact ⟨k, by rw [State.task?_modTask, if_neg h, h1], h2⟩

theorem HartMove.acquireStep (pid : Nat) (s : State) (hp : s.hart.phase = .picked pid) : HartMove s (acquireStep pid s) := by
  unfold Machine.acquireStep tryAcquireCpu
  split
  · exact .goto (.refl s) _ (by rw [hp]; exact id)
  · rename_i k hk
    simp only []
    by_cases hn : k.activeHartId = none
    · simp only [hn, if_true]
      refine ⟨?_, rfl, rfl, fun _ e => e, fun _ => rfl, ?_, ?_⟩
      · have hm : s.contexts → (s.modTask pid (fun u => { u with activeHartId := some s.hart.id })).contexts :=
          fun x => State.contexts_modTask x (fun _ h => h)
        exact Evolves.withHart (.modTask s pid (fun u => { u with activeHartId := some s.hart.id }) (fun _ h => h)
          (fun _ h => h) (fun y => State.tidy_modTask y (fun _ _ => ⟨rfl, rfl, fun _ => .inl⟩)) hm) rfl
          (fun x => State.contexts_hart (u := s.modTask pid (fun u => { u with activeHartId := some s.hart.id })) rfl rfl
            rfl rfl (hm x))
      · intro _ q o _ _ ho
        by_cases hq : q = pid
        · subst hq
          obtain ⟨k', h1, h2⟩ := ho
          rw [hk] at h1; cases h1; rw [hn] at h2; cases h2
        · exact State.ownedBy_modTask (f := fun u => { u with activeHartId := some s.hart.id }) hq ho
      · intro _ p hcp
        have hpp : pid = p := by simpa [State.goto] using hcp
        subst hpp
        exact ⟨{ k with activeHartId := some s.hart.id }, by
          show (s.modTask pid _).task? pid = _
          rw [State.task?_modTask, if_pos rfl, hk]; rfl, rfl⟩
    · simp only [hn, if_false]
      exact .stay (.setPanic ..)

theorem setContext_hart (t : Task) (s : State) :
    setContext t s = { s with hart := (setContext t s).hart } ∧ (setContext t s).hart.id = s.hart.id ∧
      (setContext t s).hart.x = s.hart.x ∧ (setContext t s).hart.curTask = s.hart.curTask ∧
      (setContext t s).hart.phase = s.hart.phase := by
  unfold setContext Hart.switchTo
  split
  · exact ⟨rfl, rfl, rfl, rfl, rfl⟩
  · split <;> exact ⟨rfl, rfl, rfl, rfl, rfl⟩

/-- The contexts after the hart switches to a task's memory. -/
theorem contexts_setContext {pid : Nat} {k : Task} {s : State} (hk : s.task? pid = some k) (h : s.contexts) :
    (setContext k s).contexts := by
  have hlt := h.1 (pid, k) (mem_of_assocGet hk)
  obtain ⟨h1, h2, h3⟩ := h
  unfold setContext
  split
  · rename_i f r hm
    refine ⟨h1, fun g hg x hx => ?_, fun st hst => ?_⟩
    · rcases List.mem_cons.1 hg with rfl | hg
      · cases hx; exact hlt
      · exact h2 g (List.mem_cons_of_mem _ hg) x hx
    · have : s.params.memMode = .contiguous st := hst
      rw [hm] at this; cases this
  · refine ⟨h1, fun g hg x hx => ?_, fun st hst g hg x b hx hb => ?_⟩
    · rcases List.mem_cons.1 hg with rfl | hg
      · have : (s.hart.switchTo s.contig.allocated k.space).space = some x := hx
        rw [Hart.switchTo_space] at this; cases this; exact hlt
      · exact h2 g (List.mem_cons_of_mem _ hg) x hx
    · rcases List.mem_cons.1 hg with rfl | hg
      · have : (s.hart.switchTo s.contig.allocated k.space).space = some x := hx
        rw [Hart.switchTo_space] at this; cases this
        exact Hart.switchTo_block hb _
      · exact h3 st hst g (List.mem_cons_of_mem _ hg) x b hx hb

theorem HartMove.enterStep (pid : Nat) (s : State) (hp : s.hart.phase = .acquired pid) : HartMove s (enterStep pid s) := by
  have hh : s.hart.curTask = s.hart.phase.held → s.hart.curTask = some pid := by rw [hp]; exact id
  unfold Machine.enterStep
  split
  · exact .goto (.refl s) _ hh
  · rename_i k hk
    obtain ⟨h1, h2, h3, h4, -⟩ := setContext_hart k s
    dsimp only
    split
    · have hm : KernelStep s (s.modTask pid Task.start) :=
        .modTask s pid _ (fun u h => by unfold Task.start; split <;> exact h)
          (fun u h => by unfold Task.start; rw [if_neg (by rw [h]; decide)]; exact h)
          (fun u => by unfold Task.start; split <;> rfl)
          (fun u => by unfold Task.start; split <;> exact ⟨rfl, rfl, rfl, rfl⟩)
      refine .ofKernel hm ?_ ?_ ?_ ?_ hh ?_
      · rw [h1]; rfl
      · exact h2
      · intro _ _; exact Vector.getElem_set_self ..
      · exact h4
      · intro x
        have h5 := contexts_setContext hk x
        refine State.contexts_hart (u := (setContext k s).modTask pid Task.start) rfl rfl rfl rfl
          (State.contexts_modTask h5 (fun u hu => ?_))
        unfold Task.start; split <;> exact hu
    · refine .ofKernel (.refl s) ?_ ?_ ?_ ?_ hh (fun x => State.contexts_hart rfl rfl rfl rfl (contexts_setContext hk x))
      · rw [h1]; rfl
      · rw [h1]; exact h2
      · intro _ e; rw [h1]; show (setContext k s).hart.x[0] = _; simpa [h3] using e
      · rw [h1]; exact h4

theorem KernelStep.saveState (pid : Nat) (s : State) : KernelStep s (saveState pid s) :=
  .modTask s pid _ (fun _ _ => Vector.getElem_set_self ..) (fun _ h => h) (fun _ => rfl)
    (fun _ => ⟨rfl, rfl, rfl, rfl⟩)

theorem HartMove.endSlice (pid : Nat) (b : Bool) (s : State) (hp : s.hart.phase = .sliceEnd pid b) :
    HartMove s (endSlice pid b s) := by
  have hm : ∀ u, KernelStep u (u.modTask pid (fun t => if t.state = .running then { t with state := .ready } else t)) :=
    fun u => .modTask u pid _ (fun k h => by split <;> exact h) (fun k h => by rw [if_neg (by rw [h]; decide)]; exact h)
      (fun k => by split <;> rfl) (fun k => by split <;> exact ⟨rfl, rfl, rfl, rfl⟩)
  unfold Machine.endSlice
  refine .goto ?_ _ (by rw [hp]; exact id)
  cases b
  · exact (KernelStep.saveState ..).trans (hm _)
  · exact hm s

/-- The release itself: the record and the hart let go of each other. -/
theorem releaseCpu_eq (pid : Nat) (s : State) :
    releaseCpu pid s = { s.modTask pid (fun t => { t with activeHartId := none }) with hart := (releaseCpu pid s).hart } ∧
      (releaseCpu pid s).hart.x = s.hart.x ∧ (releaseCpu pid s).hart.id = s.hart.id ∧
      (releaseCpu pid s).hart.curTask = none ∧ (releaseCpu pid s).hart.space = none := by
  unfold releaseCpu
  dsimp only
  split <;> exact ⟨rfl, rfl, rfl, rfl, rfl⟩

theorem Evolves.releaseCpu (pid : Nat) (s : State) : Evolves s (releaseCpu pid s) := by
  obtain ⟨hr, -, -, -, hs⟩ := releaseCpu_eq pid s
  have hm : s.contexts → (s.modTask pid (fun t => { t with activeHartId := none })).contexts :=
    fun x => State.contexts_modTask x (fun _ h => h)
  refine Evolves.withHart (.modTask s pid (fun t => { t with activeHartId := none }) (fun _ h => h) (fun _ h => h)
    (fun y => State.tidy_modTask y (fun _ _ => ⟨rfl, rfl, fun _ => .inl⟩)) hm) hr (fun x => ?_)
  obtain ⟨h1, h2, h3⟩ := hm x
  rw [hr]
  refine ⟨h1, fun g hg k hk => ?_, fun st hst g hg k b hk hb => ?_⟩
  · rcases List.mem_cons.1 hg with rfl | hg
    · rw [hs] at hk; cases hk
    · exact h2 g (List.mem_cons_of_mem _ hg) k hk
  · rcases List.mem_cons.1 hg with rfl | hg
    · rw [hs] at hk; cases hk
    · exact h3 st hst g (List.mem_cons_of_mem _ hg) k b hk hb

/-- The release and the dispatch, one transition. -/
theorem HartMove.releaseStep (pid : Nat) (s : State) (hp : s.hart.phase = .release pid) :
    HartMove s (releaseStep pid s) := by
  obtain ⟨hr, hx, hi, hc, -⟩ := releaseCpu_eq pid s
  have hd := KernelStep.dispatchTask s.holder pid (releaseCpu pid s)
  have hg := HartMove.goto hd .loopTop (fun _ => hc)
  have hpar : (releaseCpu pid s).params = s.params := by rw [hr]; rfl
  refine ⟨(Evolves.releaseCpu pid s).trans hg.evolves, ?_, hg.ident.trans hi, fun z e => ?_, fun _ => ?_, ?_, ?_⟩
  · have h1 := hg.others
    rw [hpar] at h1
    refine h1.trans ?_
    rw [hr]; rfl
  · exact hg.x0 ((Evolves.releaseCpu pid s).zero z) (by rw [← e]; simp only [hx])
  · exact (hd.hartField (fun k => k.curTask) (fun k => k.plain_curTask _)).trans hc
  · intro hs q o hlt ho ⟨k, hk, hko⟩
    have hown := (hs.2 pid (by rw [hs.1, hp]; rfl)).2
    obtain ⟨k1, hk1, hko1⟩ := hown
    have hq : q ≠ pid := by
      rintro rfl
      rw [hk] at hk1; cases hk1; rw [hko] at hko1; exact ho (Option.some.inj hko1)
    have hq1 : (releaseCpu pid s).ownedBy q o := by
      obtain ⟨k', h1, h2⟩ := State.ownedBy_modTask (f := fun t => { t with activeHartId := none }) hq ⟨k, hk, hko⟩
      exact ⟨k', by rw [hr]; exact h1, h2⟩
    exact hd.ownedBy (by rw [hr]; exact hlt) hq1
  · intro _ p hcp
    have := (hd.hartField (fun k => k.curTask) (fun k => k.plain_curTask _)).trans hc
    have hcp' : (dispatchTask s.holder pid (releaseCpu pid s)).hart.curTask = some p := hcp
    rw [this] at hcp'; cases hcp'

theorem AccessStep.execStep {s t : State} (h : AccessStep s t) : ExecStep s t :=
  .ofAccess h rfl (by rw [h.hart]) (by rw [h.hart]) (.inl ⟨by rw [h.hart], by rw [h.hart]⟩)

theorem ExecStep.trans {s t u : State} (h : ExecStep s t) (k : ExecStep t u)
    (hf : FlagsMove s u) : ExecStep s u :=
  ⟨k.params.trans h.params, k.others.trans h.others, k.kernel.trans h.kernel, k.sched.trans h.sched, k.waits.trans h.waits,
   k.contig.trans h.contig, h.stdout.trans k.stdout, k.hostLog.trans h.hostLog, k.stderr.trans h.stderr,
   k.clock.trans h.clock, k.agenda.trans h.agenda, k.turns.trans h.turns, k.frames.trans h.frames, fun w => k.wf (h.wf w),
   fun x => k.pages (h.pages x), by rw [k.hart, h.hart], k.x0.trans h.x0, hf⟩

/-- One instruction step: it starts with the flags clear, and at its end at most one is set. -/
theorem ExecStep.instructionStep (s : State) : NextSat (ExecStep s.clearFlags) (instructionStep s) := by
  unfold Machine.instructionStep
  dsimp only
  have h1 := AccessStep.fetch (hartCtx s.clearFlags) s.clearFlags.pc s.clearFlags
  split
  · rename_i h; rw [h] at h1; exact .next (.raiseMem _ h1)
  · exact .refused
  · rename_i w s1 h
    rw [h] at h1
    have h2 : AccessStep s.clearFlags s1 := h1
    split
    · exact .next (.ofAccess h2 rfl (by rw [← h2.hart]; rfl) (by rw [← h2.hart]; rfl)
        (.inr ⟨by rw [← h2.hart]; rfl, rfl, nofun⟩))
    · rename_i i _
      intro t ht
      have h3 := ExecStep.exec i s1 t ht
      exact h2.execStep.trans h3 (by
        have h4 := h3.flags
        unfold FlagsMove at h4 ⊢
        rw [h2.hart] at h4
        exact h4)

theorem ExecStep.ident {s t : State} (h : ExecStep s t) : t.hart.id = s.hart.id := by rw [h.hart]

theorem HartMove.sliceStep (pid : Nat) (s : State) (hp : s.hart.phase = .slice pid) :
    NextSat (HartMove s) (sliceStep pid s) := by
  have hh : s.hart.curTask = s.hart.phase.held → s.hart.curTask = some pid := by rw [hp]; exact id
  unfold Machine.sliceStep
  split
  · have h1 := ExecStep.instructionStep s
    split
    · rename_i s1 hi
      have h2 := h1 s1 hi
      have hk : KernelStep s { s1 with hart := s.hart } :=
        .ofTasks h2.params h2.frames h2.wf h2.stdout (by rw [h2.hostLog]; exact List.prefix_refl _)
          (by rw [h2.stderr]; exact List.prefix_refl _) (by rw [h2.clock]; exact Nat.le_refl _)
          (by rw [h2.sched]; exact id) (by rw [h2.kernel]; rfl) (by rw [h2.kernel]; exact Nat.le_refl _) rfl
          (by rw [h2.others]; rfl)
          (State.blocksTidy_of h2.params h2.contig (by rw [h2.kernel]; exact Nat.le_refl _))
          (State.tidy_of (by rw [h2.kernel]; rfl) (by rw [h2.kernel]; exact Nat.le_refl _) h2.sched)
          (fun x => framesTidy_congr rfl (Nat.le_refl _)
            (h2.pages (framesTidy_congr (s := s) (t := s.clearFlags) rfl (Nat.le_refl _) x)))
          (State.contexts_of h2.params rfl h2.others (by rw [h2.kernel]; rfl) (by rw [h2.kernel]; exact Nat.le_refl _)
            h2.contig)
      refine .next (.ofKernel hk rfl ?_ ?_ ?_ ?_ (fun x =>
        State.contexts_hart (u := { s1 with hart := s.hart }) rfl ?_ ?_ ?_ (hk.contexts x)))
      · show s1.hart.id = _; rw [h2.hart]; rfl
      · intro _ e; exact h2.x0.trans e
      · show s1.hart.curTask = _; rw [h2.hart]; rfl
      · intro e
        rw [hh e]
        unfold countStep; dsimp only; split <;> rfl
      · show s1.hart.space = _; rw [h2.hart]; rfl
      · show s1.hart.base = _; rw [h2.hart]; rfl
      · show s1.hart.limit = _; rw [h2.hart]; rfl
    · exact .fault
    · exact .refused
  · exact .next (.goto (.refl s) _ hh)

theorem HartMove.trapStep (pid : Nat) (s : State) (hp : s.hart.phase = .trap pid) :
    NextSat (HartMove s) (trapStep pid s) := by
  have hh : s.hart.curTask = s.hart.phase.held → s.hart.curTask = some pid := by rw [hp]; exact id
  unfold Machine.trapStep
  split
  · have h1 := KernelStep.syscall s.holder pid (saveState pid s)
    split
    · rename_i s1 h
      exact .next (.goto ((KernelStep.saveState ..).trans (h1 s1 h)) _ hh)
    · exact .fault
    · exact .refused
  · refine .next (.goto ?_ _ hh)
    exact (((KernelStep.saveState pid s).trans (.modTask _ pid (fun t => t.exit s.params.faultExitCode) (fun _ h => h)
      (fun _ _ => rfl) (fun _ => rfl) (fun _ => ⟨rfl, rfl, rfl, rfl⟩))).trans (.removeTask (.hart s.hart.id) pid _)).trans (.logLine _)

/-- Every transition of a hart. -/
theorem HartMove.hartStep (s : State) : NextSat (HartMove s) (hartStep s) := by
  unfold Machine.hartStep
  split
  · rename_i h; exact HartMove.bootStep s h
  · rename_i h; exact .next (.loopTopStep s h)
  · rename_i h; exact .next (.goto (.refl s) _ (by rw [h]; exact id))
  · rename_i h; exact .next (.scheduleStep s h)
  · rename_i h; exact .next (.acquireStep _ s h)
  · rename_i h; exact .next (.enterStep _ s h)
  · rename_i h; exact HartMove.sliceStep _ s h
  · rename_i h; exact HartMove.trapStep _ s h
  · rename_i h; exact .next (.endSlice _ _ s h)
  · rename_i h; exact .next (.releaseStep _ s h)
  · exact .next (.stay (.refl s))

/-! ### The machine -/

theorem KernelStep.takeTurn (s : State) : KernelStep s (takeTurn s) := by
  unfold Machine.takeTurn
  split <;> exact .aside

/-- Bringing a hart forward: it was in front, or it changes places with the one that was. -/
theorem focus_cases {h : Nat} {s t : State} (e : focus h s = some t) :
    (t = s ∧ s.hart.id = h) ∨
      ∃ k ∈ s.others, k.id = h ∧ s.hart.id ≠ h ∧
        t = { s with hart := k, others := s.others.map (fun j => if j.id = h then s.hart else j) } := by
  unfold focus at e
  split at e
  · rename_i hi; cases e; exact .inl ⟨rfl, hi⟩
  · rename_i hi
    split at e
    · rename_i k hk
      cases e
      exact .inr ⟨k, List.mem_of_find?_eq_some hk, by simpa using List.find?_some hk, hi, rfl⟩
    · cases e

/-- What a step can be: a transition of a hart brought forward, of the maintenance agent, or of the host; or nothing, for a
hart the machine does not have. -/
theorem step_cases {s t : State} (h : step s = .next t) :
    s.kernel.panic = none ∧
    ((∃ a u, nextAgent s = .hart a ∧ focus a (takeTurn s) = some u ∧ hartStep u = .next t) ∨
     (∃ a, nextAgent s = .hart a ∧ focus a (takeTurn s) = none ∧ t = takeTurn s) ∨
     (nextAgent s = .maintenance ∧ t = maintain (takeTurn s)) ∨
     (∃ a, nextAgent s = .host a ∧ t = hostStep a (takeTurn s))) := by
  unfold step machineStep at h
  split at h
  · cases h
  · rename_i hp
    refine ⟨hp, ?_⟩
    unfold agentStep at h
    split at h
    · rename_i a ha
      split at h
      · rename_i u hu; exact .inl ⟨a, u, ha, hu, h⟩
      · rename_i hu; cases h; exact .inr (.inl ⟨a, ha, hu, rfl⟩)
    · rename_i ha; cases h; exact .inr (.inr (.inl ⟨ha, rfl⟩))
    · rename_i a ha; cases h; exact .inr (.inr (.inr ⟨a, ha, rfl⟩))

/-- Bringing a hart forward keeps everything but the harts' places. -/
theorem Evolves.focus {h : Nat} {s t : State} (e : focus h s = some t) : Evolves s t := by
  rcases focus_cases e with ⟨rfl, -⟩ | ⟨k, hko, -, -, rfl⟩
  · exact .refl _
  · have hm : ∀ g ∈ k :: s.others.map (fun j => if j.id = h then s.hart else j), g ∈ s.harts := by
      intro g hg
      rcases List.mem_cons.1 hg with rfl | hg
      · exact List.mem_cons_of_mem _ hko
      · obtain ⟨j, hj, rfl⟩ := List.mem_map.1 hg
        split
        · exact List.mem_cons_self
        · exact List.mem_cons_of_mem _ hj
    exact ⟨rfl, rfl, id, List.prefix_refl _, List.prefix_refl _, List.prefix_refl _, Nat.le_refl _, id, Nat.le_refl _, id, id,
      fun _ _ => id, fun _ a b _ h1 h2 h3 => by
        have h4 : s.task? _ = some b := h3
        rw [h1] at h4; cases h4; exact h2, id, id, framesTidy_congr rfl (Nat.le_refl _),
      fun ⟨h1, h2, h3⟩ => ⟨h1, fun g hg => h2 g (hm g hg), fun st hst g hg => h3 st hst g (hm g hg)⟩⟩

/-- Every step of the machine. -/
theorem Evolves.step {s t : State} (h : step s = .next t) : Evolves s t := by
  obtain ⟨-, ⟨a, u, -, hu, ht⟩ | ⟨a, -, -, rfl⟩ | ⟨-, rfl⟩ | ⟨a, -, rfl⟩⟩ := step_cases h
  · exact ((KernelStep.takeTurn s).toEvolves.trans (.focus hu)).trans (HartMove.hartStep u t ht).evolves
  · exact (KernelStep.takeTurn s).toEvolves
  · exact ((KernelStep.takeTurn s).trans (.maintain _)).toEvolves
  · exact ((KernelStep.takeTurn s).trans (.hostStep a _)).toEvolves

end Sys2Proof.Machine
end

