-- ==== Sys2Proof/Laws/Tasks.lean ====
section
/-! SUPPORT. How a syscall is chosen and what a change of a task's record makes of the state; what adding a task and waking a
parent leave as they were. -/

namespace Sys2Proof.Machine

theorem State.task?_congr {s t : State} (h : t.kernel.tasks = s.kernel.tasks) (q : Nat) : t.task? q = s.task? q := by
  unfold State.task?; rw [h]

theorem State.draw_eq (s : State) :
    s.draw.2 =
      { s with chance := { s.chance with script := s.draw.2.chance.script, drawn := s.draw.2.chance.drawn } } := by
  unfold State.draw; split <;> rfl

theorem State.takeTurn_eq (s : State) : ∃ c, takeTurn s = { s with chance := c } := by
  unfold takeTurn; split <;> exact ⟨_, rfl⟩

/-- A change of one record, after draws at most. -/
theorem TaskBecomes.modTask {s u : State} {pid : Nat} {k : Task} (f : Task → Task) (hk : s.task? pid = some k)
    (hu : u = { s with chance := { s.chance with script := u.chance.script, drawn := u.chance.drawn } }) :
    TaskBecomes s (u.modTask pid f) pid (f k) := by
  refine ⟨?_, ?_, ?_⟩
  · rw [State.task?_modTask, if_pos rfl, hu]; show (s.task? pid).map f = _; rw [hk]; rfl
  · intro q hq; rw [State.task?_modTask, if_neg hq, hu]; rfl
  · unfold State.modTask; rw [hu]

/-- A return value. -/
theorem TaskBecomes.setRet {s : State} {pid : Nat} {k : Task} (v : Word) (hk : s.task? pid = some k) :
    TaskBecomes s (setRet pid v s) pid { k with regs := k.regs.set 10 v } :=
  TaskBecomes.modTask (fun t => t.setReg a0 v) hk rfl

/-- The choice of the syscall, by the saved a7. -/
theorem syscall_eq {who : Holder} {pid : Nat} {s : State} {t : Task} (h : s.task? pid = some t) :
    syscall who pid s =
      if (t.reg a7).toNat = 63 then sysRead pid t s
      else if (t.reg a7).toNat = 64 then sysWrite pid t s
      else if (t.reg a7).toNat = 93 then sysExit pid t s
      else if (t.reg a7).toNat = 124 then sysYield pid s
      else if (t.reg a7).toNat = 172 then sysGetPid pid s
      else if (t.reg a7).toNat = 220 then sysFork who pid t s
      else if (t.reg a7).toNat = 221 then sysExec pid t s
      else if (t.reg a7).toNat = 260 then sysWait pid t s
      else if (t.reg a7).toNat = 1000 then if s.params.debugPrintEnabled then sysDebugPrint pid t s else sysUnknown pid s
      else if (t.reg a7).toNat = 1001 then sysGetTime pid s
      else if (t.reg a7).toNat = 1002 then sysSleep pid t s
      else sysUnknown pid s := by
  unfold syscall; rw [h]

/-! ### FORK's copy always has a meaning -/

theorem allocFrame_runs (o : FrameOwner) (pid vpn : Nat) (b : Bool) (s : State) (r : Refusal) :
    allocFrame o pid vpn b s ≠ .refuse r := by
  unfold allocFrame
  repeat' split
  all_goals nofun

theorem ensureTable_runs (h pid vpn : Nat) (b : Bool) (s : State) (r : Refusal) : ensureTable h pid vpn b s ≠ .refuse r := by
  unfold ensureTable
  split
  · nofun
  · split
    · nofun
    · intro e
      cases ha : allocFrame .pageTable pid vpn b s with
      | ok => rw [ha] at e; cases e
      | fail => rw [ha] at e; cases e
      | refuse r' => exact allocFrame_runs _ _ _ _ _ _ ha

theorem copyLeaf_runs (dst cpid vpn : Nat) (p : Pte) (s : State) (r : Refusal) : copyLeaf dst cpid vpn p s ≠ .refuse r := by
  unfold copyLeaf
  dsimp only
  split
  · nofun
  · intro e
    cases ha : allocFrame (.page cpid vpn) cpid vpn true s with
    | ok => rw [ha] at e; cases e
    | fail => rw [ha] at e; cases e
    | refuse r' => exact allocFrame_runs _ _ _ _ _ _ ha

theorem copyPages_runs (src dst cpid : Nat) (l : List Nat) (s : State) (r : Refusal) :
    copyPages src dst cpid l s ≠ .refuse r := by
  induction l generalizing s with
  | nil => nofun
  | cons v l ih =>
    unfold copyPages
    split
    · exact ih _
    · intro e
      cases he : ensureTable dst cpid v true s with
      | fail => rw [he] at e; cases e
      | refuse r' => exact ensureTable_runs _ _ _ _ _ _ he
      | ok u s1 =>
        rw [he] at e
        simp only [Res.andThen] at e
        split at e
        · exact ih _ e
        · cases hl : copyLeaf dst cpid v _ s1 with
          | fail => rw [hl] at e; cases e
          | refuse r' => exact copyLeaf_runs _ _ _ _ _ _ hl
          | ok f s2 => rw [hl] at e; exact ih _ e

theorem copySpace_runs (src cpid : Nat) (s : State) (r : Refusal) : copySpace src cpid s ≠ .refuse r := by
  unfold copySpace
  split
  · unfold copyPaged
    split
    · nofun
    · dsimp only
      split
      · nofun
      · nofun
      · rename_i hc; exact absurd hc (copyPages_runs _ _ _ _ _ _)
  · intro e
    cases ha : allocateBlock cpid s.params.contigTaskSize s with
    | fail => rw [ha] at e; cases e
    | ok h s1 => rw [ha] at e; simp only [Res.andThen] at e; split at e <;> cases e
    | refuse r' =>
      unfold allocateBlock at ha
      repeat' split at ha
      all_goals cases ha

/-! ### The scheduler and the queues -/

theorem addTask_same (who : Holder) (pid : Nat) (s : State) :
    (∀ q, (addTask who pid s).task? q = s.task? q) ∧ (addTask who pid s).waits = s.waits ∧
      (addTask who pid s).io = s.io ∧ ∀ q, q ≠ pid → q ∈ (addTask who pid s).sched.ready → q ∈ s.sched.ready := by
  unfold addTask withLock enqueue
  split
  · split
    · exact ⟨fun _ => rfl, rfl, rfl, fun _ _ => id⟩
    · refine ⟨fun _ => rfl, rfl, rfl, fun q hq h => ?_⟩
      have h : q ∈ s.sched.ready ++ [pid] := h
      simp [hq] at h; exact h
  · split <;> exact ⟨fun _ => rfl, rfl, rfl, fun _ _ => id⟩

/-- With the lock free, adding a task changes the scheduler alone. -/
theorem addTask_eq (who : Holder) (pid : Nat) (s : State) (h : s.sched.lock = none) :
    addTask who pid s = { s with sched := (addTask who pid s).sched } := by
  unfold addTask withLock; rw [h]; dsimp only; unfold enqueue; split <;> rfl

/-- With the lock free, dispatching a task leaves its record, and every other record but that of a TERMINATED task's parent. -/
theorem dispatch_spec (who : Holder) (pid : Nat) (s : State) (k : Task) (hk : s.task? pid = some k) (hl : s.sched.lock = none) :
    (dispatchTask who pid s).task? pid = some k ∧
    (∀ q, (k.state ≠ .terminated ∨ k.parent ≠ some q) → (dispatchTask who pid s).task? q = s.task? q) ∧
    dispatchTask who pid s = { s with
      kernel := { s.kernel with tasks := (dispatchTask who pid s).kernel.tasks }
      sched := (dispatchTask who pid s).sched
      waits := (dispatchTask who pid s).waits } := by
  unfold dispatchTask
  rw [hk]; dsimp only
  have ht : ∀ (u : State), u.sched.lock = none → ∀ p q, (addTask who p u).task? q = u.task? q := fun u hu p q => by
    rw [addTask_eq who p u hu]; rfl
  split
  · refine ⟨by rw [ht s hl]; exact hk, fun q _ => ht s hl pid q, ?_⟩
    conv_lhs => rw [addTask_eq who pid s hl]
    rw [addTask_eq who pid s hl]
  · refine ⟨?_, fun q _ => ?_, ?_⟩
    · unfold enterQueue; repeat' split
      all_goals exact hk
    · unfold enterQueue; repeat' split
      all_goals rfl
    · unfold enterQueue; repeat' split
      all_goals rfl
  · rename_i hst
    unfold wakeParentOf
    rw [hk]; simp only [Option.bind_some]
    split
    · exact ⟨hk, fun _ _ => rfl, rfl⟩
    · rename_i pp hpp
      split
      · exact ⟨hk, fun _ _ => rfl, rfl⟩
      · rename_i p hp
        split
        · rename_i hw
          have hne : pid ≠ pp := by
            rintro rfl; rw [hk] at hp; cases hp; unfold Task.waitsFor at hw; simp [hst] at hw
          let w : State := ({ s with waits := { s.waits with
            io := s.waits.io.filter (fun q => q ≠ pp), childTerm := s.waits.childTerm.filter (fun e => e.2 ≠ pp) } } :
              State).modTask pp Task.woken
          have hbase : ∀ u : State, u.kernel = w.kernel → u.task? pid = some k ∧
              ∀ q, (k.state ≠ .terminated ∨ k.parent ≠ some q) → u.task? q = s.task? q := by
            intro u hu
            have h1 : ∀ q, u.task? q = w.task? q := fun q => by unfold State.task?; rw [hu]
            refine ⟨?_, fun q hq => ?_⟩
            · rw [h1, State.task?_modTask, if_neg hne]; exact hk
            · have hqp : q ≠ pp := by
                rintro rfl
                rcases hq with hq | hq
                · exact hq hst
                · exact hq hpp
              rw [h1, State.task?_modTask, if_neg hqp]; rfl
          split
          · have hadd := addTask_eq who pp w hl
            obtain ⟨h1, h2⟩ := hbase (addTask who pp w) (by rw [hadd])
            refine ⟨h1, h2, ?_⟩
            change addTask who pp w = { s with
              kernel := { s.kernel with tasks := (addTask who pp w).kernel.tasks }
              sched := (addTask who pp w).sched
              waits := (addTask who pp w).waits }
            conv_lhs => rw [hadd]
            rw [hadd]; rfl
          · obtain ⟨h1, h2⟩ := hbase w rfl
            exact ⟨h1, h2, rfl⟩
        · exact ⟨hk, fun _ _ => rfl, rfl⟩
  · exact ⟨hk, fun _ _ => rfl, rfl⟩

/-! ### What leaves the harts as they are -/

/-- No hart has changed. -/
def SameHarts (s t : State) : Prop := t.hart = s.hart ∧ t.others = s.others

theorem SameHarts.trans {s t u : State} (h : SameHarts s t) (k : SameHarts t u) : SameHarts s u :=
  ⟨k.1.trans h.1, k.2.trans h.2⟩

theorem SameHarts.addTask (who : Holder) (pid : Nat) (s : State) : SameHarts s (addTask who pid s) := by
  unfold Machine.addTask withLock enqueue
  split
  · split <;> exact ⟨rfl, rfl⟩
  · split <;> exact ⟨rfl, rfl⟩

theorem SameHarts.removeTask (who : Holder) (pid : Nat) (s : State) : SameHarts s (removeTask who pid s) := by
  unfold Machine.removeTask withLock
  split
  · exact ⟨rfl, rfl⟩
  · split <;> exact ⟨rfl, rfl⟩

theorem SameHarts.wakeParentOf (who : Holder) (c : Nat) (s : State) : SameHarts s (wakeParentOf who c s) := by
  unfold Machine.wakeParentOf
  split
  · exact ⟨rfl, rfl⟩
  · split
    · exact ⟨rfl, rfl⟩
    · split
      · dsimp only
        split
        · exact .addTask _ _ _
        · exact ⟨rfl, rfl⟩
      · exact ⟨rfl, rfl⟩

theorem SameHarts.wakeReaders (l : List Nat) (s : State) : SameHarts s (wakeReaders l s) := by
  induction l generalizing s with
  | nil => exact ⟨rfl, rfl⟩
  | cons w l ih =>
    unfold Machine.wakeReaders
    split
    · exact ih s
    · split
      · refine SameHarts.trans ?_ (ih _)
        exact SameHarts.addTask .maintenance w (({ s with waits := { s.waits with
          io := s.waits.io.filter (fun p => p ≠ w) } } : State).modTask w Task.woken)
      · exact ih s

theorem SameHarts.wakeSleepers (n : Nat) (s : State) : SameHarts s (wakeSleepers n s) := by
  induction n generalizing s with
  | zero => exact ⟨rfl, rfl⟩
  | succ n ih =>
    unfold Machine.wakeSleepers
    split
    · exact ⟨rfl, rfl⟩
    · split
      · split
        · exact ⟨rfl, rfl⟩
        · rename_i h
          have h1 := (PagingStep.choose h).1
          refine SameHarts.trans ?_ (ih _)
          exact ⟨(SameHarts.addTask ..).1.trans h1.hart, (SameHarts.addTask ..).2.trans h1.others⟩
      · exact ⟨rfl, rfl⟩

theorem SameHarts.maintain (s : State) : SameHarts s (maintain s) := by
  unfold Machine.maintain
  split
  · exact ⟨rfl, rfl⟩
  · dsimp only
    split
    · exact (SameHarts.wakeReaders ..).trans (.wakeSleepers ..)
    · exact .wakeSleepers ..

theorem SameHarts.terminateTask (pid : Nat) (s : State) : SameHarts s (terminateTask pid s) := by
  unfold Machine.terminateTask
  split
  · exact ⟨rfl, rfl⟩
  · split
    · exact ⟨rfl, rfl⟩
    · have h1 := PagingStep.draw s
      have h2 : SameHarts s (unqueue pid (Machine.removeTask .host pid (s.drawWord.2.modTask pid (fun u => u.exit s.drawWord.1)))) :=
        ⟨(SameHarts.removeTask .host pid _).1.trans h1.hart, (SameHarts.removeTask .host pid _).2.trans h1.others⟩
      dsimp only
      split
      · exact h2.trans (.wakeParentOf ..)
      · exact h2

theorem SameHarts.hostStep (a : HostAction) (s : State) : SameHarts s (hostStep a s) := by
  cases a with
  | terminateTask pid => exact .terminateTask pid s
  | pushByte b => exact ⟨rfl, rfl⟩
  | advanceClock ms => exact ⟨rfl, rfl⟩
  | shutdown => exact ⟨rfl, rfl⟩
  | setPaused p => exact ⟨rfl, rfl⟩
  | setDelay ms => exact ⟨rfl, rfl⟩

theorem Task.woken_woken (k : Task) : k.woken.woken = k.woken := by
  unfold Task.woken Task.goTo
  by_cases h : k.state = .terminated
  · simp [h]
  · simp [h]

end Sys2Proof.Machine
end

