-- ==== Sys2Proof/Laws/Copies.lean ====
section
/-! SUPPORT. What FORK copies, said once: placing and sliding blocks keeps the bytes of every block, and copying pages gives the new space
every page of the old one, with its bytes, where frames enough are free. -/

namespace Sys2Proof.Machine

/-! ### Blocks -/

/-- Sliding the blocks: a handle keeps a block of its size, and the block its bytes. -/
theorem slide_blocks (l : List Block) (at0 : Nat) (m : Memory) (ho : BlocksOrdered l) (hlo : ∀ b ∈ l, at0 ≤ b.start) :
   (∀ x, x < at0 → (slideBlocks l at0 m).2.2.read x = m.read x) ∧
   ∀ g d, blockOf l g = some d → ∃ e, blockOf (slideBlocks l at0 m).1 g = some e ∧ e.pid = d.pid ∧ e.size = d.size ∧
     ∀ k, k < d.size → (slideBlocks l at0 m).2.2.read (e.start + k) = m.read (d.start + k) := by
  induction l generalizing at0 m with
  | nil => exact ⟨fun _ _ => rfl, fun g d h => by simp [blockOf] at h⟩
  | cons d l ih =>
    have ho' := List.pairwise_cons.1 ho
    have hd := hlo d List.mem_cons_self
    obtain ⟨j3, j4⟩ := ih (at0 + d.size) (m.copy d.start at0 d.size) ho'.2 (fun b hb => by have := ho'.1 b hb; omega)
    refine ⟨?_, ?_⟩
    · intro x hx
      show (slideBlocks l _ _).2.2.read x = _
      rw [j3 x (by omega), Memory.read_copy, if_neg (by omega)]
    · intro g b hb
      unfold blockOf at hb
      rw [List.find?_cons] at hb
      by_cases hg : d.space = g
      · simp only [hg, decide_true] at hb
        cases hb
        refine ⟨{ d with start := at0 }, ?_, rfl, rfl, fun k hk => ?_⟩
        · unfold blockOf slideBlocks
          rw [List.find?_cons]; simp [hg]
        · show (slideBlocks l _ _).2.2.read _ = _
          rw [j3 _ (by show at0 + k < at0 + d.size; omega), Memory.read_copy, if_pos (by show at0 ≤ at0 + k ∧ at0 + k < at0 + d.size; omega)]
          congr 1
          show d.start + (at0 + k - at0) = _; omega
      · simp only [hg, decide_false] at hb
        obtain ⟨e, h1, h2, h3, h4⟩ := j4 g b hb
        refine ⟨e, ?_, h2, h3, fun k hk => ?_⟩
        · unfold blockOf slideBlocks
          unfold blockOf at h1
          rw [List.find?_cons]; simpa [hg] using h1
        · refine (h4 k hk).trans ?_
          rw [Memory.read_copy, if_neg]
          have := ho'.1 b (List.mem_of_find?_eq_some hb)
          omega

theorem blockOf_mem {l : List Block} {g : Nat} {b : Block} (h : blockOf l g = some b) : b ∈ l ∧ b.space = g :=
  ⟨List.mem_of_find?_eq_some h, by simpa using List.find?_some h⟩

/-- Bytes drawn: as many as asked, and nothing but the draws changes. -/
theorem drawBytes_spec (n : Nat) (s : State) : (State.drawBytes n s).1.length = n ∧
    ∃ c, (State.drawBytes n s).2 = { s with chance := c } := by
  induction n generalizing s with
  | zero => exact ⟨rfl, _, rfl⟩
  | succ n ih =>
    obtain ⟨h1, c, h2⟩ := ih s.drawByte.2
    refine ⟨by show _ + 1 = _; rw [h1], c, ?_⟩
    show (State.drawBytes n s.drawByte.2).2 = _
    rw [h2]
    unfold State.drawByte State.draw
    dsimp only
    split <;> rfl

theorem blockOf_inserted (b : Block) (l : List Block) (h : ∀ c ∈ l, c.space ≠ b.space) : blockOf
      (insertBlock b l) b.space = some b := by
  unfold blockOf
  induction l with
  | nil => simp [insertBlock]
  | cons c l ih =>
    unfold insertBlock
    split
    · simp
    · rw [List.find?_cons, ih (fun d hd => h d (List.mem_cons_of_mem _ hd))]
      simp [h c List.mem_cons_self]

/-- A block placed has the next handle and touches no other, and the others keep their bytes. -/
theorem placeBlock_spec {pid n : Nat} {s u : State} {h : Nat} (hs : s.blocksTidy) (e : placeBlock pid n s = some (h, u)) :
    h = s.kernel.nextSpace ∧ (∃ c, u.block? h = some c ∧ c.pid = pid ∧ c.size = n ∧
      (∀ g d, s.block? g = some d → c.start + c.size ≤ d.start ∨ d.start + d.size ≤ c.start)) ∧
    (∀ g d, s.block? g = some d → u.block? g = some d ∧ ∀ k, k < d.size → u.ram.read (d.start + k) = s.ram.read
      (d.start + k)) := by
  unfold placeBlock at e
  split at e
  · cases e
  · rename_i hole hh
    obtain ⟨hm, hle⟩ := pickHole_mem hh
    cases e
    obtain ⟨d1, c, d2⟩ := drawBytes_spec n s
    obtain ⟨h1, h2, h3, h4, h5, h6, h7, h8, h9⟩ := hs
    refine ⟨rfl, ⟨{ pid := pid, start := hole.start, size := n, space := s.kernel.nextSpace }, ?_, rfl, rfl, ?_⟩, ?_⟩
    · exact blockOf_inserted _ _ (fun c hc => by have := h9 c hc; dsimp only; omega)
    · intro g d hd
      have := h6 hole hm d (blockOf_mem hd).1
      dsimp only; omega
    · intro g d hd
      obtain ⟨i1, i2⟩ := blockOf_mem hd
      have := h9 d i1
      refine ⟨?_, fun k hk => ?_⟩
      · show blockOf (insertBlock _ _) g = _
        rw [blockOf_insert _ _ (by dsimp only; omega)]; exact hd
      · show ((State.drawBytes n s).2.ram.writeBytes _ _).read _ = _
        rw [Memory.read_writeBytes, d1, d2, if_neg]
        have := h6 hole hm d i1
        omega

/-- Picking the best of a list finds none just where there is none. -/
theorem foldl_best_none {α : Type} (better : α → α → Bool) (F : Option α → α → Option α) (hF0 : ∀ h, F none h = some h) (hF :
      ∀ b h, F (some b) h = if better h b = true then some h else some b) (l : List α) (acc : Option α) :
   l.foldl F acc = none ↔ l = [] ∧ acc = none := by
  induction l generalizing acc with
  | nil => simp
  | cons x l ih =>
    rw [List.foldl_cons, ih]
    cases acc with
    | none => simp [hF0]
    | some b => rw [hF]; split <;> simp

/-- No hole is picked just where none is large enough. -/
theorem pickHole_none (st : AllocStrategy) (n : Nat) (holes : List Hole) :
      pickHole st n holes = none ↔ ∀ h ∈ holes, h.size < n := by
  unfold pickHole
  refine (foldl_best_none (fun h b => h.betterThan st b) _ ?_ ?_ (holes.filter (fun h => decide (n ≤ h.size))) none).trans ?_
  · intro _; rfl
  · intro _ _; rfl
  · simp

theorem placeBlock_none {pid n : Nat} {s : State} : placeBlock pid n s = none ↔ ∀ h ∈ s.contig.holes, h.size < n := by
  rw [← pickHole_none s.strategy]
  unfold placeBlock
  cases pickHole s.strategy n s.contig.holes <;> simp

theorem holeTotal_eq (l : List Hole) : holeTotal l = (l.map (fun h => h.size)).sum := by
  unfold holeTotal
  exact List.sum_eq_foldl.symm

theorem hole_le_sum {l : List Hole} {h : Hole} (m : h ∈ l) : h.size ≤ (l.map (fun h => h.size)).sum := by
  induction l with
  | nil => cases m
  | cons c l ih =>
    rw [List.map_cons, List.sum_cons]
    rcases List.mem_cons.1 m with rfl | m
    · omega
    · have := ih m; omega

/-! ### Pages -/

/-- With a frame free, an allocation takes one. -/
theorem allocFrame_free {o : FrameOwner} {pid vpn : Nat} {e : Bool} {s : State} (h : s.freeFrames ≠ []) :
    ∃ f t, allocFrame o pid vpn e s = .ok f t ∧ takeFree o s = some (f, t) := by
  obtain ⟨f, t, ht⟩ := takeFree_isSome o s h
  exact ⟨f, t, by unfold allocFrame; rw [ht], ht⟩

theorem freeFrames_congr {s t : State} (h : SameFrames s t) : t.freeFrames = s.freeFrames := by
  unfold State.freeFrames
  rw [h.1]
  congr 1; funext f; exact (h.2 f).1

/-- A frame taken leaves one fewer. -/
theorem takeFree_count {o : FrameOwner} {s t : State} {f : Nat} (h : takeFree o s = some (f, t)) :
    t.freeFrames.length + 1 = s.freeFrames.length := by
  obtain ⟨hm, -, hg, -, hl⟩ := takeFree_some h
  have hf := (takeFree_frame h).2.2.1
  have hn : s.freeFrames.Nodup := (List.nodup_range).filter _
  have : t.freeFrames = s.freeFrames.filter (fun g => g != f) := by
    unfold State.freeFrames
    rw [List.filter_filter, hl]
    congr 1; funext g
    by_cases e : g = f
    · subst e; simp [hf]
    · simp [e, hg g e]
  rw [this, ← hn.erase_eq_filter, List.length_erase_of_mem hm]
  have := List.length_pos_of_mem hm
  omega

/-- What filling a space keeps: the records, the other spaces, and the pages it has already, with their bytes. -/
structure Fills (dst : Nat) (s t : State) : Prop where
  tidy : t.framesTidy
  others : ∀ g, g ≠ dst → t.space? g = s.space? g
  kept : ∀ g v p, s.mapping? g v = some p → t.mapping? g v = some p ∧
    ∀ i, i < 4096 → t.ram.read (p.ppn * 4096 + i) = s.ram.read (p.ppn * 4096 + i)
  space : ∀ a, s.space? dst = some a → ∃ b, t.space? dst = some b ∧ b.pid = a.pid ∧ b.regions = a.regions

theorem Fills.refl {dst : Nat} {s : State} (h : s.framesTidy) : Fills dst s s :=
  ⟨h, fun _ _ => rfl, fun _ _ _ h => ⟨h, fun _ _ => rfl⟩, fun a h => ⟨a, h, rfl, rfl⟩⟩

theorem Fills.trans {dst : Nat} {s t u : State} (h : Fills dst s t) (k : Fills dst t u) : Fills dst s u :=
  ⟨k.tidy, fun g e => (k.others g e).trans (h.others g e), fun g v p e =>
    ⟨(k.kept g v p (h.kept g v p e).1).1, fun i hi => ((k.kept g v p (h.kept g v p e).1).2 i hi).trans ((h.kept g v p e).2 i hi)⟩,
   fun a e => by
    obtain ⟨b, hb, b1, b2⟩ := h.space a e
    obtain ⟨c, hc, c1, c2⟩ := k.space b hb
    exact ⟨c, hc, c1.trans b1, c2.trans b2⟩⟩

/-- A table is there, or takes one free frame. -/
theorem ensureTable_fills {dst cpid vpn : Nat} {e : Bool} {s : State} {a : AddrSpace} (hs : s.framesTidy)
    (ha : s.space? dst = some a) (hf : s.tableAt dst (l1Index vpn) = none → 1 ≤ s.freeFrames.length) :
    ∃ t, ensureTable dst cpid vpn e s = .ok () t ∧ Fills dst s t ∧ (∀ v, t.mapping? dst v = s.mapping? dst v) ∧
      (∀ l, t.tableAt dst l = none ↔ s.tableAt dst l = none ∧ l ≠ l1Index vpn) ∧
      t.freeFrames.length + (if s.tableAt dst (l1Index vpn) = none then 1 else 0) = s.freeFrames.length := by
  cases hd : assocGet a.directory (l1Index vpn) with
  | some x =>
    have h1 : s.tableAt dst (l1Index vpn) ≠ none := (tableAt_ne_none ha _).2 (by rw [hd]; simp)
    refine ⟨s, by unfold ensureTable; rw [ha]; dsimp only; rw [hd], .refl hs, fun _ => rfl, fun l => ⟨fun h => ⟨h, ?_⟩, And.left⟩, by rw [if_neg h1]; rfl⟩
    rintro rfl; exact h1 h
  | none =>
    have h1 : s.tableAt dst (l1Index vpn) = none := by
      by_contra h; exact (tableAt_ne_none ha _).1 h hd
    have hfree := hf h1
    obtain ⟨f, s1, hal, ht⟩ := allocFrame_free (o := .pageTable) (pid := cpid) (vpn := vpn) (e := e) (s := s) (by intro h; rw [h] at hfree; simp at hfree)
    let t : State := s1.modSpace dst (fun b => { b with directory := assocSet b.directory (l1Index vpn) { frame := f, ptes := [] } })
    have hr : ensureTable dst cpid vpn e s = .ok () t := by
      unfold ensureTable; rw [ha]; dsimp only; rw [hd]; dsimp only; rw [hal]; rfl
    obtain ⟨f1, f2, f3, f4, f5, f6, f7⟩ := takeFree_frame ht
    have hsp : t.paging.spaces = assocModify s.paging.spaces dst (fun b => { b with directory := assocSet b.directory (l1Index vpn) { frame := f, ptes := [] } }) := by
      rw [← f6]; rfl
    have hmap : ∀ g v, t.mapping? g v = s.mapping? g v := fun g v => by
      unfold State.mapping?
      rw [State.space?_set hsp]
      split
      · rename_i e'; subst e'
        rw [ha, Option.map_some, Option.bind_some, Option.bind_some, AddrSpace.pte?_addTable _ hd]
      · rfl
    refine ⟨t, hr, ⟨(ensureTable_gives hs hr).1, fun g hg => ?_, fun g v p h => ⟨by rw [hmap]; exact h, fun i hi => ?_⟩,
        fun b hb => ?_⟩, hmap dst, fun l => ?_, ?_⟩
    · rw [State.space?_set hsp, if_neg hg]
    · show s1.ram.read _ = _
      rw [(takeFree_some ht).2.2.2.1]
    · rw [ha] at hb; cases hb
      rw [State.space?_set hsp, if_pos rfl, ha]
      exact ⟨_, rfl, rfl, rfl⟩
    · unfold State.tableAt
      rw [State.space?_set hsp, if_pos rfl, ha, Option.map_some, Option.bind_some, Option.bind_some]
      dsimp only
      rw [assocGet_set]
      split
      · rename_i e'; simp [e']
      · rename_i e'; simp [e']
    · rw [if_pos h1, ← takeFree_count ht]
      rfl

theorem Fills.mapped {s : State} (hs : s.framesTidy) {g v : Nat} {p : Pte} (h : s.mapping? g v = some p) :
    p.ppn < s.paging.frames.length ∧ (s.frame p.ppn).free = false := by
  obtain ⟨a, ha, -, -⟩ := State.mapping?_some h
  obtain ⟨h1, h2⟩ := hs.2.2.1 g a v p ha h
  refine ⟨h1, ?_⟩
  cases hf : (s.frame p.ppn).free with
  | false => rfl
  | true =>
    have := (hs.free h1 hf).1
    rw [this] at h2
    split at h2
    · obtain ⟨_, h2⟩ := h2; cases h2
    · cases h2

/-- One page copied: shared, or with its bytes in a frame of its own. -/
theorem copyLeaf_fills {src dst cpid vpn : Nat} {p : Pte} {s : State} {a : AddrSpace} (hs : s.framesTidy)
    (hp : s.mapping? src vpn = some p) (ha : s.space? dst = some a) (hc : a.pid = cpid)
    (hd : s.tableAt dst (l1Index vpn) ≠ none) (hm : s.mapping? dst vpn = none)
    (hf : p.shared = false → 1 ≤ s.freeFrames.length) :
    ∃ t, copyLeaf dst cpid vpn p s = .ok () t ∧ Fills dst s t ∧ (∀ v, v ≠ vpn → t.mapping? dst v = s.mapping? dst v) ∧
      (∀ l, t.tableAt dst l = s.tableAt dst l) ∧
      t.freeFrames.length + (if p.shared then 0 else 1) = s.freeFrames.length ∧
      ∃ q, t.mapping? dst vpn = some q ∧ q.perms = p.perms ∧ q.shared = p.shared ∧
        q.accessed = false ∧ q.dirty = false ∧ (p.shared = true → q.ppn = p.ppn) ∧ (p.shared = false → q.ppn ≠ p.ppn) ∧
        ∀ i, i < 4096 → t.ram.read (q.ppn * 4096 + i) = s.ram.read (p.ppn * 4096 + i) := by
  have hd' := (tableAt_ne_none ha _).1 hd
  obtain ⟨-, -, -, hv⟩ := State.mapping?_some hp
  have hg := (copyLeaf_gives hs hp ha hc hd' hm).2
  have hpf := Fills.mapped hs hp
  by_cases hsh : p.shared = true
  · let q : Pte := { p with accessed := false, dirty := false }
    let t : State := incRef p.ppn (s.modSpace dst (fun a => a.setPte vpn q))
    have hr : copyLeaf dst cpid vpn p s = .ok () t := by unfold copyLeaf; dsimp only; rw [if_pos hsh]
    have hsp : t.paging.spaces = assocModify s.paging.spaces dst (fun a => a.setPte vpn q) := rfl
    have hmap := mapping?_setPte ha hd' hsp
    refine ⟨t, hr, ⟨(hg t hr).1, fun g hgd => ?_, fun g v r h => ⟨?_, fun _ _ => rfl⟩, fun b hb => ?_⟩, fun v hne => ?_,
        fun l => tableAt_setPte hsp dst l, ?_, q, ?_, rfl, rfl, rfl, rfl, fun _ => rfl, fun h => (by rw [hsh] at h; cases h),
        fun _ _ => rfl⟩
    · rw [State.space?_set hsp, if_neg hgd]
    · rw [hmap, if_neg]; exact h
      rintro ⟨rfl, rfl⟩; rw [hm] at h; cases h
    · rw [ha] at hb; cases hb
      rw [State.space?_set hsp, if_pos rfl, ha]; exact ⟨_, rfl, rfl, rfl⟩
    · rw [hmap, if_neg (fun h => hne h.2)]
    · rw [hsh, if_pos rfl]
      have hfr := incRef_gives p.ppn (s.modSpace dst (fun a => a.setPte vpn q)) hpf.1
      have : t.freeFrames = s.freeFrames := by
        unfold State.freeFrames
        have hl : t.paging.frames.length = s.paging.frames.length := (PagingStep.incRef ..).frames
        rw [hl]
        congr 1; funext f
        rw [show t.frame f = _ from hfr f]
        split
        · rename_i e; rw [e]; rfl
        · rfl
      rw [this]; rfl
    · rw [hmap, if_pos ⟨rfl, rfl⟩]; simp [q, hv]
  · have hsf : p.shared = false := by simpa using hsh
    have hfree := hf hsf
    obtain ⟨f, s1, hal, ht⟩ := allocFrame_free (o := .page cpid vpn) (pid := cpid) (vpn := vpn) (e := true) (s := s)
        (by intro h; rw [h] at hfree; simp at hfree)
    let q : Pte := { p with accessed := false, dirty := false, ppn := f }
    let u : State := { s1 with ram := s1.ram.copy (p.ppn * 4096) (f * 4096) 4096 }
    let t : State := onMap f (u.modSpace dst (fun a => a.setPte vpn q))
    have hr : copyLeaf dst cpid vpn p s = .ok () t := by
      unfold copyLeaf; dsimp only; rw [if_neg hsh, hal]; rfl
    obtain ⟨f1, f2, f3, f4, f5, f6, f7⟩ := takeFree_frame ht
    have hsp : t.paging.spaces = assocModify s.paging.spaces dst (fun a => a.setPte vpn q) := by
      rw [(onMap_frames f (u.modSpace dst (fun a => a.setPte vpn q))).2, ← f6]; rfl
    have hmap := mapping?_setPte ha hd' hsp
    have hram : t.ram = s.ram.copy (p.ppn * 4096) (f * 4096) 4096 := by
      rw [← (takeFree_some ht).2.2.2.1]
      have h0 : ∀ m : Memory, (onMap f (State.modSpace { s1 with ram := m } dst (fun a => a.setPte vpn q))).ram = m :=
        fun m => onMap_ram f _
      exact h0 _
    have hapart : ∀ r : Pte, (s.frame r.ppn).free = false → r.ppn ≠ f := fun r hr e => by rw [e, f2] at hr; cases hr
    refine ⟨t, hr, ⟨(hg t hr).1, fun g hgd => ?_, fun g v r h => ⟨?_, fun i hi => ?_⟩, fun b hb => ?_⟩, fun v hne => ?_,
        fun l => tableAt_setPte hsp dst l, ?_, q, ?_, rfl, rfl, rfl, rfl, fun h => absurd h hsh, fun _ => ?_, fun i hi => ?_⟩
    · rw [State.space?_set hsp, if_neg hgd]
    · rw [hmap, if_neg]; exact h
      rintro ⟨rfl, rfl⟩; rw [hm] at h; cases h
    · have := hapart r (Fills.mapped hs h).2
      rw [hram, Memory.read_copy, if_neg]
      omega
    · rw [ha] at hb; cases hb
      rw [State.space?_set hsp, if_pos rfl, ha]; exact ⟨_, rfl, rfl, rfl⟩
    · rw [hmap, if_neg (fun h => hne h.2)]
    · rw [hsf, ← takeFree_count ht]
      have : t.freeFrames = s1.freeFrames := freeFrames_congr (SameFrames.trans ⟨rfl, fun _ => ⟨rfl, rfl, rfl⟩⟩
          (onMap_frames f (u.modSpace dst (fun a => a.setPte vpn q))).1)
      rw [this]; rfl
    · rw [hmap, if_pos ⟨rfl, rfl⟩]; simp [q, hv]
    · exact fun e => hapart p hpf.2 e.symm
    · rw [hram, Memory.read_copy, if_pos ⟨Nat.le_add_right _ _, by show f * 4096 + i < _; omega⟩, Nat.add_sub_cancel_left]

/-- The L2 tables that the pages of a list need and a space has not. -/
def State.tablesNeeded (s : State) (dst : Nat) (l : List Nat) : Nat :=
  ((l.map l1Index).toFinset.filter (fun x => s.tableAt dst x = none)).card

/-- The pages of a list that need a frame of their own. -/
def State.privatePages (s : State) (src : Nat) (l : List Nat) : Nat :=
  (l.filter (fun v => (s.mapping? src v).any (fun p => !p.shared))).length

/-- The pages of a list copied, where frames enough are free. -/
theorem copyPages_fills {src dst cpid : Nat} (l : List Nat) {s : State} {a : AddrSpace} (hs : s.framesTidy) (hne : src ≠ dst)
    (ha : s.space? dst = some a) (hc : a.pid = cpid) (hn : l.Nodup) (hm : ∀ v ∈ l, s.mapping? dst v = none)
    (hl : s.tablesNeeded dst l + s.privatePages src l ≤ s.freeFrames.length) :
    ∃ t, copyPages src dst cpid l s = .ok () t ∧ Fills dst s t ∧
      (∀ v, v ∉ l → t.mapping? dst v = s.mapping? dst v) ∧
      (∀ v ∈ l, s.mapping? src v = none → t.mapping? dst v = none) ∧
      ∀ v ∈ l, ∀ p, s.mapping? src v = some p → ∃ q, t.mapping? dst v = some q ∧ q.perms = p.perms ∧ q.shared = p.shared ∧
        q.accessed = false ∧ q.dirty = false ∧ (p.shared = true → q.ppn = p.ppn) ∧ (p.shared = false → q.ppn ≠ p.ppn) ∧
        ∀ i, i < 4096 → t.ram.read (q.ppn * 4096 + i) = s.ram.read (p.ppn * 4096 + i) := by
  induction l generalizing s a with
  | nil => exact ⟨s, rfl, .refl hs, fun _ _ => rfl, nofun, nofun⟩
  | cons v l ih =>
    obtain ⟨hn1, hn2⟩ := List.nodup_cons.1 hn
    have hmv := hm v List.mem_cons_self
    have hml := fun w hw => hm w (List.mem_cons_of_mem v hw)
    cases hp : s.mapping? src v with
    | none =>
      have e1 : s.tablesNeeded dst l ≤ s.tablesNeeded dst (v :: l) := by
        unfold State.tablesNeeded
        refine Finset.card_le_card (Finset.filter_subset_filter _ ?_)
        simp
      have e2 : s.privatePages src (v :: l) = s.privatePages src l := by
        unfold State.privatePages; rw [List.filter_cons_of_neg (by rw [hp]; simp)]
      obtain ⟨t, h1, h2, h3, h4, h5⟩ := ih hs ha hc hn2 hml (by omega)
      refine ⟨t, by unfold copyPages; rw [hp]; exact h1, h2, fun w hw => h3 w (fun h => hw (List.mem_cons_of_mem _ h)),
          fun w hw hwn => ?_, fun w hw p hwp => ?_⟩
      · rcases List.mem_cons.1 hw with rfl | hw
        · rw [h3 w hn1, hmv]
        · exact h4 w hw hwn
      · rcases List.mem_cons.1 hw with rfl | hw
        · rw [hp] at hwp; cases hwp
        · exact h5 w hw p hwp
    | some p =>
      have hmemt : s.tableAt dst (l1Index v) = none → 1 ≤ s.tablesNeeded dst (v :: l) := fun h => by
        unfold State.tablesNeeded
        refine Finset.card_pos.2 ⟨l1Index v, ?_⟩
        simp [h]
      obtain ⟨s1, g1, g2, g3, g4, g5⟩ := ensureTable_fills (cpid := cpid) (vpn := v) (e := true) hs ha (fun h => by have := hmemt h; omega)
      obtain ⟨b, hb, b1, b2⟩ := g2.space a ha
      have hp1 : s1.mapping? src v = some p := (g2.kept src v p hp).1
      have e1 : s1.tablesNeeded dst l + (if s.tableAt dst (l1Index v) = none then 1 else 0) ≤ s.tablesNeeded dst (v :: l) := by
        unfold State.tablesNeeded
        have hset : (l.map l1Index).toFinset.filter (fun x => s1.tableAt dst x = none) =
            ((l.map l1Index).toFinset.filter (fun x => s.tableAt dst x = none)).erase (l1Index v) := by
          ext x
          simp only [Finset.mem_filter, Finset.mem_erase, g4]
          tauto
        rw [hset]
        split
        · rename_i hnone
          have hin : l1Index v ∈ ((v :: l).map l1Index).toFinset.filter (fun x => s.tableAt dst x = none) := by simp [hnone]
          have hsub : ((l.map l1Index).toFinset.filter (fun x => s.tableAt dst x = none)).erase (l1Index v) ⊆
              (((v :: l).map l1Index).toFinset.filter (fun x => s.tableAt dst x = none)).erase (l1Index v) := by
            refine Finset.erase_subset_erase _ (Finset.filter_subset_filter _ ?_)
            simp
          have := Finset.card_le_card hsub
          rw [Finset.card_erase_of_mem hin] at this
          have := Finset.card_pos.2 ⟨_, hin⟩
          omega
        · refine Finset.card_le_card ((Finset.erase_subset (l1Index v) ((l.map l1Index).toFinset.filter (fun x =>
              s.tableAt dst x = none))).trans (Finset.filter_subset_filter _ (fun x hx => ?_)))
          rw [List.map_cons, List.toFinset_cons]
          exact Finset.mem_insert_of_mem hx
      have e2 : s.privatePages src (v :: l) = s.privatePages src l + (if p.shared then 0 else 1) := by
        unfold State.privatePages
        cases hsh : p.shared with
        | true => rw [List.filter_cons_of_neg (by rw [hp]; simp [hsh])]; rfl
        | false => rw [List.filter_cons_of_pos (by rw [hp]; simp [hsh])]; rfl
      have hmap1 : ∀ w, s1.mapping? src w = s.mapping? src w := fun w => by
        unfold State.mapping?; rw [g2.others src hne]
      have htab : s1.tableAt dst (l1Index v) ≠ none := fun h => ((g4 _).1 h).2 rfl
      obtain ⟨s2, k1, k2, k3, k4, k5, q, k6⟩ := copyLeaf_fills (cpid := cpid) g2.tidy hp1 hb (b1.trans hc) htab (by rw [g3, hmv])
        (fun h => by rw [h] at e2; simp at e2; omega)
      obtain ⟨c, hcs, c1, c2⟩ := k2.space b hb
      have hmap2 : ∀ w, s2.mapping? src w = s.mapping? src w := fun w => by
        rw [← hmap1]; unfold State.mapping?; rw [k2.others src hne]
      have e3 : s2.tablesNeeded dst l = s1.tablesNeeded dst l := by
        unfold State.tablesNeeded; simp only [k4]
      have e4 : s2.privatePages src l = s.privatePages src l := by
        unfold State.privatePages; simp only [hmap2]
      obtain ⟨t, h1, h2, h3, h4, h5⟩ := ih k2.tidy hcs (c1.trans (b1.trans hc)) hn2
        (fun w hw => by rw [k3 w (fun h => hn1 (h ▸ hw)), g3]; exact hml w hw) (by omega)
      have hfill := (g2.trans k2)
      refine ⟨t, ?_, hfill.trans h2, fun w hw => ?_, fun w hw hwn => ?_, fun w hw r hr => ?_⟩
      · unfold copyPages
        rw [hp]
        dsimp only
        rw [g1]
        simp only [Res.andThen]
        rw [hp1]
        dsimp only
        rw [k1]
        exact h1
      · rw [h3 w (fun h => hw (List.mem_cons_of_mem _ h)), k3 w (fun h => hw (by rw [h]; exact List.mem_cons_self)), g3]
      · rcases List.mem_cons.1 hw with rfl | hw
        · rw [hp] at hwn; cases hwn
        · exact h4 w hw (by rw [hmap2]; exact hwn)
      · rcases List.mem_cons.1 hw with rfl | hw
        · rw [hp] at hr; cases hr
          obtain ⟨q1, q2, q3, q4, q5, q6, q7, q8⟩ := k6
          obtain ⟨m1, m2⟩ := h2.kept dst w q q1
          exact ⟨q, m1, q2, q3, q4, q5, q6, q7, fun i hi => by rw [m2 i hi, q8 i hi]; exact (g2.kept src w p hp).2 i hi⟩
        · obtain ⟨q', m1, m2, m3, m4, m5, m6, m7, m8⟩ := h5 w hw r (by rw [hmap2]; exact hr)
          exact ⟨q', m1, m2, m3, m4, m5, m6, m7, fun i hi => by rw [m8 i hi]; exact (hfill.kept src w r hr).2 i hi⟩

/-- The pages of a space with a valid PTE are those it lists. -/
theorem mapping?_iff_mem {s : State} {h : Nat} {a : AddrSpace} (ha : s.space? h = some a) (hd : Keyed a.directory)
    (ht : ∀ d ∈ a.directory, Keyed d.2.ptes ∧ ∀ q ∈ d.2.ptes, q.1 < 1024) (v : Nat) (p : Pte) :
    s.mapping? h v = some p ↔ (v, p) ∈ a.mappings := by
  unfold AddrSpace.mappings
  simp only [List.mem_flatMap, List.mem_filter, List.mem_map]
  constructor
  · intro hm
    obtain ⟨b, hb, hp, hv⟩ := State.mapping?_some hm
    rw [ha] at hb; cases hb
    unfold AddrSpace.pte? at hp
    split at hp
    · rename_i t hta
      exact ⟨(l1Index v, t), mem_of_assocGet hta, ⟨(l2Index v, p), mem_of_assocGet hp, by simp only [l1Index, l2Index]; congr 1; omega⟩, hv⟩
    · cases hp
  · rintro ⟨d, hdm, ⟨q, hq, e⟩, hv⟩
    cases e
    have h2 := (ht d hdm).2 q hq
    have e1 : l1Index (d.1 * 1024 + q.1) = d.1 := by unfold l1Index; omega
    have e2 : l2Index (d.1 * 1024 + q.1) = q.1 := by unfold l2Index; omega
    unfold State.mapping? AddrSpace.pte?
    rw [ha, Option.bind_some, e1, e2, hd.unique (show (d.1, d.2) ∈ _ from hdm)]
    dsimp only
    rw [(ht d hdm).1.unique (show (q.1, q.2) ∈ _ from hq)]
    simp [Option.filter, hv]

/-! ### At power-on -/

theorem framesTidy_powerOn (p : Params) : (State.powerOn p).framesTidy := by
  have hfr : ∀ f, (State.powerOn p).frame f = Frame.unused := fun f => by
    show (List.replicate _ _).getD f _ = _
    rw [List.getD_eq_getElem?_getD]
    cases h : (List.replicate (p.ramSize / 4096) Frame.unused)[f]? with
    | none => rfl
    | some x => rw [List.getElem?_replicate] at h; split at h <;> cases h; rfl
  refine ⟨⟨rfl, nofun⟩, fun h l f e => ?_, fun h a v q e => ?_, fun f _ => ?_⟩
  · cases e
  · cases e
  · rw [hfr]; exact ⟨rfl, rfl⟩

theorem contexts_powerOn (p : Params) : (State.powerOn p).contexts := by
  have hsp : ∀ g ∈ (State.powerOn p).harts, g.space = none := fun g hg => by
    rcases List.mem_cons.1 hg with rfl | hg
    · rfl
    · obtain ⟨i, -, rfl⟩ := List.mem_map.1 hg; rfl
  refine ⟨nofun, fun g hg k hk => ?_, fun st _ g hg k b hk => ?_⟩ <;> (rw [hsp g hg] at hk; cases hk)

end Sys2Proof.Machine
end

