-- ==== Sys2Proof/Laws/Encoding.lean ====
section
/-! SUPPORT. The laws of the encodings: each field of a word built from a format is the operand put there, and what a table
mask leaves of such a word. -/

namespace Sys2Proof

/-- A bit of a placed field. -/
theorem getLsbD_place {m n k i : Nat} (x : BitVec m) :
    (place n k x).getLsbD i = (decide (i < n) && decide (k ≤ i) && x.getLsbD (i - k)) := by
  unfold place
  rw [BitVec.getLsbD_shiftLeft, BitVec.getLsbD_setWidth]
  by_cases h1 : i < n
  · by_cases h2 : k ≤ i
    · have h3 : i - k < n := by omega
      have h4 : ¬i < k := by omega
      simp [h1, h2, h3, h4]
    · have h4 : i < k := by omega
      simp [h2, h4]
  · simp [h1]

/-! ### Format R -/

@[simp] theorem opcodeField_encR (f7 : BitVec 7) (rs2 rs1 : RegIdx) (f3 : BitVec 3) (rd : RegIdx) (op : BitVec 7) :
    opcodeField (encR f7 rs2 rs1 f3 rd op) = op := by
  apply BitVec.eq_of_getLsbD_eq
  intro i hi
  simp only [opcodeField, encR, BitVec.getLsbD_extractLsb', BitVec.getLsbD_or, getLsbD_place]
  interval_cases i <;> simp

@[simp] theorem rdField_encR (f7 : BitVec 7) (rs2 rs1 : RegIdx) (f3 : BitVec 3) (rd : RegIdx) (op : BitVec 7) :
    rdField (encR f7 rs2 rs1 f3 rd op) = rd := by
  apply BitVec.eq_of_getLsbD_eq
  intro i hi
  simp only [rdField, encR, BitVec.getLsbD_extractLsb', BitVec.getLsbD_or, getLsbD_place]
  interval_cases i <;> simp

@[simp] theorem funct3Field_encR (f7 : BitVec 7) (rs2 rs1 : RegIdx) (f3 : BitVec 3) (rd : RegIdx) (op : BitVec 7) :
    funct3Field (encR f7 rs2 rs1 f3 rd op) = f3 := by
  apply BitVec.eq_of_getLsbD_eq
  intro i hi
  simp only [funct3Field, encR, BitVec.getLsbD_extractLsb', BitVec.getLsbD_or, getLsbD_place]
  interval_cases i <;> simp

@[simp] theorem rs1Field_encR (f7 : BitVec 7) (rs2 rs1 : RegIdx) (f3 : BitVec 3) (rd : RegIdx) (op : BitVec 7) :
    rs1Field (encR f7 rs2 rs1 f3 rd op) = rs1 := by
  apply BitVec.eq_of_getLsbD_eq
  intro i hi
  simp only [rs1Field, encR, BitVec.getLsbD_extractLsb', BitVec.getLsbD_or, getLsbD_place]
  interval_cases i <;> simp

@[simp] theorem rs2Field_encR (f7 : BitVec 7) (rs2 rs1 : RegIdx) (f3 : BitVec 3) (rd : RegIdx) (op : BitVec 7) :
    rs2Field (encR f7 rs2 rs1 f3 rd op) = rs2 := by
  apply BitVec.eq_of_getLsbD_eq
  intro i hi
  simp only [rs2Field, encR, BitVec.getLsbD_extractLsb', BitVec.getLsbD_or, getLsbD_place]
  interval_cases i <;> simp

@[simp] theorem funct7Field_encR (f7 : BitVec 7) (rs2 rs1 : RegIdx) (f3 : BitVec 3) (rd : RegIdx) (op : BitVec 7) :
    funct7Field (encR f7 rs2 rs1 f3 rd op) = f7 := by
  apply BitVec.eq_of_getLsbD_eq
  intro i hi
  simp only [funct7Field, encR, BitVec.getLsbD_extractLsb', BitVec.getLsbD_or, getLsbD_place]
  interval_cases i <;> simp

/-! ### Format I -/

@[simp] theorem opcodeField_encI (imm : BitVec 12) (rs1 : RegIdx) (f3 : BitVec 3) (rd : RegIdx) (op : BitVec 7) :
    opcodeField (encI imm rs1 f3 rd op) = op := by
  apply BitVec.eq_of_getLsbD_eq
  intro i hi
  simp only [opcodeField, encI, BitVec.getLsbD_extractLsb', BitVec.getLsbD_or, getLsbD_place]
  interval_cases i <;> simp

@[simp] theorem rdField_encI (imm : BitVec 12) (rs1 : RegIdx) (f3 : BitVec 3) (rd : RegIdx) (op : BitVec 7) :
    rdField (encI imm rs1 f3 rd op) = rd := by
  apply BitVec.eq_of_getLsbD_eq
  intro i hi
  simp only [rdField, encI, BitVec.getLsbD_extractLsb', BitVec.getLsbD_or, getLsbD_place]
  interval_cases i <;> simp

@[simp] theorem funct3Field_encI (imm : BitVec 12) (rs1 : RegIdx) (f3 : BitVec 3) (rd : RegIdx) (op : BitVec 7) :
    funct3Field (encI imm rs1 f3 rd op) = f3 := by
  apply BitVec.eq_of_getLsbD_eq
  intro i hi
  simp only [funct3Field, encI, BitVec.getLsbD_extractLsb', BitVec.getLsbD_or, getLsbD_place]
  interval_cases i <;> simp

@[simp] theorem rs1Field_encI (imm : BitVec 12) (rs1 : RegIdx) (f3 : BitVec 3) (rd : RegIdx) (op : BitVec 7) :
    rs1Field (encI imm rs1 f3 rd op) = rs1 := by
  apply BitVec.eq_of_getLsbD_eq
  intro i hi
  simp only [rs1Field, encI, BitVec.getLsbD_extractLsb', BitVec.getLsbD_or, getLsbD_place]
  interval_cases i <;> simp

@[simp] theorem immIField_encI (imm : BitVec 12) (rs1 : RegIdx) (f3 : BitVec 3) (rd : RegIdx) (op : BitVec 7) :
    immIField (encI imm rs1 f3 rd op) = imm := by
  apply BitVec.eq_of_getLsbD_eq
  intro i hi
  simp only [immIField, encI, BitVec.getLsbD_extractLsb', BitVec.getLsbD_or, getLsbD_place]
  interval_cases i <;> simp

/-! ### Format S -/

@[simp] theorem opcodeField_encS (imm : BitVec 12) (rs2 rs1 : RegIdx) (f3 : BitVec 3) (op : BitVec 7) :
    opcodeField (encS imm rs2 rs1 f3 op) = op := by
  apply BitVec.eq_of_getLsbD_eq
  intro i hi
  simp only [opcodeField, encS, BitVec.getLsbD_extractLsb', BitVec.getLsbD_or, getLsbD_place]
  interval_cases i <;> simp

@[simp] theorem funct3Field_encS (imm : BitVec 12) (rs2 rs1 : RegIdx) (f3 : BitVec 3) (op : BitVec 7) :
    funct3Field (encS imm rs2 rs1 f3 op) = f3 := by
  apply BitVec.eq_of_getLsbD_eq
  intro i hi
  simp only [funct3Field, encS, BitVec.getLsbD_extractLsb', BitVec.getLsbD_or, getLsbD_place]
  interval_cases i <;> simp

@[simp] theorem rs1Field_encS (imm : BitVec 12) (rs2 rs1 : RegIdx) (f3 : BitVec 3) (op : BitVec 7) :
    rs1Field (encS imm rs2 rs1 f3 op) = rs1 := by
  apply BitVec.eq_of_getLsbD_eq
  intro i hi
  simp only [rs1Field, encS, BitVec.getLsbD_extractLsb', BitVec.getLsbD_or, getLsbD_place]
  interval_cases i <;> simp

@[simp] theorem rs2Field_encS (imm : BitVec 12) (rs2 rs1 : RegIdx) (f3 : BitVec 3) (op : BitVec 7) :
    rs2Field (encS imm rs2 rs1 f3 op) = rs2 := by
  apply BitVec.eq_of_getLsbD_eq
  intro i hi
  simp only [rs2Field, encS, BitVec.getLsbD_extractLsb', BitVec.getLsbD_or, getLsbD_place]
  interval_cases i <;> simp

@[simp] theorem immSField_encS (imm : BitVec 12) (rs2 rs1 : RegIdx) (f3 : BitVec 3) (op : BitVec 7) :
    immSField (encS imm rs2 rs1 f3 op) = imm := by
  apply BitVec.eq_of_getLsbD_eq
  intro i hi
  simp only [immSField, encS, BitVec.getLsbD_extractLsb', BitVec.getLsbD_or, getLsbD_place]
  interval_cases i <;> simp

/-! ### Format B -/

@[simp] theorem opcodeField_encB (off : BitVec 13) (rs2 rs1 : RegIdx) (f3 : BitVec 3) (op : BitVec 7) :
    opcodeField (encB off rs2 rs1 f3 op) = op := by
  apply BitVec.eq_of_getLsbD_eq
  intro i hi
  simp only [opcodeField, encB, BitVec.getLsbD_extractLsb', BitVec.getLsbD_or, getLsbD_place]
  interval_cases i <;> simp

@[simp] theorem funct3Field_encB (off : BitVec 13) (rs2 rs1 : RegIdx) (f3 : BitVec 3) (op : BitVec 7) :
    funct3Field (encB off rs2 rs1 f3 op) = f3 := by
  apply BitVec.eq_of_getLsbD_eq
  intro i hi
  simp only [funct3Field, encB, BitVec.getLsbD_extractLsb', BitVec.getLsbD_or, getLsbD_place]
  interval_cases i <;> simp

@[simp] theorem rs1Field_encB (off : BitVec 13) (rs2 rs1 : RegIdx) (f3 : BitVec 3) (op : BitVec 7) :
    rs1Field (encB off rs2 rs1 f3 op) = rs1 := by
  apply BitVec.eq_of_getLsbD_eq
  intro i hi
  simp only [rs1Field, encB, BitVec.getLsbD_extractLsb', BitVec.getLsbD_or, getLsbD_place]
  interval_cases i <;> simp

@[simp] theorem rs2Field_encB (off : BitVec 13) (rs2 rs1 : RegIdx) (f3 : BitVec 3) (op : BitVec 7) :
    rs2Field (encB off rs2 rs1 f3 op) = rs2 := by
  apply BitVec.eq_of_getLsbD_eq
  intro i hi
  simp only [rs2Field, encB, BitVec.getLsbD_extractLsb', BitVec.getLsbD_or, getLsbD_place]
  interval_cases i <;> simp

@[simp] theorem immBField_encB (off : BitVec 13) (rs2 rs1 : RegIdx) (f3 : BitVec 3) (op : BitVec 7) (h : evenOffset off = true) :
    immBField (encB off rs2 rs1 f3 op) = off := by
  apply BitVec.eq_of_getLsbD_eq
  intro i hi
  have h0 : off[0] = false := by simpa [evenOffset] using h
  simp only [immBField, encB, BitVec.getLsbD_extractLsb', BitVec.getLsbD_or, getLsbD_place]
  interval_cases i <;> first | (simp; done) | simp [h0]

/-! ### Format U -/

@[simp] theorem opcodeField_encU (imm : BitVec 20) (rd : RegIdx) (op : BitVec 7) :
    opcodeField (encU imm rd op) = op := by
  apply BitVec.eq_of_getLsbD_eq
  intro i hi
  simp only [opcodeField, encU, BitVec.getLsbD_extractLsb', BitVec.getLsbD_or, getLsbD_place]
  interval_cases i <;> simp

@[simp] theorem rdField_encU (imm : BitVec 20) (rd : RegIdx) (op : BitVec 7) :
    rdField (encU imm rd op) = rd := by
  apply BitVec.eq_of_getLsbD_eq
  intro i hi
  simp only [rdField, encU, BitVec.getLsbD_extractLsb', BitVec.getLsbD_or, getLsbD_place]
  interval_cases i <;> simp

@[simp] theorem immUField_encU (imm : BitVec 20) (rd : RegIdx) (op : BitVec 7) :
    immUField (encU imm rd op) = imm := by
  apply BitVec.eq_of_getLsbD_eq
  intro i hi
  simp only [immUField, encU, BitVec.getLsbD_extractLsb', BitVec.getLsbD_or, getLsbD_place]
  interval_cases i <;> simp

/-! ### Format J -/

@[simp] theorem opcodeField_encJ (off : BitVec 21) (rd : RegIdx) (op : BitVec 7) :
    opcodeField (encJ off rd op) = op := by
  apply BitVec.eq_of_getLsbD_eq
  intro i hi
  simp only [opcodeField, encJ, BitVec.getLsbD_extractLsb', BitVec.getLsbD_or, getLsbD_place]
  interval_cases i <;> simp

@[simp] theorem rdField_encJ (off : BitVec 21) (rd : RegIdx) (op : BitVec 7) :
    rdField (encJ off rd op) = rd := by
  apply BitVec.eq_of_getLsbD_eq
  intro i hi
  simp only [rdField, encJ, BitVec.getLsbD_extractLsb', BitVec.getLsbD_or, getLsbD_place]
  interval_cases i <;> simp

@[simp] theorem immJField_encJ (off : BitVec 21) (rd : RegIdx) (op : BitVec 7) (h : evenOffset off = true) :
    immJField (encJ off rd op) = off := by
  apply BitVec.eq_of_getLsbD_eq
  intro i hi
  have h0 : off[0] = false := by simpa [evenOffset] using h
  simp only [immJField, encJ, BitVec.getLsbD_extractLsb', BitVec.getLsbD_or, getLsbD_place]
  interval_cases i <;> first | (simp; done) | simp [h0]

/-! ### Masks -/

theorem encR_and_mask (f7 : BitVec 7) (rs2 rs1 : RegIdx) (f3 : BitVec 3) (rd : RegIdx) (op : BitVec 7) :
    encR f7 rs2 rs1 f3 rd op &&& 0xFE00707F#32 = encR f7 0#5 0#5 f3 0#5 op := by
  apply BitVec.eq_of_getLsbD_eq
  intro i hi
  simp only [encR, BitVec.getLsbD_and, BitVec.getLsbD_or, getLsbD_place]
  interval_cases i <;> simp

theorem encI_and_mask (imm : BitVec 12) (rs1 : RegIdx) (f3 : BitVec 3) (rd : RegIdx) (op : BitVec 7) :
    encI imm rs1 f3 rd op &&& 0x0000707F#32 = encI 0#12 0#5 f3 0#5 op := by
  apply BitVec.eq_of_getLsbD_eq
  intro i hi
  simp only [encI, BitVec.getLsbD_and, BitVec.getLsbD_or, getLsbD_place]
  interval_cases i <;> simp

theorem encS_and_mask (imm : BitVec 12) (rs2 rs1 : RegIdx) (f3 : BitVec 3) (op : BitVec 7) :
    encS imm rs2 rs1 f3 op &&& 0x0000707F#32 = encS 0#12 0#5 0#5 f3 op := by
  apply BitVec.eq_of_getLsbD_eq
  intro i hi
  simp only [encS, BitVec.getLsbD_and, BitVec.getLsbD_extractLsb', BitVec.getLsbD_or, getLsbD_place]
  interval_cases i <;> simp

theorem encB_and_mask (off : BitVec 13) (rs2 rs1 : RegIdx) (f3 : BitVec 3) (op : BitVec 7) :
    encB off rs2 rs1 f3 op &&& 0x0000707F#32 = encB 0#13 0#5 0#5 f3 op := by
  apply BitVec.eq_of_getLsbD_eq
  intro i hi
  simp only [encB, BitVec.getLsbD_and, BitVec.getLsbD_extractLsb', BitVec.getLsbD_or, getLsbD_place]
  interval_cases i <;> simp

theorem encU_and_mask (imm : BitVec 20) (rd : RegIdx) (op : BitVec 7) :
    encU imm rd op &&& 0x0000007F#32 = encU 0#20 0#5 op := by
  apply BitVec.eq_of_getLsbD_eq
  intro i hi
  simp only [encU, BitVec.getLsbD_and, BitVec.getLsbD_or, getLsbD_place]
  interval_cases i <;> simp

theorem encJ_and_mask (off : BitVec 21) (rd : RegIdx) (op : BitVec 7) :
    encJ off rd op &&& 0x0000007F#32 = encJ 0#21 0#5 op := by
  apply BitVec.eq_of_getLsbD_eq
  intro i hi
  simp only [encJ, BitVec.getLsbD_and, BitVec.getLsbD_extractLsb', BitVec.getLsbD_or, getLsbD_place]
  interval_cases i <;> simp

/-! ### A word is its fields -/

theorem encR_fields (w : Word) : encR (funct7Field w) (rs2Field w) (rs1Field w) (funct3Field w) (rdField w) (opcodeField w) = w := by
  apply BitVec.eq_of_getLsbD_eq
  intro i hi
  simp only [encR, funct7Field, rs2Field, rs1Field, funct3Field, rdField, opcodeField, BitVec.getLsbD_extractLsb', BitVec.getLsbD_or, getLsbD_place]
  interval_cases i <;> simp

theorem encI_fields (w : Word) : encI (immIField w) (rs1Field w) (funct3Field w) (rdField w) (opcodeField w) = w := by
  apply BitVec.eq_of_getLsbD_eq
  intro i hi
  simp only [encI, immIField, rs1Field, funct3Field, rdField, opcodeField, BitVec.getLsbD_extractLsb', BitVec.getLsbD_or, getLsbD_place]
  interval_cases i <;> simp

theorem encS_fields (w : Word) : encS (immSField w) (rs2Field w) (rs1Field w) (funct3Field w) (opcodeField w) = w := by
  apply BitVec.eq_of_getLsbD_eq
  intro i hi
  simp only [encS, immSField, rs2Field, rs1Field, funct3Field, opcodeField, BitVec.getLsbD_extractLsb', BitVec.getLsbD_or, getLsbD_place]
  interval_cases i <;> simp

theorem encB_fields (w : Word) : encB (immBField w) (rs2Field w) (rs1Field w) (funct3Field w) (opcodeField w) = w := by
  apply BitVec.eq_of_getLsbD_eq
  intro i hi
  simp only [encB, immBField, rs2Field, rs1Field, funct3Field, opcodeField, BitVec.getLsbD_extractLsb', BitVec.getLsbD_or, getLsbD_place]
  interval_cases i <;> simp

theorem encU_fields (w : Word) : encU (immUField w) (rdField w) (opcodeField w) = w := by
  apply BitVec.eq_of_getLsbD_eq
  intro i hi
  simp only [encU, immUField, rdField, opcodeField, BitVec.getLsbD_extractLsb', BitVec.getLsbD_or, getLsbD_place]
  interval_cases i <;> simp

theorem encJ_fields (w : Word) : encJ (immJField w) (rdField w) (opcodeField w) = w := by
  apply BitVec.eq_of_getLsbD_eq
  intro i hi
  simp only [encJ, immJField, rdField, opcodeField, BitVec.getLsbD_extractLsb', BitVec.getLsbD_or, getLsbD_place]
  interval_cases i <;> simp

theorem opcodeField_and_7F (w : Word) : opcodeField (w &&& 0x0000007F#32) = opcodeField w := by
  apply BitVec.eq_of_getLsbD_eq
  intro i hi
  simp only [opcodeField, BitVec.getLsbD_extractLsb', BitVec.getLsbD_and]
  interval_cases i <;> simp

theorem opcodeField_and_707F (w : Word) : opcodeField (w &&& 0x0000707F#32) = opcodeField w := by
  apply BitVec.eq_of_getLsbD_eq
  intro i hi
  simp only [opcodeField, BitVec.getLsbD_extractLsb', BitVec.getLsbD_and]
  interval_cases i <;> simp

theorem funct3Field_and_707F (w : Word) : funct3Field (w &&& 0x0000707F#32) = funct3Field w := by
  apply BitVec.eq_of_getLsbD_eq
  intro i hi
  simp only [funct3Field, BitVec.getLsbD_extractLsb', BitVec.getLsbD_and]
  interval_cases i <;> simp

theorem opcodeField_and_FE00707F (w : Word) : opcodeField (w &&& 0xFE00707F#32) = opcodeField w := by
  apply BitVec.eq_of_getLsbD_eq
  intro i hi
  simp only [opcodeField, BitVec.getLsbD_extractLsb', BitVec.getLsbD_and]
  interval_cases i <;> simp

theorem funct3Field_and_FE00707F (w : Word) : funct3Field (w &&& 0xFE00707F#32) = funct3Field w := by
  apply BitVec.eq_of_getLsbD_eq
  intro i hi
  simp only [funct3Field, BitVec.getLsbD_extractLsb', BitVec.getLsbD_and]
  interval_cases i <;> simp

theorem funct7Field_and_FE00707F (w : Word) : funct7Field (w &&& 0xFE00707F#32) = funct7Field w := by
  apply BitVec.eq_of_getLsbD_eq
  intro i hi
  simp only [funct7Field, BitVec.getLsbD_extractLsb', BitVec.getLsbD_and]
  interval_cases i <;> simp

/-- The sets and the mode a FENCE word holds. -/
theorem fence_fields (fm pred succ : BitVec 4) (rs1 : RegIdx) (f3 : BitVec 3) (rd : RegIdx) (op : BitVec 7) :
    (encI (place 12 8 fm ||| place 12 4 pred ||| place 12 0 succ) rs1 f3 rd op).extractLsb' 28 4 = fm ∧
      (encI (place 12 8 fm ||| place 12 4 pred ||| place 12 0 succ) rs1 f3 rd op).extractLsb' 24 4 = pred ∧
      (encI (place 12 8 fm ||| place 12 4 pred ||| place 12 0 succ) rs1 f3 rd op).extractLsb' 20 4 = succ := by
  refine ⟨?_, ?_, ?_⟩ <;>
  · apply BitVec.eq_of_getLsbD_eq
    intro i hi
    simp only [encI, BitVec.getLsbD_extractLsb', BitVec.getLsbD_or, getLsbD_place]
    interval_cases i <;> simp

theorem fence_imm (w : Word) :
    place 12 8 (w.extractLsb' 28 4) ||| place 12 4 (w.extractLsb' 24 4) ||| place 12 0 (w.extractLsb' 20 4) = immIField w := by
  apply BitVec.eq_of_getLsbD_eq
  intro i hi
  simp only [immIField, BitVec.getLsbD_extractLsb', BitVec.getLsbD_or, getLsbD_place]
  interval_cases i <;> simp

/-- The offsets a word holds are even. -/
theorem evenOffset_immBField (w : Word) : evenOffset (immBField w) = true := by
  simp [evenOffset, immBField, getLsbD_place, -BitVec.getLsbD_eq_getElem]

theorem evenOffset_immJField (w : Word) : evenOffset (immJField w) = true := by
  simp [evenOffset, immJField, getLsbD_place, -BitVec.getLsbD_eq_getElem]

end Sys2Proof
end

