-- ==== Sys2Proof/Laws/Ending.lean ====
section
/-! SUPPORT. Destroying a space and reaping a zombie; and the texts that EXEC, DEBUG_PRINT and WRITE read. -/

namespace Sys2Proof.Machine

/-! ### Destroying and reaping -/

theorem foldl_pagingOnly {α : Type} (f : State → α → State) (hf : ∀ s a, ∃ p, f s a = { s with paging := p }) (l : List α) (s :
      State) :
   ∃ p, l.foldl f s = { s with paging := p } := by
  induction l generalizing s with
  | nil => exact ⟨_, rfl⟩
  | cons a l ih =>
    rw [List.foldl_cons]
    obtain ⟨p, h1⟩ := hf s a
    obtain ⟨q, h2⟩ := ih (f s a)
    exact ⟨q, by rw [h2, h1]⟩

theorem releaseFrame_pagingOnly (f : Nat) (s : State) : ∃ p, releaseFrame f s = { s with paging := p } := by
  unfold releaseFrame decRef onUnmap State.setFrame
  dsimp only
  split <;> split <;> exact ⟨_, rfl⟩

/-- Destroying a space changes the paging structures alone. -/
theorem destroyPaged_pagingOnly (h : Nat) (s : State) : ∃ p, destroyPaged h s = { s with paging := p } := by
  unfold destroyPaged
  split
  · exact ⟨_, rfl⟩
  · rename_i a ha
    dsimp only
    obtain ⟨p, h1⟩ := foldl_pagingOnly (fun st (m : Nat × Pte) => releaseFrame m.2.ppn st) (fun s m =>
        releaseFrame_pagingOnly m.2.ppn s) a.mappings s
    obtain ⟨q, h2⟩ := foldl_pagingOnly (fun st f => freeTableFrame f st) (fun s f => ⟨_, rfl⟩) a.tableFrames (a.mappings.foldl (fun st m => releaseFrame m.2.ppn st) s)
    exact ⟨_, by rw [h2, h1]⟩

/-- A handle destroyed: its space or its block is gone, the others stay. -/
theorem destroySpace_gone (h : Nat) (s : State) : SpaceGone s (destroySpace h s) h ∧
    ∃ p c, destroySpace h s = { s with paging := p, contig := c } := by
  cases hm : s.params.memMode with
  | paged f p =>
    have e : destroySpace h s = destroyPaged h s := by unfold destroySpace; rw [hm]
    rw [e]
    obtain ⟨p0, h1⟩ := destroyPaged_pagingOnly h s
    refine ⟨⟨by rw [h1], fun f' p' _ => ?_, fun st hst => by rw [hm] at hst; cases hst⟩, ?_⟩
    · cases ha : s.space? h with
      | none =>
        have : destroyPaged h s = s := by unfold destroyPaged; rw [ha]
        rw [this]; exact ⟨ha, fun _ _ => rfl, rfl⟩
      | some a =>
        have h2 := (destroyPaged_gives ha).1
        have hsp : ∀ k, (destroyPaged h s).space? k = if k = h then none else s.space? k := fun k => by
          unfold State.space?; rw [h2, assocGet_erase]
        refine ⟨by rw [hsp, if_pos rfl], fun g hg => by rw [hsp, if_neg hg], by rw [h1]⟩
    · exact ⟨_, _, h1⟩
  | contiguous st =>
    have e : destroySpace h s = freeBlock h s := by unfold destroySpace; rw [hm]
    rw [e]
    cases hb : s.block? h with
    | none =>
      have : freeBlock h s = s := by unfold freeBlock; rw [hb]
      rw [this]
      exact ⟨⟨rfl, fun f p hp => (by rw [hm] at hp; cases hp), fun _ _ => ⟨hb, fun _ _ => rfl, rfl, fun b h => (by rw [hb] at h; cases h)⟩⟩, _, _, rfl⟩
    | some b =>
      have : freeBlock h s = { s with contig := { holes := insertHole { start := b.start, size := b.size } s.contig.holes, allocated := s.contig.allocated.filter (fun c => c.space ≠ h) } } := by unfold freeBlock; rw [hb]
      rw [this]
      refine ⟨⟨rfl, fun f p hp => (by rw [hm] at hp; cases hp), fun _ _ => ⟨?_, fun g hg => ?_, rfl, fun c h => ?_⟩⟩, _, _, rfl⟩
      · show blockOf (s.contig.allocated.filter _) h = none; rw [blockOf_filter, if_pos rfl]
      · show blockOf (s.contig.allocated.filter _) g = _; rw [blockOf_filter, if_neg hg]; rfl
      · rw [hb] at h; cases h; rfl

/-- A child other than the caller is reaped. -/
theorem reap_reaped (u : State) (pid c : Nat) (k z : Task) (hk : u.task? pid = some k) (hz : u.task? c = some z) (hcp : c ≠ pid) :
    Reaped u (reap pid c u) pid k c z := by
  unfold reap
  dsimp only
  have hc1 : (u.modTask pid (fun u => { u with children := u.children.filter (fun k => k ≠ c) })).task? c = some z := by
    rw [State.task?_modTask, if_neg hcp, hz]
  rw [hc1]
  dsimp only
  generalize hw : u.modTask pid (fun u => { u with children := u.children.filter (fun k => k ≠ c) }) = w at *
  obtain ⟨hgone, p0, c0, hd⟩ := destroySpace_gone z.space (w.dropTask c)
  have hd? : ∀ q, (destroySpace z.space (w.dropTask c)).task? q = (w.dropTask c).task? q := State.task?_congr (by rw [hd])
  refine ⟨?_, ?_, ?_, ?_, ?_⟩
  · show (State.modTask _ pid _).task? c = none
    rw [State.task?_modTask, if_neg hcp, hd?, State.task?_dropTask, if_pos rfl]
  · show (State.modTask _ pid _).task? pid = _
    rw [State.task?_modTask, if_pos rfl, hd?, State.task?_dropTask, if_neg (fun e => hcp e.symm), ← hw, State.task?_modTask, if_pos rfl, hk]
    simp [Task.setReg, a0]
  · intro q hq hqc
    show (State.modTask _ pid _).task? q = _
    rw [State.task?_modTask, if_neg hq, hd?, State.task?_dropTask, if_neg hqc, ← hw, State.task?_modTask, if_neg hq]
  · subst hw
    exact hgone
  · unfold setRet State.modTask
    rw [hd, ← hw]; rfl

/-! ### Texts -/

theorem drawWord_eq (s : State) :
      s.drawWord.2 = { s with chance := { s.chance with script := s.drawWord.2.chance.script, drawn := s.drawWord.2.chance.drawn } } := by
  unfold State.drawWord State.draw; dsimp only; split <;> rfl

/-- A read that answers emits nothing. -/
theorem memRead_ok {c : Ctx} {va : Word} {n : Nat} {s u : State} {v : Word} (h : memRead c va n s = .ok v u) :
      AccessStep s u ∧ u.io.stdout = s.io.stdout := by
  have h1 := AccessStep.memRead c va n s
  rw [h] at h1
  refine ⟨h1, ?_⟩
  unfold memRead at h
  split at h
  · cases h
  · split at h
    · have h2 : (uartRead (ε := MemFailure) (va.toNat - s.params.uartBase) s).Sat (fun t => t.io.stdout = s.io.stdout) := by
        unfold uartRead
        split
        · exact congrArg (·.stdout) (PagingStep.draw s).io
        · split
          · unfold readRx
            split
            · rfl
            · exact congrArg (·.stdout) (PagingStep.draw s).io
          · trivial
      cases hu : uartRead (ε := MemFailure) (va.toNat - s.params.uartBase) s with
      | ok b w => rw [hu] at h h2; cases h; exact h2
      | fail e w => rw [hu] at h; cases h
      | refuse r => rw [hu] at h; cases h
    · split at h
      · cases h
      · have h2 := QuietStep.translate c va n .read true s
        cases ht : Machine.translate c va n .read true s with
        | ok a w => rw [ht] at h h2; cases h; exact congrArg (·.stdout) h2.io
        | fail e w => rw [ht] at h; cases h
        | refuse r => rw [ht] at h; cases h

theorem readsText_step {c : Ctx} {va : Word} {bs : List Byte} {s u : State} (h : ReadsText c va bs s u) : AccessStep s u := by
  induction bs generalizing va s with
  | nil => cases h; exact .refl _
  | cons b bs ih =>
    obtain ⟨v, s1, h1, -, -, h2⟩ := h
    exact (memRead_ok h1).1.trans (ih h2)

/-- The loop reads on after the bytes of a text. -/
theorem readString_text {c : Ctx} {va : Word} {bs : List Byte} {s u : State} (h : ReadsText c va bs s u) (n : Nat) (acc :
      List Byte) :
    readString c (bs.length + n) va acc s = readString c n (va + BitVec.ofNat 32 bs.length) (acc ++ bs) u := by
  induction bs generalizing va s acc with
  | nil => cases h; simp
  | cons b bs ih =>
    obtain ⟨v, s1, h1, h2, h3, h4⟩ := h
    have e : (b :: bs).length + n = (bs.length + n) + 1 := by simp; omega
    rw [e, readString, h1]
    simp only [Res.mapFail, Res.andThen]
    rw [if_neg (by rw [h2]; exact h3), h2, ih h4]
    have e1 : va + 1#32 + BitVec.ofNat 32 bs.length = va + BitVec.ofNat 32 (b :: bs).length := by
      rw [List.length_cons, Nat.add_comm, BitVec.ofNat_add, BitVec.add_assoc]
    have e2 : acc ++ [b] ++ bs = acc ++ b :: bs := by simp
    rw [e1, e2]

/-- A text that the loop answers lies there with its NUL. -/
theorem readString_ok (c : Ctx) (n : Nat) (va : Word) (acc bs : List Byte) (s u : State) (h :
      readString c n va acc s = .ok bs u) :
    ∃ cs s1 v, bs = acc ++ cs ∧ cs.length < n ∧ ReadsText c va cs s s1 ∧ memRead c
      (va + BitVec.ofNat 32 cs.length) 1 s1 = .ok v u ∧ v.setWidth 8 = 0#8 := by
  induction n generalizing va acc s with
  | zero => unfold readString at h; cases h
  | succ n ih =>
    unfold readString at h
    cases hr : memRead c va 1 s with
    | fail e w => rw [hr] at h; cases h
    | refuse r => rw [hr] at h; cases h
    | ok v w =>
      rw [hr] at h
      simp only [Res.mapFail, Res.andThen] at h
      split at h
      · rename_i hv
        cases h
        exact ⟨[], s, v, by simp, by simp, rfl, by simpa using hr, hv⟩
      · rename_i hv
        obtain ⟨cs, s1, v', e, hl, h1, h2, h3⟩ := ih _ _ _ h
        refine ⟨v.setWidth 8 :: cs, s1, v', by rw [e]; simp, by simp; omega, ⟨v, w, hr, rfl, hv, h1⟩, ?_, h3⟩
        rw [← h2, List.length_cons, Nat.add_comm, BitVec.ofNat_add, ← BitVec.add_assoc]

/-- `TextAt` is what the loop of 4096 reads answers. -/
theorem textAt_iff (c : Ctx) (va : Word) (bs : List Byte) (s u : State) :
      TextAt c va bs s u ↔ readString c 4096 va [] s = .ok bs u := by
  constructor
  · rintro ⟨hl, s1, v, h1, h2, h3⟩
    have : 4096 = bs.length + ((4095 - bs.length) + 1) := by omega
    rw [this, readString_text h1, readString, h2]
    simp only [Res.mapFail, Res.andThen]
    rw [if_pos h3]; rfl
  · intro h
    obtain ⟨cs, s1, v, e, hl, h1, h2, h3⟩ := readString_ok _ _ _ _ _ _ _ h
    rw [List.nil_append] at e; subst e
    exact ⟨hl, s1, v, h1, h2, h3⟩

/-- The loop of WRITE emits the bytes of a text and goes on after them. -/
theorem writeLoop_text {pid : Nat} {buf : Word} {bs : List Byte} {k : Nat} {s u : State} (h : EmitsText
      (buf + BitVec.ofNat 32 k) bs s u) (n : Nat) :
    writeLoop pid buf (bs.length + n) k s = writeLoop pid buf n (k + bs.length) u ∧ u.io.stdout = s.io.stdout ++ bs ∧
      u.kernel = s.kernel := by
  induction bs generalizing k s with
  | nil => cases h; simp
  | cons b bs ih =>
    obtain ⟨v, s1, h1, h2, h3, h4⟩ := h
    obtain ⟨a1, a2⟩ := memRead_ok h1
    have e : (b :: bs).length + n = (bs.length + n) + 1 := by simp; omega
    have ea : buf + BitVec.ofNat 32 k + 1#32 = buf + BitVec.ofNat 32 (k + 1) := by
      rw [BitVec.ofNat_add, BitVec.add_assoc]
    rw [ea] at h4
    obtain ⟨i1, i2, i3⟩ := ih h4
    rw [e, writeLoop, h1]
    dsimp only
    rw [if_neg (by rw [h2]; exact h3), h2]
    refine ⟨?_, ?_, ?_⟩
    · unfold emit
      rw [i1]; congr 1; simp; omega
    · rw [i2]; dsimp only; rw [a2]; simp
    · rw [i3]; exact a1.kernel

end Sys2Proof.Machine
end

