-- ==== Sys2Proof/Laws/Forms.lean ====
section
/-! SUPPORT. How the loads and the stores end: as their one access ends. And what an instruction that raises leaves. -/

namespace Sys2Proof.Machine

/-- Every load form is `loadInto` with its width; the extension of 0 is 0. -/
theorem loadForm_eq {f : (RegIdx → RegIdx → BitVec 12 → Instr) × Nat} (hf : f ∈ loadForms) :
    ∃ ext : Word → Word, ext 0#32 = 0#32 ∧ ∀ rd rs1 imm s, exec (f.1 rd rs1 imm) s = loadInto rd rs1 imm f.2 ext s := by
  simp only [loadForms, List.mem_cons, List.mem_nil_iff, or_false] at hf
  rcases hf with rfl | rfl | rfl | rfl | rfl <;> exact ⟨_, by decide, fun _ _ _ _ => rfl⟩

/-- Every store form is `storeFrom` with its width. -/
theorem storeForm_eq {f : (RegIdx → RegIdx → BitVec 12 → Instr) × Nat} (hf : f ∈ storeForms) :
    ∀ rs2 rs1 imm s, exec (f.1 rs2 rs1 imm) s = storeFrom rs2 rs1 imm f.2 s := by
  simp only [storeForms, List.mem_cons, List.mem_nil_iff, or_false] at hf
  rcases hf with rfl | rfl | rfl <;> exact fun _ _ _ _ => rfl

theorem loadForm_width {f : (RegIdx → RegIdx → BitVec 12 → Instr) × Nat} (hf : f ∈ loadForms) :
    f.2 = 1 ∨ f.2 = 2 ∨ f.2 = 4 := by
  simp only [loadForms, List.mem_cons, List.mem_nil_iff, or_false] at hf
  rcases hf with rfl | rfl | rfl | rfl | rfl <;> decide

theorem storeForm_width {f : (RegIdx → RegIdx → BitVec 12 → Instr) × Nat} (hf : f ∈ storeForms) :
    f.2 = 1 ∨ f.2 = 2 ∨ f.2 = 4 := by
  simp only [storeForms, List.mem_cons, List.mem_nil_iff, or_false] at hf
  rcases hf with rfl | rfl | rfl <;> decide

/-- A load whose access fails raises the failure's exception. -/
theorem load_fail {f : (RegIdx → RegIdx → BitVec 12 → Instr) × Nat} (hf : f ∈ loadForms) {s u : State} {e : MemFailure}
    {rd rs1 : RegIdx} {imm : BitVec 12} (h : memRead (hartCtx s) (s.reg rs1 + imm.signExtend 32) f.2 s = .fail e u) :
    exec (f.1 rd rs1 imm) s = .next (u.raise e.kind e.va) := by
  obtain ⟨ext, -, he⟩ := loadForm_eq hf
  rw [he]; unfold loadInto effAddr immI
  rw [h]; rfl

/-- A store whose access fails raises the failure's exception. -/
theorem store_fail {f : (RegIdx → RegIdx → BitVec 12 → Instr) × Nat} (hf : f ∈ storeForms) {s u : State} {e : MemFailure}
    {rs2 rs1 : RegIdx} {imm : BitVec 12}
    (h : memWrite (hartCtx s) (s.reg rs1 + imm.signExtend 32) f.2 (s.reg rs2) s = .fail e u) :
    exec (f.1 rs2 rs1 imm) s = .next (u.raise e.kind e.va) := by
  rw [storeForm_eq hf]; unfold storeFrom effAddr immI
  rw [h]; rfl

/-- A step whose fetch fails raises the failure's exception. -/
theorem step_fail {s u : State} {e : MemFailure} (h : fetch (hartCtx s.clearFlags) s.pc s.clearFlags = .fail e u) :
    instructionStep s = .next (u.raise e.kind e.va) := by
  have h' : fetch (hartCtx s.clearFlags) s.clearFlags.pc s.clearFlags = .fail e u := h
  unfold instructionStep
  dsimp only
  rw [h']; rfl

/-- A load that completed, from its access. -/
theorem loaded_intro {s u : State} (rd : RegIdx) (v : Word) (hp : u = { s with paging := u.paging })
    (hf : SameFrames s u) : Loaded s ((u.setReg rd v).advance) rd v := by
  have hr : ∀ r, u.reg r = s.reg r := fun r => by rw [hp]; rfl
  have hpc : u.pc = s.pc := by rw [hp]; rfl
  have hx : u.hart = s.hart := by rw [hp]
  refine ⟨fun r => ?_, ?_, ?_, ?_, ?_⟩
  · unfold State.advance; rw [State.setPc_reg, State.setReg_reg, hr]
  · unfold State.advance; show (u.setReg rd v).pc + 4#32 = _; rw [State.setReg_pc, hpc]
  · have h0 := State.setReg_x0 u rd v
    rw [hx] at h0; exact h0
  · unfold State.advance State.setReg State.setPc; split <;> (rw [hp])
  · have h1 : ((u.setReg rd v).advance).paging = u.paging := by
      unfold State.advance State.setReg State.setPc; split <;> rfl
    unfold SameFrames State.frame at hf ⊢
    rw [h1]; exact hf

/-- A store that completed, from its access. -/
theorem stored_intro {s u : State} (pa : Nat) {n : Nat} (hn : n ≤ 4) (v : Word) (hp : u = { s with paging := u.paging })
    (hf : SameFrames s u) : Stored s ((u.storeBytes pa (lowBytes v n)).advance) pa n v := by
  have hram : u.ram = s.ram := by rw [hp]
  refine ⟨fun a => ?_, ?_, hf⟩
  · rw [State.advance_ram, read_stored u pa v hn, hram]
  · unfold State.advance State.setPc State.storeBytes; rw [hp]; rfl

/-- An instruction that raises: only an access has failed, and then the flag, the code and the value are set. -/
theorem exec_raises (i : Instr) (s t : State) (h : exec i s = .next t) (hs : s.hart.pendingException = false)
    (ht : t.hart.pendingException = true) : ∃ u k v, QuietStep s u ∧
      (∀ a, u.ram.read a = s.ram.read a ∨ GivenOut s u v a) ∧ t = u.raise k v := by
  have hw : ∀ rd v, (writeNext rd v s = .next t) → False := fun rd v h => by
    unfold writeNext at h; cases h
    simp [State.advance, State.setPc, hs] at ht
  have hl : ∀ rd rs1 imm n ext, loadInto rd rs1 imm n ext s = .next t → ∃ u k v, QuietStep s u ∧
      (∀ a, u.ram.read a = s.ram.read a ∨ GivenOut s u v a) ∧ t = u.raise k v :=
    fun rd rs1 imm n ext h => by
      unfold loadInto Res.toOutcome at h
      have h1 := AccessStep.memRead (hartCtx s) (effAddr s rs1 imm) n s
      split at h
      · rename_i v u hu; rw [hu] at h1; cases h
        have h2 : u.hart = s.hart := AccessStep.hart h1
        simp [State.advance, State.setPc, h2, hs] at ht
      · rename_i f u hu; cases h
        have h2 := memRead_bytes (effAddr s rs1 imm) n s
        rw [hu] at h2
        exact ⟨u, f.kind, f.va, memRead_fail hu, by rw [memRead_va hu]; exact h2, rfl⟩
      · cases h
  have hst : ∀ rs2 rs1 imm n, storeFrom rs2 rs1 imm n s = .next t → ∃ u k v, QuietStep s u ∧
      (∀ a, u.ram.read a = s.ram.read a ∨ GivenOut s u v a) ∧ t = u.raise k v :=
    fun rs2 rs1 imm n h => by
      unfold storeFrom Res.toOutcome at h
      have h1 := AccessStep.memWrite (hartCtx s) (effAddr s rs1 imm) n (s.reg rs2) s
      split at h
      · rename_i v u hu; rw [hu] at h1; cases h
        have h2 : u.hart = s.hart := AccessStep.hart h1
        simp [State.advance, State.setPc, h2, hs] at ht
      · rename_i f u hu; cases h
        exact ⟨u, f.kind, f.va, memWrite_fail hu, by rw [memWrite_va hu]; exact memWrite_fail_bytes hu, rfl⟩
      · cases h
  cases i with
  | lui | auipc | addi | slti | sltiu | xori | ori | andi | slli | srli | srai | add | sub | sll | slt | sltu | xor | srl
  | sra | or | and | mul | mulh | mulhsu | mulhu | div | divu | rem | remu => exact (hw _ _ h).elim
  | jal | jalr =>
    simp only [exec, execJal, execJalr, jumpNext] at h; cases h
    simp [State.setPc, hs] at ht
  | beq | bne | blt | bge | bltu | bgeu =>
    simp only [exec, execBeq, execBne, execBlt, execBge, execBltu, execBgeu, branchNext] at h
    split at h <;> cases h <;> simp [State.setPc, State.advance, hs] at ht
  | lb | lh | lw | lbu | lhu => exact hl _ _ _ _ _ h
  | sb | sh | sw => exact hst _ _ _ _ h
  | fence => cases h; simp [State.setPc, State.advance, hs] at ht
  | ecall | ebreak => cases h; simp [State.setPc, State.advance, State.signalEcall, hs] at ht
  | csrrw | csrrs | csrrc | csrrwi | csrrsi | csrrci => cases h

end Sys2Proof.Machine
end

