-- ==== Sys2Proof/Laws/Orderly.lean ====
section
/-! SUPPORT. The scheduler in order: that the ready collection, the wait queues and the harts' places in their loops go on agreeing
with the task records, operation by operation and then for each transition of an agent. -/

namespace Sys2Proof.Machine

/-- The PID that a hart's place in its loop names. -/
def Phase.names : Phase → Option Nat
  | .picked p => some p
  | e => e.held

/-- Each hart's number and its place in the loop. -/
def State.places (s : State) : List (Nat × Phase) := s.harts.map (fun h => (h.id, h.phase))

/-- The same of the harts whose turn it is not. -/
def State.elsewhere (s : State) : List (Nat × Phase) := s.others.map (fun h => (h.id, h.phase))

/-- `State.orderly`, of some of the harts' places. -/
structure Sound (s : State) (l : List (Nat × Phase)) : Prop where
  lock : s.sched.lock = none
  panic : s.kernel.panic = none
  ready : ∀ p ∈ s.sched.ready, ∃ k, s.task? p = some k ∧ k.state = .ready ∧ k.activeHartId = none
  io : ∀ p ∈ s.waits.io, s.waitsIn p (fun r => r = .uartInput ∨ r = .processExit)
  sleep : ∀ e ∈ s.waits.sleep, s.waitsIn e.2 (fun r => r = .timer)
  once : (s.waits.sleep.map (fun e => e.2)).Nodup
  child : ∀ e ∈ s.waits.childTerm, s.waitsIn e.2 (fun r => r = .processExit)
  phases : ∀ e ∈ l, e.2.sound s
  apart : ∀ e ∈ l, ∀ d ∈ l, ∀ p, e.2 = .picked p → d.2 = .picked p → e.1 = d.1

theorem orderly_iff (s : State) : s.orderly ↔ Sound s s.places := by
  have h1 : (∀ e ∈ s.places, e.2.sound s) ↔ ∀ h ∈ s.harts, h.phase.sound s := by simp [State.places]
  have h2 : (∀ e ∈ s.places, ∀ d ∈ s.places, ∀ p, e.2 = .picked p → d.2 = .picked p → e.1 = d.1) ↔
      ∀ g ∈ s.harts, ∀ h ∈ s.harts, ∀ p, g.phase = .picked p → h.phase = .picked p → g.id = h.id := by simp [State.places]
  constructor
  · rintro ⟨a, b, c, d, e, f, g, h, i⟩; exact ⟨a, b, c, d, e, f, g, h1.2 h, h2.2 i⟩
  · rintro ⟨a, b, c, d, e, f, g, h, i⟩; exact ⟨a, b, c, d, e, f, g, h1.1 h, h2.1 i⟩

theorem Sound.mono {s : State} {l m : List (Nat × Phase)} (h : Sound s l) (hm : ∀ e ∈ m, e ∈ l) : Sound s m :=
  ⟨h.lock, h.panic, h.ready, h.io, h.sleep, h.once, h.child, fun e he => h.phases e (hm e he),
   fun e he d hd => h.apart e (hm e he) d (hm d hd)⟩

theorem Sound.cons {s : State} {l : List (Nat × Phase)} (h : Sound s l) {i : Nat} {e : Phase} (he : e.sound s)
    (ha : ∀ p, e = .picked p → ∀ d ∈ l, d.2 ≠ .picked p) : Sound s ((i, e) :: l) := by
  refine ⟨h.lock, h.panic, h.ready, h.io, h.sleep, h.once, h.child, ?_, ?_⟩
  · intro d hd
    rcases List.mem_cons.1 hd with rfl | hd
    · exact he
    · exact h.phases d hd
  · intro c hc d hd p h1 h2
    rcases List.mem_cons.1 hc with rfl | hc <;> rcases List.mem_cons.1 hd with rfl | hd
    · rfl
    · exact absurd h2 (ha p h1 d hd)
    · exact absurd h1 (ha p h2 c hc)
    · exact h.apart c hc d hd p h1 h2

/-- A place stays so while the record of its task changes only as others may change it: it ends, or it wakes. -/
theorem Phase.sound_of {s t : State} {e : Phase} (h : e.sound s) (hp : s.kernel.pidCounter ≤ t.kernel.pidCounter)
    (hr : ∀ p, e = .picked p → p ∈ t.sched.ready → p ∈ s.sched.ready)
    (hk : ∀ p k', e.names = some p → t.task? p = some k' → ∃ k, s.task? p = some k ∧
      (e = .picked p → k'.activeHartId = k.activeHartId) ∧
      (k'.state = k.state ∨ k'.state = .terminated ∨ (k.state = .waiting ∧ k'.state ≠ .running))) : e.sound t := by
  cases e with
  | picked p =>
    obtain ⟨h1, h2, h3⟩ := h
    refine ⟨Nat.lt_of_lt_of_le h1 hp, fun hm => h2 (hr p rfl hm), fun k' hk' => ?_⟩
    obtain ⟨k, e1, e2, e3⟩ := hk p k' rfl hk'
    obtain ⟨f1, f2⟩ := h3 k e1
    refine ⟨(e2 rfl).trans f1, ?_⟩
    rcases e3 with e3 | e3 | ⟨e3, -⟩
    · rw [e3]; exact f2
    · exact .inr e3
    · rw [e3] at f2; rcases f2 with f2 | f2 <;> cases f2
  | acquired p =>
    refine ⟨Nat.lt_of_lt_of_le h.1 hp, fun k' hk' => ?_⟩
    obtain ⟨k, e1, -, e3⟩ := hk p k' rfl hk'
    have f2 := h.2 k e1
    rcases e3 with e3 | e3 | ⟨e3, -⟩
    · rw [e3]; exact f2
    · exact .inr e3
    · rw [e3] at f2; rcases f2 with f2 | f2 <;> cases f2
  | slice p =>
    refine ⟨Nat.lt_of_lt_of_le h.1 hp, fun k' hk' => ?_⟩
    obtain ⟨k, e1, -, e3⟩ := hk p k' rfl hk'
    have f2 := h.2 k e1
    rcases e3 with e3 | e3 | ⟨e3, -⟩
    · rw [e3]; exact f2
    · exact .inr e3
    · rw [e3] at f2; rcases f2 with f2 | f2 <;> cases f2
  | trap p =>
    refine ⟨Nat.lt_of_lt_of_le h.1 hp, fun k' hk' => ?_⟩
    obtain ⟨k, e1, -, e3⟩ := hk p k' rfl hk'
    have f2 := h.2 k e1
    rcases e3 with e3 | e3 | ⟨e3, -⟩
    · rw [e3]; exact f2
    · exact .inr e3
    · rw [e3] at f2; rcases f2 with f2 | f2 <;> cases f2
  | sliceEnd p b => exact Nat.lt_of_lt_of_le h hp
  | release p =>
    refine ⟨Nat.lt_of_lt_of_le h.1 hp, fun k' hk' => ?_⟩
    obtain ⟨k, e1, -, e3⟩ := hk p k' rfl hk'
    have f2 := h.2 k e1
    rcases e3 with e3 | e3 | ⟨-, e3⟩
    · rw [e3]; exact f2
    · rw [e3]; simp
    · exact e3
  | boot => trivial
  | loopTop => trivial
  | throttled => trivial
  | scheduling => trivial
  | stopped => trivial

/-! ### Changes of the scheduler and the queues -/

/-- A task leaves: the ready collection and the queues hold no more than they did. -/
theorem Sound.fewer {s : State} {l : List (Nat × Phase)} {sc : Sched} {w : WaitQueues} (h : Sound s l) (hl : sc.lock = none)
    (hr : ∀ p ∈ sc.ready, p ∈ s.sched.ready) (hi : ∀ p ∈ w.io, p ∈ s.waits.io) (hs : w.sleep.Sublist s.waits.sleep)
    (hc : ∀ e ∈ w.childTerm, e ∈ s.waits.childTerm) : Sound { s with sched := sc, waits := w } l :=
  ⟨hl, h.panic, fun p hp => h.ready p (hr p hp), fun p hp => h.io p (hi p hp), fun e he => h.sleep e (hs.subset he),
   h.once.sublist (hs.map _), fun e he => h.child e (hc e he), fun e he => Phase.sound_of (h.phases e he) (Nat.le_refl _)
    (fun p _ hp => hr p hp) (fun _ k _ hk => ⟨k, hk, fun _ => rfl, .inl rfl⟩), h.apart⟩

/-- A READY task that no hart holds or has scheduled joins the ready collection. -/
theorem Sound.enqueue {s : State} {l : List (Nat × Phase)} {p : Nat} (h : Sound s l)
    (hk : ∀ k, s.task? p = some k → k.state = .ready → k.activeHartId = none) (ha : ∀ e ∈ l, e.2 ≠ .picked p) :
    Sound (enqueue p s) l := by
  unfold Machine.enqueue
  split
  · exact h
  · rename_i hc
    simp only [Bool.or_eq_true, Bool.not_eq_true', not_or, Bool.not_eq_false] at hc
    refine ⟨h.lock, h.panic, fun q hq => ?_, h.io, h.sleep, h.once, h.child, fun e he => Phase.sound_of (h.phases e he) (Nat.le_refl _)
      (fun q e' hq => ?_) (fun q k _ hk => ⟨k, hk, fun _ => rfl, .inl rfl⟩), h.apart⟩
    · rcases List.mem_append.1 hq with hq | hq
      · exact h.ready q hq
      · rw [List.mem_singleton] at hq; subst hq
        have hst := hc.2
        unfold State.taskIs at hst
        split at hst
        · rename_i k hkk
          have hst : k.state = .ready := by simpa using hst
          exact ⟨k, hkk, hst, hk k hkk hst⟩
        · cases hst
    · rcases List.mem_append.1 hq with hq | hq
      · exact hq
      · rw [List.mem_singleton] at hq; subst hq
        exact absurd e' (ha e he)

theorem addTask_free {s : State} (who : Holder) (p : Nat) (h : s.sched.lock = none) : addTask who p s = enqueue p s := by
  unfold addTask withLock; rw [h]

theorem removeTask_free {s : State} (who : Holder) (p : Nat) (h : s.sched.lock = none) : removeTask who p s = dequeue p s := by
  unfold removeTask withLock; rw [h]

/-- A task in no queue. -/
def WaitQueues.without (w : WaitQueues) (p : Nat) : Prop :=
  p ∉ w.io ∧ (∀ e ∈ w.sleep, e.2 ≠ p) ∧ ∀ e ∈ w.childTerm, e.2 ≠ p

/-- A task that is not WAITING, or that a hart holds, is in no queue; nor is one without a record. -/
theorem Sound.unqueued {s : State} {l : List (Nat × Phase)} {p : Nat} (h : Sound s l)
    (hk : ∀ k, s.task? p = some k → k.state = .waiting → k.activeHartId ≠ none) : s.waits.without p := by
  have key : ∀ r, ¬s.waitsIn p r := fun r ⟨k, h1, h2, h3, _⟩ => hk k h1 h2 h3
  exact ⟨fun hp => key _ (h.io p hp), fun e he hp => key _ (hp ▸ h.sleep e he), fun e he hp => key _ (hp ▸ h.child e he)⟩

/-- A task that is not READY, or that a hart holds, is not in the ready collection. -/
theorem Sound.unready {s : State} {l : List (Nat × Phase)} {p : Nat} (h : Sound s l)
    (hk : ∀ k, s.task? p = some k → k.state = .ready → k.activeHartId ≠ none) : p ∉ s.sched.ready := fun hp => by
  obtain ⟨k, h1, h2, h3⟩ := h.ready p hp
  exact hk k h1 h2 h3

/-- The record of a task changes that is neither ready nor queued. -/
theorem Sound.mod {s : State} {l : List (Nat × Phase)} {p : Nat} {f : Task → Task} (h : Sound s l) (hr : p ∉ s.sched.ready)
    (hq : s.waits.without p) (hp : ∀ e ∈ l, e.2.names = some p → e.2.sound (s.modTask p f)) : Sound (s.modTask p f) l := by
  have h? : ∀ q, q ≠ p → (s.modTask p f).task? q = s.task? q := fun q e => by rw [State.task?_modTask, if_neg e]
  have hw : ∀ {q r}, q ≠ p → s.waitsIn q r → (s.modTask p f).waitsIn q r := fun e ⟨k, h1, h2⟩ => ⟨k, by rw [h? _ e]; exact h1, h2⟩
  refine ⟨h.lock, h.panic, fun q hm => ?_, fun q hm => hw (fun e => hq.1 (e ▸ hm)) (h.io q hm),
    fun e hm => hw (hq.2.1 e hm) (h.sleep e hm), h.once, fun e hm => hw (hq.2.2 e hm) (h.child e hm), fun e he => ?_, h.apart⟩
  · have hne : q ≠ p := fun e => hr (e ▸ hm)
    rw [h? _ hne]; exact h.ready q hm
  · by_cases hn : e.2.names = some p
    · exact hp e he hn
    · refine Phase.sound_of (h.phases e he) (Nat.le_refl _) (fun _ _ => id) (fun q k' hq' hk' => ⟨k', ?_, fun _ => rfl, .inl rfl⟩)
      rwa [h? q (fun e' => hn (e' ▸ hq'))] at hk'

/-! ### Waking -/

theorem Task.woken_waiting {k : Task} (h : k.state = .waiting) : k.woken = { k with state := .ready, waitReason := .none } := by
  unfold Task.woken Task.goTo; rw [if_neg (by rw [h]; decide)]

/-- A WAITING task is woken, once it is out of the queues. -/
theorem Sound.woken {s : State} {l : List (Nat × Phase)} {p : Nat} {k : Task} {w : WaitQueues} (h : Sound s l)
    (hk : s.task? p = some k) (hs : k.state = .waiting) (hi : ∀ q ∈ w.io, q ∈ s.waits.io) (hsl : w.sleep.Sublist s.waits.sleep)
    (hc : ∀ e ∈ w.childTerm, e ∈ s.waits.childTerm) (hw : w.without p) :
    Sound (({ s with waits := w } : State).modTask p Task.woken) l := by
  have h1 : Sound { s with waits := w } l := h.fewer (sc := s.sched) h.lock (fun _ => id) hi hsl hc
  refine h1.mod (h.unready (fun k' e e' => by rw [hk] at e; cases e; rw [hs] at e'; cases e')) hw (fun e he hn => ?_)
  refine Phase.sound_of (h1.phases e he) (Nat.le_refl _) (fun _ _ => id) (fun q k' hq hk' => ?_)
  rw [hn] at hq; cases hq
  rw [State.task?_modTask, if_pos rfl] at hk'
  have hk0 : ({ s with waits := w } : State).task? p = some k := hk
  rw [hk0] at hk'
  cases hk'
  rw [Task.woken_waiting hs]
  exact ⟨k, hk, fun _ => rfl, .inr (.inr ⟨hs, by simp⟩)⟩

/-- It then joins the ready collection, where no hart holds it. -/
theorem Sound.wake {s : State} {l : List (Nat × Phase)} {p : Nat} {k : Task} {w : WaitQueues} (who : Holder) (h : Sound s l)
    (hk : s.task? p = some k) (hs : k.state = .waiting) (ha : k.activeHartId = none) (hi : ∀ q ∈ w.io, q ∈ s.waits.io)
    (hsl : w.sleep.Sublist s.waits.sleep) (hc : ∀ e ∈ w.childTerm, e ∈ s.waits.childTerm) (hw : w.without p) :
    Sound (addTask who p (({ s with waits := w } : State).modTask p Task.woken)) l := by
  have h1 := h.woken hk hs hi hsl hc hw
  rw [addTask_free (s := ({ s with waits := w } : State).modTask p Task.woken) who p h.lock]
  refine h1.enqueue (fun k' hk' _ => ?_) (fun e he hp => ?_)
  · rw [State.task?_modTask, if_pos rfl] at hk'
    have hk0 : ({ s with waits := w } : State).task? p = some k := hk
    rw [hk0] at hk'
    cases hk'
    rw [Task.woken_waiting hs]; exact ha
  · have := h.phases e he
    rw [hp] at this
    rcases (this.2.2 k hk).2 with h2 | h2 <;> (rw [hs] at h2; cases h2)

theorem Sound.wakeParentOf {s : State} {l : List (Nat × Phase)} (who : Holder) (c : Nat) (h : Sound s l) :
    Sound (wakeParentOf who c s) l := by
  unfold Machine.wakeParentOf
  split
  · exact h
  · rename_i pp _
    split
    · exact h
    · rename_i p hp
      split
      · rename_i hw
        unfold Task.waitsFor at hw
        simp only [Bool.and_eq_true, decide_eq_true_eq] at hw
        obtain ⟨⟨hst, hre⟩, -⟩ := hw
        have hno : ({ s.waits with io := s.waits.io.filter (fun q => q ≠ pp)
                                   childTerm := s.waits.childTerm.filter (fun e => e.2 ≠ pp) } : WaitQueues).without pp := by
          refine ⟨by simp, fun e he e' => ?_, fun e he => by simpa using (List.mem_filter.1 he).2⟩
          obtain ⟨k, h1, -, -, h2⟩ := h.sleep e he
          rw [e', hp] at h1; cases h1
          rw [hre] at h2; cases h2
        dsimp only
        split
        · exact h.wake who hp hst (by assumption) (fun q hq => (List.mem_filter.1 hq).1) (List.Sublist.refl _)
            (fun e he => (List.mem_filter.1 he).1) hno
        · exact h.woken hp hst (fun q hq => (List.mem_filter.1 hq).1) (List.Sublist.refl _)
            (fun e he => (List.mem_filter.1 he).1) hno
      · exact h

/-! ### The maintenance agent and the host -/

theorem Sound.wakeReaders {l : List (Nat × Phase)} (r : List Nat) {s : State} (h : Sound s l)
    (hr : ∀ p ∈ r, ∀ k, s.task? p = some k → k.waitReason = .uartInput → k.state = .waiting ∧ k.activeHartId = none) :
    Sound (wakeReaders r s) l := by
  induction r generalizing s with
  | nil => exact h
  | cons w r ih =>
    unfold Machine.wakeReaders
    have hr' := fun p hp => hr p (List.mem_cons_of_mem w hp)
    split
    · exact ih h hr'
    · rename_i k hk
      split
      · rename_i hu
        obtain ⟨h1, h2⟩ := hr w List.mem_cons_self k hk hu
        have hno : ({ s.waits with io := s.waits.io.filter (fun p => p ≠ w) } : WaitQueues).without w := by
          have key : ∀ q r, s.waitsIn q r → ¬r .uartInput → q ≠ w := fun q r ⟨k', e1, _, _, e2⟩ hn e => by
            rw [e, hk] at e1; cases e1; rw [hu] at e2; exact hn e2
          exact ⟨by simp, fun e he => key _ _ (h.sleep e he) nofun, fun e he => key _ _ (h.child e he) nofun⟩
        dsimp only
        refine ih (h.wake .maintenance hk h1 h2 (fun q hq => (List.mem_filter.1 hq).1) (List.Sublist.refl _) (fun _ => id) hno) ?_
        intro p hp k' hk' hu'
        rw [(addTask_same _ _ _).1, State.task?_modTask] at hk'
        by_cases e : p = w
        · subst e
          have hk0 : ({ s with waits := { s.waits with io := s.waits.io.filter (fun q => q ≠ p) } } : State).task? p = some k := hk
          rw [if_pos rfl, hk0] at hk'
          cases hk'
          rw [Task.woken_waiting h1] at hu'; cases hu'
        · rw [if_neg e] at hk'; exact hr' p hp k' hk' hu'
      · exact ih h hr'

theorem choose_eq {α : Type} {s : State} {l : List α} {r : α × State} (h : s.choose l = some r) :
    r.1 ∈ l ∧ ∃ c, r.2 = { s with chance := c } := by
  refine ⟨(PagingStep.choose h).2.1, ?_⟩
  match l, h with
  | [a], h => cases h; exact ⟨_, rfl⟩
  | a :: b :: l, h =>
    cases h
    unfold State.draw
    dsimp only
    split <;> exact ⟨_, rfl⟩

/-- Nothing of this depends on the draws. -/
theorem Sound.chance {s : State} {l : List (Nat × Phase)} (h : Sound s l) (c : Chance) : Sound { s with chance := c } l :=
  ⟨h.lock, h.panic, h.ready, h.io, h.sleep, h.once, h.child, fun e he => Phase.sound_of (h.phases e he) (Nat.le_refl _)
    (fun _ _ => id) (fun _ k _ hk => ⟨k, hk, fun _ => rfl, .inl rfl⟩), h.apart⟩

theorem Sound.wakeSleepers {l : List (Nat × Phase)} (n : Nat) {s : State} (h : Sound s l) : Sound (wakeSleepers n s) l := by
  induction n generalizing s with
  | zero => exact h
  | succ n ih =>
    unfold Machine.wakeSleepers
    split
    · exact h
    · split
      · split
        · exact h
        · rename_i e s1 hc
          obtain ⟨hm0, c, hs1⟩ := choose_eq hc
          have hs1 : s1 = { s with chance := c } := hs1
          have hm : e ∈ s.waits.sleep := (List.mem_filter.1 hm0).1
          obtain ⟨k, h1, h2, h3, h4⟩ := h.sleep e hm
          subst hs1
          have hno : ({ s.waits with sleep := s.waits.sleep.erase e } : WaitQueues).without e.2 := by
            have key : ∀ q r, s.waitsIn q r → ¬r .timer → q ≠ e.2 := fun q r ⟨k', e1, _, _, e2⟩ hn e => by
              rw [e, h1] at e1; cases e1; rw [h4] at e2; exact hn e2
            refine ⟨fun hp => key _ _ (h.io _ hp) (by rintro (h | h) <;> cases h) rfl, fun d hd he => ?_,
              fun d hd => key _ _ (h.child d hd) nofun⟩
            have hn : s.waits.sleep.Nodup := h.once.of_map
            obtain ⟨hne, hd'⟩ := (hn.mem_erase_iff).1 hd
            exact hne (List.inj_on_of_nodup_map h.once hd' hm he)
          exact ih ((h.chance c).wake .maintenance h1 h2 h3 (fun _ => id) List.erase_sublist (fun _ => id) hno)
      · exact h

theorem Sound.maintain {s : State} {l : List (Nat × Phase)} (h : Sound s l) : Sound (maintain s) l := by
  unfold Machine.maintain
  split
  · exact h
  · dsimp only
    split
    · refine (h.wakeReaders s.waits.io (fun p hp k hk _ => ?_)).wakeSleepers _
      obtain ⟨k', h1, h2, h3, -⟩ := h.io p hp
      rw [hk] at h1; cases h1; exact ⟨h2, h3⟩
    · exact h.wakeSleepers _

/-- A task ends by the host's hand. -/
theorem Sound.terminateTask {s : State} {l : List (Nat × Phase)} (pid : Nat) (h : Sound s l) : Sound (terminateTask pid s) l := by
  unfold Machine.terminateTask
  split
  · exact h
  · rename_i k hk
    split
    · exact h
    · have hmain : ∀ (u : State) (v : Word), Sound u l →
          Sound (unqueue pid (Machine.removeTask .host pid (u.modTask pid (fun t => t.exit v)))) l := by
        intro u v hu
        have h1 : Sound { u with sched := { u.sched with ready := u.sched.ready.filter (fun p => p ≠ pid), members := u.sched.members.filter (fun p => p ≠ pid) }
                                 waits := { io := u.waits.io.filter (fun p => p ≠ pid)
                                            sleep := u.waits.sleep.filter (fun e => e.2 ≠ pid)
                                            childTerm := u.waits.childTerm.filter (fun e => e.2 ≠ pid) } } l :=
          hu.fewer hu.lock (fun p hp => (List.mem_filter.1 hp).1) (fun p hp => (List.mem_filter.1 hp).1) List.filter_sublist
            (fun e he => (List.mem_filter.1 he).1)
        rw [removeTask_free .host pid (s := u.modTask pid (fun t => t.exit v)) hu.lock]
        refine h1.mod (f := fun t => t.exit v) (by simp) ⟨by simp, fun e he => by simpa using (List.mem_filter.1 he).2,
          fun e he => by simpa using (List.mem_filter.1 he).2⟩ (fun e he hn => ?_)
        refine Phase.sound_of (h1.phases e he) (Nat.le_refl _) (fun _ _ => id) (fun q k' hq hk' => ?_)
        rw [hn] at hq; cases hq
        rw [State.task?_modTask, if_pos rfl] at hk'
        obtain ⟨k0, hk0, rfl⟩ := Option.map_eq_some_iff.1 hk'
        exact ⟨k0, hk0, fun _ => rfl, .inr (.inl rfl)⟩
      have hd : Sound s.drawWord.2 l := by
        have : ∃ c, s.drawWord.2 = { s with chance := c } := by
          unfold State.drawWord State.draw; dsimp only; split <;> exact ⟨_, rfl⟩
        obtain ⟨c, hc⟩ := this
        rw [hc]; exact h.chance c
      dsimp only
      split
      · exact (hmain _ _ hd).wakeParentOf _ _
      · exact hmain _ _ hd

/-- A change of the kernel's other registers and of the host's streams. -/
theorem Sound.aside {s : State} {l : List (Nat × Phase)} {k : Kernel} {io : HostIo} (h : Sound s l) (ht : k.tasks = s.kernel.tasks)
    (hp : s.kernel.pidCounter ≤ k.pidCounter) (hn : k.panic = none) : Sound { s with kernel := k, io := io } l := by
  have h? : ∀ q, ({ s with kernel := k, io := io } : State).task? q = s.task? q := fun q => by unfold State.task?; rw [ht]
  have hw : ∀ {q r}, s.waitsIn q r → ({ s with kernel := k, io := io } : State).waitsIn q r :=
    fun ⟨k', h1, h2⟩ => ⟨k', by rw [h?]; exact h1, h2⟩
  exact ⟨h.lock, hn, fun p m => by rw [h?]; exact h.ready p m, fun p m => hw (h.io p m), fun e m => hw (h.sleep e m), h.once,
    fun e m => hw (h.child e m), fun e he => Phase.sound_of (h.phases e he) hp (fun _ _ => id)
      (fun _ k' _ hk => ⟨k', by rw [← h?]; exact hk, fun _ => rfl, .inl rfl⟩), h.apart⟩

theorem Sound.hostStep {s : State} {l : List (Nat × Phase)} (a : HostAction) (h : Sound s l) : Sound (hostStep a s) l := by
  cases a with
  | terminateTask pid => exact h.terminateTask pid
  | pushByte b => exact h.aside rfl (Nat.le_refl _) h.panic
  | advanceClock ms => exact h.aside rfl (Nat.le_refl _) h.panic
  | shutdown => exact h.aside rfl (Nat.le_refl _) h.panic
  | setPaused p => exact h.aside rfl (Nat.le_refl _) h.panic
  | setDelay ms => exact h.aside rfl (Nat.le_refl _) h.panic

/-! ### What a syscall does beside its task -/

/-- The scheduler and the queues are as they were; so is what they depend on of every record but `own`, unless it was a zombie's
and is gone. -/
structure Calm (own : Nat) (s t : State) : Prop where
  sched : t.sched = s.sched
  waits : t.waits = s.waits
  panic : t.kernel.panic = s.kernel.panic
  pids : s.kernel.pidCounter ≤ t.kernel.pidCounter
  fresh : ∀ p, p < s.kernel.pidCounter → s.task? p = none → t.task? p = none
  recs : ∀ p k, p < s.kernel.pidCounter → p ≠ own → s.task? p = some k →
    (∃ k', t.task? p = some k' ∧ k'.state = k.state ∧ k'.waitReason = k.waitReason ∧ k'.activeHartId = k.activeHartId) ∨
      (k.state = .terminated ∧ k.activeHartId = none ∧ t.task? p = none)

theorem Calm.refl (own : Nat) (s : State) : Calm own s s :=
  ⟨rfl, rfl, rfl, Nat.le_refl _, fun _ _ => id, fun _ k _ _ h => .inl ⟨k, h, rfl, rfl, rfl⟩⟩

theorem Calm.trans {own : Nat} {s t u : State} (h : Calm own s t) (g : Calm own t u) : Calm own s u := by
  refine ⟨g.sched.trans h.sched, g.waits.trans h.waits, g.panic.trans h.panic, Nat.le_trans h.pids g.pids,
    fun p hp hn => g.fresh p (Nat.lt_of_lt_of_le hp h.pids) (h.fresh p hp hn), fun p k hp hne hk => ?_⟩
  rcases h.recs p k hp hne hk with ⟨k1, a1, a2, a3, a4⟩ | ⟨a1, a2, a3⟩
  · rcases g.recs p k1 (Nat.lt_of_lt_of_le hp h.pids) hne a1 with ⟨k2, b1, b2, b3, b4⟩ | ⟨b1, b2, b3⟩
    · exact .inl ⟨k2, b1, b2.trans a2, b3.trans a3, b4.trans a4⟩
    · exact .inr ⟨a2 ▸ b1, a4 ▸ b2, b3⟩
  · exact .inr ⟨a1, a2, g.fresh p (Nat.lt_of_lt_of_le hp h.pids) a3⟩

/-- The task table is as it was. -/
theorem Calm.same {own : Nat} {s t : State} (hs : t.sched = s.sched) (hw : t.waits = s.waits)
    (hp : t.kernel.panic = s.kernel.panic) (hn : s.kernel.pidCounter ≤ t.kernel.pidCounter)
    (ht : t.kernel.tasks = s.kernel.tasks) : Calm own s t := by
  have h? : ∀ p, t.task? p = s.task? p := fun p => by unfold State.task?; rw [ht]
  exact ⟨hs, hw, hp, hn, fun p _ h => by rw [h?]; exact h, fun p k _ _ h => .inl ⟨k, by rw [h?]; exact h, rfl, rfl, rfl⟩⟩

theorem AccessStep.calm {s t : State} (own : Nat) (h : AccessStep s t) : Calm own s t :=
  .same h.sched h.waits (by rw [h.kernel]) (by rw [h.kernel]) (by rw [h.kernel])

theorem LoaderStep.calm {s t : State} (own : Nat) (h : LoaderStep s t) : Calm own s t :=
  .same h.sched h.waits (by rw [h.kernel]) (by rw [h.kernel]) (by rw [h.kernel])

theorem Calm.mod (own : Nat) (f : Task → Task) (s : State) : Calm own s (s.modTask own f) := by
  refine ⟨rfl, rfl, rfl, Nat.le_refl _, fun p _ h => ?_, fun p k _ hne h => .inl ⟨k, ?_, rfl, rfl, rfl⟩⟩
  · rw [State.task?_modTask, h]; split <;> rfl
  · rw [State.task?_modTask, if_neg hne]; exact h

/-- A zombie's record goes. -/
theorem Calm.drop (own c : Nat) (s : State)
    (h : ∀ k, s.task? c = some k → k.state = .terminated ∧ k.activeHartId = none) : Calm own s (s.dropTask c) := by
  refine ⟨rfl, rfl, rfl, Nat.le_refl _, fun p _ h => ?_, fun p k _ _ hk => ?_⟩
  · rw [State.task?_dropTask, h]; split <;> rfl
  · rw [State.task?_dropTask]
    by_cases e : p = c
    · rw [if_pos e]; exact .inr ⟨(h k (e ▸ hk)).1, (h k (e ▸ hk)).2, rfl⟩
    · rw [if_neg e]; exact .inl ⟨k, hk, rfl, rfl, rfl⟩

/-- The scheduler stays in order, where a hart holds `own` and no other place names it. -/
theorem Sound.calm {s t : State} {l : List (Nat × Phase)} {own : Nat} (h : Sound s l) (hg : s.pidsGiven) (hc : Calm own s t)
    (ho : ∀ k, s.task? own = some k → k.activeHartId ≠ none) (hl : ∀ e ∈ l, e.2.names ≠ some own) : Sound t l := by
  have hlt : ∀ {p k}, s.task? p = some k → p < s.kernel.pidCounter := fun hk => hg _ (mem_of_assocGet hk)
  have hw : ∀ {p r}, s.waitsIn p r → t.waitsIn p r := by
    rintro p r ⟨k, h1, h2, h3, h4⟩
    rcases hc.recs p k (hlt h1) (fun e => ho k (e ▸ h1) h3) h1 with ⟨k', a1, a2, a3, a4⟩ | ⟨a1, -⟩
    · exact ⟨k', a1, a2.trans h2, a4.trans h3, a3 ▸ h4⟩
    · rw [h2] at a1; cases a1
  refine ⟨by rw [hc.sched]; exact h.lock, hc.panic.trans h.panic, fun p hp => ?_, fun p hp => hw (h.io p (hc.waits ▸ hp)),
    fun e he => hw (h.sleep e (hc.waits ▸ he)), by rw [hc.waits]; exact h.once, fun e he => hw (h.child e (hc.waits ▸ he)),
    fun e he => Phase.sound_of (h.phases e he) hc.pids (fun _ _ hp => hc.sched ▸ hp) (fun p k' hp hk' => ?_), h.apart⟩
  · rw [hc.sched] at hp
    obtain ⟨k, h1, h2, h3⟩ := h.ready p hp
    rcases hc.recs p k (hlt h1) (fun e => ho k (e ▸ h1) h3) h1 with ⟨k', a1, a2, -, a4⟩ | ⟨a1, -⟩
    · exact ⟨k', a1, a2.trans h2, a4.trans h3⟩
    · rw [h2] at a1; cases a1
  · have hne : p ≠ own := fun e' => hl e he (e' ▸ hp)
    have hpl : p < s.kernel.pidCounter := by
      have hph := h.phases e he
      revert hph hp
      cases e.2 <;> intro hp hph <;> first | (cases hp; done) | (cases hp; first | exact hph.1 | exact hph)
    cases hk : s.task? p with
    | none => rw [hc.fresh p hpl hk] at hk'; cases hk'
    | some k =>
      rcases hc.recs p k hpl hne hk with ⟨k1, a1, a2, -, a4⟩ | ⟨-, -, a3⟩
      · rw [a1] at hk'; cases hk'; exact ⟨k, rfl, fun _ => a4, .inl a2⟩
      · rw [a3] at hk'; cases hk'

theorem Calm.writeLoop (pid : Nat) (buf : Word) (n k : Nat) (s : State) : NextSat (Calm pid s) (writeLoop pid buf n k s) := by
  induction n generalizing k s with
  | zero => exact .next (.mod ..)
  | succ n ih =>
    unfold Machine.writeLoop
    have h1 := AccessStep.memRead (hartCtx s) (buf + BitVec.ofNat 32 k) 1 s
    split
    · rename_i h; rw [h] at h1; exact .next (Calm.trans (AccessStep.calm pid h1) (.mod ..))
    · exact .refused
    · rename_i h
      rw [h] at h1
      split
      · exact .next (Calm.trans (AccessStep.calm pid h1) (.mod ..))
      · intro u hu
        exact ((AccessStep.trans h1 (.emit ..)).calm pid).trans (ih _ _ u hu)

theorem Calm.reap (pid c : Nat) (s : State) (h : ∀ k, s.task? c = some k → k.state = .terminated ∧ k.activeHartId = none) :
    Calm pid s (reap pid c s) := by
  unfold Machine.reap
  dsimp only
  split
  · refine (Calm.mod pid _ s).trans (((Calm.drop pid c _ ?_).trans ((LoaderStep.destroySpace ..).calm pid)).trans (.mod ..))
    intro k hk
    rw [State.task?_modTask] at hk
    split at hk
    · obtain ⟨k0, hk0, rfl⟩ := Option.map_eq_some_iff.1 hk
      exact h k0 hk0
    · exact h k hk
  · exact .mod ..

/-- Every syscall but FORK. -/
theorem Calm.syscall {who : Holder} {pid : Nat} {s : State} {k : Task} (hk : s.task? pid = some k) (hf : (k.reg a7).toNat ≠ 220) :
    NextSat (Calm pid s) (syscall who pid s) := by
  unfold Machine.syscall
  rw [hk]
  dsimp only
  split
  · unfold sysRead
    split
    · exact .next (.mod ..)
    · split
      · exact .next (.mod ..)
      · have h2 := AccessStep.memWrite (hartCtx (readRx s).2) (k.reg a1) 1 ((readRx s).1.setWidth 32) (readRx s).2
        dsimp only
        split
        · rename_i h; rw [h] at h2
          exact .next ((AccessStep.calm pid ((AccessStep.readRx s).trans h2)).trans (.mod ..))
        · rename_i h; rw [h] at h2
          exact .next ((AccessStep.calm pid ((AccessStep.readRx s).trans h2)).trans (.mod ..))
        · exact .refused
  split
  · unfold sysWrite
    split
    · exact Calm.writeLoop _ _ _ _ _
    · exact .next (.mod ..)
  split
  · exact .next (.mod ..)
  split
  · exact .next (((AccessStep.draw s).calm pid).trans (.mod ..))
  split
  · exact .next (.mod ..)
  split
  · unfold sysExec
    have h1 := AccessStep.readExecArgs (hartCtx s) (k.reg a0) (k.reg a1) s
    split
    · rename_i h; rw [h] at h1; exact .next (Calm.trans (AccessStep.calm pid h1) (.mod ..))
    · exact .refused
    · rename_i path args s1 h
      rw [h] at h1
      have h2 := LoaderStep.buildImage pid path args s1
      split
      · rename_i s2 _
        exact .next ((Calm.trans (AccessStep.calm pid h1) (.same (t := undoBuild s1 s2) rfl rfl rfl (Nat.le_refl _) rfl)).trans (.mod ..))
      · exact .refused
      · rename_i hb
        rw [hb] at h2
        exact .next (((Calm.trans (AccessStep.calm pid h1) (LoaderStep.calm pid h2)).trans (.mod ..)).trans
          ((LoaderStep.destroySpace ..).calm pid))
  split
  · unfold sysWait
    split
    · rename_i c s1 hc
      have h1 := AccessStep.choose hc
      have hm := (PagingStep.choose hc).2.1
      have hz : ∀ z, s.task? c = some z → z.state = .terminated ∧ z.activeHartId = none := fun z hz => by
        have := (List.mem_filter.1 hm).2
        dsimp only at this
        rw [hz] at this
        simpa using this
      have hz1 : ∀ u, AccessStep s u → ∀ z, u.task? c = some z → z.state = .terminated ∧ z.activeHartId = none :=
        fun u hu z hz' => hz z (by unfold State.task? at hz' ⊢; rwa [← hu.kernel])
      split
      · exact .next ((h1.calm pid).trans (.reap pid c s1 (hz1 s1 h1)))
      · have h2 := AccessStep.memWrite (hartCtx s1) (k.reg a0) 4 (exitCodeOf s1 c) s1
        split
        · rename_i s2 hw
          rw [hw] at h2
          have h3 := AccessStep.trans h1 h2
          exact .next ((h3.calm pid).trans (.reap pid c s2 (hz1 s2 h3)))
        · rename_i hw; rw [hw] at h2
          exact .next (((AccessStep.trans h1 h2).calm pid).trans (.mod ..))
        · exact .refused
    · split
      · exact .next (.mod ..)
      · exact .next (.mod ..)
  split
  · split
    · unfold sysDebugPrint
      have h1 := AccessStep.readString (hartCtx s) debugPrintMax (k.reg a0) [] s
      split
      · rename_i text s1 h
        rw [h] at h1
        exact .next (((AccessStep.calm pid h1).trans (.same (t := { s1 with io := { s1.io with hostLog := s1.io.hostLog ++ text } })
          rfl rfl rfl (Nat.le_refl _) rfl)).trans (((AccessStep.draw _).calm pid).trans (.mod ..)))
      · rename_i h; rw [h] at h1; exact .next (Calm.trans (AccessStep.calm pid h1) (.mod ..))
      · exact .refused
    · exact .next (.mod ..)
  split
  · exact .next (.mod ..)
  split
  · exact .next (((AccessStep.draw s).calm pid).trans (.mod ..))
  · exact .next (.mod ..)

/-! ### New tasks -/

theorem Phase.sound.lt {s : State} {e : Phase} (h : e.sound s) {p : Nat} (hp : e.names = some p) : p < s.kernel.pidCounter := by
  revert h hp
  cases e <;> intro h hp <;> first | (cases hp; done) | (cases hp; first | exact h.1 | exact h)

/-- A record under a PID that has none, READY and held by no hart, joins the ready collection. -/
theorem Sound.put {u : State} {l : List (Nat × Phase)} {t : Task} (who : Holder) (h : Sound u l) (hn : u.task? t.pid = none)
    (hl : ∀ e ∈ l, e.2.names ≠ some t.pid) (ht : t.activeHartId = none) :
    Sound (addTask who t.pid (u.putTask t)) l := by
  have h? : ∀ q, q ≠ t.pid → (u.putTask t).task? q = u.task? q := fun q e => by rw [State.task?_putTask, if_neg e]
  have hw : ∀ {q r}, u.waitsIn q r → (u.putTask t).waitsIn q r := fun ⟨k, h1, h2⟩ =>
    ⟨k, by rw [h? _ (fun e => by rw [e, hn] at h1; cases h1)]; exact h1, h2⟩
  have h1 : Sound (u.putTask t) l := by
    refine ⟨h.lock, h.panic, fun q hq => ?_, fun q hq => hw (h.io q hq), fun e he => hw (h.sleep e he), h.once,
      fun e he => hw (h.child e he), fun e he => Phase.sound_of (h.phases e he) (Nat.le_refl _) (fun _ _ => id)
        (fun q k' hq hk' => ⟨k', ?_, fun _ => rfl, .inl rfl⟩), h.apart⟩
    · obtain ⟨k, e1, e2⟩ := h.ready q hq
      exact ⟨k, by rw [h? _ (fun e => by rw [e, hn] at e1; cases e1)]; exact e1, e2⟩
    · rwa [h? _ (fun e' => hl e he (e' ▸ hq))] at hk'
  rw [addTask_free (s := u.putTask t) who t.pid h.lock]
  refine h1.enqueue (fun k hk _ => ?_) (fun e he hp => hl e he (by rw [hp]; rfl))
  rw [State.task?_putTask, if_pos rfl] at hk
  cases hk; exact ht

theorem pidsGiven_none {s : State} (hg : s.pidsGiven) : s.task? s.kernel.pidCounter = none := by
  cases h : s.task? s.kernel.pidCounter with
  | none => rfl
  | some k => exact absurd (hg _ (mem_of_assocGet h)) (Nat.lt_irrefl _)

theorem Sound.createTask {s : State} {l : List (Nat × Phase)} (who : Holder) (name buf : List Byte) (h : Sound s l)
    (hg : s.pidsGiven) : (createTask who name buf s).Sat (fun t => Sound t l) := by
  unfold Machine.createTask
  dsimp only
  have hno := pidsGiven_none hg
  have hl : ∀ e ∈ l, e.2.names ≠ some s.kernel.pidCounter := fun e he hp =>
    absurd (Phase.sound.lt (h.phases e he) hp) (Nat.lt_irrefl _)
  have hto : ∀ u, LoaderStep { s with kernel := { s.kernel with pidCounter := s.kernel.pidCounter + 1 } } u →
      Sound u l ∧ u.task? s.kernel.pidCounter = none := fun u hu => by
    refine ⟨h.calm hg (own := s.kernel.pidCounter)
      (Calm.trans (.same (t := { s with kernel := { s.kernel with pidCounter := s.kernel.pidCounter + 1 } }) rfl rfl rfl
        (Nat.le_succ _) rfl) (hu.calm _)) (fun k hk => by rw [hno] at hk; cases hk) hl, ?_⟩
    rw [State.task?_congr (s := s) (by rw [hu.kernel])]; exact hno
  refine Res.Sat.andThen' (LoaderStep.loadImage ..) (fun u hu => (hto u hu).1) (fun img s1 h1 => ?_)
  refine Res.Sat.andThen' ((LoaderStep.mapStack img.1 s1).imp (fun u hu => h1.trans hu)) (fun u hu => (hto u hu).1)
    (fun _ s2 h2 => ?_)
  have h3 := AccessStep.drawRegs drawnRegs (Vector.replicate 32 0#32) s2
  obtain ⟨k1, k2⟩ := hto s2 h2
  have h3c : ∀ own, Calm own s2 (drawRegs drawnRegs (Vector.replicate 32 0#32) s2).2 := fun own => h3.calm own
  have hg2 : s2.pidsGiven := fun e he => by
    rw [h2.kernel] at he ⊢
    exact Nat.lt_succ_of_lt (hg e he)
  refine (k1.calm hg2 (h3c s.kernel.pidCounter) (fun k hk => by rw [k2] at hk; cases hk) hl).put who ?_ hl rfl
  show (drawRegs _ _ s2).2.task? s.kernel.pidCounter = none
  rw [State.task?_congr (s := s2) (by rw [h3.kernel])]; exact k2

theorem Sound.sysFork {s : State} {l : List (Nat × Phase)} {pid : Nat} {k : Task} (who : Holder) (h : Sound s l) (hg : s.pidsGiven)
    (hk : s.task? pid = some k) (ha : k.activeHartId ≠ none) (hl : ∀ e ∈ l, e.2.names ≠ some pid) :
    NextSat (fun t => Sound t l) (sysFork who pid k s) := by
  have hno := pidsGiven_none hg
  have hlt : pid < s.kernel.pidCounter := hg _ (mem_of_assocGet hk)
  have hl0 : ∀ e ∈ l, e.2.names ≠ some s.kernel.pidCounter := fun e he hp =>
    absurd (Phase.sound.lt (h.phases e he) hp) (Nat.lt_irrefl _)
  have hown : ∀ k', s.task? pid = some k' → k'.activeHartId ≠ none := fun k' e => by rw [hk] at e; cases e; exact ha
  have hto : ∀ u, LoaderStep { s with kernel := { s.kernel with pidCounter := s.kernel.pidCounter + 1 } } u →
      Calm pid s u ∧ u.task? s.kernel.pidCounter = none ∧ u.task? pid = some k := fun u hu => by
    have h? := State.task?_congr (s := s) (t := u) (by rw [hu.kernel])
    refine ⟨Calm.trans (.same (t := { s with kernel := { s.kernel with pidCounter := s.kernel.pidCounter + 1 } }) rfl rfl rfl
        (Nat.le_succ _) rfl) (hu.calm _), ?_, ?_⟩
    · rw [h?]; exact hno
    · rw [h?]; exact hk
  unfold Machine.sysFork
  dsimp only
  have h1 := LoaderStep.copySpace k.space s.kernel.pidCounter
    { s with kernel := { s.kernel with pidCounter := s.kernel.pidCounter + 1 } }
  split
  · rename_i hc; rw [hc] at h1
    exact .next (h.calm hg ((hto _ h1).1.trans (.mod ..)) hown hl)
  · exact .refused
  · rename_i hd s1 hc
    rw [hc] at h1
    obtain ⟨c1, c2, c3⟩ := hto s1 h1
    have h2 := h.calm hg (c1.trans (.mod pid (fun u => { u with children := u.children ++ [s.kernel.pidCounter] }) s1)) hown hl
    have h3 := h2.put (t := k.child s.kernel.pidCounter hd) who (by
      show (s1.modTask pid _).task? s.kernel.pidCounter = none
      rw [State.task?_modTask, c2]; split <;> rfl) hl0 rfl
    have hk3 : ∀ k', (addTask who s.kernel.pidCounter ((s1.modTask pid (fun u => { u with
        children := u.children ++ [s.kernel.pidCounter] })).putTask (k.child s.kernel.pidCounter hd))).task? pid = some k' →
        k'.activeHartId ≠ none := fun k' e => by
      rw [(addTask_same _ _ _).1, State.task?_putTask, if_neg (show pid ≠ (k.child s.kernel.pidCounter hd).pid by
        show pid ≠ s.kernel.pidCounter; omega), State.task?_modTask, if_pos rfl, c3] at e
      cases e; exact ha
    exact .next (h3.mod (h3.unready (fun k' e _ => hk3 k' e)) (h3.unqueued (fun k' e _ => hk3 k' e))
      (fun e he hp => absurd hp (hl e he)))

/-! ### The harts -/

/-- A change of the hart alone. -/
theorem Sound.hart {s t : State} {l : List (Nat × Phase)} (h : Sound s l) (ht : t = { s with hart := t.hart }) : Sound t l := by
  rw [ht]
  exact ⟨h.lock, h.panic, h.ready, h.io, h.sleep, h.once, h.child, fun e he => Phase.sound_of (h.phases e he) (Nat.le_refl _)
    (fun _ _ => id) (fun _ k _ hk => ⟨k, hk, fun _ => rfl, .inl rfl⟩), h.apart⟩

theorem elsewhere_of {s t : State} {p : Params} (h : t.others.map (Hart.plain p) = s.others.map (Hart.plain p)) :
    t.elsewhere = s.elsewhere := by
  have := congrArg (List.map (fun h : Hart => (h.id, h.phase))) h
  simpa [State.elsewhere, List.map_map, Function.comp_def] using this

/-- A transition of a hart, where the others stay in their places. -/
theorem Sound.at {s t : State} (h : Sound t s.elsewhere) (hm : t.others.map (Hart.plain s.params) = s.others.map (Hart.plain s.params))
    (he : t.hart.phase.sound t) (ha : ∀ p, t.hart.phase = .picked p → ∀ d ∈ s.elsewhere, d.2 ≠ .picked p) : Sound t t.places := by
  have e : t.places = (t.hart.id, t.hart.phase) :: s.elsewhere := by
    rw [← elsewhere_of hm]; rfl
  rw [e]
  exact h.cons he ha

/-- No other place names the task that a hart holds. -/
theorem Sound.alone {s : State} (h : Sound s s.places) (hh : s.holds) {pid : Nat} (hp : s.hart.phase.held = some pid) :
    ∃ k, s.task? pid = some k ∧ k.activeHartId = some s.hart.id ∧ ∀ e ∈ s.elsewhere, e.2.names ≠ some pid := by
  obtain ⟨h1, h2, h3⟩ := hh
  have hc := h2 s.hart List.mem_cons_self
  obtain ⟨k, hk, ha⟩ := h3 s.hart List.mem_cons_self pid (hc.trans hp)
  refine ⟨k, hk, ha, fun e he hn => ?_⟩
  obtain ⟨g, hg, rfl⟩ := List.mem_map.1 he
  have hgm : g ∈ s.harts := List.mem_cons_of_mem _ hg
  have hheld : g.phase.held = some pid ∨ g.phase = .picked pid := by
    revert hn
    dsimp only
    cases g.phase <;> intro hn <;> first | exact .inl hn | (cases hn; exact .inr rfl)
  rcases hheld with hx | hx
  · obtain ⟨k', hk', ha'⟩ := h3 g hgm pid ((h2 g hgm).trans hx)
    rw [hk] at hk'; cases hk'
    rw [ha] at ha'
    have hid : s.hart.id = g.id := Option.some.inj ha'
    have := h1
    unfold State.harts at this
    rw [List.map_cons, List.nodup_cons] at this
    exact this.1 (hid ▸ List.mem_map_of_mem hg)
  · have := h.phases _ (List.mem_map_of_mem hgm)
    dsimp only at this
    rw [hx] at this
    rw [(this.2.2 k hk).1] at ha; cases ha

theorem Sound.elsewhere {s : State} (h : Sound s s.places) : Sound s s.elsewhere := h.mono (fun _ => List.mem_cons_of_mem _)

theorem Sound.here {s : State} (h : Sound s s.places) : s.hart.phase.sound s := h.phases _ List.mem_cons_self

/-- What a transition of a hart must show: the rest is in order, its own new place says what is so, and no other hart has
scheduled the task it schedules. -/
def Lands (s t : State) : Prop :=
  Sound t s.elsewhere ∧ t.hart.phase.sound t ∧ ∀ p, t.hart.phase = .picked p → ∀ d ∈ s.elsewhere, d.2 ≠ .picked p

/-- A move of the hart to a place other than a scheduled task's. -/
theorem Lands.goto {s u : State} {e : Phase} (h : Sound u s.elsewhere) (he : e.sound u) (hn : ∀ p, e ≠ .picked p) :
    Lands s (u.goto e) :=
  ⟨h.hart rfl, Phase.sound_of (t := u.goto e) he (Nat.le_refl _) (fun _ _ => id) (fun _ k _ hk => ⟨k, hk, fun _ => rfl, .inl rfl⟩),
   fun p hp => absurd hp (hn p)⟩

theorem Lands.bootStep {s : State} (hs : Sound s s.places) (hy : s.tidy) (hp : s.hart.phase = .boot) : NextSat (Lands s) (bootStep s) := by
  have hstart : ∀ u : State, Sound u s.elsewhere →
      Lands s ({ u with kernel := { u.kernel with started := true } }.goto .loopTop) := fun u hu =>
    .goto (u := { u with kernel := { u.kernel with started := true } }) (hu.aside rfl (Nat.le_refl _) hu.panic) trivial nofun
  unfold Machine.bootStep
  split
  · unfold initKernel
    dsimp only
    split
    · exact .next (hstart s hs.elsewhere)
    · rename_i buf _
      have h1 := hs.elsewhere.createTask s.holder initName buf hy.1
      split
      · rename_i h; rw [h] at h1; exact .next (hstart _ h1)
      · rename_i h; rw [h] at h1; exact .next (hstart _ h1)
      · exact .refused
  · split
    · exact .next (.goto hs.elsewhere trivial nofun)
    · exact .next ⟨hs.elsewhere, hs.here, fun p e => by rw [hp] at e; cases e⟩

theorem mostUrgent_mem {s : State} (l : List Nat) (b : Option Nat) {p : Nat}
    (h : l.foldl (fun best p =>
      match best with
      | none => some p
      | some b => if priorityOf s b < priorityOf s p then some p else some b) b = some p) : p ∈ l ∨ b = some p := by
  induction l generalizing b with
  | nil => exact .inr h
  | cons a l ih =>
    rcases ih _ h with h1 | h1
    · exact .inl (List.mem_cons_of_mem _ h1)
    · cases b with
      | none => cases h1; exact .inl List.mem_cons_self
      | some b =>
        dsimp only at h1
        split at h1 <;> cases h1
        · exact .inl List.mem_cons_self
        · exact .inr rfl

/-- The task schedule() answers is in the ready collection. -/
theorem nextReady_mem {s : State} {p : Nat} (h : nextReady s = some p) : p ∈ s.sched.ready := by
  unfold nextReady at h
  split at h
  · exact List.mem_of_head? h
  · exact (mostUrgent_mem _ _ h).resolve_right nofun
  · exact List.mem_of_head? h

/-- A task that schedule() answers is READY and held by no hart; it leaves the ready collection (R550, R556). -/
theorem schedule_ready {s t : State} {l : List (Nat × Phase)} {who : Holder} {p : Nat} (hs : Sound s l)
    (h : schedule who s = (some p, t)) :
    t = popReady p s ∧ p ∈ s.sched.ready ∧ ∃ k, s.task? p = some k ∧ k.state = .ready ∧ k.activeHartId = none := by
  unfold schedule at h
  rw [hs.lock] at h
  dsimp only at h
  split at h
  · rename_i q hq
    cases h
    exact ⟨rfl, nextReady_mem hq, hs.ready p (nextReady_mem hq)⟩
  · cases h

theorem Lands.scheduleStep {s : State} (hs : Sound s s.places) (hy : s.tidy) : Lands s (scheduleStep s) := by
  unfold Machine.scheduleStep
  split
  · rename_i pid s1 h
    obtain ⟨rfl, hm, k, h1, h2, h3⟩ := schedule_ready hs h
    have hp : Sound (popReady pid s) s.elsewhere := hs.elsewhere.fewer (w := s.waits)
      (sc := (popReady pid s).sched) hs.lock (fun q hq => List.mem_of_mem_erase hq) (fun _ => id) (List.Sublist.refl _) (fun _ => id)
    refine ⟨hp.hart rfl, ⟨hy.1 _ (mem_of_assocGet h1), fun hc => ?_, fun k' hk' => ?_⟩, fun p e d hd hp => ?_⟩
    · exact (hy.2.1.mem_erase_iff.1 hc).1 rfl
    · have : s.task? pid = some k' := hk'
      rw [h1] at this; cases this; exact ⟨h3, .inl h2⟩
    · cases e
      have := hs.elsewhere.phases d hd
      rw [hp] at this
      exact this.2.1 hm
  · rename_i s1 h
    have : s1 = s := by
      unfold schedule at h
      rw [hs.lock] at h
      dsimp only at h
      split at h <;> cases h
      rfl
    rw [this]
    exact .goto hs.elsewhere trivial nofun

theorem Lands.acquireStep {s : State} (pid : Nat) (hs : Sound s s.places) (hh : s.holds) (hp : s.hart.phase = .picked pid) :
    Lands s (acquireStep pid s) := by
  have hhere := hs.here
  rw [hp] at hhere
  obtain ⟨h1, h2, h3⟩ := hhere
  unfold Machine.acquireStep
  split
  · exact .goto hs.elsewhere trivial nofun
  · rename_i k hk
    obtain ⟨h4, h5⟩ := h3 k hk
    have hother : ∀ e ∈ s.elsewhere, e.2.names ≠ some pid := fun e he hn => by
      obtain ⟨g, hg, rfl⟩ := List.mem_map.1 he
      have hgm : g ∈ s.harts := List.mem_cons_of_mem _ hg
      have hid : s.hart.id ≠ g.id := fun e => by
        have := hh.1
        unfold State.harts at this
        rw [List.map_cons, List.nodup_cons] at this
        exact this.1 (e ▸ List.mem_map_of_mem hg)
      by_cases hx : g.phase = .picked pid
      · exact hid (hs.apart (s.hart.id, s.hart.phase) List.mem_cons_self (g.id, g.phase) (List.mem_cons_of_mem _ he) pid hp hx)
      · have hheld : g.phase.held = some pid := by
          revert hn hx
          dsimp only
          cases g.phase <;> intro hn hx <;> first | exact hn | (cases hn; exact absurd rfl hx)
        obtain ⟨k', hk', ha'⟩ := hh.2.2 g hgm pid ((hh.2.1 g hgm).trans hheld)
        rw [hk] at hk'; cases hk'
        rw [h4] at ha'; cases ha'
    have hq := hs.elsewhere.unqueued (p := pid) (fun k' e e' => by
      rw [hk] at e; cases e; rw [e'] at h5; rcases h5 with h5 | h5 <;> cases h5)
    have hm := hs.elsewhere.mod (f := fun u => { u with activeHartId := some s.hart.id }) h2 hq
      (fun e he hn => absurd hn (hother e he))
    unfold tryAcquireCpu
    rw [hk]
    dsimp only
    rw [if_pos h4]
    refine .goto (u := { s.modTask pid (fun u => { u with activeHartId := some s.hart.id }) with
      hart := { s.hart with curTask := some pid } }) (hm.hart rfl) ⟨h1, fun k' hk' => ?_⟩ nofun
    have : (s.modTask pid (fun u => { u with activeHartId := some s.hart.id })).task? pid = some k' := hk'
    rw [State.task?_modTask, if_pos rfl, hk] at this
    cases this; exact h5

theorem Lands.enterStep {s : State} (pid : Nat) (hs : Sound s s.places) (hh : s.holds) (hp : s.hart.phase = .acquired pid) :
    Lands s (enterStep pid s) := by
  obtain ⟨k, hk, ha, hl⟩ := hs.alone hh (pid := pid) (by rw [hp]; rfl)
  have hhere := hs.here
  rw [hp] at hhere
  obtain ⟨h1, h2⟩ := hhere
  unfold Machine.enterStep
  rw [hk]
  dsimp only
  split
  · rename_i hr
    have hown : ∀ k', s.task? pid = some k' → k'.activeHartId ≠ none := fun k' e => by rw [hk] at e; cases e; rw [ha]; nofun
    have hm := hs.elsewhere.mod (f := Task.start) (hs.unready (fun k' e _ => hown k' e)) (hs.unqueued (fun k' e _ => hown k' e))
      (fun e he hn => absurd hn (hl e he))
    refine ⟨hm.hart (by rw [(setContext_hart k s).1]; rfl), ⟨?_, fun k' hk' => ?_⟩, nofun⟩
    · show pid < (setContext k s).kernel.pidCounter
      rw [(setContext_hart k s).1]; exact h1
    · have : (s.modTask pid Task.start).task? pid = some k' := by
        rw [← hk']; rw [(setContext_hart k s).1]; rfl
      rw [State.task?_modTask, if_pos rfl, hk] at this
      cases this
      unfold Task.start; rw [if_pos hr]; exact .inl rfl
  · rename_i hr
    refine .goto (hs.elsewhere.hart (setContext_hart k s).1) ⟨?_, fun k' hk' => ?_⟩ nofun
    · rw [(setContext_hart k s).1]; exact h1
    · rw [(setContext_hart k s).1] at hk'
      have : s.task? pid = some k' := hk'
      rw [hk] at this; cases this
      rcases h2 k hk with h2 | h2
      · exact absurd h2 hr
      · rw [h2]; nofun

/-- An instruction step touches nothing of this. -/
theorem Sound.exec {s t : State} {l : List (Nat × Phase)} (h : Sound s l) (hk : t.kernel = s.kernel) (hc : t.sched = s.sched)
    (hw : t.waits = s.waits) : Sound t l := by
  have h? : ∀ q, t.task? q = s.task? q := State.task?_congr (by rw [hk])
  have hwi : ∀ {q r}, s.waitsIn q r → t.waitsIn q r := fun ⟨k', h1, h2⟩ => ⟨k', by rw [h?]; exact h1, h2⟩
  exact ⟨by rw [hc]; exact h.lock, by rw [hk]; exact h.panic, fun p m => by rw [h?]; exact h.ready p (hc ▸ m),
    fun p m => hwi (h.io p (hw ▸ m)), fun e m => hwi (h.sleep e (hw ▸ m)), by rw [hw]; exact h.once,
    fun e m => hwi (h.child e (hw ▸ m)), fun e he => Phase.sound_of (h.phases e he) (by rw [hk]) (fun _ _ m => hc ▸ m)
      (fun _ k' _ hk' => ⟨k', by rw [← h?]; exact hk', fun _ => rfl, .inl rfl⟩), h.apart⟩

theorem Lands.sliceStep {s : State} (pid : Nat) (hs : Sound s s.places) (hp : s.hart.phase = .slice pid) :
    NextSat (Lands s) (sliceStep pid s) := by
  have hhere := hs.here
  rw [hp] at hhere
  unfold Machine.sliceStep
  split
  · have h1 := ExecStep.instructionStep s
    split
    · rename_i s1 hi
      have h2 := h1 s1 hi
      have h? : ∀ q, (countStep pid s1).task? q = s.task? q := State.task?_congr (s := s) (by
        show s1.kernel.tasks = _; rw [h2.kernel]; rfl)
      have hpos : ∀ e : Phase, (e = .trap pid ∨ e = .slice pid) → e.sound (countStep pid s1) := by
        have hlt : pid < (countStep pid s1).kernel.pidCounter := by
          show pid < s1.kernel.pidCounter; rw [h2.kernel]; exact hhere.1
        rintro e (rfl | rfl) <;> exact ⟨hlt, fun k hk => hhere.2 k (by rw [← h?]; exact hk)⟩
      have hph : (countStep pid s1).hart.phase = .trap pid ∨ (countStep pid s1).hart.phase = .slice pid := by
        unfold countStep; dsimp only; split
        · exact .inl rfl
        · exact .inr rfl
      refine .next ⟨hs.elsewhere.exec h2.kernel h2.sched h2.waits, hpos _ hph, fun p e => ?_⟩
      rw [e] at hph; rcases hph with hph | hph <;> cases hph
    · exact .fault
    · exact .refused
  · exact .next (.goto hs.elsewhere hhere.1 nofun)

theorem Lands.trapStep {s : State} (pid : Nat) (hs : Sound s s.places) (hy : s.tidy) (hh : s.holds) (hp : s.hart.phase = .trap pid) :
    NextSat (Lands s) (trapStep pid s) := by
  obtain ⟨k, hk, ha, hl⟩ := hs.alone hh (pid := pid) (by rw [hp]; rfl)
  have hhere := hs.here
  rw [hp] at hhere
  have hown : ∀ k', s.task? pid = some k' → k'.activeHartId ≠ none := fun k' e => by rw [hk] at e; cases e; rw [ha]; nofun
  have h0 : Sound (saveState pid s) s.elsewhere :=
    hs.elsewhere.mod (f := fun t => { t with regs := s.hart.x.set 0 0#32, pc := s.hart.pc })
      (hs.unready (fun k' e _ => hown k' e)) (hs.unqueued (fun k' e _ => hown k' e)) (fun e he hn => absurd hn (hl e he))
  have hk0 : (saveState pid s).task? pid = some { k with regs := s.hart.x.set 0 0#32, pc := s.hart.pc } := by
    unfold saveState; rw [State.task?_modTask, if_pos rfl, hk]; rfl
  have hown0 : ∀ k', (saveState pid s).task? pid = some k' → k'.activeHartId ≠ none := fun k' e => by
    rw [hk0] at e; cases e; show k.activeHartId ≠ none; rw [ha]; nofun
  have hg0 : (saveState pid s).pidsGiven := ((KernelStep.saveState pid s).given hy.1)
  unfold Machine.trapStep
  split
  · have hpids := KernelStep.syscall s.holder pid (saveState pid s)
    have hmain : NextSat (fun t => Sound t s.elsewhere) (syscall s.holder pid (saveState pid s)) := by
      by_cases hf : ((Task.reg { k with regs := s.hart.x.set 0 0#32, pc := s.hart.pc } a7).toNat) = 220
      · rw [syscall_eq hk0, hf]
        exact h0.sysFork _ hg0 hk0 (hown0 _ hk0) hl
      · intro t ht
        exact h0.calm hg0 (Calm.syscall hk0 hf t ht) hown0 hl
    split
    · rename_i s1 h
      exact .next (.goto (hmain s1 h) (Nat.lt_of_lt_of_le hhere.1 (hpids s1 h).pids) nofun)
    · exact .fault
    · exact .refused
  · have h1 := (h0.mod (f := fun t => t.exit s.params.faultExitCode) (h0.unready (fun k' e _ => hown0 k' e))
      (h0.unqueued (fun k' e _ => hown0 k' e)) (fun e he hn => absurd hn (hl e he)))
    have hx : exceptionEntry pid s =
        (dequeue pid ((saveState pid s).modTask pid (fun t => t.exit s.params.faultExitCode))).logLine := by
      unfold exceptionEntry
      dsimp only
      rw [removeTask_free _ pid (s := (saveState pid s).modTask pid (fun t => t.exit s.params.faultExitCode)) hs.lock]
    rw [hx]
    have h2 : Sound (dequeue pid ((saveState pid s).modTask pid (fun t => t.exit s.params.faultExitCode))) s.elsewhere :=
      h1.fewer (w := s.waits) h1.lock (fun p hp => (List.mem_filter.1 hp).1) (fun _ => id) (List.Sublist.refl _) (fun _ => id)
    exact .next (.goto (h2.exec rfl rfl rfl) hhere.1 nofun)

theorem Lands.endSlice {s : State} (pid : Nat) (b : Bool) (hs : Sound s s.places) (hh : s.holds) (hp : s.hart.phase = .sliceEnd pid b) :
    Lands s (endSlice pid b s) := by
  obtain ⟨k, hk, ha, hl⟩ := hs.alone hh (pid := pid) (by rw [hp]; rfl)
  have hhere := hs.here
  rw [hp] at hhere
  have hlt : pid < s.kernel.pidCounter := hhere
  have key : ∀ u : State, Sound u s.elsewhere → pid < u.kernel.pidCounter →
      (∀ k', u.task? pid = some k' → k'.activeHartId ≠ none) →
      Lands s ((u.modTask pid (fun t => if t.state = .running then { t with state := .ready } else t)).goto (.release pid)) := by
    intro u hu hlt ho
    refine .goto (hu.mod (hu.unready (fun k' e _ => ho k' e)) (hu.unqueued (fun k' e _ => ho k' e))
      (fun e he hn => absurd hn (hl e he))) ⟨hlt, fun k' hk' => ?_⟩ nofun
    rw [State.task?_modTask, if_pos rfl] at hk'
    obtain ⟨k0, -, rfl⟩ := Option.map_eq_some_iff.1 hk'
    split
    · nofun
    · assumption
  have hown : ∀ k', s.task? pid = some k' → k'.activeHartId ≠ none := fun k' e => by rw [hk] at e; cases e; rw [ha]; nofun
  unfold Machine.endSlice
  cases b
  · refine key (saveState pid s) (hs.elsewhere.mod (f := fun t => { t with regs := s.hart.x.set 0 0#32, pc := s.hart.pc })
      (hs.unready (fun k' e _ => hown k' e)) (hs.unqueued (fun k' e _ => hown k' e)) (fun e he hn => absurd hn (hl e he))) hlt ?_
    intro k' e
    unfold saveState at e
    rw [State.task?_modTask, if_pos rfl, hk] at e
    cases e; show k.activeHartId ≠ none; rw [ha]; nofun
  · exact key s hs.elsewhere hlt hown

theorem Sound.enterQueue {s : State} {l : List (Nat × Phase)} {pid : Nat} {k : Task} (h : Sound s l) (hk : s.task? pid = some k)
    (hs : k.state = .waiting) (ha : k.activeHartId = none) (hn : s.waits.without pid) : Sound (enterQueue pid k s) l := by
  have hput : ∀ w : WaitQueues, (∀ p ∈ w.io, p ∈ s.waits.io ∨ p = pid ∧ (k.waitReason = .uartInput ∨ k.waitReason = .processExit)) →
      (∀ e ∈ w.sleep, e ∈ s.waits.sleep ∨ e.2 = pid ∧ k.waitReason = .timer) → (w.sleep.map (fun e => e.2)).Nodup →
      (∀ e ∈ w.childTerm, e ∈ s.waits.childTerm ∨ e.2 = pid ∧ k.waitReason = .processExit) → Sound { s with waits := w } l := by
    intro w h1 h2 h3 h4
    refine ⟨h.lock, h.panic, h.ready, fun p hp => ?_, fun e he => ?_, h3, fun e he => ?_, fun e he => Phase.sound_of (h.phases e he)
      (Nat.le_refl _) (fun _ _ => id) (fun _ k' _ hk' => ⟨k', hk', fun _ => rfl, .inl rfl⟩), h.apart⟩
    · rcases h1 p hp with hp | ⟨rfl, hr⟩
      · exact h.io p hp
      · exact ⟨k, hk, hs, ha, hr⟩
    · rcases h2 e he with he | ⟨hp, hr⟩
      · exact h.sleep e he
      · exact ⟨k, by rw [hp]; exact hk, hs, ha, hr⟩
    · rcases h4 e he with he | ⟨hp, hr⟩
      · exact h.child e he
      · exact ⟨k, by rw [hp]; exact hk, hs, ha, hr⟩
  unfold Machine.enterQueue
  split
  · rename_i hr
    refine hput _ (fun p hp => ?_) (fun _ => .inl) h.once (fun _ => .inl)
    rcases List.mem_append.1 hp with hp | hp
    · exact .inl hp
    · exact .inr ⟨List.mem_singleton.1 hp, .inl hr⟩
  · rename_i hr
    refine hput _ (fun _ => .inl) (fun e he => ?_) ?_ (fun _ => .inl)
    · rcases List.mem_append.1 he with he | he
      · exact .inl he
      · rw [List.mem_singleton] at he; subst he; exact .inr ⟨rfl, hr⟩
    · show ((s.waits.sleep ++ [(k.wakeupTime, pid)]).map (fun e => e.2)).Nodup
      rw [List.map_append, List.nodup_append]
      refine ⟨h.once, by simp, fun a ha b hb e => ?_⟩
      obtain ⟨d, hd, rfl⟩ := List.mem_map.1 ha
      have hb : b = pid := by simpa using hb
      exact hn.2.1 d hd (e.trans hb)
  · rename_i hr
    split
    · refine hput _ (fun _ => .inl) (fun _ => .inl) h.once (fun e he => ?_)
      rcases mem_assocSet he with he | he
      · exact .inr ⟨by rw [he], hr⟩
      · exact .inl he
    · refine hput _ (fun p hp => ?_) (fun _ => .inl) h.once (fun _ => .inl)
      rcases List.mem_append.1 hp with hp | hp
      · exact .inl hp
      · exact .inr ⟨List.mem_singleton.1 hp, .inr hr⟩
  · exact h
  · exact h

theorem Lands.releaseStep {s : State} (pid : Nat) (hs : Sound s s.places) (hh : s.holds) (hp : s.hart.phase = .release pid) :
    Lands s (releaseStep pid s) := by
  obtain ⟨k, hk, ha, hl⟩ := hs.alone hh (pid := pid) (by rw [hp]; rfl)
  have hhere := hs.here
  rw [hp] at hhere
  have hown : ∀ k', s.task? pid = some k' → k'.activeHartId ≠ none := fun k' e => by rw [hk] at e; cases e; rw [ha]; nofun
  have hno := hs.elsewhere.unqueued (p := pid) (fun k' e _ => hown k' e)
  have hm := hs.elsewhere.mod (f := fun t => { t with activeHartId := none }) (hs.unready (fun k' e _ => hown k' e)) hno
    (fun e he hn => absurd hn (hl e he))
  have hr := (releaseCpu_eq pid s).1
  have h0 : Sound (releaseCpu pid s) s.elsewhere := hm.hart hr
  have hk0 : (releaseCpu pid s).task? pid = some { k with activeHartId := none } := by
    rw [hr]
    show (s.modTask pid _).task? pid = _
    rw [State.task?_modTask, if_pos rfl, hk]; rfl
  have hno0 : (releaseCpu pid s).waits.without pid := by rw [hr]; exact hno
  have hnp : ∀ e ∈ s.elsewhere, e.2 ≠ .picked pid := fun e he hp => hl e he (by rw [hp]; rfl)
  unfold Machine.releaseStep
  refine .goto ?_ trivial nofun
  unfold dispatchTask
  rw [hk0]
  dsimp only
  split
  · rw [addTask_free _ _ h0.lock]
    exact h0.enqueue (fun k' e _ => by rw [hk0] at e; cases e; rfl) hnp
  · rename_i hst
    exact h0.enterQueue hk0 hst rfl hno0
  · exact h0.wakeParentOf _ _
  · exact h0

/-- Every transition of a hart. -/
theorem Lands.hartStep {s : State} (hs : Sound s s.places) (hy : s.tidy) (hh : s.holds) : NextSat (Lands s) (hartStep s) := by
  unfold Machine.hartStep
  split
  · rename_i h; exact .bootStep hs hy h
  · refine .next ?_
    unfold Machine.loopTopStep
    split
    · exact .goto hs.elsewhere trivial nofun
    · split
      · rename_i h _ _
        exact ⟨hs.elsewhere, hs.here, fun p e => by rw [h] at e; cases e⟩
      · split <;> exact .goto hs.elsewhere trivial nofun
  · exact .next (.goto hs.elsewhere trivial nofun)
  · exact .next (.scheduleStep hs hy)
  · rename_i h; exact .next (.acquireStep _ hs hh h)
  · rename_i h; exact .next (.enterStep _ hs hh h)
  · rename_i h; exact .sliceStep _ hs h
  · rename_i h; exact .trapStep _ hs hy hh h
  · rename_i h; exact .next (.endSlice _ _ hs hh h)
  · rename_i h; exact .next (.releaseStep _ hs hh h)
  · rename_i h; exact .next ⟨hs.elsewhere, hs.here, fun p e => by rw [h] at e; cases e⟩

/-- The scheduler stays in order through a transition of a hart. -/
theorem Sound.hartStep {s t : State} (hs : Sound s s.places) (hy : s.tidy) (hh : s.holds) (ht : hartStep s = .next t) :
    Sound t t.places := by
  obtain ⟨h1, h2, h3⟩ := Lands.hartStep hs hy hh t ht
  exact h1.at (HartMove.hartStep s t ht).others h2 h3

/-- Bringing a hart forward: the same harts hold the same tasks. -/
theorem holds_focus {h : Nat} {s t : State} (hh : s.holds) (e : focus h s = some t) : t.holds := by
  rcases focus_cases e with ⟨rfl, -⟩ | ⟨k, hk, hka, hne, rfl⟩
  · exact hh
  · have hm : ∀ g ∈ k :: s.others.map (fun j => if j.id = h then s.hart else j), g ∈ s.harts := by
      intro g hg
      rcases List.mem_cons.1 hg with rfl | hg
      · exact List.mem_cons_of_mem _ hk
      · obtain ⟨j, hj, rfl⟩ := List.mem_map.1 hg
        split
        · exact List.mem_cons_self
        · exact List.mem_cons_of_mem _ hj
    refine ⟨?_, fun g hg => hh.2.1 g (hm g hg), fun g hg => hh.2.2 g (hm g hg)⟩
    have hn := hh.1
    unfold State.harts at hn ⊢
    simp only [List.map_cons, List.map_map] at hn ⊢
    rw [List.nodup_cons] at hn ⊢
    constructor
    · simp only [List.mem_map, Function.comp_apply, not_exists, not_and]
      intro j hj
      split
      · rw [hka]; exact hne
      · rw [hka]; assumption
    · refine List.Nodup.map_on ?_ hn.2.of_map
      intro x hx y hy hxy
      simp only [Function.comp_apply] at hxy
      have hinj := List.inj_on_of_nodup_map hn.2
      split at hxy <;> split at hxy
      · exact hinj hx hy (by simp_all)
      · exact absurd (List.mem_map.2 ⟨y, hy, hxy.symm⟩) hn.1
      · exact absurd (List.mem_map.2 ⟨x, hx, hxy⟩) hn.1
      · exact hinj hx hy hxy

/-- Bringing a hart forward: the harts keep their places in their loops. -/
theorem Sound.focus {h : Nat} {s t : State} (hs : Sound s s.places) (e : focus h s = some t) : Sound t t.places := by
  rcases focus_cases e with ⟨rfl, -⟩ | ⟨k, hk, -, -, rfl⟩
  · exact hs
  · refine (hs.mono ?_).exec rfl rfl rfl
    intro d hd
    rcases List.mem_cons.1 hd with rfl | hd
    · exact List.mem_cons_of_mem _ (List.mem_map_of_mem hk)
    · obtain ⟨g, hg, rfl⟩ := List.mem_map.1 hd
      obtain ⟨j, hj, rfl⟩ := List.mem_map.1 hg
      split
      · exact List.mem_cons_self
      · exact List.mem_cons_of_mem _ (List.mem_map_of_mem hj)

theorem SameHarts.places {s t : State} (h : SameHarts s t) : t.places = s.places := by
  unfold State.places State.harts; rw [h.1, h.2]

end Sys2Proof.Machine
end

