-- ==== Sys2Proof/Laws/PerInstr.lean ====
section
/-! SUPPORT. The family Encoding: every instruction's word is one of its own row of the opcode table. -/

namespace Sys2Proof.Laws

/-- The word of an instruction matches the row of spec/opcode_table.json that bears its mnemonic. -/
def Encoding.Statement (i : Instr) : Prop :=
  ∃ r ∈ opcodeRows, r.mnemonic = i.mnemonic ∧ encode i &&& r.mask = r.pattern

theorem Encoding.lui (rd : RegIdx) (imm : BitVec 20) : Encoding.Statement (.lui rd imm) :=
  ⟨{ mnemonic := "lui", pattern := 0x00000037#32, mask := 0x0000007F#32 }, by simp [opcodeRows, opcodeRowsBase, opcodeRowsImm,
    opcodeRowsOp, opcodeRowsSystem], rfl, by rw [encode, encU_and_mask]; decide⟩

theorem Encoding.auipc (rd : RegIdx) (imm : BitVec 20) : Encoding.Statement (.auipc rd imm) :=
  ⟨{ mnemonic := "auipc", pattern := 0x00000017#32, mask := 0x0000007F#32 }, by simp [opcodeRows, opcodeRowsBase, opcodeRowsImm,
    opcodeRowsOp, opcodeRowsSystem], rfl, by rw [encode, encU_and_mask]; decide⟩

theorem Encoding.jal (rd : RegIdx) (off : BitVec 21) : Encoding.Statement (.jal rd off) :=
  ⟨{ mnemonic := "jal", pattern := 0x0000006F#32, mask := 0x0000007F#32 }, by simp [opcodeRows, opcodeRowsBase, opcodeRowsImm,
    opcodeRowsOp, opcodeRowsSystem], rfl, by rw [encode, encJ_and_mask]; decide⟩

theorem Encoding.jalr (rd rs1 : RegIdx) (imm : BitVec 12) : Encoding.Statement (.jalr rd rs1 imm) :=
  ⟨{ mnemonic := "jalr", pattern := 0x00000067#32, mask := 0x0000707F#32 }, by simp [opcodeRows, opcodeRowsBase, opcodeRowsImm,
    opcodeRowsOp, opcodeRowsSystem], rfl, by rw [encode, encI_and_mask]; decide⟩

theorem Encoding.beq (rs1 rs2 : RegIdx) (off : BitVec 13) : Encoding.Statement (.beq rs1 rs2 off) :=
  ⟨{ mnemonic := "beq", pattern := 0x00000063#32, mask := 0x0000707F#32 }, by simp [opcodeRows, opcodeRowsBase, opcodeRowsImm,
    opcodeRowsOp, opcodeRowsSystem], rfl, by rw [encode, encB_and_mask]; decide⟩

theorem Encoding.bne (rs1 rs2 : RegIdx) (off : BitVec 13) : Encoding.Statement (.bne rs1 rs2 off) :=
  ⟨{ mnemonic := "bne", pattern := 0x00001063#32, mask := 0x0000707F#32 }, by simp [opcodeRows, opcodeRowsBase, opcodeRowsImm,
    opcodeRowsOp, opcodeRowsSystem], rfl, by rw [encode, encB_and_mask]; decide⟩

theorem Encoding.blt (rs1 rs2 : RegIdx) (off : BitVec 13) : Encoding.Statement (.blt rs1 rs2 off) :=
  ⟨{ mnemonic := "blt", pattern := 0x00004063#32, mask := 0x0000707F#32 }, by simp [opcodeRows, opcodeRowsBase, opcodeRowsImm,
    opcodeRowsOp, opcodeRowsSystem], rfl, by rw [encode, encB_and_mask]; decide⟩

theorem Encoding.bge (rs1 rs2 : RegIdx) (off : BitVec 13) : Encoding.Statement (.bge rs1 rs2 off) :=
  ⟨{ mnemonic := "bge", pattern := 0x00005063#32, mask := 0x0000707F#32 }, by simp [opcodeRows, opcodeRowsBase, opcodeRowsImm,
    opcodeRowsOp, opcodeRowsSystem], rfl, by rw [encode, encB_and_mask]; decide⟩

theorem Encoding.bltu (rs1 rs2 : RegIdx) (off : BitVec 13) : Encoding.Statement (.bltu rs1 rs2 off) :=
  ⟨{ mnemonic := "bltu", pattern := 0x00006063#32, mask := 0x0000707F#32 }, by simp [opcodeRows, opcodeRowsBase, opcodeRowsImm,
    opcodeRowsOp, opcodeRowsSystem], rfl, by rw [encode, encB_and_mask]; decide⟩

theorem Encoding.bgeu (rs1 rs2 : RegIdx) (off : BitVec 13) : Encoding.Statement (.bgeu rs1 rs2 off) :=
  ⟨{ mnemonic := "bgeu", pattern := 0x00007063#32, mask := 0x0000707F#32 }, by simp [opcodeRows, opcodeRowsBase, opcodeRowsImm,
    opcodeRowsOp, opcodeRowsSystem], rfl, by rw [encode, encB_and_mask]; decide⟩

theorem Encoding.lb (rd rs1 : RegIdx) (imm : BitVec 12) : Encoding.Statement (.lb rd rs1 imm) :=
  ⟨{ mnemonic := "lb", pattern := 0x00000003#32, mask := 0x0000707F#32 }, by simp [opcodeRows, opcodeRowsBase, opcodeRowsImm,
    opcodeRowsOp, opcodeRowsSystem], rfl, by rw [encode, encI_and_mask]; decide⟩

theorem Encoding.lh (rd rs1 : RegIdx) (imm : BitVec 12) : Encoding.Statement (.lh rd rs1 imm) :=
  ⟨{ mnemonic := "lh", pattern := 0x00001003#32, mask := 0x0000707F#32 }, by simp [opcodeRows, opcodeRowsBase, opcodeRowsImm,
    opcodeRowsOp, opcodeRowsSystem], rfl, by rw [encode, encI_and_mask]; decide⟩

theorem Encoding.lw (rd rs1 : RegIdx) (imm : BitVec 12) : Encoding.Statement (.lw rd rs1 imm) :=
  ⟨{ mnemonic := "lw", pattern := 0x00002003#32, mask := 0x0000707F#32 }, by simp [opcodeRows, opcodeRowsBase, opcodeRowsImm,
    opcodeRowsOp, opcodeRowsSystem], rfl, by rw [encode, encI_and_mask]; decide⟩

theorem Encoding.lbu (rd rs1 : RegIdx) (imm : BitVec 12) : Encoding.Statement (.lbu rd rs1 imm) :=
  ⟨{ mnemonic := "lbu", pattern := 0x00004003#32, mask := 0x0000707F#32 }, by simp [opcodeRows, opcodeRowsBase, opcodeRowsImm,
    opcodeRowsOp, opcodeRowsSystem], rfl, by rw [encode, encI_and_mask]; decide⟩

theorem Encoding.lhu (rd rs1 : RegIdx) (imm : BitVec 12) : Encoding.Statement (.lhu rd rs1 imm) :=
  ⟨{ mnemonic := "lhu", pattern := 0x00005003#32, mask := 0x0000707F#32 }, by simp [opcodeRows, opcodeRowsBase, opcodeRowsImm,
    opcodeRowsOp, opcodeRowsSystem], rfl, by rw [encode, encI_and_mask]; decide⟩

theorem Encoding.sb (rs2 rs1 : RegIdx) (imm : BitVec 12) : Encoding.Statement (.sb rs2 rs1 imm) :=
  ⟨{ mnemonic := "sb", pattern := 0x00000023#32, mask := 0x0000707F#32 }, by simp [opcodeRows, opcodeRowsBase, opcodeRowsImm,
    opcodeRowsOp, opcodeRowsSystem], rfl, by rw [encode, encS_and_mask]; decide⟩

theorem Encoding.sh (rs2 rs1 : RegIdx) (imm : BitVec 12) : Encoding.Statement (.sh rs2 rs1 imm) :=
  ⟨{ mnemonic := "sh", pattern := 0x00001023#32, mask := 0x0000707F#32 }, by simp [opcodeRows, opcodeRowsBase, opcodeRowsImm,
    opcodeRowsOp, opcodeRowsSystem], rfl, by rw [encode, encS_and_mask]; decide⟩

theorem Encoding.sw (rs2 rs1 : RegIdx) (imm : BitVec 12) : Encoding.Statement (.sw rs2 rs1 imm) :=
  ⟨{ mnemonic := "sw", pattern := 0x00002023#32, mask := 0x0000707F#32 }, by simp [opcodeRows, opcodeRowsBase, opcodeRowsImm,
    opcodeRowsOp, opcodeRowsSystem], rfl, by rw [encode, encS_and_mask]; decide⟩

theorem Encoding.addi (rd rs1 : RegIdx) (imm : BitVec 12) : Encoding.Statement (.addi rd rs1 imm) :=
  ⟨{ mnemonic := "addi", pattern := 0x00000013#32, mask := 0x0000707F#32 }, by simp [opcodeRows, opcodeRowsBase, opcodeRowsImm,
    opcodeRowsOp, opcodeRowsSystem], rfl, by rw [encode, encI_and_mask]; decide⟩

theorem Encoding.slti (rd rs1 : RegIdx) (imm : BitVec 12) : Encoding.Statement (.slti rd rs1 imm) :=
  ⟨{ mnemonic := "slti", pattern := 0x00002013#32, mask := 0x0000707F#32 }, by simp [opcodeRows, opcodeRowsBase, opcodeRowsImm,
    opcodeRowsOp, opcodeRowsSystem], rfl, by rw [encode, encI_and_mask]; decide⟩

theorem Encoding.sltiu (rd rs1 : RegIdx) (imm : BitVec 12) : Encoding.Statement (.sltiu rd rs1 imm) :=
  ⟨{ mnemonic := "sltiu", pattern := 0x00003013#32, mask := 0x0000707F#32 }, by simp [opcodeRows, opcodeRowsBase, opcodeRowsImm,
    opcodeRowsOp, opcodeRowsSystem], rfl, by rw [encode, encI_and_mask]; decide⟩

theorem Encoding.xori (rd rs1 : RegIdx) (imm : BitVec 12) : Encoding.Statement (.xori rd rs1 imm) :=
  ⟨{ mnemonic := "xori", pattern := 0x00004013#32, mask := 0x0000707F#32 }, by simp [opcodeRows, opcodeRowsBase, opcodeRowsImm,
    opcodeRowsOp, opcodeRowsSystem], rfl, by rw [encode, encI_and_mask]; decide⟩

theorem Encoding.ori (rd rs1 : RegIdx) (imm : BitVec 12) : Encoding.Statement (.ori rd rs1 imm) :=
  ⟨{ mnemonic := "ori", pattern := 0x00006013#32, mask := 0x0000707F#32 }, by simp [opcodeRows, opcodeRowsBase, opcodeRowsImm,
    opcodeRowsOp, opcodeRowsSystem], rfl, by rw [encode, encI_and_mask]; decide⟩

theorem Encoding.andi (rd rs1 : RegIdx) (imm : BitVec 12) : Encoding.Statement (.andi rd rs1 imm) :=
  ⟨{ mnemonic := "andi", pattern := 0x00007013#32, mask := 0x0000707F#32 }, by simp [opcodeRows, opcodeRowsBase, opcodeRowsImm,
    opcodeRowsOp, opcodeRowsSystem], rfl, by rw [encode, encI_and_mask]; decide⟩

theorem Encoding.slli (rd rs1 : RegIdx) (shamt : BitVec 5) : Encoding.Statement (.slli rd rs1 shamt) :=
  ⟨{ mnemonic := "slli", pattern := 0x00001013#32, mask := 0xFE00707F#32 }, by simp [opcodeRows, opcodeRowsBase, opcodeRowsImm,
    opcodeRowsOp, opcodeRowsSystem], rfl, by rw [encode, encR_and_mask]; decide⟩

theorem Encoding.srli (rd rs1 : RegIdx) (shamt : BitVec 5) : Encoding.Statement (.srli rd rs1 shamt) :=
  ⟨{ mnemonic := "srli", pattern := 0x00005013#32, mask := 0xFE00707F#32 }, by simp [opcodeRows, opcodeRowsBase, opcodeRowsImm,
    opcodeRowsOp, opcodeRowsSystem], rfl, by rw [encode, encR_and_mask]; decide⟩

theorem Encoding.srai (rd rs1 : RegIdx) (shamt : BitVec 5) : Encoding.Statement (.srai rd rs1 shamt) :=
  ⟨{ mnemonic := "srai", pattern := 0x40005013#32, mask := 0xFE00707F#32 }, by simp [opcodeRows, opcodeRowsBase, opcodeRowsImm,
    opcodeRowsOp, opcodeRowsSystem], rfl, by rw [encode, encR_and_mask]; decide⟩

theorem Encoding.add (rd rs1 rs2 : RegIdx) : Encoding.Statement (.add rd rs1 rs2) :=
  ⟨{ mnemonic := "add", pattern := 0x00000033#32, mask := 0xFE00707F#32 }, by simp [opcodeRows, opcodeRowsBase, opcodeRowsImm,
    opcodeRowsOp, opcodeRowsSystem], rfl, by rw [encode, encR_and_mask]; decide⟩

theorem Encoding.sub (rd rs1 rs2 : RegIdx) : Encoding.Statement (.sub rd rs1 rs2) :=
  ⟨{ mnemonic := "sub", pattern := 0x40000033#32, mask := 0xFE00707F#32 }, by simp [opcodeRows, opcodeRowsBase, opcodeRowsImm,
    opcodeRowsOp, opcodeRowsSystem], rfl, by rw [encode, encR_and_mask]; decide⟩

theorem Encoding.sll (rd rs1 rs2 : RegIdx) : Encoding.Statement (.sll rd rs1 rs2) :=
  ⟨{ mnemonic := "sll", pattern := 0x00001033#32, mask := 0xFE00707F#32 }, by simp [opcodeRows, opcodeRowsBase, opcodeRowsImm,
    opcodeRowsOp, opcodeRowsSystem], rfl, by rw [encode, encR_and_mask]; decide⟩

theorem Encoding.slt (rd rs1 rs2 : RegIdx) : Encoding.Statement (.slt rd rs1 rs2) :=
  ⟨{ mnemonic := "slt", pattern := 0x00002033#32, mask := 0xFE00707F#32 }, by simp [opcodeRows, opcodeRowsBase, opcodeRowsImm,
    opcodeRowsOp, opcodeRowsSystem], rfl, by rw [encode, encR_and_mask]; decide⟩

theorem Encoding.sltu (rd rs1 rs2 : RegIdx) : Encoding.Statement (.sltu rd rs1 rs2) :=
  ⟨{ mnemonic := "sltu", pattern := 0x00003033#32, mask := 0xFE00707F#32 }, by simp [opcodeRows, opcodeRowsBase, opcodeRowsImm,
    opcodeRowsOp, opcodeRowsSystem], rfl, by rw [encode, encR_and_mask]; decide⟩

theorem Encoding.xor (rd rs1 rs2 : RegIdx) : Encoding.Statement (.xor rd rs1 rs2) :=
  ⟨{ mnemonic := "xor", pattern := 0x00004033#32, mask := 0xFE00707F#32 }, by simp [opcodeRows, opcodeRowsBase, opcodeRowsImm,
    opcodeRowsOp, opcodeRowsSystem], rfl, by rw [encode, encR_and_mask]; decide⟩

theorem Encoding.srl (rd rs1 rs2 : RegIdx) : Encoding.Statement (.srl rd rs1 rs2) :=
  ⟨{ mnemonic := "srl", pattern := 0x00005033#32, mask := 0xFE00707F#32 }, by simp [opcodeRows, opcodeRowsBase, opcodeRowsImm,
    opcodeRowsOp, opcodeRowsSystem], rfl, by rw [encode, encR_and_mask]; decide⟩

theorem Encoding.sra (rd rs1 rs2 : RegIdx) : Encoding.Statement (.sra rd rs1 rs2) :=
  ⟨{ mnemonic := "sra", pattern := 0x40005033#32, mask := 0xFE00707F#32 }, by simp [opcodeRows, opcodeRowsBase, opcodeRowsImm,
    opcodeRowsOp, opcodeRowsSystem], rfl, by rw [encode, encR_and_mask]; decide⟩

theorem Encoding.or (rd rs1 rs2 : RegIdx) : Encoding.Statement (.or rd rs1 rs2) :=
  ⟨{ mnemonic := "or", pattern := 0x00006033#32, mask := 0xFE00707F#32 }, by simp [opcodeRows, opcodeRowsBase, opcodeRowsImm,
    opcodeRowsOp, opcodeRowsSystem], rfl, by rw [encode, encR_and_mask]; decide⟩

theorem Encoding.and (rd rs1 rs2 : RegIdx) : Encoding.Statement (.and rd rs1 rs2) :=
  ⟨{ mnemonic := "and", pattern := 0x00007033#32, mask := 0xFE00707F#32 }, by simp [opcodeRows, opcodeRowsBase, opcodeRowsImm,
    opcodeRowsOp, opcodeRowsSystem], rfl, by rw [encode, encR_and_mask]; decide⟩

theorem Encoding.mul (rd rs1 rs2 : RegIdx) : Encoding.Statement (.mul rd rs1 rs2) :=
  ⟨{ mnemonic := "mul", pattern := 0x02000033#32, mask := 0xFE00707F#32 }, by simp [opcodeRows, opcodeRowsBase, opcodeRowsImm,
    opcodeRowsOp, opcodeRowsSystem], rfl, by rw [encode, encR_and_mask]; decide⟩

theorem Encoding.mulh (rd rs1 rs2 : RegIdx) : Encoding.Statement (.mulh rd rs1 rs2) :=
  ⟨{ mnemonic := "mulh", pattern := 0x02001033#32, mask := 0xFE00707F#32 }, by simp [opcodeRows, opcodeRowsBase, opcodeRowsImm,
    opcodeRowsOp, opcodeRowsSystem], rfl, by rw [encode, encR_and_mask]; decide⟩

theorem Encoding.mulhsu (rd rs1 rs2 : RegIdx) : Encoding.Statement (.mulhsu rd rs1 rs2) :=
  ⟨{ mnemonic := "mulhsu", pattern := 0x02002033#32, mask := 0xFE00707F#32 }, by simp [opcodeRows, opcodeRowsBase, opcodeRowsImm,
    opcodeRowsOp, opcodeRowsSystem], rfl, by rw [encode, encR_and_mask]; decide⟩

theorem Encoding.mulhu (rd rs1 rs2 : RegIdx) : Encoding.Statement (.mulhu rd rs1 rs2) :=
  ⟨{ mnemonic := "mulhu", pattern := 0x02003033#32, mask := 0xFE00707F#32 }, by simp [opcodeRows, opcodeRowsBase, opcodeRowsImm,
    opcodeRowsOp, opcodeRowsSystem], rfl, by rw [encode, encR_and_mask]; decide⟩

theorem Encoding.div (rd rs1 rs2 : RegIdx) : Encoding.Statement (.div rd rs1 rs2) :=
  ⟨{ mnemonic := "div", pattern := 0x02004033#32, mask := 0xFE00707F#32 }, by simp [opcodeRows, opcodeRowsBase, opcodeRowsImm,
    opcodeRowsOp, opcodeRowsSystem], rfl, by rw [encode, encR_and_mask]; decide⟩

theorem Encoding.divu (rd rs1 rs2 : RegIdx) : Encoding.Statement (.divu rd rs1 rs2) :=
  ⟨{ mnemonic := "divu", pattern := 0x02005033#32, mask := 0xFE00707F#32 }, by simp [opcodeRows, opcodeRowsBase, opcodeRowsImm,
    opcodeRowsOp, opcodeRowsSystem], rfl, by rw [encode, encR_and_mask]; decide⟩

theorem Encoding.rem (rd rs1 rs2 : RegIdx) : Encoding.Statement (.rem rd rs1 rs2) :=
  ⟨{ mnemonic := "rem", pattern := 0x02006033#32, mask := 0xFE00707F#32 }, by simp [opcodeRows, opcodeRowsBase, opcodeRowsImm,
    opcodeRowsOp, opcodeRowsSystem], rfl, by rw [encode, encR_and_mask]; decide⟩

theorem Encoding.remu (rd rs1 rs2 : RegIdx) : Encoding.Statement (.remu rd rs1 rs2) :=
  ⟨{ mnemonic := "remu", pattern := 0x02007033#32, mask := 0xFE00707F#32 }, by simp [opcodeRows, opcodeRowsBase, opcodeRowsImm,
    opcodeRowsOp, opcodeRowsSystem], rfl, by rw [encode, encR_and_mask]; decide⟩

theorem Encoding.fence (rd rs1 : RegIdx) (fm pred succ : BitVec 4) : Encoding.Statement (.fence rd rs1 fm pred succ) :=
  ⟨{ mnemonic := "fence", pattern := 0x0000000F#32, mask := 0x0000707F#32 }, by simp [opcodeRows, opcodeRowsBase, opcodeRowsImm,
    opcodeRowsOp, opcodeRowsSystem], rfl, by rw [encode, encI_and_mask]; decide⟩

theorem Encoding.ecall : Encoding.Statement (.ecall) :=
  ⟨{ mnemonic := "ecall", pattern := 0x00000073#32, mask := 0xFFFFFFFF#32 }, by simp [opcodeRows, opcodeRowsBase, opcodeRowsImm,
    opcodeRowsOp, opcodeRowsSystem], rfl, by decide⟩

theorem Encoding.ebreak : Encoding.Statement (.ebreak) :=
  ⟨{ mnemonic := "ebreak", pattern := 0x00100073#32, mask := 0xFFFFFFFF#32 }, by simp [opcodeRows, opcodeRowsBase, opcodeRowsImm,
    opcodeRowsOp, opcodeRowsSystem], rfl, by decide⟩

theorem Encoding.csrrw (rd rs1 : RegIdx) (csr : BitVec 12) : Encoding.Statement (.csrrw rd rs1 csr) :=
  ⟨{ mnemonic := "csrrw", pattern := 0x00001073#32, mask := 0x0000707F#32 }, by simp [opcodeRows, opcodeRowsBase, opcodeRowsImm,
    opcodeRowsOp, opcodeRowsSystem], rfl, by rw [encode, encI_and_mask]; decide⟩

theorem Encoding.csrrs (rd rs1 : RegIdx) (csr : BitVec 12) : Encoding.Statement (.csrrs rd rs1 csr) :=
  ⟨{ mnemonic := "csrrs", pattern := 0x00002073#32, mask := 0x0000707F#32 }, by simp [opcodeRows, opcodeRowsBase, opcodeRowsImm,
    opcodeRowsOp, opcodeRowsSystem], rfl, by rw [encode, encI_and_mask]; decide⟩

theorem Encoding.csrrc (rd rs1 : RegIdx) (csr : BitVec 12) : Encoding.Statement (.csrrc rd rs1 csr) :=
  ⟨{ mnemonic := "csrrc", pattern := 0x00003073#32, mask := 0x0000707F#32 }, by simp [opcodeRows, opcodeRowsBase, opcodeRowsImm,
    opcodeRowsOp, opcodeRowsSystem], rfl, by rw [encode, encI_and_mask]; decide⟩

theorem Encoding.csrrwi (rd uimm : RegIdx) (csr : BitVec 12) : Encoding.Statement (.csrrwi rd uimm csr) :=
  ⟨{ mnemonic := "csrrwi", pattern := 0x00005073#32, mask := 0x0000707F#32 }, by simp [opcodeRows, opcodeRowsBase, opcodeRowsImm,
    opcodeRowsOp, opcodeRowsSystem], rfl, by rw [encode, encI_and_mask]; decide⟩

theorem Encoding.csrrsi (rd uimm : RegIdx) (csr : BitVec 12) : Encoding.Statement (.csrrsi rd uimm csr) :=
  ⟨{ mnemonic := "csrrsi", pattern := 0x00006073#32, mask := 0x0000707F#32 }, by simp [opcodeRows, opcodeRowsBase, opcodeRowsImm,
    opcodeRowsOp, opcodeRowsSystem], rfl, by rw [encode, encI_and_mask]; decide⟩

theorem Encoding.csrrci (rd uimm : RegIdx) (csr : BitVec 12) : Encoding.Statement (.csrrci rd uimm csr) :=
  ⟨{ mnemonic := "csrrci", pattern := 0x00007073#32, mask := 0x0000707F#32 }, by simp [opcodeRows, opcodeRowsBase, opcodeRowsImm,
    opcodeRowsOp, opcodeRowsSystem], rfl, by rw [encode, encI_and_mask]; decide⟩

end Sys2Proof.Laws
end

