-- ==== Sys2Proof/Laws/Waking.lean ====
section
/-! SUPPORT. What the maintenance agent's wakes and the wake of a parent do: which records change, who joins the ready
collection, and what stays queued. -/

namespace Sys2Proof.Machine

theorem State.taskIs_of {s : State} {w k st} (h : s.task? w = some k) (hs : k.state = st) : s.taskIs w st = true := by
  unfold State.taskIs; rw [h]; simpa using hs

/-- What waking keeps: a record stays or is woken; what was ready stays so. -/
structure Woke (s t : State) : Prop where
  recs : ∀ w k, s.task? w = some k → t.task? w = some k ∨ t.task? w = some k.woken
  io : t.io = s.io
  lock : t.sched.lock = s.sched.lock
  mono : s.sched.lock = none → (∀ p, p ∈ s.sched.ready ↔ p ∈ s.sched.members) →
    (∀ p, p ∈ t.sched.ready ↔ p ∈ t.sched.members) ∧ ∀ p, p ∈ s.sched.ready → p ∈ t.sched.ready

theorem Woke.refl (s : State) : Woke s s := ⟨fun _ _ h => .inl h, rfl, rfl, fun _ h => ⟨h, fun _ => id⟩⟩

theorem Woke.trans {s t u : State} (h : Woke s t) (k : Woke t u) : Woke s u := ⟨fun w x hx => by
  rcases h.recs w x hx with h1 | h1
  · exact k.recs w x h1
  · rcases k.recs w _ h1 with h2 | h2
    · exact .inr h2
    · rw [Task.woken_woken] at h2; exact .inr h2, k.io.trans h.io, k.lock.trans h.lock, fun hl hm =>
  ⟨(k.mono (h.lock.trans hl) (h.mono hl hm).1).1, fun p hp => (k.mono (h.lock.trans hl) (h.mono hl hm).1).2 p ((h.mono hl hm).2 p hp)⟩⟩

/-- A READY task joins the ready collection, with the lock free. -/
theorem addTask_joins (who : Holder) (pid : Nat) (s : State) : (addTask who pid s).sched.lock = s.sched.lock ∧
   (s.sched.lock = none → (∀ p, p ∈ s.sched.ready ↔ p ∈ s.sched.members) →
     (∀ p, p ∈ (addTask who pid s).sched.ready ↔ p ∈ (addTask who pid s).sched.members) ∧
     (∀ p, p ∈ s.sched.ready → p ∈ (addTask who pid s).sched.ready) ∧
     (s.taskIs pid .ready = true → pid ∈ (addTask who pid s).sched.ready)) := by
  unfold addTask withLock enqueue
  cases hl : s.sched.lock with
  | none =>
    dsimp only
    split
    · rename_i hc
      refine ⟨hl, fun _ hm => ⟨hm, fun _ => id, fun hr => ?_⟩⟩
      rw [hr] at hc
      exact (hm pid).2 (by simpa using hc)
    · refine ⟨hl, fun _ hm => ⟨fun p => ?_, fun p hp => ?_, fun _ => ?_⟩⟩
      · show p ∈ s.sched.ready ++ [pid] ↔ p ∈ s.sched.members ++ [pid]; simp [hm]
      · show p ∈ s.sched.ready ++ [pid]; simp [hp]
      · show pid ∈ s.sched.ready ++ [pid]; simp
  | some o =>
    dsimp only
    split
    · exact ⟨hl, fun h => by cases h⟩
    · exact ⟨hl, fun h => by cases h⟩

/-- One task is woken, whatever becomes of the queues and the draws. -/
theorem woke_one (s : State) (pid : Nat) (wq : WaitQueues) (c : Chance) : Woke s (addTask .maintenance pid
      (({ s with waits := wq, chance := c } : State).modTask pid Task.woken)) := by
  obtain ⟨h1, -, h3, -⟩ := addTask_same .maintenance pid (({ s with waits := wq, chance := c } : State).modTask pid Task.woken)
  obtain ⟨h4, h5⟩ := addTask_joins .maintenance pid (({ s with waits := wq, chance := c } : State).modTask pid Task.woken)
  refine ⟨fun w k hk => ?_, by rw [h3]; rfl, h4, fun hl hm => ⟨(h5 hl hm).1, (h5 hl hm).2.1⟩⟩
  rw [h1, State.task?_modTask]
  have : ({ s with waits := wq, chance := c } : State).task? w = some k := hk
  rw [this]
  split
  · exact .inr rfl
  · exact .inl rfl

theorem woke_this (s : State) (pid : Nat) (wq : WaitQueues) (c : Chance) (k) (hk : s.task? pid = some k) :
      (addTask .maintenance pid (({ s with waits := wq, chance := c } :
      State).modTask pid Task.woken)).task? pid = some k.woken := by
  obtain ⟨h1, -, h3, -⟩ := addTask_same .maintenance pid (({ s with waits := wq, chance := c } : State).modTask pid Task.woken)
  rw [h1, State.task?_modTask, if_pos rfl]
  have : ({ s with waits := wq, chance := c } : State).task? pid = some k := hk
  rw [this]; rfl

theorem woke_joins (s : State) (pid : Nat) (wq : WaitQueues) (c : Chance) (k) (hk : s.task? pid = some k) (hs :
      k.woken.state = .ready)
   (hl : s.sched.lock = none) (hm : ∀ p, p ∈ s.sched.ready ↔ p ∈ s.sched.members) :
   pid ∈ (addTask .maintenance pid (({ s with waits := wq, chance := c } : State).modTask pid Task.woken)).sched.ready := by
  refine ((addTask_joins .maintenance pid (({ s with waits := wq, chance := c } : State).modTask pid Task.woken)).2 hl hm).2.2 (State.taskIs_of (k := k.woken) ?_ hs)
  rw [State.task?_modTask, if_pos rfl]
  have : ({ s with waits := wq, chance := c } : State).task? pid = some k := hk
  rw [this]; rfl

/-- All of a list that wait for UART input are woken, join the ready collection, and leave the I/O queue; the others stay. -/
theorem wakeReaders_spec (l : List Nat) (s : State) : Woke s (wakeReaders l s) ∧ (wakeReaders l s).waits.sleep = s.waits.sleep ∧
   (∀ w ∈ (wakeReaders l s).waits.io, w ∈ s.waits.io) ∧
   (∀ w k, s.task? w = some k → k.waitReason ≠ .uartInput → w ∈ s.waits.io → w ∈ (wakeReaders l s).waits.io) ∧
   (∀ w k, w ∈ l → s.task? w = some k → k.waitReason = .uartInput → (wakeReaders l s).task? w = some k.woken ∧ w ∉
      (wakeReaders l s).waits.io ∧
     (s.sched.lock = none → (∀ p, p ∈ s.sched.ready ↔ p ∈ s.sched.members) → k.woken.state = .ready → w ∈
      (wakeReaders l s).sched.ready)) ∧
   (∀ p, p ∈ (wakeReaders l s).sched.ready → p ∈ s.sched.ready ∨ p ∈ l) := by
  induction l generalizing s with
  | nil => exact ⟨.refl s, rfl, fun _ => id, fun _ _ _ _ => id, fun _ _ h => (by cases h), fun _ => .inl⟩
  | cons x l ih =>
    unfold wakeReaders
    split
    · rename_i hx
      obtain ⟨i1, i2, i3, i4, i5, i6⟩ := ih s
      refine ⟨i1, i2, i3, i4, fun w k hw hk hr => ?_, fun p hp => (i6 p hp).imp_right (List.mem_cons_of_mem _)⟩
      rcases List.mem_cons.1 hw with rfl | hw
      · rw [hx] at hk; cases hk
      · exact i5 w k hw hk hr
    · rename_i t hx
      split
      · rename_i hr
        dsimp only
        have hone := woke_one s x { s.waits with io := s.waits.io.filter (fun p => p ≠ x) } s.chance
        have hthis := woke_this s x { s.waits with io := s.waits.io.filter (fun p => p ≠ x) } s.chance t hx
        have hjoin := woke_joins s x { s.waits with io := s.waits.io.filter (fun p => p ≠ x) } s.chance t hx
        have hsame := addTask_same .maintenance x (({ s with waits := { s.waits with io := s.waits.io.filter (fun p => p ≠ x) } } : State).modTask x Task.woken)
        have hwa : (addTask .maintenance x (({ s with waits := { s.waits with io := s.waits.io.filter (fun p => p ≠ x) } } : State).modTask x Task.woken)).waits = { s.waits with io := s.waits.io.filter (fun p => p ≠ x) } := hsame.2.1
        generalize hv : addTask .maintenance x (({ s with waits := { s.waits with io := s.waits.io.filter (fun p => p ≠ x) } } : State).modTask x Task.woken) = v at *
        have hv? : ∀ w, w ≠ x → v.task? w = s.task? w := fun w hw => by
          rw [hsame.1, State.task?_modTask, if_neg hw]; rfl
        obtain ⟨i1, i2, i3, i4, i5, i6⟩ := ih v
        refine ⟨hone.trans i1, by rw [i2, hwa], ?_, ?_, ?_, fun p hp => ?_⟩
        · intro w hw; have := i3 w hw; rw [hwa] at this; exact (List.mem_filter.1 this).1
        · intro w k hk hkr hw
          have hne : w ≠ x := by rintro rfl; rw [hx] at hk; cases hk; exact hkr hr
          refine i4 w k (by rw [hv? w hne]; exact hk) hkr ?_
          rw [hwa]; exact List.mem_filter.2 ⟨hw, by simpa using hne⟩
        · intro w k hw hk hkr
          by_cases hne : w = x
          · subst hne
            rw [hx] at hk; cases hk
            constructor
            · rcases i1.recs w _ hthis with h | h
              · exact h
              · rw [Task.woken_woken] at h; exact h
            · refine ⟨?_, fun hl hm hst => (i1.mono (hone.lock.trans hl) (hone.mono hl hm).1).2 w (hjoin hst hl hm)⟩
              intro hm; have := i3 w hm; rw [hwa] at this; simp at this
          · have hw' : w ∈ l := (List.mem_cons.1 hw).resolve_left hne
            obtain ⟨j1, j2, j3⟩ := i5 w k hw' (by rw [hv? w hne]; exact hk) hkr
            exact ⟨j1, j2, fun hl hm => j3 (hone.lock.trans hl) (hone.mono hl hm).1⟩
        · rcases i6 p hp with h | h
          · by_cases hpx : p = x
            · exact .inr (by rw [hpx]; exact List.mem_cons_self)
            · exact .inl (hsame.2.2.2 p hpx h)
          · exact .inr (List.mem_cons_of_mem _ h)
      · rename_i hr
        obtain ⟨i1, i2, i3, i4, i5, i6⟩ := ih s
        refine ⟨i1, i2, i3, i4, fun w k hw hk hkr => ?_, fun p hp => (i6 p hp).imp_right (List.mem_cons_of_mem _)⟩
        rcases List.mem_cons.1 hw with rfl | hw
        · rw [hx] at hk; cases hk; exact absurd hkr hr
        · exact i5 w k hw hk hkr

/-- All whose time has come are woken and join the ready collection; the others sleep on. -/
theorem wakeSleepers_spec (n : Nat) (s : State) (hn : s.waits.sleep.length ≤ n) : Woke s (wakeSleepers n s) ∧
      (wakeSleepers n s).waits.io = s.waits.io ∧
   (∀ e ∈ (wakeSleepers n s).waits.sleep, s.io.clock < e.1 ∧ e ∈ s.waits.sleep) ∧ (∀ e ∈ s.waits.sleep, s.io.clock < e.1 →
      e ∈ (wakeSleepers n s).waits.sleep) ∧
   (∀ e ∈ s.waits.sleep, e.1 ≤ s.io.clock → ∀ k, s.task? e.2 = some k → (wakeSleepers n s).task? e.2 = some k.woken ∧
     (s.sched.lock = none → (∀ p, p ∈ s.sched.ready ↔ p ∈ s.sched.members) → k.woken.state = .ready → e.2 ∈
      (wakeSleepers n s).sched.ready)) ∧
   (∀ p, p ∈ (wakeSleepers n s).sched.ready → p ∈ s.sched.ready ∨ ∃ m, (m, p) ∈ s.waits.sleep ∧ m ≤ s.io.clock) := by
  induction n generalizing s with
  | zero =>
    have : s.waits.sleep = [] := List.eq_nil_of_length_eq_zero (by omega)
    unfold wakeSleepers
    rw [this]
    exact ⟨.refl s, rfl, nofun, nofun, nofun, fun _ => .inl⟩
  | succ n ih =>
    unfold wakeSleepers
    cases he : earliest s.waits.sleep with
    | none =>
      have : s.waits.sleep = [] := by
        unfold earliest at he
        rw [List.min?_eq_none_iff] at he
        simpa using he
      dsimp only
      rw [this]
      exact ⟨.refl s, rfl, nofun, nofun, nofun, fun _ => .inl⟩
    | some t =>
      dsimp only
      unfold earliest at he
      have hmin := List.min?_eq_some_iff.1 he
      by_cases ht : t ≤ s.io.clock
      · rw [if_pos ht]
        have hne : s.waits.sleep.filter (fun e => e.1 = t) ≠ [] := by
          obtain ⟨e, hem, het⟩ := List.mem_map.1 hmin.1
          intro h
          have : e ∈ s.waits.sleep.filter (fun e => e.1 = t) := List.mem_filter.2 ⟨hem, by simpa using het⟩
          rw [h] at this; cases this
        obtain ⟨⟨e, s1⟩, hch⟩ := State.choose_isSome s hne
        obtain ⟨hp, hm, hpg, hrm⟩ := PagingStep.choose hch
        have hs1 : s1 = { s with chance := s1.chance } := by
          have hp : PagingStep s s1 := hp
          have : s1.paging = s.paging := hpg
          have h2 : s1.ram = s.ram := hrm
          cases s1; cases s
          simp only [State.mk.injEq] at *
          exact ⟨hp.params, hp.hart, hp.others, hp.kernel, hp.sched, hp.waits, hp.contig, this, h2, hp.io, trivial⟩
        rw [hch]; dsimp only
        obtain ⟨hem, het⟩ := List.mem_filter.1 hm
        have het : e.1 = t := by simpa using het
        have hw1 : s1.waits = s.waits := by rw [hs1]
        rw [hw1]
        have hform : ({ s1 with waits := { s.waits with sleep := s.waits.sleep.erase e } } : State) = { s with waits := { s.waits with sleep := s.waits.sleep.erase e }, chance := s1.chance } := by rw [hs1]
        rw [hform]
        have hone := woke_one s e.2 { s.waits with sleep := s.waits.sleep.erase e } s1.chance
        have hjoin := fun k hk => woke_joins s e.2 { s.waits with sleep := s.waits.sleep.erase e } s1.chance k hk
        have hsame := addTask_same .maintenance e.2 (({ s with waits := { s.waits with sleep := s.waits.sleep.erase e }, chance := s1.chance } : State).modTask e.2 Task.woken)
        have hthis := fun k hk => woke_this s e.2 { s.waits with sleep := s.waits.sleep.erase e } s1.chance k hk
        have hwa : (addTask .maintenance e.2 (({ s with waits := { s.waits with sleep := s.waits.sleep.erase e }, chance := s1.chance } : State).modTask e.2 Task.woken)).waits = { s.waits with sleep := s.waits.sleep.erase e } := hsame.2.1
        generalize hv : addTask .maintenance e.2 (({ s with waits := { s.waits with sleep := s.waits.sleep.erase e }, chance := s1.chance } : State).modTask e.2 Task.woken) = v at *
        have hv? : ∀ w, w ≠ e.2 → v.task? w = s.task? w := fun w hw => by
          rw [hsame.1, State.task?_modTask, if_neg hw]; rfl
        have hvio : v.io = s.io := hone.io
        have hlen : v.waits.sleep.length ≤ n := by
          rw [hwa]; show (s.waits.sleep.erase e).length ≤ n
          rw [List.length_erase_of_mem hem]; omega
        obtain ⟨i1, i2, i3, i4, i5, i6⟩ := ih v hlen
        rw [hvio] at i3 i4 i5 i6
        rw [hwa] at i3 i4 i5 i2 i6
        refine ⟨hone.trans i1, i2, ?_, ?_, ?_, fun p hp => ?_⟩
        · intro x hx; exact ⟨(i3 x hx).1, List.mem_of_mem_erase (i3 x hx).2⟩
        · intro x hx hlt
          refine i4 x ?_ hlt
          rw [show ({ s.waits with sleep := s.waits.sleep.erase e } : WaitQueues).sleep = s.waits.sleep.erase e from rfl]
          rw [List.mem_erase_of_ne]
          · exact hx
          · rintro rfl; omega
        · intro x hx hle k hk
          by_cases hxe : x.2 = e.2
          · rw [hxe] at hk ⊢
            refine ⟨?_, fun hl hm hst => (i1.mono (hone.lock.trans hl) (hone.mono hl hm).1).2 e.2 (hjoin k hk hst hl hm)⟩
            rcases i1.recs e.2 _ (hthis k hk) with h | h
            · exact h
            · rw [Task.woken_woken] at h; exact h
          · obtain ⟨j1, j2⟩ := i5 x (by
              show x ∈ s.waits.sleep.erase e
              rw [List.mem_erase_of_ne]
              · exact hx
              · rintro rfl; exact hxe rfl) hle k (by rw [hv? _ hxe]; exact hk)
            exact ⟨j1, fun hl hm => j2 (hone.lock.trans hl) (hone.mono hl hm).1⟩
        · rcases i6 p hp with h | ⟨m, hm1, hm2⟩
          · by_cases hpx : p = e.2
            · exact .inr ⟨e.1, by rw [hpx]; exact hem, by omega⟩
            · exact .inl (hsame.2.2.2 p hpx h)
          · exact .inr ⟨m, List.mem_of_mem_erase hm1, hm2⟩
      · rw [if_neg ht]
        have hall : ∀ e ∈ s.waits.sleep, t ≤ e.1 := fun e he => hmin.2 _ (List.mem_map.2 ⟨e, he, rfl⟩)
        exact ⟨.refl s, rfl, fun e he => ⟨by have := hall e he; omega, he⟩, fun _ h _ => h, fun e he hle => (by have := hall e he; omega), fun _ => .inl⟩

/-- What waking the parent of a task does: a parent that waits for it is READY and out of the queues, and in the ready collection
where no hart holds it; every other record, ready task and wait is as it was, and so is the rest of the state. -/
structure WakesParent (c : Nat) (s t : State) : Prop where
  others : ∀ q, ((s.task? c).bind (fun t => t.parent) ≠ some q ∨ ∀ r, s.task? q = some r → r.waitsFor c = false) →
    t.task? q = s.task? q ∧ (q ∈ t.sched.ready ↔ q ∈ s.sched.ready) ∧ (q ∈ t.sched.members ↔ q ∈ s.sched.members) ∧
      (q ∈ t.waits.io ↔ q ∈ s.waits.io) ∧ ∀ d, (d, q) ∈ t.waits.childTerm ↔ (d, q) ∈ s.waits.childTerm
  parent : ∀ pp p, (s.task? c).bind (fun t => t.parent) = some pp → s.task? pp = some p → p.waitsFor c = true →
    t.task? pp = some p.woken ∧ pp ∉ t.waits.io ∧ (∀ e ∈ t.waits.childTerm, e.2 ≠ pp) ∧
      (p.activeHartId = none → (∀ q, q ∈ s.sched.ready ↔ q ∈ s.sched.members) → pp ∈ t.sched.ready)
  sleep : t.waits.sleep = s.waits.sleep
  lock : t.sched.lock = none
  rest : t = { s with kernel := { s.kernel with tasks := t.kernel.tasks }, sched := t.sched, waits := t.waits }

/-- With the lock free, adding a task moves no other. -/
theorem addTask_others {who : Holder} {pid q : Nat} {s : State} (hl : s.sched.lock = none) (hq : q ≠ pid) :
    (q ∈ (addTask who pid s).sched.ready ↔ q ∈ s.sched.ready) ∧
      (q ∈ (addTask who pid s).sched.members ↔ q ∈ s.sched.members) := by
  unfold addTask withLock
  rw [hl]; dsimp only; unfold enqueue
  split
  · exact ⟨.rfl, .rfl⟩
  · simp [hq]

theorem Task.woken_waits {p : Task} {c : Nat} (h : p.waitsFor c = true) :
    p.woken = { p with state := .ready, waitReason := .none } := by
  have h1 : p.state = .waiting := by unfold Task.waitsFor at h; simp at h; exact h.1.1
  unfold Task.woken Task.goTo; rw [if_neg (by rw [h1]; decide)]

/-- With the lock free, that is what `wakeParentOf` does. -/
theorem wakeParentOf_spec (who : Holder) (c : Nat) (s : State) (hl : s.sched.lock = none) :
    WakesParent c s (wakeParentOf who c s) := by
  have hsame : (∀ pp p, (s.task? c).bind (fun t => t.parent) = some pp → s.task? pp = some p → p.waitsFor c ≠ true) →
      WakesParent c s s := fun h =>
    ⟨fun _ _ => ⟨rfl, .rfl, .rfl, .rfl, fun _ => .rfl⟩, fun pp p h1 h2 h3 => absurd h3 (h pp p h1 h2), rfl, hl, rfl⟩
  unfold wakeParentOf
  split
  · rename_i hp
    exact hsame fun pp p h => by rw [hp] at h; cases h
  · rename_i pp hp
    split
    · rename_i hn
      exact hsame fun _ _ h hq => by rw [hp] at h; cases h; rw [hn] at hq; cases hq
    · rename_i p hq
      split
      · rename_i hw
        have hne : ∀ q, ((s.task? c).bind (fun t => t.parent) ≠ some q ∨ ∀ r, s.task? q = some r → r.waitsFor c = false) →
            q ≠ pp := by
          rintro q h rfl
          rcases h with h | h
          · exact h hp
          · rw [h p hq] at hw; cases hw
        let w : State := ({ s with waits := { s.waits with
          io := s.waits.io.filter (fun q => q ≠ pp), childTerm := s.waits.childTerm.filter (fun e => e.2 ≠ pp) } } :
            State).modTask pp Task.woken
        have hwt : ∀ q, w.task? q = if q = pp then (s.task? q).map Task.woken else s.task? q := fun q => State.task?_modTask ..
        have hmain : ∀ t : State, t = { w with sched := t.sched } → t.sched.lock = none →
            (∀ q, q ≠ pp → (q ∈ t.sched.ready ↔ q ∈ s.sched.ready) ∧ (q ∈ t.sched.members ↔ q ∈ s.sched.members)) →
            (p.activeHartId = none → (∀ p, p ∈ s.sched.ready ↔ p ∈ s.sched.members) → pp ∈ t.sched.ready) →
            WakesParent c s t := fun t ht h1 h2 h3 => by
          have htt : ∀ q, t.task? q = w.task? q := fun q => by rw [ht]; rfl
          have hwa : t.waits = w.waits := by rw [ht]
          refine ⟨fun q h => ?_, fun pp' p' h4 h5 _ => ?_, by rw [hwa]; rfl, h1, by rw [ht]; rfl⟩
          · have hn := hne q h
            refine ⟨by rw [htt, hwt, if_neg hn], (h2 q hn).1, (h2 q hn).2, ?_, fun d => ?_⟩
            · rw [hwa]; simp [w, State.modTask, hn]
            · rw [hwa]; simp [w, State.modTask, hn]
          · rw [hp] at h4; cases h4
            rw [hq] at h5; cases h5
            exact ⟨by rw [htt, hwt, if_pos rfl, hq]; rfl, by rw [hwa]; simp [w, State.modTask],
              by rw [hwa]; simp [w, State.modTask], h3⟩
        have hj := addTask_joins who pp w
        dsimp only
        split
        · refine hmain _ (addTask_eq who pp w hl) (hj.1.trans hl) (fun q hn => addTask_others hl hn) (fun _ hm => ?_)
          refine (hj.2 hl hm).2.2 (State.taskIs_of (k := p.woken) (by rw [hwt, if_pos rfl, hq]; rfl) ?_)
          rw [Task.woken_waits hw]
        · rename_i ha
          exact hmain _ rfl hl (fun _ _ => ⟨.rfl, .rfl⟩) (fun h => absurd h ha)
      · rename_i hw
        exact hsame fun _ _ h hq' => by rw [hp] at h; cases h; rw [hq] at hq'; cases hq'; exact hw

end Sys2Proof.Machine
end

