-- ==== Sys2Proof/Tests/Slice0.lean ====
section
/-! SUPPORT. The model's own tests. The words and the expected values are those of spec/95_test_vectors.md, or worked out by
hand from the rule named; the witnesses meet the hypotheses of the statements. -/

namespace Sys2Proof.Tests

open Sys2Proof.Machine

/-! ## WellFormed: each check refuses an ill-formed term -/

theorem test_wf_jal : (Instr.jal 1#5 3#21).wf = false := by decide
theorem test_wf_beq : (Instr.beq 1#5 2#5 1#13).wf = false := by decide
theorem test_wf_bne : (Instr.bne 1#5 2#5 1#13).wf = false := by decide
theorem test_wf_blt : (Instr.blt 1#5 2#5 1#13).wf = false := by decide
theorem test_wf_bge : (Instr.bge 1#5 2#5 1#13).wf = false := by decide
theorem test_wf_bltu : (Instr.bltu 1#5 2#5 1#13).wf = false := by decide
theorem test_wf_bgeu : (Instr.bgeu 1#5 2#5 1#13).wf = false := by decide

/-! ## Decoding: one word of every instruction (spec/95_test_vectors.md section 2; where a row has no vector there, the fields
of spec/30_encoding.md R201 put together by hand) -/

theorem test_decode_lui : decode 0x12345537#32 = .instr (.lui 10#5 0x12345#20) := by decide
theorem test_decode_auipc : decode 0x00001517#32 = .instr (.auipc 10#5 1#20) := by decide
theorem test_decode_jal : decode 0x7FF000EF#32 = .instr (.jal 1#5 4094#21) := by decide
theorem test_decode_jalr : decode 0x005580E7#32 = .instr (.jalr 1#5 11#5 5#12) := by decide
theorem test_decode_beq : decode 0x00C58863#32 = .instr (.beq 11#5 12#5 16#13) := by decide
theorem test_decode_bne : decode 0xFEC59CE3#32 = .instr (.bne 11#5 12#5 (-8#13)) := by decide
theorem test_decode_blt : decode 0x00C5C663#32 = .instr (.blt 11#5 12#5 12#13) := by decide
theorem test_decode_bge : decode 0x00C5D663#32 = .instr (.bge 11#5 12#5 12#13) := by decide
theorem test_decode_bltu : decode 0x00C5E663#32 = .instr (.bltu 11#5 12#5 12#13) := by decide
theorem test_decode_bgeu : decode 0x00C5F663#32 = .instr (.bgeu 11#5 12#5 12#13) := by decide
theorem test_decode_lb : decode 0x00358503#32 = .instr (.lb 10#5 11#5 3#12) := by decide
theorem test_decode_lh : decode 0x00259503#32 = .instr (.lh 10#5 11#5 2#12) := by decide
theorem test_decode_lw : decode 0xFFC5A503#32 = .instr (.lw 10#5 11#5 (-4#12)) := by decide
theorem test_decode_lbu : decode 0x0035C503#32 = .instr (.lbu 10#5 11#5 3#12) := by decide
theorem test_decode_lhu : decode 0x0025D503#32 = .instr (.lhu 10#5 11#5 2#12) := by decide
theorem test_decode_sb : decode 0xFEC58FA3#32 = .instr (.sb 12#5 11#5 (-1#12)) := by decide
theorem test_decode_sh : decode 0x00C59123#32 = .instr (.sh 12#5 11#5 2#12) := by decide
theorem test_decode_sw : decode 0x00C5A023#32 = .instr (.sw 12#5 11#5 0#12) := by decide
theorem test_decode_addi : decode 0xFFF58513#32 = .instr (.addi 10#5 11#5 (-1#12)) := by decide
theorem test_decode_slti : decode 0xFFF5A513#32 = .instr (.slti 10#5 11#5 (-1#12)) := by decide
theorem test_decode_sltiu : decode 0xFFF5B513#32 = .instr (.sltiu 10#5 11#5 (-1#12)) := by decide
theorem test_decode_xori : decode 0xFFF5C513#32 = .instr (.xori 10#5 11#5 (-1#12)) := by decide
theorem test_decode_ori : decode 0x8005E513#32 = .instr (.ori 10#5 11#5 (-2048#12)) := by decide
theorem test_decode_andi : decode 0x7FF5F513#32 = .instr (.andi 10#5 11#5 0x7FF#12) := by decide
theorem test_decode_slli : decode 0x01F59513#32 = .instr (.slli 10#5 11#5 31#5) := by decide
theorem test_decode_srli : decode 0x01F5D513#32 = .instr (.srli 10#5 11#5 31#5) := by decide
theorem test_decode_srai : decode 0x4045D513#32 = .instr (.srai 10#5 11#5 4#5) := by decide
theorem test_decode_add : decode 0x00C58533#32 = .instr (.add 10#5 11#5 12#5) := by decide
theorem test_decode_sub : decode 0x40C58533#32 = .instr (.sub 10#5 11#5 12#5) := by decide
theorem test_decode_sll : decode 0x00C59533#32 = .instr (.sll 10#5 11#5 12#5) := by decide
theorem test_decode_slt : decode 0x00C5A533#32 = .instr (.slt 10#5 11#5 12#5) := by decide
theorem test_decode_sltu : decode 0x00C5B533#32 = .instr (.sltu 10#5 11#5 12#5) := by decide
theorem test_decode_xor : decode 0x00C5C533#32 = .instr (.xor 10#5 11#5 12#5) := by decide
theorem test_decode_srl : decode 0x00C5D533#32 = .instr (.srl 10#5 11#5 12#5) := by decide
theorem test_decode_sra : decode 0x40C5D533#32 = .instr (.sra 10#5 11#5 12#5) := by decide
theorem test_decode_or : decode 0x00C5E533#32 = .instr (.or 10#5 11#5 12#5) := by decide
theorem test_decode_and : decode 0x00C5F533#32 = .instr (.and 10#5 11#5 12#5) := by decide
theorem test_decode_mul : decode 0x02C58533#32 = .instr (.mul 10#5 11#5 12#5) := by decide
theorem test_decode_mulh : decode 0x02C59533#32 = .instr (.mulh 10#5 11#5 12#5) := by decide
theorem test_decode_mulhsu : decode 0x02C5A533#32 = .instr (.mulhsu 10#5 11#5 12#5) := by decide
theorem test_decode_mulhu : decode 0x02C5B533#32 = .instr (.mulhu 10#5 11#5 12#5) := by decide
theorem test_decode_div : decode 0x02C5C533#32 = .instr (.div 10#5 11#5 12#5) := by decide
theorem test_decode_divu : decode 0x02C5D533#32 = .instr (.divu 10#5 11#5 12#5) := by decide
theorem test_decode_rem : decode 0x02C5E533#32 = .instr (.rem 10#5 11#5 12#5) := by decide
theorem test_decode_remu : decode 0x02C5F533#32 = .instr (.remu 10#5 11#5 12#5) := by decide
theorem test_decode_fence : decode 0x8FF0000F#32 = .instr (.fence 0#5 0#5 8#4 15#4 15#4) := by decide
theorem test_decode_ecall : decode 0x00000073#32 = .instr (.ecall) := by decide
theorem test_decode_ebreak : decode 0x00100073#32 = .instr (.ebreak) := by decide
theorem test_decode_csrrw : decode 0xC00592F3#32 = .instr (.csrrw 5#5 11#5 0xC00#12) := by decide
theorem test_decode_csrrs : decode 0xC00022F3#32 = .instr (.csrrs 5#5 0#5 0xC00#12) := by decide
theorem test_decode_csrrc : decode 0xC005B2F3#32 = .instr (.csrrc 5#5 11#5 0xC00#12) := by decide
theorem test_decode_csrrwi : decode 0xC00FD2F3#32 = .instr (.csrrwi 5#5 31#5 0xC00#12) := by decide
theorem test_decode_csrrsi : decode 0xC00FE2F3#32 = .instr (.csrrsi 5#5 31#5 0xC00#12) := by decide
theorem test_decode_csrrci : decode 0xC00FF2F3#32 = .instr (.csrrci 5#5 31#5 0xC00#12) := by decide

/-- The host's reading of a table word is the same decoder (spec/30_encoding.md R200). -/
theorem test_decodeTableWord : decodeTableWord 32 0x00C58533 = some (.add 10#5 11#5 12#5) := by decide

/-! ## One step of every instruction -/

/-- A hart at 0x00010000 with the given registers, the others 0, on a CONTIGUOUS machine (spec/95_test_vectors.md
section 2). -/
def core (l : List (RegIdx × Word)) : State :=
  let s := State.powerOn { Params.standard with memMode := .contiguous .firstFit }
  (l.foldl (fun t e => t.setReg e.1 e.2) s).setPc 0x00010000#32

/-- Register r and the pc after an instruction. -/
def after (i : Instr) (s : State) (r : RegIdx) : Option (Word × Word) :=
  match exec i s with
  | .next t => some (t.reg r, t.pc)
  | .fault _ => none
  | .refused _ => none

theorem test_lui : after (.lui 10#5 0xFFFFF#20) (core []) 10#5 = some (0xFFFFF000#32, 0x00010004#32) := by decide
theorem test_auipc : after (.auipc 10#5 0xFFFF0#20) (core []) 10#5 = some (0#32, 0x00010004#32) := by decide
theorem test_jal : after (.jal 1#5 4094#21) (core []) 1#5 = some (0x00010004#32, 0x00010FFE#32) := by decide
theorem test_jalr : after (.jalr 1#5 11#5 5#12) (core [(11#5, 0x00010100#32)]) 1#5 = some (0x00010004#32, 0x00010104#32) := by decide
theorem test_jalr_same : after (.jalr 11#5 11#5 0#12) (core [(11#5, 0x00010200#32)]) 11#5 = some (0x00010004#32, 0x00010200#32) := by decide
theorem test_beq : after (.beq 0#5 0#5 6#13) (core []) 10#5 = some (0#32, 0x00010006#32) := by decide
theorem test_bne : after (.bne 11#5 12#5 (-8#13)) (core [(11#5, 1#32)]) 10#5 = some (0#32, 0x0000FFF8#32) := by decide
theorem test_blt : after (.blt 11#5 12#5 12#13) (core [(11#5, 0xFFFFFFFF#32), (12#5, 1#32)]) 10#5 = some (0#32, 0x0001000C#32) := by decide
theorem test_bltu : after (.bltu 11#5 12#5 12#13) (core [(11#5, 0xFFFFFFFF#32), (12#5, 1#32)]) 10#5 = some (0#32, 0x00010004#32) := by decide
theorem test_bge : after (.bge 11#5 12#5 12#13) (core [(11#5, 5#32), (12#5, 5#32)]) 10#5 = some (0#32, 0x0001000C#32) := by decide
theorem test_bgeu : after (.bgeu 11#5 12#5 12#13) (core [(12#5, 0x80000000#32)]) 10#5 = some (0#32, 0x00010004#32) := by decide
theorem test_addi : after (.addi 10#5 11#5 1#12) (core [(11#5, 0x7FFFFFFF#32)]) 10#5 = some (0x80000000#32, 0x00010004#32) := by decide
theorem test_addi_x0 : after (.addi 0#5 11#5 5#12) (core [(11#5, 1#32)]) 0#5 = some (0#32, 0x00010004#32) := by decide
theorem test_slti : after (.slti 10#5 11#5 (-1#12)) (core [(11#5, 0x80000000#32)]) 10#5 = some (1#32, 0x00010004#32) := by decide
theorem test_sltiu : after (.sltiu 10#5 11#5 (-1#12)) (core [(11#5, 0xFFFFFFFE#32)]) 10#5 = some (1#32, 0x00010004#32) := by decide
theorem test_xori : after (.xori 10#5 11#5 (-1#12)) (core [(11#5, 0x0F0F0F0F#32)]) 10#5 = some (0xF0F0F0F0#32, 0x00010004#32) := by decide
theorem test_ori : after (.ori 10#5 11#5 (-2048#12)) (core [(11#5, 1#32)]) 10#5 = some (0xFFFFF801#32, 0x00010004#32) := by decide
theorem test_andi : after (.andi 10#5 11#5 0x7FF#12) (core [(11#5, 0xFFFFFFFF#32)]) 10#5 = some (0x000007FF#32, 0x00010004#32) := by decide
theorem test_slli : after (.slli 10#5 11#5 31#5) (core [(11#5, 3#32)]) 10#5 = some (0x80000000#32, 0x00010004#32) := by decide
theorem test_srli : after (.srli 10#5 11#5 31#5) (core [(11#5, 0x80000000#32)]) 10#5 = some (1#32, 0x00010004#32) := by decide
theorem test_srai : after (.srai 10#5 11#5 31#5) (core [(11#5, 0x80000000#32)]) 10#5 = some (0xFFFFFFFF#32, 0x00010004#32) := by decide
theorem test_add : after (.add 10#5 11#5 12#5) (core [(11#5, 0xFFFFFFFF#32), (12#5, 1#32)]) 10#5 = some (0#32, 0x00010004#32) := by decide
theorem test_sub : after (.sub 10#5 11#5 12#5) (core [(11#5, 0x80000000#32), (12#5, 1#32)]) 10#5 = some (0x7FFFFFFF#32, 0x00010004#32) := by decide
theorem test_sll : after (.sll 10#5 11#5 12#5) (core [(11#5, 1#32), (12#5, 0x21#32)]) 10#5 = some (2#32, 0x00010004#32) := by decide
theorem test_slt : after (.slt 10#5 11#5 12#5) (core [(11#5, 0xFFFFFFFF#32), (12#5, 0#32)]) 10#5 = some (1#32, 0x00010004#32) := by decide
theorem test_sltu : after (.sltu 10#5 11#5 12#5) (core [(11#5, 0xFFFFFFFF#32), (12#5, 0#32)]) 10#5 = some (0#32, 0x00010004#32) := by decide
theorem test_srl : after (.srl 10#5 11#5 12#5) (core [(11#5, 0x80000000#32), (12#5, 0xFFFFFFE4#32)]) 10#5 = some (0x08000000#32, 0x00010004#32) := by decide
theorem test_sra : after (.sra 10#5 11#5 12#5) (core [(11#5, 0x80000000#32), (12#5, 0xFFFFFFE4#32)]) 10#5 = some (0xF8000000#32, 0x00010004#32) := by decide
theorem test_xor : after (.xor 10#5 11#5 11#5) (core [(11#5, 0x12345678#32)]) 10#5 = some (0#32, 0x00010004#32) := by decide
theorem test_or : after (.or 10#5 11#5 12#5) (core [(11#5, 0x0F0F0F0F#32), (12#5, 0xF0F00000#32)]) 10#5 = some (0xFFFF0F0F#32, 0x00010004#32) := by decide
theorem test_and : after (.and 10#5 11#5 12#5) (core [(11#5, 0x0F0F0F0F#32), (12#5, 0xFF00FF00#32)]) 10#5 = some (0x0F000F00#32, 0x00010004#32) := by decide
theorem test_mul : after (.mul 10#5 11#5 12#5) (core [(11#5, 0x00010001#32), (12#5, 0x00010001#32)]) 10#5 = some (0x00020001#32, 0x00010004#32) := by decide
theorem test_mulh : after (.mulh 10#5 11#5 12#5) (core [(11#5, 0x80000000#32), (12#5, 0x80000000#32)]) 10#5 = some (0x40000000#32, 0x00010004#32) := by decide
theorem test_mulhsu : after (.mulhsu 10#5 11#5 12#5) (core [(11#5, 0x80000000#32), (12#5, 0xFFFFFFFF#32)]) 10#5 = some (0x80000000#32, 0x00010004#32) := by decide
theorem test_mulhu : after (.mulhu 10#5 11#5 12#5) (core [(11#5, 0xFFFFFFFF#32), (12#5, 0xFFFFFFFF#32)]) 10#5 = some (0xFFFFFFFE#32, 0x00010004#32) := by decide
theorem test_div : after (.div 10#5 11#5 12#5) (core [(11#5, 0xFFFFFFF9#32), (12#5, 2#32)]) 10#5 = some (0xFFFFFFFD#32, 0x00010004#32) := by decide
theorem test_div_overflow : after (.div 10#5 11#5 12#5) (core [(11#5, 0x80000000#32), (12#5, 0xFFFFFFFF#32)]) 10#5 = some (0x80000000#32, 0x00010004#32) := by decide
theorem test_divu : after (.divu 10#5 11#5 12#5) (core [(11#5, 0xFFFFFFF9#32), (12#5, 2#32)]) 10#5 = some (0x7FFFFFFC#32, 0x00010004#32) := by decide
theorem test_divu_zero : after (.divu 10#5 11#5 12#5) (core [(11#5, 7#32), (12#5, 0#32)]) 10#5 = some (0xFFFFFFFF#32, 0x00010004#32) := by decide
theorem test_rem : after (.rem 10#5 11#5 12#5) (core [(11#5, 7#32), (12#5, 0xFFFFFFFE#32)]) 10#5 = some (1#32, 0x00010004#32) := by decide
theorem test_rem_overflow : after (.rem 10#5 11#5 12#5) (core [(11#5, 0x80000000#32), (12#5, 0xFFFFFFFF#32)]) 10#5 = some (0#32, 0x00010004#32) := by decide
theorem test_remu : after (.remu 10#5 11#5 12#5) (core [(11#5, 0xFFFFFFF9#32), (12#5, 0xA#32)]) 10#5 = some (9#32, 0x00010004#32) := by decide
theorem test_remu_zero : after (.remu 10#5 11#5 12#5) (core [(11#5, 0xFFFFFFF9#32), (12#5, 0#32)]) 10#5 = some (0xFFFFFFF9#32, 0x00010004#32) := by decide
theorem test_fence : after (.fence 0#5 0#5 8#4 15#4 15#4) (core []) 10#5 = some (0#32, 0x00010004#32) := by decide
theorem test_ecall : after (.ecall) (core []) 10#5 = some (0#32, 0x00010004#32) := by decide
theorem test_ebreak : after (.ebreak) (core []) 10#5 = some (0#32, 0x00010004#32) := by decide

theorem test_csrrs : exec (.csrrs 5#5 0#5 0xC00#12) (core []) = .refused .csrStub := rfl

/-- The same hart with the data word 0x8081FF7F at 0x2000 (section 2.3, at an address of this machine's RAM). -/
def data (l : List (RegIdx × Word)) : State := (core l).storeBytes 0x2000 [0x7F#8, 0xFF#8, 0x81#8, 0x80#8]

theorem test_lw : after (.lw 10#5 11#5 (-4#12)) (data [(11#5, 0x2004#32)]) 10#5 = some (0x8081FF7F#32, 0x00010004#32) := by
  decide
theorem test_lb : after (.lb 10#5 11#5 3#12) (data [(11#5, 0x2000#32)]) 10#5 = some (0xFFFFFF80#32, 0x00010004#32) := by
  decide
theorem test_lbu : after (.lbu 10#5 11#5 3#12) (data [(11#5, 0x2000#32)]) 10#5 = some (0x00000080#32, 0x00010004#32) := by
  decide
theorem test_lh : after (.lh 10#5 11#5 2#12) (data [(11#5, 0x2000#32)]) 10#5 = some (0xFFFF8081#32, 0x00010004#32) := by
  decide
theorem test_lhu : after (.lhu 10#5 11#5 2#12) (data [(11#5, 0x2000#32)]) 10#5 = some (0x00008081#32, 0x00010004#32) := by
  decide

/-- The word at 0x2000 after an instruction. -/
def wordAfter (i : Instr) (s : State) : Option Word :=
  match exec i s with
  | .next t => some (ramValue t 0x2000 4)
  | .fault _ => none
  | .refused _ => none

theorem test_sw : wordAfter (.sw 12#5 11#5 0#12) (core [(11#5, 0x2000#32), (12#5, 0x12345678#32)]) = some 0x12345678#32 := by
  decide
theorem test_sh : wordAfter (.sh 12#5 11#5 2#12) (core [(11#5, 0x2000#32), (12#5, 0xABCD1234#32)]) = some 0x12340000#32 := by
  decide
theorem test_sb : wordAfter (.sb 12#5 11#5 (-1#12)) (core [(11#5, 0x2004#32), (12#5, 0x1FF#32)]) = some 0xFF000000#32 := by
  decide

/-- A misaligned load to x0 faults too (V-L11). -/
theorem test_lw_misaligned : exec (.lw 0#5 11#5 2#12) (data [(11#5, 0x2000#32)]) =
    .next ((data [(11#5, 0x2000#32)]).raise .memFault 0x2002#32) := by rfl

/-! ## The hypotheses of the statements are met: for each, concrete states and operands, at the ends of their ranges -/

/-- A paged EAGER machine whose hart has the next turn, in the slice of task 1, with w at pc 0; its space 0 maps page 0. -/
def placed (w : Nat) : State := State.reset.withFetchWord 32 w

/-- The machine of `placed` with other parameters. -/
def placedWith (p : Params) (w : Nat) : State := (State.powerOn p).withFetchWord 32 w

/-- A contiguous machine. -/
def contigParams : Params := { Params.standard with memMode := .contiguous .firstFit }

/-- A DEMAND machine. -/
def demandParams : Params := { Params.standard with memMode := .paged .demand .random }

/-- The placed hart at another place in its loop, its task's record changed. -/
def atPhase (ph : Phase) (f : Task → Task) : State :=
  let s := (placed 0).modTask 1 f
  { s with hart := { s.hart with phase := ph } }

/-- The placed task's record with a syscall number and a0. -/
def calls (n v : Word) (t : Task) : Task := (t.setReg a7 n).setReg a0 v

/-- A paged machine with x11 at the last word of its only page. -/
def edge : State := (placed 0).setReg 11#5 4092#32

/-- A contiguous machine with x11 at the last word of RAM. -/
def edgeContig : State := (placedWith contigParams 0).setReg 11#5 65532#32

/-- The last aligned byte, halfword and word above x11, as immediate and width. -/
def lastOnes : List (BitVec 12 × Nat) := [(3#12, 1), (2#12, 2), (0#12, 4)]

/-- The opcode, funct3 and funct7 of a word. -/
def fields (w : Word) : BitVec 7 × BitVec 3 × BitVec 7 := (opcodeField w, funct3Field w, funct7Field w)

theorem test_meets_RoundTrip : ((Instr.beq 1#5 2#5 (-4096#13)).wf = true ∧ (Instr.jal 1#5 (-1048576#21)).wf = true ∧
    (Instr.sw 31#5 31#5 (-2048#12)).wf = true) ∧ decode 0x80000063#32 = .instr (.beq 0#5 0#5 (-4096#13)) := by decide

theorem test_meets_DecodeExact :
    decode 0x00C58533#32 = .instr (.add 10#5 11#5 12#5) ∧ (∃ r ∈ opcodeRows, 0x00C58533#32 &&& r.mask = r.pattern) ∧
    (∀ r ∈ opcodeRows, 0x0000100F#32 &&& r.mask ≠ r.pattern) ∧ (∃ r ∈ opcodeRows, ∃ q ∈ opcodeRows, r ≠ q) := by decide

/-- A word that is no instruction can be fetched. -/
theorem test_meets_IllegalWord :
    ∃ u, fetch (hartCtx (placed 0x0000100F).clearFlags) (placed 0x0000100F).pc (placed 0x0000100F).clearFlags =
      .ok 0x0000100F#32 u := ⟨_, rfl⟩

theorem test_meets_IllegalEncodings :
    (fields 0x00003003#32 = (0b0000011#7, 0b011#3, 0#7) ∧ fields 0x00007003#32 = (0b0000011#7, 0b111#3, 0#7) ∧
      fields 0x00003023#32 = (0b0100011#7, 0b011#3, 0#7) ∧ fields 0x00002063#32 = (0b1100011#7, 0b010#3, 0#7) ∧
      fields 0x00001067#32 = (0b1100111#7, 0b001#3, 0#7) ∧ fields 0x02001013#32 = (0b0010011#7, 0b001#3, 1#7) ∧
      fields 0x02005013#32 = (0b0010011#7, 0b101#3, 1#7) ∧ fields 0x04000033#32 = (0b0110011#7, 0b000#3, 2#7) ∧
      fields 0x40001033#32 = (0b0110011#7, 0b001#3, 32#7) ∧ fields 0x000000F3#32 = (0b1110011#7, 0b000#3, 0#7)) ∧
    fields 0x0000100F#32 = (0b0001111#7, 0b001#3, 0#7) ∧ fields 0x00004073#32 = (0b1110011#7, 0b100#3, 0#7) ∧
    opcodeField 0x0000002F#32 = 0b0101111#7 ∧ opcodeField 0x00000007#32 = 0b0000111#7 ∧
    opcodeField 0x00000053#32 = 0b1010011#7 ∧ BitVec.extractLsb' 0 2 0xFFFFFFFE#32 ≠ 0b11#2 ∧
    opcodeField 0x0000000B#32 = 0b0001011#7 ∧ opcodeField 0x0000007B#32 = 0b1111011#7 := by decide

theorem test_meets_StepRunsDecoded :
    (placed 0x00C58533).kernel.panic = none ∧ nextAgent (placed 0x00C58533) = .hart (placed 0x00C58533).hart.id ∧
    (placed 0x00C58533).hart.phase = .slice 1 ∧ underSlice (placed 0x00C58533) (placed 0x00C58533).hart.counter = true ∧
    (placed 0x00C58533).taskIs 1 .running = true ∧
    ∃ u, fetch (hartCtx (takeTurn (placed 0x00C58533)).clearFlags) (placed 0x00C58533).pc
      (takeTurn (placed 0x00C58533)).clearFlags = .ok 0x00C58533#32 u ∧
      decode 0x00C58533#32 = .instr (.add 10#5 11#5 12#5) :=
  ⟨rfl, rfl, rfl, by decide, by decide, _, rfl, by decide⟩

theorem test_meets_StepFlags :
    (∃ t, instructionStep (placed 0x73) = .next t ∧ t.hart.pendingEcall = true) ∧
    (∃ t, instructionStep (placed 0) = .next t ∧ t.hart.pendingException = true) := ⟨⟨_, rfl, rfl⟩, ⟨_, rfl, rfl⟩⟩

theorem test_meets_RaisePrecise :
    (∃ t, instructionStep (placed 0) = .next t ∧ t.hart.pendingException = true) ∧ demandPaged (placed 0) = false :=
  ⟨⟨_, rfl, rfl⟩, rfl⟩

theorem test_meets_PlainAccess : ∀ n ∈ lastOnes,
    PlainAccess edge (edge.reg 11#5 + n.1.signExtend 32) n.2 ∧
    PlainAccess edgeContig (edgeContig.reg 11#5 + n.1.signExtend 32) n.2 := by
  simp only [PlainAccess]; decide

/-- The last bytes of a page, and of a block. -/
theorem test_meets_edges : (∀ n ∈ lastOnes, Resident edge 0 (edge.reg 11#5 + n.1.signExtend 32) (openPte 0)) ∧ InSpace edge 0 ∧
    (∀ n ∈ lastOnes, InBlock edgeContig (edgeContig.reg 11#5 + n.1.signExtend 32) n.2) := by
  refine ⟨?_, ⟨⟨_, _, rfl⟩, rfl⟩, ?_⟩
  · simp only [lastOnes, List.mem_cons, List.not_mem_nil, or_false, forall_eq_or_imp, forall_eq]
    exact ⟨⟨_, rfl, rfl, rfl⟩, ⟨_, rfl, rfl, rfl⟩, ⟨_, rfl, rfl, rfl⟩⟩
  · intro n hn
    refine ⟨⟨_, rfl⟩, ?_⟩
    revert n hn
    decide

theorem test_meets_FetchReads :
    (InSpace (edge.setPc 4092#32) 0 ∧ Resident (edge.setPc 4092#32) 0 4092#32 (openPte 0) ∧ (openPte 0).perms.x = true ∧
      PlainAccess (edge.setPc 4092#32) 4092#32 4) ∧
    InBlock (edgeContig.setPc 65532#32) 65532#32 4 ∧ PlainAccess (edgeContig.setPc 65532#32) 65532#32 4 :=
  ⟨⟨⟨⟨_, _, rfl⟩, rfl⟩, ⟨_, rfl, rfl, rfl⟩, rfl, by simp only [PlainAccess]; decide⟩, ⟨⟨_, rfl⟩, by decide⟩,
    by simp only [PlainAccess]; decide⟩

/-- An accessed page has its counter (`Touched`). -/
theorem test_meets_Touched : ∃ a c, (touch 0 0 .read edge).space? 0 = some a ∧ assocGet a.counters 0 = some c ∧ c.count = 1 :=
  ⟨_, _, rfl, rfl, rfl⟩

theorem test_meets_LoadsComplete : (openPte 0).perms.r = true ∧ InSpace edge 0 ∧
    (∀ n ∈ lastOnes, Resident edge 0 (edge.reg 11#5 + n.1.signExtend 32) (openPte 0) ∧
      PlainAccess edge (edge.reg 11#5 + n.1.signExtend 32) n.2) ∧
    (∀ n ∈ lastOnes, InBlock edgeContig (edgeContig.reg 11#5 + n.1.signExtend 32) n.2 ∧
      PlainAccess edgeContig (edgeContig.reg 11#5 + n.1.signExtend 32) n.2) :=
  ⟨rfl, test_meets_edges.2.1, fun n h => ⟨test_meets_edges.1 n h, (test_meets_PlainAccess n h).1⟩,
    fun n h => ⟨test_meets_edges.2.2 n h, (test_meets_PlainAccess n h).2⟩⟩

theorem test_meets_StoresComplete : (openPte 0).perms.w = true ∧ InSpace edge 0 ∧
    (∀ n ∈ lastOnes, Resident edge 0 (edge.reg 11#5 + n.1.signExtend 32) (openPte 0) ∧
      PlainAccess edge (edge.reg 11#5 + n.1.signExtend 32) n.2) ∧
    (∀ n ∈ lastOnes, InBlock edgeContig (edgeContig.reg 11#5 + n.1.signExtend 32) n.2 ∧
      PlainAccess edgeContig (edgeContig.reg 11#5 + n.1.signExtend 32) n.2) :=
  ⟨rfl, test_meets_LoadsComplete.2⟩

/-- The byte below the stored word is outside the stored bytes. -/
theorem test_meets_LoadStoreFrame :
    (∃ t, exec (.lw 10#5 11#5 0#12) edge = .next t) ∧ (∃ t, exec (.sw 10#5 11#5 0#12) edge = .next t) ∧
    inUart edge.params (edge.reg 11#5 + BitVec.signExtend 32 0#12).toNat = false ∧
    ∀ pa u, translate (hartCtx edge) (edge.reg 11#5 + BitVec.signExtend 32 0#12) 4 .write true edge = .ok pa u →
      ¬(pa ≤ 4091 ∧ 4091 < pa + 4) := by
  refine ⟨⟨_, rfl⟩, ⟨_, rfl⟩, by decide, fun pa u h => ?_⟩
  have e : translate (hartCtx edge) (edge.reg 11#5 + BitVec.signExtend 32 0#12) 4 .write true edge =
    .ok 4092 (touch 0 0 .write edge) := rfl
  rw [e] at h
  cases h
  decide

theorem test_meets_MisalignedRaises :
    (edge.reg 11#5 + BitVec.signExtend 32 1#12).toNat % 2 ≠ 0 ∧ (edge.reg 11#5 + BitVec.signExtend 32 2#12).toNat % 4 ≠ 0 ∧
    (edge.setPc 2#32).pc.toNat % 4 ≠ 0 := by decide

/-- The placed page with no permission at all. -/
def shut : State :=
  (edge.modSpace 0 (fun a => a.setPte 0 { openPte 0 with perms := { r := false, w := false, x := false } })).setPc 4092#32

theorem test_meets_PermissionRaises : InSpace shut 0 ∧ ∃ p, p.perms.r = false ∧ p.perms.w = false ∧ p.perms.x = false ∧
    Resident shut 0 (shut.reg 11#5 + BitVec.signExtend 32 0#12) p ∧
    PlainAccess shut (shut.reg 11#5 + BitVec.signExtend 32 0#12) 4 ∧ Resident shut 0 shut.pc p ∧ PlainAccess shut shut.pc 4 :=
  ⟨⟨⟨_, _, rfl⟩, rfl⟩, _, rfl, rfl, rfl, ⟨_, rfl, rfl, rfl⟩, by simp only [PlainAccess]; decide, ⟨_, rfl, rfl, rfl⟩,
    by simp only [PlainAccess]; decide⟩

/-- A machine whose next page is not resident: x11 and the pc are at its first byte. -/
def beyond (p : Params) : State := ((placedWith p 0).setReg 11#5 4096#32).setPc 4096#32

/-- An address space's page 1 has no PTE. -/
theorem test_meets_NotResident (a : AddrSpace) (h : a.pte? 1 = none) : NotResident a 4096#32 := by
  intro p hp
  have e : vpnOf 4096#32 = 1 := rfl
  rw [e, h] at hp
  cases hp

/-- A DEMAND machine whose UNREGIONED_DEMAND gives writes a page, and reads and fetches none. -/
def writesDemand : Params := { demandParams with unregionedWrite := some { r := true, w := true, x := false } }

/-- Every policy and kind, one kind of access alone without a page, and both edges of a block. -/
theorem test_meets_NoMappingRaises :
    (InSpace (beyond Params.standard) 0 ∧ PlainAccess (beyond Params.standard) 4096#32 4 ∧
      (beyond Params.standard).reg 11#5 + BitVec.signExtend 32 0#12 = 4096#32 ∧ (beyond Params.standard).pc = 4096#32 ∧
      ∃ a, (beyond Params.standard).space? 0 = some a ∧ NotResident a 4096#32) ∧
    (InSpace (beyond demandParams) 0 ∧ PlainAccess (beyond demandParams) 4096#32 4 ∧
      ∃ a, (beyond demandParams).space? 0 = some a ∧ NotResident a 4096#32 ∧
        ∀ k ∈ [AccessKind.read, .write, .exec], demandPerms (beyond demandParams) a 1 k = none) ∧
    (∃ a, (beyond writesDemand).space? 0 = some a ∧ NotResident a 4096#32 ∧
      demandPerms (beyond writesDemand) a 1 .read = none ∧ demandPerms (beyond writesDemand) a 1 .write ≠ none) ∧
    (edgeContig.hart.limit.toNat < (edgeContig.reg 11#5 + BitVec.signExtend 32 4#12).toNat + 1 ∧
      PlainAccess edgeContig (edgeContig.reg 11#5 + BitVec.signExtend 32 4#12) 4) ∧
    (∃ s : State, s = { edgeContig with hart := { edgeContig.hart with base := 4#32, pc := 65532#32 } } ∧
      s.pc.toNat + 4 ≤ s.hart.limit.toNat ∧ s.params.ramSize < s.hart.base.toNat + s.pc.toNat + 4 ∧
      PlainAccess s s.pc 4) := by
  refine ⟨⟨⟨⟨_, _, rfl⟩, rfl⟩, by simp only [PlainAccess]; decide, by decide, rfl, _, rfl, test_meets_NotResident _ rfl⟩,
    ⟨⟨⟨_, _, rfl⟩, rfl⟩, by simp only [PlainAccess]; decide, _, rfl, test_meets_NotResident _ rfl, by decide⟩,
    ⟨_, rfl, test_meets_NotResident _ rfl, by decide, by decide⟩,
    ⟨by decide, by simp only [PlainAccess]; decide⟩, _, rfl, by decide, by decide, by simp only [PlainAccess]; decide⟩

/-- A machine with x11 at the UART and one received byte. -/
def atUart : State := ((placed 0).setReg 11#5 0x10000000#32).setPc 0x1000000C#32

theorem test_meets_UartBytes :
    (∀ k ∈ [(0#12, 0), (1#12, 1), (2#12, 2)],
      inUart atUart.params (atUart.reg 11#5 + BitVec.signExtend 32 k.1).toNat = true ∧
      (atUart.reg 11#5 + BitVec.signExtend 32 k.1).toNat - atUart.params.uartBase = k.2) ∧
    atUart.params.uartOffStatus = 0 ∧ atUart.params.uartOffRx = 1 ∧ atUart.params.uartOffTx = 2 ∧
    atUart.io.rxq = [] ∧ (pushByte 0x41#8 atUart).io.rxq = [0x41#8] := by decide

theorem test_meets_UartRefused :
    ((atUart.reg 11#5 + BitVec.signExtend 32 12#12).toNat % 4 = 0 ∧
      ∃ k, k < 4 ∧ inUart atUart.params ((atUart.reg 11#5 + BitVec.signExtend 32 12#12).toNat + k) = true) ∧
    (atUart.pc.toNat % 4 = 0 ∧ ∃ k, k < 4 ∧ inUart atUart.params (atUart.pc.toNat + k) = true) ∧
    (inUart atUart.params (atUart.reg 11#5 + BitVec.signExtend 32 15#12).toNat = true ∧
      (atUart.reg 11#5 + BitVec.signExtend 32 15#12).toNat - atUart.params.uartBase ∉ [0, 1, 2]) ∧
    inUart atUart.params (0x1000000F#32 : Word).toNat = true := by decide

/-- A DEMAND machine with a readable region in page 1, x11 at its last word. -/
def lazyPage : State :=
  ((placedWith demandParams 0).setReg 11#5 8188#32).modSpace 0 (fun a =>
    { a with regions := [{ start := 4096, len := 4096, perms := { r := true, w := false, x := false } }] })

theorem test_meets_DemandZeroFill :
    (∃ a, lazyPage.params.memMode = .paged .demand .random ∧ lazyPage.hart.space = some 0 ∧ lazyPage.space? 0 = some a ∧
      (∀ n ∈ lastOnes, NotResident a (lazyPage.reg 11#5 + n.1.signExtend 32)) ∧
      demandPerms lazyPage a 1 .read = some { r := true, w := false, x := false }) ∧
    (∀ n ∈ lastOnes, vpnOf (lazyPage.reg 11#5 + n.1.signExtend 32) = 1) ∧
    (∀ n ∈ lastOnes, PlainAccess lazyPage (lazyPage.reg 11#5 + n.1.signExtend 32) n.2) ∧ 2 ≤ lazyPage.freeFrames.length := by
  have v : ∀ n ∈ lastOnes, vpnOf (lazyPage.reg 11#5 + n.1.signExtend 32) = 1 := by decide
  refine ⟨⟨_, rfl, rfl, rfl, fun n h p hp => ?_, by decide⟩, v, by simp only [PlainAccess]; decide, by decide⟩
  rw [v n h] at hp
  cases hp

theorem test_meets_RegImm : (opcodeField 0x12345537#32 = 0b0110111#7 ∧ opcodeField 0x00001517#32 = 0b0010111#7) ∧
    (∀ k ∈ [(0xFFF58513#32, 0#3), (0xFFF5A513#32, 2#3), (0xFFF5B513#32, 3#3), (0xFFF5C513#32, 4#3),
      (0x8005E513#32, 6#3), (0x7FF5F513#32, 7#3)], opcodeField k.1 = 0b0010011#7 ∧ funct3Field k.1 = k.2) ∧
    fields 0x01F59513#32 = (0b0010011#7, 1#3, 0#7) ∧ fields 0x01F5D513#32 = (0b0010011#7, 5#3, 0#7) ∧
    fields 0x4045D513#32 = (0b0010011#7, 5#3, 0b0100000#7) ∧ fields 0x02001013#32 = (0b0010011#7, 1#3, 1#7) ∧
    fields 0x02005013#32 = (0b0010011#7, 5#3, 1#7) := by
  simp only [List.forall_mem_cons, List.not_mem_nil, false_implies, implies_true, and_true]; decide

theorem test_meets_RegReg : (∀ k ∈ [(0x00C58533#32, 0#3), (0x00C5A533#32, 2#3), (0x00C5B533#32, 3#3), (0x00C5C533#32, 4#3),
      (0x00C5E533#32, 6#3), (0x00C5F533#32, 7#3), (0x00C59533#32, 1#3), (0x00C5D533#32, 5#3)],
      fields k.1 = (0b0110011#7, k.2, 0#7)) ∧
    fields 0x40C58533#32 = (0b0110011#7, 0#3, 0b0100000#7) ∧ fields 0x40C5D533#32 = (0b0110011#7, 5#3, 0b0100000#7) := by
  simp only [List.forall_mem_cons, List.not_mem_nil, false_implies, implies_true, and_true]; decide

theorem test_meets_Multiply : ∀ k ∈ [(0x02C58533#32, 0#3), (0x02C59533#32, 1#3), (0x02C5A533#32, 2#3), (0x02C5B533#32, 3#3)],
    fields k.1 = (0b0110011#7, k.2, 1#7) := by
  simp only [List.forall_mem_cons, List.not_mem_nil, false_implies, implies_true, and_true]; decide

theorem test_meets_Divide : ∀ k ∈ [(0x02C5C533#32, 4#3), (0x02C5D533#32, 5#3), (0x02C5E533#32, 6#3), (0x02C5F533#32, 7#3)],
    fields k.1 = (0b0110011#7, k.2, 1#7) := by
  simp only [List.forall_mem_cons, List.not_mem_nil, false_implies, implies_true, and_true]; decide

/-- Plain operands, a divisor of 0, and signed overflow. -/
theorem test_meets_MulDivLaws : (10#5 : RegIdx) ≠ 0#5 ∧
    (∀ k ∈ [(0xFFFFFFF9#32, 2#32), (0x80000000#32, 0xFFFFFFFF#32), (0x80000000#32, 0#32)],
      (core [(11#5, k.1), (12#5, k.2)]).reg 11#5 = k.1 ∧ (core [(11#5, k.1), (12#5, k.2)]).reg 12#5 = k.2) := by
  simp only [List.forall_mem_cons, List.not_mem_nil, false_implies, implies_true, and_true]; decide

theorem test_meets_Jumps : opcodeField 0x7FF000EF#32 = 0b1101111#7 ∧ fields 0x005580E7#32 = (0b1100111#7, 0#3, 0#7) ∧
    fields 0x00001067#32 = (0b1100111#7, 1#3, 0#7) := by decide

theorem test_meets_Branches : ∀ k ∈ [(0x00C58863#32, 0#3), (0x00C59863#32, 1#3), (0x00C5A863#32, 2#3), (0x00C5B863#32, 3#3),
      (0x00C5C863#32, 4#3), (0x00C5D863#32, 5#3), (0x00C5E863#32, 6#3), (0x00C5F863#32, 7#3)],
    fields k.1 = (0b1100011#7, k.2, 0#7) ∧
    BitVec.extractLsb' 31 1 k.1 ++ BitVec.extractLsb' 7 1 k.1 ++ BitVec.extractLsb' 25 6 k.1 ++ BitVec.extractLsb' 8 4 k.1 ++
      0#1 = 16#13 := by
  simp only [List.forall_mem_cons, List.not_mem_nil, false_implies, implies_true, and_true]; decide

/-- Each kind of transfer reaches a target that is not a multiple of 4. -/
theorem test_meets_TargetUnchecked : ∀ k ∈ [(Instr.jal 1#5 2#21, 0x00010002#32), (.jalr 1#5 11#5 2#12, 2#32),
      (.beq 0#5 0#5 2#13, 0x00010002#32), (.bge 0#5 0#5 (-2#13), 0x0000FFFE#32), (.bgeu 0#5 0#5 2#13, 0x00010002#32)],
    (after k.1 (core []) 31#5).map (fun q => q.2) = some k.2 ∧ k.2.toNat % 4 ≠ 0 := by decide

theorem test_meets_FenceEcallEbreak : fields 0x0330000F#32 = (0b0001111#7, 0#3, 1#7) := by decide

theorem test_meets_CsrRefused : ∀ k ∈ [(0xC00592F3#32, 1#3), (0xC00022F3#32, 2#3), (0xC005B2F3#32, 3#3), (0xC00FD2F3#32, 5#3),
      (0xC00FE2F3#32, 6#3), (0xC00FF2F3#32, 7#3)], opcodeField k.1 = 0b1110011#7 ∧ funct3Field k.1 = k.2 := by
  simp only [List.forall_mem_cons, List.not_mem_nil, false_implies, implies_true, and_true]; decide

theorem test_meets_ExceptionEntry :
    (atPhase (.trap 1) id).hart.phase = .trap 1 ∧ (atPhase (.trap 1) id).hart.pendingEcall = false ∧
    (∃ k, (atPhase (.trap 1) id).task? 1 = some k) ∧ (atPhase (.trap 1) id).sched.lock = none := ⟨rfl, rfl, ⟨_, rfl⟩, rfl⟩

theorem test_meets_TrapRunsSyscall : ∃ s : State, s = (atPhase (.trap 1) id).signalEcall ∧ s.hart.phase = .trap 1 ∧
    s.hart.pendingEcall = true ∧ ∃ k, s.task? 1 = some k := ⟨_, rfl, rfl, rfl, _, rfl⟩

theorem test_meets_SaveRestore : (∃ k, (placed 0).task? 1 = some k) ∧ (2 : Nat) ≠ 1 := ⟨⟨_, rfl⟩, by decide⟩

/-- A contiguous machine with the task's block in place. -/
def atBlock : State :=
  let s := (placedWith contigParams 0).modTask 1 (fun t => { t with state := .ready })
  { s with hart := { s.hart with phase := .acquired 1 }
           contig := { holes := [{ start := 16384, size := 49152 }]
                       allocated := [{ pid := 1, start := 0, size := 16384, space := 0 }] } }

theorem test_meets_EnterSlice :
    (∃ k, (atPhase (.acquired 1) (fun t => { t with state := .ready })).task? 1 = some k ∧ k.state = .ready ∧
      (atPhase (.acquired 1) (fun t => { t with state := .ready })).hart.phase = .acquired 1) ∧
    (∃ k, (atPhase (.acquired 1) (fun t => { t with state := .waiting })).task? 1 = some k ∧ k.state ≠ .ready) ∧
    (∃ k b, atBlock.hart.phase = .acquired 1 ∧ atBlock.task? 1 = some k ∧ k.state = .ready ∧
      atBlock.params.memMode = .contiguous .firstFit ∧ atBlock.block? k.space = some b) :=
  ⟨⟨_, rfl, rfl, rfl⟩, ⟨_, rfl, by decide⟩, ⟨_, _, rfl, rfl, rfl, rfl, rfl⟩⟩

theorem test_meets_EndAndRelease :
    (∀ b, (atPhase (.sliceEnd 1 b) id).hart.phase = .sliceEnd 1 b ∧ ∃ k, (atPhase (.sliceEnd 1 b) id).task? 1 = some k) ∧
    (atPhase (.release 1) id).hart.phase = .release 1 ∧ (∃ k, (atPhase (.release 1) id).task? 1 = some k) ∧
    (atPhase (.release 1) id).sched.lock = none ∧ atBlock.params.memMode = .contiguous .firstFit :=
  ⟨fun _ => ⟨rfl, _, rfl⟩, rfl, ⟨_, rfl⟩, rfl, rfl⟩

theorem test_meets_AcquireOrPanic :
    (∃ k, (atPhase (.picked 1) (fun t => { t with activeHartId := none })).task? 1 = some k ∧ k.activeHartId = none) ∧
    (∃ k, (atPhase (.picked 1) (fun t => { t with activeHartId := some 3 })).task? 1 = some k ∧ k.activeHartId = some 3 ∧
      (atPhase (.picked 1) (fun t => { t with activeHartId := some 3 })).hart.phase = .picked 1) ∧
    ((placed 0).setPanic .spinlockMisuse).kernel.panic = some .spinlockMisuse :=
  ⟨⟨_, rfl, rfl⟩, ⟨_, rfl, rfl, rfl⟩, rfl⟩

theorem test_meets_HoleChoice :
    pickHole .firstFit 8 [{ start := 0, size := 4 }, { start := 8, size := 16 }, { start := 32, size := 8 }] =
      some { start := 8, size := 16 } ∧
    pickHole .bestFit 8 [{ start := 0, size := 4 }, { start := 8, size := 16 }, { start := 32, size := 8 }] =
      some { start := 32, size := 8 } ∧
    (∀ h ∈ [({ start := 0, size := 4 } : Hole)], h.size < 5) ∧
    (∃ q, placeBlock 1 8 (State.powerOn contigParams) = some q) := ⟨by decide, by decide, by decide, _, rfl⟩

theorem test_meets_CompactKeepsBytes :
    BlocksOrdered [{ pid := 1, start := 4, size := 8, space := 0 }, { pid := 2, start := 12, size := 8, space := 1 }] ∧
    [({ pid := 1, start := 4, size := 8, space := 0 } : Block)][0]? = some { pid := 1, start := 4, size := 8, space := 0 } := by
  simp [BlocksOrdered]

/-- A second space, 1, whose page 0 is in frame 2. -/
def twoSpaces : State :=
  let s := (edge.setFrame 2 { free := false, refcount := 1, owner := .page 2 0, accessed := false }).setFrame 3
    { free := false, refcount := 1, owner := .pageTable, accessed := false }
  { s with
    kernel := { s.kernel with nextSpace := 2 }
    paging := { s.paging with
      spaces := s.paging.spaces ++
        [(1, { pid := 2, directory := [(0, { frame := 3, ptes := [(0, openPte 2)] })], regions := [], counters := [] })] } }

theorem test_meets_StoreIsolated : InSpace twoSpaces 0 ∧ (0 : Nat) ≠ 1 ∧
    Resident twoSpaces 0 (twoSpaces.reg 11#5 + BitVec.signExtend 32 0#12) (openPte 0) ∧ (openPte 0).perms.w = true ∧
    PlainAccess twoSpaces (twoSpaces.reg 11#5 + BitVec.signExtend 32 0#12) 4 ∧ Resident twoSpaces 1 4095#32 (openPte 2) ∧
    (openPte 2).ppn ≠ (openPte 0).ppn ∧ ∃ t, exec (.sw 10#5 11#5 0#12) twoSpaces = .next t :=
  ⟨⟨⟨_, _, rfl⟩, rfl⟩, by decide, ⟨_, rfl, rfl, rfl⟩, rfl, by simp only [PlainAccess]; decide, ⟨_, rfl, rfl, rfl⟩, by decide, _,
    rfl⟩

/-- The placed machine with its task READY and a ready collection, under a scheduling policy. -/
def withReady (m : SchedMode) (l : List Nat) : State :=
  { atPhase .scheduling (fun t => { t with state := .ready }) with
    params := { Params.standard with schedMode := m }
    sched := { ready := l, members := l, lock := none } }

theorem test_meets_AddTaskOnce : (withReady .cooperative [7]).sched.lock = none ∧ (withReady .cooperative [7]).sched.ready.Nodup ∧
    (∀ p, p ∈ (withReady .cooperative [7]).sched.ready ↔ p ∈ (withReady .cooperative [7]).sched.members) ∧
    1 ∉ (withReady .cooperative [7]).sched.ready ∧ (withReady .cooperative [7]).taskIs 1 .ready = true :=
  ⟨rfl, by decide, fun _ => Iff.rfl, by decide, by decide⟩

theorem test_meets_ScheduleChoice : ∀ m ∈ [SchedMode.roundRobin 1, .priority 1, .cooperative],
    (withReady m [1, 7]).sched.lock = none ∧ (withReady m [1, 7]).params.schedMode = m ∧
    ∃ pid ∈ [1, 7], (schedule .host (withReady m [1, 7])).1 = some pid := by decide

/-- The same with no hart holding its task. -/
def free (s : State) : State :=
  let u := s.modTask 1 (fun t => { t with activeHartId := none })
  { u with hart := { u.hart with curTask := none } }

/-- The machine with the turn of its first hart next. -/
def now (s : State) : State := { s with chance := { s.chance with agenda := [.hart 0] } }

/-- The placed machine before the release, with a waiting parent 7. -/
def beforeDispatch (f : Task → Task) : State :=
  let s := atPhase (.release 1) f
  match s.task? 1 with
  | some t => s.putTask { t with pid := 7, state := .waiting, waitReason := .processExit, activeHartId := none }
  | none => s

theorem test_meets_DispatchRoutes :
    (∃ k, (beforeDispatch (fun t => { t with state := .ready })).task? 1 = some k ∧ k.state = .ready ∧
      1 ∉ (beforeDispatch (fun t => { t with state := .ready })).sched.members) ∧
    (∃ k, (beforeDispatch (fun t => { t with state := .waiting, waitReason := .uartInput })).task? 1 = some k ∧
      k.state = .waiting ∧ k.waitReason = .uartInput) ∧
    (∃ k, (beforeDispatch (fun t => { t with state := .waiting, waitReason := .timer })).task? 1 = some k ∧
      k.state = .waiting ∧ k.waitReason = .timer) ∧
    (∃ k, (beforeDispatch (fun t => { t with state := .waiting, waitReason := .processExit })).task? 1 = some k ∧
      k.state = .waiting ∧ k.waitReason = .processExit ∧ k.waitingForPid = none) ∧
    (∃ k, (beforeDispatch (fun t => { t with state := .waiting, waitReason := .processExit, waitingForPid := some 9 })).task? 1 =
      some k ∧ k.state = .waiting ∧ k.waitingForPid = some 9) ∧
    (∃ k q, (beforeDispatch (fun t => { t with state := .terminated, parent := some 7 })).task? 1 = some k ∧
      k.state = .terminated ∧ k.parent = some 7 ∧
      (beforeDispatch (fun t => { t with state := .terminated, parent := some 7 })).task? 7 = some q ∧
      q.state = .waiting ∧ q.waitReason = .processExit ∧ q.waitingForPid = none ∧ q.activeHartId = none) ∧
    (beforeDispatch id).hart.phase = .release 1 ∧ (beforeDispatch id).sched.lock = none :=
  ⟨⟨_, rfl, rfl, by decide⟩, ⟨_, rfl, rfl, rfl⟩, ⟨_, rfl, rfl, rfl⟩, ⟨_, rfl, rfl, rfl, rfl⟩, ⟨_, rfl, rfl, rfl⟩,
    ⟨_, _, rfl, rfl, rfl, rfl, rfl, rfl, rfl, rfl⟩, rfl, rfl⟩

/-- The numbers in both syscall statements, with an a0 each clause allows. -/
theorem test_meets_TaskSyscalls : ∀ n ∈ [(93#32, 5#32), (172#32, 0#32), (1001#32, 0#32), (1003#32, 0#32), (0xFFFFFFFF#32, 0#32),
      (1000#32, 0#32), (63#32, 1#32), (64#32, 0#32), (64#32, 3#32)],
    ((atPhase (.trap 1) (calls n.1 n.2)).task? 1).map (fun k => (k.regs[17], k.regs[10])) = some n ∧
    (atPhase (.trap 1) (calls n.1 n.2)).params.debugPrintEnabled = false := by
  simp only [List.forall_mem_cons, List.not_mem_nil, false_implies, implies_true, and_true]; decide

theorem test_meets_BlockingSyscalls :
    (∀ n ∈ [(124#32, 0#32), (1002#32, 0xFFFFFFFF#32), (63#32, 0#32), (260#32, 0#32)],
      ((atPhase (.trap 1) (calls n.1 n.2)).task? 1).map (fun k => ((k.regs[17], k.regs[10]), k.state, k.children)) =
        some (n, .running, []) ∧ (atPhase (.trap 1) (calls n.1 n.2)).io.rxq = []) ∧
    (∃ k, (atPhase (.trap 1) (fun t => { calls 260#32 0#32 t with children := [1] })).task? 1 = some k ∧ k.children = [1] ∧
      k.state = .running) := by
  refine ⟨?_, _, rfl, rfl, rfl⟩
  simp only [List.forall_mem_cons, List.not_mem_nil, false_implies, implies_true, and_true]; decide

/-- The record of a task READY in the memory of a handle. -/
def readyTask (pid space : Nat) : Task := { placedTask State.reset pid space 0#32 with state := .ready, activeHartId := none }

/-- A hart of `twoBlocks`, in the block of a handle. -/
def hartIn (i space : Nat) (base : Word) : Hart :=
  { Hart.powerOn contigParams i with space := some space, base := base, limit := 16384#32 }

/-- Two harts, each in the block of its task, and a hole above. -/
def twoBlocks : State :=
  let s := State.powerOn { contigParams with nHarts := 2 }
  { s with
    hart := hartIn 0 0 0#32
    others := [hartIn 1 1 16384#32]
    kernel := { s.kernel with nextSpace := 2, tasks := [(1, readyTask 1 0), (2, readyTask 2 1)], pidCounter := 3 }
    contig := { holes := [{ start := 32768, size := 32768 }]
                allocated := [{ pid := 1, start := 0, size := 16384, space := 0 },
                              { pid := 2, start := 16384, size := 16384, space := 1 }] } }

/-- The same blocks on a machine whose RAM they fill. -/
def fullBlocks : State :=
  { twoBlocks with params := { contigParams with nHarts := 2, ramSize := 32768 }, contig := { twoBlocks.contig with holes := [] } }

theorem twoBlocks_tidy : twoBlocks.blocksTidy := by
  refine ⟨by decide, ?_, List.pairwise_singleton _ _, by decide, by decide, by decide, by decide, by decide, by decide⟩
  simp [BlocksOrdered, twoBlocks]

theorem fullBlocks_tidy : fullBlocks.blocksTidy := by
  refine ⟨by decide, ?_, .nil, nofun, by decide, nofun, by decide, by decide, by decide⟩
  simp [BlocksOrdered, twoBlocks, fullBlocks]

theorem twoBlocks_contexts : twoBlocks.contexts := by
  have e : twoBlocks.harts = [hartIn 0 0 0#32, hartIn 1 1 16384#32] := rfl
  refine ⟨by decide, ?_, ?_⟩ <;> rw [e] <;> simp only [List.forall_mem_cons, List.not_mem_nil, false_implies, implies_true, and_true]
  · exact ⟨fun k hk => (by cases hk; decide), fun k hk => (by cases hk; decide)⟩
  · exact fun _ _ => ⟨fun k b hk hb => (by cases hk; cases hb; exact ⟨rfl, rfl⟩), fun k b hk hb => (by cases hk; cases hb; exact ⟨rfl, rfl⟩)⟩

/-- With a hole large enough, and with none. -/
theorem test_meets_ForkCopies : (∃ k, (atPhase (.trap 1) (calls 220#32 0#32)).task? 1 = some k ∧ k.regs[17] = 220#32 ∧ k.pid = 1 ∧
    (atPhase (.trap 1) (calls 220#32 0#32)).pidsGiven ∧ (atPhase (.trap 1) (calls 220#32 0#32)).sched.lock = none ∧
    ∀ p ∈ (atPhase (.trap 1) (calls 220#32 0#32)).sched.members, p < 2) ∧
    (∃ h u, copySpace 0 3 twoBlocks = .ok h u) ∧ ∃ e, copySpace 0 3 fullBlocks = .fail e fullBlocks :=
  ⟨⟨_, rfl, by decide, rfl, by simp only [State.pidsGiven]; decide, rfl, by decide⟩, ⟨_, _, rfl⟩, _, rfl⟩

theorem twoSpaces_table {h l f : Nat} (e : twoSpaces.tableAt h l = some f) :
    l = 0 ∧ (h = 0 ∧ f = 1 ∨ h = 1 ∧ f = 3) := by
  match h, l with
  | 0, 0 => cases e; exact ⟨rfl, .inl ⟨rfl, rfl⟩⟩
  | 1, 0 => cases e; exact ⟨rfl, .inr ⟨rfl, rfl⟩⟩
  | 0, l + 1 => cases e
  | 1, l + 1 => cases e
  | h + 2, l => cases e

theorem onePage {a : AddrSpace} {n f v : Nat} {p : Pte} (hd : a.directory = [(0, { frame := n, ptes := [(0, openPte f)] })])
    (e : a.pte? v = some p) : v = 0 ∧ p = openPte f := by
  unfold AddrSpace.pte? at e
  rw [hd] at e
  simp only [assocGet] at e
  by_cases h1 : 0 = l1Index v
  · rw [if_pos h1] at e
    simp only [assocGet] at e
    by_cases h2 : 0 = l2Index v
    · rw [if_pos h2] at e
      unfold l1Index at h1
      unfold l2Index at h2
      exact ⟨by omega, (Option.some.inj e).symm⟩
    · rw [if_neg h2] at e; cases e
  · rw [if_neg h1] at e; cases e

theorem twoSpaces_mapping {h v : Nat} {p : Pte} (e : twoSpaces.mapping? h v = some p) :
    v = 0 ∧ (h = 0 ∧ p = openPte 0 ∨ h = 1 ∧ p = openPte 2) := by
  unfold State.mapping? at e
  have e := (Option.filter_eq_some_iff.1 e).1
  match h with
  | 0 => obtain ⟨h1, h2⟩ := onePage (n := 1) (f := 0) rfl e; exact ⟨h1, .inl ⟨rfl, h2⟩⟩
  | 1 => obtain ⟨h1, h2⟩ := onePage (n := 3) (f := 2) rfl e; exact ⟨h1, .inr ⟨rfl, h2⟩⟩
  | h + 2 => cases e

theorem twoSpaces_framesTidy : twoSpaces.framesTidy := by
  refine ⟨by unfold State.tablesKeyed; decide, fun h l f e => ?_, fun h a v p ha e => ?_, fun f hf => ?_⟩
  · obtain ⟨rfl, ⟨rfl, rfl⟩ | ⟨rfl, rfl⟩⟩ := twoSpaces_table e
    · refine ⟨by decide, rfl, rfl, rfl, fun h l e => ?_⟩
      obtain ⟨rfl, ⟨rfl, -⟩ | ⟨-, e⟩⟩ := twoSpaces_table e
      · exact ⟨rfl, rfl⟩
      · cases e
    · refine ⟨by decide, rfl, rfl, rfl, fun h l e => ?_⟩
      obtain ⟨rfl, ⟨-, e⟩ | ⟨rfl, -⟩⟩ := twoSpaces_table e
      · cases e
      · exact ⟨rfl, rfl⟩
  · obtain ⟨rfl, ⟨rfl, rfl⟩ | ⟨rfl, rfl⟩⟩ := twoSpaces_mapping e
    · cases ha; exact ⟨by decide, rfl⟩
    · cases ha; exact ⟨by decide, rfl⟩
  · have hf : f < 16 := hf
    interval_cases f <;>
      first
      | exact ⟨rfl, rfl⟩
      | exact ⟨rfl, rfl, rfl⟩
      | exact ⟨rfl, 0, 0, rfl⟩
      | exact ⟨rfl, 1, 0, rfl⟩

theorem test_meets_ForkBytes :
    (∃ b, twoBlocks.params.memMode = .contiguous .firstFit ∧ twoBlocks.blocksTidy ∧ twoBlocks.block? 0 = some b ∧
      b.size = twoBlocks.params.contigTaskSize ∧
      twoBlocks.params.contigTaskSize ≤ (twoBlocks.contig.holes.map (fun h => h.size)).sum) ∧
    (∃ b, fullBlocks.params.memMode = .contiguous .firstFit ∧ fullBlocks.blocksTidy ∧ fullBlocks.block? 0 = some b ∧
      b.size = fullBlocks.params.contigTaskSize ∧
      (fullBlocks.contig.holes.map (fun h => h.size)).sum < fullBlocks.params.contigTaskSize) ∧
    ∃ a, twoSpaces.params.memMode = .paged .eager .random ∧ twoSpaces.framesTidy ∧ twoSpaces.space? 0 = some a ∧
      (a.mappings.filter (fun m => !m.2.shared)).length + a.directory.length ≤ twoSpaces.freeFrames.length ∧
      ∃ p, twoSpaces.mapping? 0 0 = some p ∧ p.shared = false :=
  ⟨⟨_, rfl, twoBlocks_tidy, rfl, rfl, by decide⟩, ⟨_, rfl, fullBlocks_tidy, rfl, rfl, by decide⟩,
    _, rfl, twoSpaces_framesTidy, rfl, by decide, _, rfl, rfl⟩

/-- Task 1 waits with a status pointer, and its child 7 is a zombie. -/
def withZombie (ptr : Word) : State :=
  let s := atPhase (.trap 1) (fun t => { calls 260#32 ptr t with children := [7] })
  match s.task? 1 with
  | some t => s.putTask { t with pid := 7, children := [], state := .terminated, activeHartId := none, exitCode := 5#32 }
  | none => s

/-- With no status pointer, with one to a word of the page, and with one to no page. -/
theorem test_meets_WaitReaps : (∀ ptr ∈ [0#32, 0x40#32, 0x8000#32], ∃ k, (withZombie ptr).task? 1 = some k ∧ k.regs[17] = 260#32 ∧
      k.regs[10] = ptr ∧ 1 ∉ k.children ∧
      ∃ c ∈ k.children, ∃ z, (withZombie ptr).task? c = some z ∧ z.state = .terminated ∧ z.activeHartId = none) ∧
    (∃ u, memWrite (hartCtx (withZombie 0x40#32)) 0x40#32 4 5#32 (withZombie 0x40#32) = .ok () u) ∧
    ∃ f u, memWrite (hartCtx (withZombie 0x8000#32)) 0x8000#32 4 5#32 (withZombie 0x8000#32) = .fail f u := by
  refine ⟨?_, ⟨_, rfl⟩, _, _, rfl⟩
  simp only [List.forall_mem_cons, List.not_mem_nil, false_implies, implies_true, and_true]
  exact ⟨⟨_, rfl, by decide, by decide, by decide, 7, by decide, _, rfl, rfl, rfl⟩,
    ⟨_, rfl, by decide, by decide, by decide, 7, by decide, _, rfl, rfl, rfl⟩,
    ⟨_, rfl, by decide, by decide, by decide, 7, by decide, _, rfl, rfl, rfl⟩⟩

/-- The header of an ELF image without segments. -/
def emptyElf : List Byte :=
  [0x7F#8, 0x45#8, 0x4C#8, 0x46#8, 1#8, 1#8] ++ List.replicate 12 0#8 ++ [0xF3#8, 0#8] ++ List.replicate 22 0#8 ++
    [32#8, 0#8] ++ List.replicate 8 0#8

/-- The trap of a task with a syscall number and three arguments. The text "Hi" lies at 0x100 and names a file on the host, and
DEBUG_PRINT is enabled; pages are given out on demand. -/
def asks (n x y z : Word) : State :=
  let s := (atPhase (.trap 1) (fun t => ((calls n x t).setReg a1 y).setReg a2 z)).storeBytes 0x100 [0x48#8, 0x69#8]
  { s with
    params := { demandParams with debugPrintEnabled := true, hostFs := [([0x48#8, 0x69#8], emptyElf)] }
    chance := { s.chance with script := List.replicate 12 0 } }

/-- Whether EXEC builds the image that a path names; none where the path is not read. -/
def builds (path : Word) : Option Bool :=
  match readExecArgs (hartCtx (asks 221#32 path 0#32 0#32)) path 0#32 (asks 221#32 path 0#32 0#32) with
  | .ok a u =>
    match buildImage 1 a.1 a.2 u with
    | .ok _ _ => some true
    | .fail _ _ => some false
    | .refuse _ => none
  | .fail _ _ => none
  | .refuse _ => none

/-- A task that asks: READ with a byte waiting, into the page or where no page is; WRITE of two bytes, of more than the text has, and
of a text past the page's end; DEBUG_PRINT of the text and of an address with no page; EXEC with a path at an address with no page, and with
a path that names no file. -/
theorem test_meets_MemorySyscalls :
    (∃ k, (asks 63#32 0#32 0x40#32 1#32).task? 1 = some k ∧ k.regs[17] = 63#32 ∧ k.regs[10] = 0#32 ∧
      (pushByte 0x41#8 (asks 63#32 0#32 0x40#32 1#32)).io.rxq = [0x41#8]) ∧
    (∃ k u, (asks 64#32 1#32 0x100#32 2#32).task? 1 = some k ∧ k.regs[17] = 64#32 ∧ k.regs[10] = 1#32 ∧ k.regs[12].toNat = 2 ∧
      EmitsText k.regs[11] [0x48#8, 0x69#8] (asks 64#32 1#32 0x100#32 2#32) u) ∧
    (∃ k u v w, (asks 64#32 2#32 0x100#32 5#32).task? 1 = some k ∧ k.regs[10] = 2#32 ∧ 2 < k.regs[12].toNat ∧
      EmitsText k.regs[11] [0x48#8, 0x69#8] (asks 64#32 2#32 0x100#32 5#32) u ∧ memRead (hartCtx u) 0x102#32 1 u = .ok v w ∧
      v.setWidth 8 = 0#8) ∧
    (∃ k u, (asks 1000#32 0x100#32 0#32 0#32).task? 1 = some k ∧ k.regs[17] = 1000#32 ∧
      (asks 1000#32 0x100#32 0#32 0#32).params.debugPrintEnabled = true ∧
      TextAt (hartCtx (asks 1000#32 0x100#32 0#32 0#32)) k.regs[10] [0x48#8, 0x69#8] (asks 1000#32 0x100#32 0#32 0#32) u) ∧
    (∃ u f w, ReadsText (hartCtx (asks 1000#32 0x8000#32 0#32 0#32)) 0x8000#32 [] (asks 1000#32 0x8000#32 0#32 0#32) u ∧
      memRead (hartCtx u) 0x8000#32 1 u = .fail f w) ∧
    (∃ k f u, (asks 221#32 0x8000#32 0#32 0#32).task? 1 = some k ∧ k.regs[17] = 221#32 ∧
      readExecArgs (hartCtx (asks 221#32 0x8000#32 0#32 0#32)) 0x8000#32 0#32 (asks 221#32 0x8000#32 0#32 0#32) = .fail f u) ∧
    builds 0x101#32 = some false ∧ builds 0x100#32 = some true :=
  ⟨⟨_, rfl, rfl, rfl, rfl⟩,
   ⟨_, _, rfl, rfl, rfl, rfl, _, _, rfl, rfl, by decide, _, _, rfl, rfl, by decide, rfl⟩,
   ⟨_, _, _, _, rfl, rfl, by decide, ⟨_, _, rfl, rfl, by decide, _, _, rfl, rfl, by decide, rfl⟩, rfl, by decide⟩,
   ⟨_, _, rfl, rfl, rfl, by decide, _, _, ⟨_, _, rfl, rfl, by decide, _, _, rfl, rfl, by decide, rfl⟩, rfl, by decide⟩,
   ⟨_, _, _, rfl, rfl⟩, ⟨_, _, _, rfl, rfl, rfl⟩, by decide, by decide⟩

/-- The trap of a task that asks to print a text of n bytes at 0x100, on a CONTIGUOUS machine; zeros follow it. -/
def longText (n : Nat) : State :=
  let s := (placedWith { contigParams with debugPrintEnabled := true } 0).modTask 1 (calls 1000#32 0x100#32)
  { s with hart := { s.hart with phase := .trap 1 } }.storeBytes 0x100 (List.replicate n 0x41#8)

/-- Its bytes as DEBUG_PRINT reads them. -/
theorem longText_memRead (n i : Nat) (h : i < 5000) :
    ∃ v, memRead (hartCtx (longText n)) (0x100#32 + BitVec.ofNat 32 i) 1 (longText n) = .ok v (longText n) ∧
      v.setWidth 8 = if i < n then 0x41#8 else 0#8 := by
  have hva : (0x100#32 + BitVec.ofNat 32 i).toNat = 0x100 + i := by
    rw [BitVec.toNat_add, BitVec.toNat_ofNat, BitVec.toNat_ofNat]; omega
  have hplain : PlainAccess (longText n) (0x100#32 + BitVec.ofNat 32 i) 1 := by
    refine ⟨Nat.mod_one _, fun k hk hu => ?_⟩
    have hb : (longText n).params.uartBase = 0x10000000 := rfl
    rw [hva, hb] at hu; omega
  have hin : InBlock (longText n) (0x100#32 + BitVec.ofNat 32 i) 1 := by
    have h1 : (longText n).hart.limit.toNat = 65536 := rfl
    have h2 : (longText n).params.ramSize = 65536 := rfl
    have h3 : (longText n).hart.base.toNat = 0 := rfl
    exact ⟨⟨_, rfl⟩, by rw [hva, h1]; omega, by rw [hva, h2, h3]; omega⟩
  have hbyte : (longText n).ram.read (0 + (0x100 + i)) = if i < n then 0x41#8 else 0#8 := by
    show (Memory.writeBytes _ _ _).read _ = _
    rw [Memory.read_writeBytes]
    simp only [List.length_replicate]
    by_cases hi : i < n
    · rw [if_pos (by omega), if_pos hi, List.getD_eq_getElem?_getD, List.getElem?_replicate, if_pos (by omega)]; rfl
    · rw [if_neg (by omega), if_neg hi]; rfl
  refine ⟨_, by rw [hplain.memRead, translate_inBlock .read true hin]; rfl, ?_⟩
  show BitVec.setWidth 8 (littleEndian [(longText n).ram.read (0 + (0x100#32 + BitVec.ofNat 32 i).toNat)]) = _
  rw [hva, hbyte]
  split <;> decide

/-- The text, from any of its bytes. -/
theorem longText_reads (n : Nat) (hn : n < 5000) (j i : Nat) (h : i + j ≤ n) :
    ReadsText (hartCtx (longText n)) (0x100#32 + BitVec.ofNat 32 i) (List.replicate j 0x41#8) (longText n) (longText n) := by
  induction j generalizing i with
  | zero => rfl
  | succ j ih =>
    obtain ⟨v, h1, h2⟩ := longText_memRead n i (by omega)
    refine ⟨v, _, h1, h2.trans (if_pos (by omega)), by decide, ?_⟩
    have e : 0x100#32 + BitVec.ofNat 32 i + 1#32 = 0x100#32 + BitVec.ofNat 32 (i + 1) := by
      rw [BitVec.ofNat_add, BitVec.add_assoc]
    rw [e]; exact ih (i + 1) (by omega)

/-- DEBUG_PRINT at its bound: a text of 4096 bytes with its NUL, and 4097 bytes without one. -/
theorem test_meets_debugPrint :
    (∀ n ∈ [4096, 4097], (∃ k, (longText n).task? 1 = some k ∧ k.regs[17] = 1000#32 ∧ k.regs[10] = 0x100#32) ∧
      (longText n).params.debugPrintEnabled = true ∧
      ReadsText (hartCtx (longText n)) 0x100#32 (List.replicate n 0x41#8) (longText n) (longText n)) ∧
    ∃ v, memRead (hartCtx (longText 4096)) (0x100#32 + 4096#32) 1 (longText 4096) = .ok v (longText 4096) ∧
      v.setWidth 8 = 0#8 := by
  refine ⟨?_, longText_memRead 4096 4096 (by decide)⟩
  simp only [List.forall_mem_cons, List.not_mem_nil, false_implies, implies_true, and_true]
  exact ⟨⟨⟨_, rfl, rfl, rfl⟩, rfl, longText_reads 4096 (by decide) 4096 0 (by decide)⟩,
    ⟨_, rfl, rfl, rfl⟩, rfl, longText_reads 4097 (by decide) 4097 0 (by decide)⟩

/-- A reader in the I/O queue with a byte waiting, and two sleepers, one due now and one at the next tick. -/
def waiters : State :=
  let s := pushByte 0x41#8 (atPhase .loopTop (fun t => { t with state := .waiting, waitReason := .uartInput }))
  { s with waits := { s.waits with io := [1], sleep := [(0, 1), (1, 9)] } }

theorem test_meets_MaintainWakes : waiters.kernel.running = true ∧ waiters.io.rxq ≠ [] ∧ 1 ∈ waiters.waits.io ∧
    (∃ k, waiters.task? 1 = some k ∧ k.state = .waiting ∧ k.waitReason = .uartInput) ∧
    (0, 1) ∈ waiters.waits.sleep ∧ (0 : Nat) ≤ waiters.io.clock ∧ (1, 9) ∈ waiters.waits.sleep ∧ waiters.io.clock < 1 ∧
    (∃ k, (atPhase .loopTop (fun t => { t with waitReason := .processExit })).task? 1 = some k ∧ k.waitReason ≠ .uartInput) ∧
    (atPhase .loopTop id).io.rxq = [] ∧ waiters.sched.lock = none ∧
    (∀ p, p ∈ waiters.sched.ready ↔ p ∈ waiters.sched.members) ∧ 1 ∈ (maintain waiters).sched.ready :=
  ⟨rfl, by decide, by decide, ⟨_, rfl, rfl, rfl⟩, by decide, by decide, by decide, by decide, ⟨_, rfl, by decide⟩, rfl, rfl,
    fun _ => Iff.rfl, by decide⟩

/-- Task 1 waits for any child, and its child 7 is READY. -/
def waitingParent : State :=
  let s := atPhase .loopTop (fun t =>
    { t with state := .waiting, waitReason := .processExit, activeHartId := none, children := [7] })
  match s.task? 1 with
  | some t => s.putTask { t with pid := 7, parent := some 1, children := [], state := .ready, waitReason := .none }
  | none => s

/-- A task that a hart holds, one whose parent waits for it, one that has ended, and none. -/
theorem test_meets_TerminateTask :
    (∃ k, (placed 0).task? 1 = some k ∧ k.state ≠ .terminated ∧ k.parent ≠ some 1 ∧ (placed 0).sched.lock = none ∧
      k.activeHartId ≠ none) ∧
    (∃ k p, waitingParent.task? 7 = some k ∧ k.state ≠ .terminated ∧ k.parent = some 1 ∧ waitingParent.sched.lock = none ∧
      k.activeHartId = none ∧ waitingParent.task? 1 = some p ∧ p.state = .waiting ∧ p.waitReason = .processExit ∧
      p.waitingForPid = none ∧ p.activeHartId = none ∧
      ∀ q, q ∈ waitingParent.sched.ready ↔ q ∈ waitingParent.sched.members) ∧
    (∃ k, (atPhase .loopTop (fun t => { t with state := .terminated })).task? 1 = some k ∧ k.state = .terminated) ∧
    (placed 0).task? 9 = none :=
  ⟨⟨_, rfl, by decide, by decide, rfl, by decide⟩,
    ⟨_, _, rfl, by decide, rfl, rfl, rfl, rfl, rfl, rfl, rfl, rfl, fun _ => .rfl⟩, ⟨_, rfl, rfl⟩, rfl⟩

theorem test_meets_PowerOn : 1 ≤ Params.standard.nHarts := by decide

theorem test_meets_RamCanonicalKept : (placed 0x00C58533).ram.wf = true ∧ ∃ t, step (placed 0x00C58533) = .next t :=
  ⟨by decide, _, rfl⟩

theorem test_meets_ZeroRegsKept : (placed 0x00C58533).zeroRegs ∧ ∃ t, step (placed 0x00C58533) = .next t :=
  ⟨by simp only [State.zeroRegs]; decide, _, rfl⟩

theorem test_meets_TerminatedStays : (placed 0x00C58533).pidsGiven ∧ (∃ t, step (placed 0x00C58533) = .next t) ∧
    ((0 : Nat) < (placed 0x00C58533).kernel.pidCounter ∧ (placed 0x00C58533).task? 0 = none) ∧
    (atPhase (.slice 1) (fun t => { t with state := .terminated })).taskIs 1 .terminated = true ∧
    ∃ t, step (atPhase (.slice 1) (fun t => { t with state := .terminated })) = .next t :=
  ⟨by simp only [State.pidsGiven]; decide, ⟨_, rfl⟩, by decide, by decide, _, rfl⟩

theorem test_meets_HoldsKept : (placed 0x00C58533).pidsGiven ∧ (placed 0x00C58533).holds ∧
    (∃ t, step (placed 0x00C58533) = .next t) ∧ (placed 0x00C58533).hart ∈ (placed 0x00C58533).harts ∧
    (placed 0x00C58533).hart.curTask = some 1 := by
  refine ⟨by simp only [State.pidsGiven]; decide, ⟨by decide, by decide, fun h hh p hp => ?_⟩, ⟨_, rfl⟩, by decide, rfl⟩
  have e : (placed 0x00C58533).harts = [(placed 0x00C58533).hart] := rfl
  rw [e, List.mem_singleton] at hh
  subst hh
  cases hp
  exact ⟨_, rfl, rfl⟩

theorem test_meets_KernelTidyKept : (placed 0x00C58533).tidy ∧ ∃ t, step (placed 0x00C58533) = .next t :=
  ⟨⟨by simp only [State.pidsGiven]; decide, by decide, fun _ => Iff.rfl, by decide, fun e he => by
    have h : (placed 0x00C58533).kernel.tasks = [(1, placedTask State.reset 1 0 0#32)] := rfl
    rw [h, List.mem_singleton] at he
    subst he
    exact ⟨rfl, fun _ hp => (by cases hp), fun _ hc => (by cases hc)⟩⟩, _, rfl⟩

/-- In the slice of a RUNNING task, and before schedule() with a task ready. -/
theorem test_meets_SchedulerSound : ((placed 0x00C58533).tidy ∧ (placed 0x00C58533).holds ∧ (placed 0x00C58533).orderly ∧
      ∃ t, step (placed 0x00C58533) = .next t) ∧
    ((free (withReady .cooperative [1])).tidy ∧ (free (withReady .cooperative [1])).orderly ∧
      (schedule .host (free (withReady .cooperative [1]))).1 = some 1) := by
  refine ⟨⟨test_meets_KernelTidyKept.1, test_meets_HoldsKept.2.1, ⟨rfl, rfl, nofun, nofun, nofun, .nil, nofun, ?_, ?_⟩, _, rfl⟩,
    ?_, ⟨rfl, rfl, ?_, nofun, nofun, .nil, nofun, ?_, ?_⟩, rfl⟩
  · intro h m
    have e : (placed 0x00C58533).harts = [(placed 0x00C58533).hart] := rfl
    rw [e, List.mem_singleton] at m; subst m
    exact ⟨by decide, fun k hk => by cases hk; exact .inl rfl⟩
  · intro g m h _ p e
    have e' : (placed 0x00C58533).harts = [(placed 0x00C58533).hart] := rfl
    rw [e', List.mem_singleton] at m; subst m; cases e
  · refine ⟨by simp only [State.pidsGiven]; decide, by decide, fun _ => Iff.rfl, by decide, fun e he => ?_⟩
    have h : (free (withReady .cooperative [1])).kernel.tasks = [(1, readyTask 1 0)] := rfl
    rw [h, List.mem_singleton] at he
    subst he
    exact ⟨rfl, fun _ hp => (by cases hp), fun _ hc => (by cases hc)⟩
  · intro p m
    have e : p = 1 := List.mem_singleton.1 m
    subst e; exact ⟨_, rfl, rfl, rfl⟩
  · intro h m
    have e : (free (withReady .cooperative [1])).harts = [(free (withReady .cooperative [1])).hart] := rfl
    rw [e, List.mem_singleton] at m; subst m; trivial
  · intro g m h _ p e
    have e' : (free (withReady .cooperative [1])).harts = [(free (withReady .cooperative [1])).hart] := rfl
    rw [e', List.mem_singleton] at m; subst m; cases e

/-- Two harts in two blocks, at the edge between them. -/
theorem test_meets_BlocksTidyKept : twoBlocks.blocksTidy ∧ twoBlocks.contexts ∧ (∃ t, step (now twoBlocks) = .next t) ∧
    twoBlocks.params.memMode = .contiguous .firstFit ∧ twoBlocks.params.ramSize ≤ 2 ^ 32 ∧
    hartIn 0 0 0#32 ∈ twoBlocks.harts ∧ hartIn 1 1 16384#32 ∈ twoBlocks.harts ∧ (0 : Nat) ≠ 1 ∧
    (∃ b c, twoBlocks.block? 0 = some b ∧ twoBlocks.block? 1 = some c) ∧
    translateContig 0#32 16384#32 16380#32 4 twoBlocks = .ok 16380 twoBlocks ∧
    translateContig 16384#32 16384#32 0#32 4 twoBlocks = .ok 16384 twoBlocks :=
  ⟨twoBlocks_tidy, twoBlocks_contexts, ⟨_, rfl⟩, rfl, by decide, by decide, by decide, by decide, ⟨_, _, rfl, rfl⟩, rfl, rfl⟩

theorem test_meets_FramesKept : twoSpaces.framesTidy ∧ (∃ t, step twoSpaces = .next t) ∧
    (∃ p, twoSpaces.mapping? 0 0 = some p ∧ p.shared = false ∧ p.ppn = 0) ∧ ∃ q, twoSpaces.mapping? 1 0 = some q ∧ q.ppn = 2 :=
  ⟨twoSpaces_framesTidy, ⟨_, rfl⟩, ⟨_, rfl, rfl, rfl⟩, _, rfl, rfl⟩

theorem test_meets_RunKeeps : (∃ t, step (placed 0x00C58533) = .next t) ∧ (placed 0x00C58533).sched.lock = none :=
  ⟨⟨_, rfl⟩, rfl⟩

/-- The placed machine with another agent's turn. -/
def turnOf (a : Agent) : State :=
  let s := placedWith { Params.standard with nHarts := 2 } 0x00C58533
  { s with chance := { s.chance with agenda := [a] } }

theorem test_meets_HartsApart :
    (∀ a ∈ [Agent.hart 0, .hart 1, .maintenance, .host .shutdown], nextAgent (turnOf a) = a) ∧
    (turnOf (.hart 0)).harts.map (fun g => g.id) = [0, 1] ∧
    (∃ t, step (turnOf (.hart 0)) = .next t) ∧ (∃ t, step (turnOf (.hart 1)) = .next t) ∧
    (∃ t, step (turnOf .maintenance) = .next t) ∧ (∃ t, step (turnOf (.host .shutdown)) = .next t) :=
  ⟨by decide, by decide, ⟨_, rfl⟩, ⟨_, rfl⟩, ⟨_, rfl⟩, ⟨_, rfl⟩⟩

/-! ## The repairs of the second sitting, by hand from the rules -/

/-- The observation names the harts by id, in the order of their numbers, whichever is in front (spec/60_exceptions.md R548). -/
theorem test_observe_ids : ((observe twoBlocks).harts.map (fun g => g.id) = [0, 1]) ∧
    ((focus 1 twoBlocks).map (fun s => (observe s).harts.map (fun g => g.id)) = some [0, 1]) := by decide

/-- Compaction moves the block of handle 1 to 0, and the hart that works in it goes with it (spec/20_memory.md R121, R123, R171). -/
theorem test_compact_follows :
    (compact (freeBlock 0 twoBlocks)).others.map (fun g => (g.space, g.base, g.limit)) = [(some 1, 0#32, 16384#32)] := by decide

/-- A release dispatches in the same transition: READY goes to the ready collection (spec/61_dispatcher.md R560, R570). -/
theorem test_release_dispatches :
    (releaseStep 1 (atPhase (.release 1) (fun t => { t with state := .ready }))).sched.ready = [1] := by decide

end Sys2Proof.Tests
end

section
/-! Proofs of the statements of spec/00_scope.md. -/

namespace Sys2Proof.Proofs

/-- Settles O58: each clause is a field of `Evolves`, which every step of the machine keeps (spec/00_scope.md R5,
spec/61_dispatcher.md R552). -/
theorem runKeeps : Obligations.RunKeeps := fun _ _ h =>
  have hev := Machine.Evolves.step h
  ⟨hev.params, hev.frames, hev.lock, hev.stdout, hev.hostLog, hev.stderr, hev.clock⟩

end Sys2Proof.Proofs
end

section
/-! Proofs of the statements of spec/10_state.md: what a hart's transition keeps is brought to every step of the machine by
`step_keeps`; the rest reads off `Evolves` and the invariants themselves. -/

namespace Sys2Proof.Proofs

open Machine

/-! ### From a hart's transition to a step of the machine -/

/-- What every transition of a hart keeps, and bringing a hart forward keeps, every step keeps: the maintenance agent, the host
and the turn's record are transitions that leave the hart where it stands. -/
theorem step_keeps {P : State → Prop} (hmove : ∀ {s t : State}, HartMove s t → P s → P t)
    (hfocus : ∀ {a : Nat} {s t : State}, focus a s = some t → P s → P t) {s t : State} (h : step s = .next t) (hp : P s) :
    P t := by
  have hturn : P (takeTurn s) := hmove (.stay (.takeTurn s)) hp
  obtain ⟨-, ⟨a, u, -, hu, ht⟩ | ⟨a, -, -, rfl⟩ | ⟨-, rfl⟩ | ⟨a, -, rfl⟩⟩ := step_cases h
  · exact hmove (HartMove.hartStep u t ht) (hfocus hu hturn)
  · exact hturn
  · exact hmove (.stay (.maintain _)) hturn
  · exact hmove (.stay (.hostStep a _)) hturn

/-- Bringing a hart forward adds no hart. -/
theorem mem_harts_of_focus {a : Nat} {s t : State} (e : focus a s = some t) {g : Hart} (hg : g ∈ t.harts) : g ∈ s.harts := by
  rcases focus_cases e with ⟨rfl, -⟩ | ⟨k, hk, -, -, rfl⟩
  · exact hg
  · rcases List.mem_cons.1 hg with rfl | hg
    · exact List.mem_cons_of_mem _ hk
    · obtain ⟨j, hj, rfl⟩ := List.mem_map.1 hg
      split
      · exact List.mem_cons_self
      · exact List.mem_cons_of_mem _ hj

/-- A field that is no part of base and limit is the same in harts that differ in these alone. -/
theorem field_of_plain {α : Type} {p : Params} {g k : Hart} (e : g.plain p = k.plain p) (F : Hart → α)
    (hF : ∀ j : Hart, F (j.plain p) = F j) : F g = F k := by
  rw [← hF g, e, hF]

/-! ### x0 -/

theorem zeroRegs_move {s t : State} (h : HartMove s t) (hz : s.zeroRegs) : t.zeroRegs := by
  refine ⟨fun g hg => ?_, h.evolves.zero hz.2⟩
  rcases List.mem_cons.1 hg with rfl | hg
  · exact h.x0 hz.2 (hz.1 _ List.mem_cons_self)
  · obtain ⟨k, hk, e⟩ := plain_members h.others hg
    rw [field_of_plain e (fun j => j.x) (fun j => j.plain_x _)]
    exact hz.1 k (List.mem_cons_of_mem _ hk)

theorem zeroRegs_focus {a : Nat} {s t : State} (e : focus a s = some t) (hz : s.zeroRegs) : t.zeroRegs :=
  ⟨fun g hg => hz.1 g (mem_harts_of_focus e hg), (Evolves.focus e).zero hz.2⟩

/-- Settles O51: the hart that moves keeps x0 by `HartMove.x0`, the others keep all registers. -/
theorem zeroRegsKept : Obligations.ZeroRegsKept := fun _ _ hz h => step_keeps zeroRegs_move zeroRegs_focus h hz

/-! ### RAM, PIDs and the kernel's lists -/

/-- Settles O50: every write of RAM keeps the canonical form, which `Evolves` carries through a step. -/
theorem ramCanonicalKept : Obligations.RamCanonicalKept := fun _ _ hw h => (Evolves.step h).wf hw

/-- Settles O54: `Evolves` carries the agreement of the kernel's lists through a step. -/
theorem kernelTidyKept : Obligations.KernelTidyKept := fun _ _ hy h => (Evolves.step h).tidy hy

/-- A PID with a record has been given out. -/
theorem pid_given {s : State} (hg : s.pidsGiven) {pid : Nat} {k : Task} (hk : s.task? pid = some k) :
    pid < s.kernel.pidCounter :=
  hg (pid, k) (mem_of_assocGet hk)

theorem taskIs_iff {s : State} {pid : Nat} {st : TaskState} :
    s.taskIs pid st = true ↔ ∃ k, s.task? pid = some k ∧ k.state = st := by
  unfold State.taskIs
  cases s.task? pid with
  | none => simp
  | some k => simp

/-- Settles O52: a PID that has a record was given out, so `Evolves.ended` says that a TERMINATED task's record stays so. -/
theorem terminatedStays : Obligations.TerminatedStays := by
  intro s t hg h
  have hev := Evolves.step h
  refine ⟨hev.given hg, hev.pids, hev.gone, fun pid hterm => ?_⟩
  obtain ⟨k, hk, hks⟩ := taskIs_iff.1 hterm
  cases hk' : t.task? pid with
  | none => exact .inl rfl
  | some k' => exact .inr (taskIs_iff.2 ⟨k', hk', hev.ended pid k k' (pid_given hg hk) hk hks hk'⟩)

/-! ### Which hart holds a task -/

/-- The hart in front holds its task, and that task's PID has been given out. -/
theorem holdsOwn_of_holds {s : State} (hg : s.pidsGiven) (hh : s.holds) : s.holdsOwn := by
  obtain ⟨-, hcur, hown⟩ := hh
  refine ⟨hcur _ List.mem_cons_self, fun p hp => ?_⟩
  obtain ⟨k, hk, hka⟩ := hown _ List.mem_cons_self p hp
  exact ⟨pid_given hg hk, k, hk, hka⟩

/-- The harts' numbers never change. -/
theorem ids_move {s t : State} (h : HartMove s t) : t.harts.map (fun g => g.id) = s.harts.map (fun g => g.id) := by
  have hid : (fun g : Hart => g.id) = (fun g => g.id) ∘ Hart.plain s.params := funext fun g => (g.plain_id _).symm
  have hothers : t.others.map (fun g => g.id) = s.others.map (fun g => g.id) := by
    rw [hid, ← List.map_map, h.others, List.map_map]
  unfold State.harts
  rw [List.map_cons, List.map_cons, h.ident, hothers]

/-- A transition of a hart keeps who holds what: the hart's own task by `HartMove.own`, another hart's by `HartMove.foreign`,
since no other hart has its number. -/
theorem holds_move {s t : State} (h : HartMove s t) (hg : s.pidsGiven) (hh : s.holds) : t.holds := by
  have hself := holdsOwn_of_holds hg hh
  obtain ⟨hids, hcur, hown⟩ := hh
  refine ⟨by rw [ids_move h]; exact hids, fun g hgm => ?_, fun g hgm p hp => ?_⟩
  · rcases List.mem_cons.1 hgm with rfl | hgm
    · exact h.held hself.1
    · obtain ⟨k, hk, e⟩ := plain_members h.others hgm
      rw [field_of_plain e (fun j => j.curTask) (fun j => j.plain_curTask _),
        field_of_plain e (fun j => j.phase) (fun j => j.plain_phase _)]
      exact hcur k (List.mem_cons_of_mem _ hk)
  · rcases List.mem_cons.1 hgm with rfl | hgm
    · rw [h.ident]
      exact h.own hself p hp
    · obtain ⟨k, hk, e⟩ := plain_members h.others hgm
      rw [field_of_plain e (fun j => j.curTask) (fun j => j.plain_curTask _)] at hp
      obtain ⟨r, hr, hra⟩ := hown k (List.mem_cons_of_mem _ hk) p hp
      have hne : k.id ≠ s.hart.id := fun hid => (List.nodup_cons.1 hids).1 (List.mem_map.2 ⟨k, hk, hid⟩)
      rw [field_of_plain e (fun j => j.id) (fun j => j.plain_id _)]
      exact h.foreign hself p k.id (pid_given hg hr) hne ⟨r, hr, hra⟩

theorem holds_step {s t : State} (hg : s.pidsGiven) (hh : s.holds) (h : step s = .next t) : t.holds :=
  (step_keeps (P := fun s => s.pidsGiven ∧ s.holds) (fun hm hp => ⟨hm.evolves.given hp.1, holds_move hm hp.1 hp.2⟩)
    (fun e hp => ⟨(Evolves.focus e).given hp.1, holds_focus hp.2 e⟩) h ⟨hg, hh⟩).2

/-- Settles O53: a step keeps who holds what, and a record names one hart, so two harts that hold it have one number. -/
theorem holdsKept : Obligations.HoldsKept := by
  refine ⟨fun s t hg hh h => holds_step hg hh h, fun s ⟨_, _, hown⟩ g hgm k hkm p hgp hkp => ?_⟩
  obtain ⟨r, hr, hrg⟩ := hown g hgm p hgp
  obtain ⟨r', hr', hrk⟩ := hown k hkm p hkp
  rw [hr] at hr'
  cases hr'
  exact Option.some.inj (hrg.symm.trans hrk)

/-! ### Blocks -/

/-- An access that a CONTIGUOUS context lets through lies below the limit, from the base up. -/
theorem translateContig_ok {base limit va : Word} {n pa : Nat} {s t : State}
    (h : translateContig base limit va n s = .ok pa t) :
    pa = base.toNat + va.toNat ∧ va.toNat + n ≤ limit.toNat := by
  unfold translateContig at h
  split at h
  · cases h
  · split at h
    · cases h
    · cases h
      exact ⟨rfl, by omega⟩

/-- Two blocks have no byte of RAM in common. -/
def Apart (b c : Block) : Prop := b.start + b.size ≤ c.start ∨ c.start + c.size ≤ b.start

theorem apart_of_handles {s : State} (hs : s.blocksTidy) {k l : Nat} {b c : Block} (hne : k ≠ l) (hb : s.block? k = some b)
    (hc : s.block? l = some c) : Apart b c := by
  obtain ⟨hbm, hbk⟩ := blockOf_mem hb
  obtain ⟨hcm, hcl⟩ := blockOf_mem hc
  obtain ⟨-, hordered, -⟩ := hs
  have hsymm : Std.Symm Apart := ⟨fun _ _ h => h.symm⟩
  exact List.Pairwise.forall (hordered.imp .inl) hbm hcm (fun e => hne (by rw [← hbk, ← hcl, e]))

/-- An access that a hart's context lets through reaches only bytes of the block the hart works in: RAM is at most 2^32 bytes,
so the base is the block's start, and the limit is at most its size. -/
theorem access_in_block {s : State} {st : AllocStrategy} (hm : s.params.memMode = .contiguous st)
    (hram : s.params.ramSize ≤ 2 ^ 32) (hs : s.blocksTidy) (hx : s.contexts) {g : Hart} (hg : g ∈ s.harts) {k : Nat}
    {b : Block} (hk : g.space = some k) (hb : s.block? k = some b) {va : Word} {n pa : Nat}
    (h : translateContig g.base g.limit va n s = .ok pa s) : b.start ≤ pa ∧ pa + n ≤ b.start + b.size := by
  obtain ⟨hpa, hlim⟩ := translateContig_ok h
  obtain ⟨-, -, hctx⟩ := hx
  obtain ⟨hbase, hlimit⟩ := hctx st hm g hg k b hk hb
  obtain ⟨-, -, -, -, hblocks, -⟩ := hs
  obtain ⟨hpos, hend⟩ := hblocks b (blockOf_mem hb).1
  have hstart : g.base.toNat = b.start := by
    rw [hbase, BitVec.toNat_ofNat]
    exact Nat.mod_eq_of_lt (by omega)
  have hsize : g.limit.toNat ≤ b.size := by
    rw [hlimit, BitVec.toNat_ofNat]
    exact Nat.mod_le _ _
  omega

/-- Settles O56: `Evolves` carries the lists and the contexts through a step; an access stays in its hart's block, and blocks
with different handles lie apart. -/
theorem blocksTidyKept : Obligations.BlocksTidyKept := by
  refine ⟨fun s t hs h => (Evolves.step h).blocks hs, fun s t hx h => (Evolves.step h).contexts hx, ?_⟩
  intro s st hm hram hs hx g hg j hj k l b c hk hl hkl hb hc va wa n m pa qa hpa hqa
  obtain ⟨hp1, hp2⟩ := access_in_block hm hram hs hx hg hk hb hpa
  obtain ⟨hq1, hq2⟩ := access_in_block hm hram hs hx hj hl hc hqa
  rcases apart_of_handles hs hkl hb hc with hbc | hcb
  · left; omega
  · right; omega

/-! ### Frames -/

/-- Two tests split a list in three; of the frames, into the free ones, the data frames and the tables'. -/
theorem length_filter_three {α : Type} (l : List α) (p q : α → Bool) :
    (l.filter p).length + (l.filter (fun a => !p a && !q a)).length + (l.filter (fun a => !p a && q a)).length = l.length := by
  have hp := List.length_eq_length_filter_add (l := l) p
  have hq := List.length_eq_length_filter_add (l := l.filter (fun a => !p a)) q
  rw [List.filter_filter, List.filter_filter] at hq
  simp only [Bool.and_comm] at hp hq ⊢
  omega

/-- A frame is free just where it has no owner. -/
theorem free_iff_unowned {s : State} (hs : s.framesTidy) {f : Nat} (hf : f < s.paging.frames.length) :
    (s.frame f).free = true ↔ (s.frame f).owner = .none := by
  refine ⟨fun hfree => (hs.free hf hfree).1, fun ho => ?_⟩
  obtain ⟨-, -, -, hrecords⟩ := hs
  have hrec := hrecords f hf
  rw [ho] at hrec
  exact hrec.1

/-- A frame that is no table's has as many references as valid PTEs map it. -/
theorem refcount_eq_mappers {s : State} (hs : s.framesTidy) {f : Nat} (hf : f < s.paging.frames.length)
    (hdata : (s.frame f).owner ≠ .pageTable) : (s.frame f).refcount = (mappersOf s f).length := by
  have hfree := fun ho : (s.frame f).owner = .none => hs.unmapped ho
  obtain ⟨-, -, -, hrecords⟩ := hs
  have hrec := hrecords f hf
  cases ho : (s.frame f).owner with
  | none =>
    rw [ho] at hrec
    rw [hrec.2, mappersOf_length, hfree ho]
  | page pid vpn =>
    rw [ho] at hrec
    exact hrec.2.1.trans hrec.2.2.symm
  | pageTable => exact absurd ho hdata
  | shared key =>
    rw [ho] at hrec
    exact hrec.2

/-- A frame that an L2 table has is mapped by no valid PTE: a mapping's frame has another owner. -/
theorem mappersOf_pageTable {s : State} (hs : s.framesTidy) {f : Nat} (ho : (s.frame f).owner = .pageTable) :
    mappersOf s f = [] := by
  refine List.eq_nil_iff_forall_not_mem.2 fun m hm => ?_
  obtain ⟨hkeyed, -, hmaps, -⟩ := hs
  obtain ⟨p, hp, rfl⟩ := (mem_mappersOf hkeyed).1 hm
  obtain ⟨a, ha, -⟩ := State.mapping?_some hp
  have howner := (hmaps m.1 a m.2 p ha hp).2
  split at howner
  · obtain ⟨key, hkey⟩ := howner
    cases ho.symm.trans hkey
  · cases ho.symm.trans howner

/-- A frame whose owner is a table is allocated, with the table's one reference. -/
theorem pageTable_record {s : State} (hs : s.framesTidy) {f : Nat} (hf : f < s.paging.frames.length)
    (ho : (s.frame f).owner = .pageTable) : (s.frame f).free = false ∧ (s.frame f).refcount = 1 := by
  obtain ⟨-, htables, -, hrecords⟩ := hs
  have hrec := hrecords f hf
  rw [ho] at hrec
  obtain ⟨-, h, l, hat⟩ := hrec
  obtain ⟨-, hfree, hone, -⟩ := htables h l f hat
  exact ⟨hfree, hone⟩

/-- A page that is not shared has a frame of its own: its frame's owner is a page, so one valid PTE maps it. -/
theorem unshared_mapping_unique {s : State} (hs : s.framesTidy) {g h v w : Nat} {p q : Pte} (hp : s.mapping? g v = some p)
    (hq : s.mapping? h w = some q) (hshared : p.shared = false) (hppn : p.ppn = q.ppn) : g = h ∧ v = w := by
  obtain ⟨hkeyed, -, hmaps, hrecords⟩ := hs
  obtain ⟨a, ha, -⟩ := State.mapping?_some hp
  obtain ⟨hf, howner⟩ := hmaps g a v p ha hp
  rw [hshared] at howner
  have hrec := hrecords p.ppn hf
  rw [show (s.frame p.ppn).owner = .page a.pid v from howner] at hrec
  obtain ⟨-, -, hone⟩ := hrec
  obtain ⟨m, hm⟩ := List.length_eq_one_iff.1 hone
  have hgv : (g, v) ∈ mappersOf s p.ppn := (mem_mappersOf hkeyed).2 ⟨p, hp, rfl⟩
  have hhw : (h, w) ∈ mappersOf s p.ppn := (mem_mappersOf hkeyed).2 ⟨q, hq, hppn.symm⟩
  rw [hm, List.mem_singleton] at hgv hhw
  exact Prod.mk.inj (hgv.trans hhw.symm)

/-- Settles O57: `Evolves` carries the agreement through a step; the rest reads the records off the owners. -/
theorem framesKept : Obligations.FramesKept := by
  refine ⟨fun s t hs h => (Evolves.step h).pages hs, fun s hs => ⟨?_, fun f hf => ?_, fun f hf => ?_, fun f hf ho => ?_,
    fun g h v w p q => unshared_mapping_unique hs⟩⟩
  · have hsplit := length_filter_three (List.range s.paging.frames.length) (fun f => (s.frame f).free)
      (fun f => decide ((s.frame f).owner = .pageTable))
    simpa only [decide_not, List.length_range] using hsplit
  · exact refcount_eq_mappers hs (List.mem_range.1 hf)
  · exact free_iff_unowned hs (List.mem_range.1 hf)
  · obtain ⟨hfree, hone⟩ := pageTable_record hs (List.mem_range.1 hf) ho
    exact ⟨hfree, hone, mappersOf_pageTable hs ho⟩

/-! ### The flags of a step -/

/-- Settles O7: the flags start clear, and an instruction moves them once, by `FlagsMove`: it leaves the exception flag and code
clear, or it raises and leaves the ECALL flag clear. -/
theorem stepFlags : Obligations.StepFlags := by
  refine fun s => ⟨rfl, ?_, fun t h => ?_⟩
  · unfold instructionStep
    rw [State.clearFlags_idem]
  · rcases (ExecStep.instructionStep s t h).flags with ⟨hexc, hcode⟩ | ⟨hecall, hexc, hcode⟩
    · have hexc' : t.hart.pendingException = false := hexc
      have hcode' : t.hart.excCode = .none := hcode
      simp [hexc', hcode']
    · have hecall' : t.hart.pendingEcall = false := hecall
      simp [hecall', hexc, hcode]

/-! ### Power-on -/

/-- Every hart of the machine at power-on is one of `Hart.powerOn`. -/
theorem hart_powerOn {p : Params} {g : Hart} (hg : g ∈ (State.powerOn p).harts) : ∃ i, g = Hart.powerOn p i := by
  rcases List.mem_cons.1 hg with rfl | hg
  · exact ⟨0, rfl⟩
  · obtain ⟨i, -, rfl⟩ := List.mem_map.1 hg
    exact ⟨i, rfl⟩

theorem ids_powerOn {p : Params} (hn : 1 ≤ p.nHarts) :
    (State.powerOn p).harts.map (fun g => g.id) = List.range p.nHarts := by
  have hothers : ((List.range' 1 (p.nHarts - 1)).map (Hart.powerOn p)).map (fun g => g.id) = List.range' 1 (p.nHarts - 1) := by
    rw [List.map_map]
    exact List.map_id _
  show 0 :: ((List.range' 1 (p.nHarts - 1)).map (Hart.powerOn p)).map (fun g => g.id) = _
  obtain ⟨n, hn'⟩ := Nat.exists_eq_add_of_le' hn
  rw [hothers, List.range_eq_range', hn', Nat.add_sub_cancel, List.range'_succ]

theorem frame_powerOn (p : Params) (f : Nat) : (State.powerOn p).frame f = Frame.unused := by
  show (List.replicate (p.ramSize / 4096) Frame.unused).getD f Frame.unused = _
  rw [List.getD_eq_getElem?_getD, List.getElem?_getD_replicate_default_eq]

/-- Settles O49: the harts by `hart_powerOn`, the frames by `frame_powerOn`; every other value stands in `State.powerOn`. -/
theorem powerOn : Obligations.PowerOn := by
  refine ⟨rfl, fun p hn => ⟨rfl, ids_powerOn hn, fun g hg => ?_, rfl, rfl, rfl, rfl, rfl, rfl, rfl, rfl, rfl, rfl, rfl, rfl, rfl,
    List.length_replicate, frame_powerOn p, rfl, rfl, rfl, rfl⟩⟩
  obtain ⟨i, rfl⟩ := hart_powerOn hg
  exact ⟨Vector.getElem_replicate _, rfl, rfl, rfl, rfl, rfl, rfl, rfl⟩

end Sys2Proof.Proofs
end

section
/-! Proofs of the statements of spec/20_memory.md: how an access of each kind ends makes how its instruction ends; what the
contiguous MMU picks, places and slides; and which bytes a store leaves to other spaces. -/

namespace Sys2Proof.Proofs

open Machine

/-! ### Accesses that complete -/

/-- An aligned access of a resident page stays inside the page. -/
theorem access_in_page {va : Word} {n : Nat} (hn : n = 1 ∨ n = 2 ∨ n = 4) (ha : va.toNat % n = 0) :
    va.toNat % 4096 + n ≤ 4096 := by
  rcases hn with rfl | rfl | rfl <;> omega

theorem fetch_resident {s : State} {h : Nat} {va : Word} {p : Pte} (hs : InSpace s h) (hr : Resident s h va p)
    (hx : p.perms.x = true) (hplain : PlainAccess s va 4) :
    fetch (hartCtx s) va s = .ok (ramValue s (p.physical va) 4) (touch h (vpnOf va) .exec s) := by
  rw [hplain.fetch, translate_resident 4 .exec hs hr hx]
  simp only [Res.andThen, touch_ram, ramValue]

theorem fetch_inBlock {s : State} {va : Word} (hb : InBlock s va 4) (hplain : PlainAccess s va 4) :
    fetch (hartCtx s) va s = .ok (ramValue s (s.hart.base.toNat + va.toNat) 4) s := by
  rw [hplain.fetch, translate_inBlock .exec true hb]
  rfl

/-- A store to a resident writable page: the page is touched, and the bytes lie at its physical address. -/
theorem store_resident {f : (RegIdx → RegIdx → BitVec 12 → Instr) × Nat} (hf : f ∈ storeForms) {s : State} {h : Nat}
    {rs2 rs1 : RegIdx} {imm : BitVec 12} {p : Pte} (hs : InSpace s h)
    (hr : Resident s h (s.reg rs1 + imm.signExtend 32) p) (hw : p.perms.w = true)
    (hplain : PlainAccess s (s.reg rs1 + imm.signExtend 32) f.2) :
    exec (f.1 rs2 rs1 imm) s =
      .next (((touch h (vpnOf (s.reg rs1 + imm.signExtend 32)) .write s).storeBytes
        (p.physical (s.reg rs1 + imm.signExtend 32)) (lowBytes (s.reg rs2) f.2)).advance) := by
  rw [storeForm_eq hf]
  unfold storeFrom effAddr immI
  rw [hplain.memWrite, translate_resident f.2 .write hs hr hw]
  rfl

/-- A load whose access answers 0 writes 0. -/
theorem load_zero {f : (RegIdx → RegIdx → BitVec 12 → Instr) × Nat} (hf : f ∈ loadForms) {s u : State} {rd rs1 : RegIdx}
    {imm : BitVec 12} (h : memRead (hartCtx s) (s.reg rs1 + imm.signExtend 32) f.2 s = .ok 0#32 u) :
    exec (f.1 rd rs1 imm) s = .next ((u.setReg rd 0#32).advance) := by
  obtain ⟨ext, hext, hexec⟩ := loadForm_eq hf
  rw [hexec]
  unfold loadInto effAddr immI
  rw [h]
  simp only [Res.toOutcome, hext]

/-- Settles O8: the translation of a resident page or of the hart's block, and what touching the page leaves as it was. -/
theorem fetchReads : Obligations.FetchReads :=
  ⟨fun s h _ hs hr hx hplain => ⟨touch h (vpnOf s.pc) .exec s, fetch_resident hs hr hx hplain, touch_paging .., .touch ..,
    touch_touched hr .exec⟩, fun _ hb hplain => fetch_inBlock hb hplain⟩

/-! ### Accesses that fail -/

theorem memRead_misaligned {va : Word} {n : Nat} (c : Ctx) (s : State) (h : va.toNat % n ≠ 0) :
    memRead c va n s = .fail { subcause := .misaligned, va := va } s := by
  unfold memRead
  rw [if_pos (by simp [aligned, h])]

theorem memWrite_misaligned {va : Word} {n : Nat} (c : Ctx) (v : Word) (s : State) (h : va.toNat % n ≠ 0) :
    memWrite c va n v s = .fail { subcause := .misaligned, va := va } s := by
  unfold memWrite
  rw [if_pos (by simp [aligned, h])]

theorem fetch_misaligned {va : Word} (c : Ctx) (s : State) (h : va.toNat % 4 ≠ 0) :
    fetch c va s = .fail { subcause := .misaligned, va := va } s := by
  unfold fetch
  rw [if_pos (by simp [aligned, h])]

/-- A load whose translation fails raises the failure's exception. -/
theorem load_untranslated {f : (RegIdx → RegIdx → BitVec 12 → Instr) × Nat} (hf : f ∈ loadForms) {s u : State}
    {e : MemFailure} {rd rs1 : RegIdx} {imm : BitVec 12} (hplain : PlainAccess s (s.reg rs1 + imm.signExtend 32) f.2)
    (h : translate (hartCtx s) (s.reg rs1 + imm.signExtend 32) f.2 .read true s = .fail e u) :
    exec (f.1 rd rs1 imm) s = .next (u.raise e.kind e.va) :=
  load_fail hf (by rw [hplain.memRead, h]; rfl)

/-- A store whose translation fails raises the failure's exception. -/
theorem store_untranslated {f : (RegIdx → RegIdx → BitVec 12 → Instr) × Nat} (hf : f ∈ storeForms) {s u : State}
    {e : MemFailure} {rs2 rs1 : RegIdx} {imm : BitVec 12} (hplain : PlainAccess s (s.reg rs1 + imm.signExtend 32) f.2)
    (h : translate (hartCtx s) (s.reg rs1 + imm.signExtend 32) f.2 .write true s = .fail e u) :
    exec (f.1 rs2 rs1 imm) s = .next (u.raise e.kind e.va) :=
  store_fail hf (by rw [hplain.memWrite, h]; rfl)

/-- A step whose fetch is not translated raises the failure's exception. -/
theorem step_untranslated {s u : State} {e : MemFailure} (hplain : PlainAccess s s.pc 4)
    (h : translate (hartCtx s.clearFlags) s.pc 4 .exec true s.clearFlags = .fail e u) :
    instructionStep s = .next (u.raise e.kind e.va) :=
  step_fail (by rw [PlainAccess.fetch (s := s.clearFlags) _ hplain, h]; rfl)

/-- Settles O29: the alignment check comes first in each access, and a failed access is its instruction's exception. -/
theorem misalignedRaises : Obligations.MisalignedRaises := by
  refine ⟨fun f hf s r rs1 imm h => ?_, fun s h => step_fail (fetch_misaligned _ _ h),
    fun c va v n s h => ⟨memRead_misaligned c s h, memWrite_misaligned c v s h⟩, fun c va s h => fetch_misaligned c s h⟩
  rcases List.mem_append.1 hf with hload | hstore
  · exact load_fail hload (memRead_misaligned _ s h)
  · exact store_fail hstore (memWrite_misaligned _ _ s h)

/-- Settles O30: the translation of a resident page is denied, whatever its other permissions. -/
theorem permissionRaises : Obligations.PermissionRaises :=
  ⟨fun f hf _ _ _ _ _ _ hs hr hperm hplain => load_untranslated hf hplain (translate_denied f.2 .read hs hr hperm),
    fun f hf _ _ _ _ _ _ hs hr hperm hplain => store_untranslated hf hplain (translate_denied f.2 .write hs hr hperm),
    fun s _ _ hs hr hperm hplain =>
      step_untranslated hplain (translate_denied (s := s.clearFlags) 4 .exec hs hr hperm)⟩

/-- Settles O31: a page without a mapping, and an address outside the block, fail in the translation, which leaves the state as
it was. -/
theorem noMappingRaises : Obligations.NoMappingRaises := by
  refine ⟨fun e he f hf s h a r rs1 imm hs ha hn hplain hd => ?_, fun f hf s st r rs1 imm hm hplain hout => ?_,
    fun s h a hs ha hn hplain hd => ?_, fun s st hm hplain hout => ?_⟩
  · simp only [List.mem_cons, List.not_mem_nil, or_false] at he
    rcases he with rfl | rfl
    · exact load_untranslated hf hplain (translate_unmapped f.2 .read hs ha hn hd)
    · exact store_untranslated hf hplain (translate_unmapped f.2 .write hs ha hn hd)
  · rcases List.mem_append.1 hf with hload | hstore
    · obtain ⟨e, he, hkind, hva⟩ := translate_outside st .read true hm hout
      rw [load_untranslated hload hplain he, hkind, hva]
    · obtain ⟨e, he, hkind, hva⟩ := translate_outside st .write true hm hout
      rw [store_untranslated hstore hplain he, hkind, hva]
  · exact step_untranslated hplain (translate_unmapped (s := s.clearFlags) 4 .exec hs ha hn hd)
  · obtain ⟨e, he, hkind, hva⟩ := translate_outside (s := s.clearFlags) st .exec true hm hout
    rw [step_untranslated hplain he, hkind, hva]

/-! ### A page given out on demand -/

/-- A readable page that is not resident is given a zero-filled frame, with two frames to give out (one may become the page's
L2 table): the read is translated, and the page is accessed and not dirty. -/
theorem translate_demand {s : State} {h : Nat} {a : AddrSpace} {va : Word} {perms : Perms} {pol : Replacement} (n : Nat)
    (hm : s.params.memMode = .paged .demand pol) (hh : s.hart.space = some h) (ha : s.space? h = some a)
    (hn : NotResident a va) (hd : demandPerms s a (vpnOf va) .read = some perms) (hr : perms.r = true)
    (hfree : 2 ≤ s.freeFrames.length) :
    ∃ f u q, translate (hartCtx s) va n .read true s = .ok (f * 4096 + pageOffset va) u ∧ Resident u h va q ∧
      q.perms = perms ∧ q.accessed = true ∧ q.dirty = false ∧
      ∀ x, f * 4096 ≤ x → x < f * 4096 + 4096 → u.ram.read x = 0#8 := by
  obtain ⟨f, t, b, hinstall, hb, hpte, hzero⟩ := installPage_gives (pid := a.pid) (vpn := vpnOf va) (perms := perms) ha hfree
  obtain ⟨c, hc, hq⟩ := touch_pte hb hpte .read
  have hs : InSpace s h := ⟨⟨_, _, hm⟩, hh⟩
  have hdemand : demandPaged s = true := by unfold demandPaged evictsOnDemand; rw [hm]
  refine ⟨f, touch h (vpnOf va) .read t, _, ?_, ⟨c, hc, hq, rfl⟩, rfl, rfl, rfl, fun x hlo hhi => ?_⟩
  · rw [hs.ctx]
    show translatePaged h va .read true s = _
    rw [hn.translate .read true ha, hdemand, hd]
    simp only [hinstall, Res.mapFail, Res.andThen, permits, hr, Bool.not_true, Bool.and_false, Bool.false_eq_true, if_false]
  · rw [touch_ram]
    exact hzero x hlo hhi

/-- What is resident is read off the paging structures alone. -/
theorem resident_congr {s t : State} {h : Nat} {va : Word} {p : Pte} (hr : Resident s h va p) (e : t.paging = s.paging) :
    Resident t h va p := by
  unfold Resident State.space? at hr ⊢
  rw [e]
  exact hr

theorem setReg_advance_hart (u : State) (rd : RegIdx) (v : Word) :
    (u.setReg rd v).advance.hart =
      { u.hart with x := (u.setReg rd v).advance.hart.x, pc := (u.setReg rd v).advance.hart.pc } := by
  unfold State.setReg
  split <;> rfl

/-- Settles O34: the read of the page just given out answers zero bytes, and giving it out is a paging step. -/
theorem demandZeroFill : Obligations.DemandZeroFill := by
  intro f hf s h a perms pol rd rs1 imm hm hh ha hn hd hr hplain hfree
  obtain ⟨g, u, q, htrans, hq, hperms, hacc, hdirty, hzero⟩ := translate_demand f.2 hm hh ha hn hd hr hfree
  have hstep : PagingStep s u := by
    have hsat := PagingStep.translate (hartCtx s) (s.reg rs1 + imm.signExtend 32) f.2 .read true s
    rwa [htrans] at hsat
  have hfits := access_in_page (loadForm_width hf) hplain.1
  have hread : memRead (hartCtx s) (s.reg rs1 + imm.signExtend 32) f.2 s = .ok 0#32 u := by
    have hvalue : ramValue u (g * 4096 + pageOffset (s.reg rs1 + imm.signExtend 32)) f.2 = 0#32 :=
      ramValue_zero fun k hk => hzero _ (by omega) (by unfold pageOffset; omega)
    rw [hplain.memRead, htrans, ← hvalue]
    rfl
  have hreg : ∀ r, u.reg r = s.reg r := fun r => by unfold State.reg; rw [hstep.hart]
  refine ⟨_, load_zero hf hread, fun r => ?_, ?_, ?_, ?_, ?_, q, resident_congr hq ?_, hperms, hacc, hdirty⟩
  · rw [State.advance_reg, State.setReg_reg, hreg]
  · rw [State.advance_pc, State.setReg_pc]
    unfold State.pc
    rw [hstep.hart]
  · simp [hstep.io]
  · exact ⟨by simp [hstep.params], by simp [hstep.others], by simp [hstep.kernel], by simp [hstep.sched],
      by simp [hstep.waits], by simp [hstep.contig]⟩
  · rw [← hstep.hart]
    exact setReg_advance_hart u rd 0#32
  · simp

/-! ### The hole a strategy picks -/

/-- The better of the hole held so far and the next: the step of `pickHole`. -/
def keepBetter (st : AllocStrategy) : Option Hole → Hole → Option Hole
  | none, h => some h
  | some b, h => if h.betterThan st b then some h else some b

theorem pickHole_eq_foldl (st : AllocStrategy) (n : Nat) (holes : List Hole) :
    pickHole st n holes = (holes.filter (fun h => decide (n ≤ h.size))).foldl (keepBetter st) none := by
  unfold pickHole
  congr 1
  funext best h
  cases best <;> rfl

theorem betterThan_firstFit_iff {a b : Hole} : a.betterThan .firstFit b = true ↔ a.start < b.start := decide_eq_true_iff

theorem betterThan_bestFit_iff {a b : Hole} :
    a.betterThan .bestFit b = true ↔ a.size < b.size ∨ a.size = b.size ∧ a.start < b.start := by
  simp [Hole.betterThan]

theorem betterThan_irrefl (st : AllocStrategy) (a : Hole) : ¬a.betterThan st a = true := by
  cases st with
  | firstFit => rw [betterThan_firstFit_iff]; omega
  | bestFit => rw [betterThan_bestFit_iff]; omega

theorem betterThan_asymm {st : AllocStrategy} {a b : Hole} (h : a.betterThan st b = true) : ¬b.betterThan st a = true := by
  cases st with
  | firstFit => rw [betterThan_firstFit_iff] at h ⊢; omega
  | bestFit => rw [betterThan_bestFit_iff] at h ⊢; omega

/-- Holes are compared by size and start, so that being no better is transitive. -/
theorem not_betterThan_trans {st : AllocStrategy} {a b c : Hole} (hab : ¬a.betterThan st b = true)
    (hbc : ¬b.betterThan st c = true) : ¬a.betterThan st c = true := by
  cases st with
  | firstFit => rw [betterThan_firstFit_iff] at hab hbc ⊢; omega
  | bestFit => rw [betterThan_bestFit_iff] at hab hbc ⊢; omega

/-- From a hole on, one is picked, and none of the holes seen is better. -/
theorem foldl_keepBetter (st : AllocStrategy) (l : List Hole) (b : Hole) :
    ∃ h, l.foldl (keepBetter st) (some b) = some h ∧ ∀ g ∈ b :: l, ¬g.betterThan st h = true := by
  induction l generalizing b with
  | nil => exact ⟨b, rfl, List.forall_mem_singleton.2 (betterThan_irrefl st b)⟩
  | cons x l ih =>
    rw [List.foldl_cons, keepBetter]
    by_cases hx : x.betterThan st b = true
    · obtain ⟨h, hfold, hbest⟩ := ih x
      have hxh := (List.forall_mem_cons.1 hbest).1
      exact ⟨h, by rw [if_pos hx, hfold],
        List.forall_mem_cons.2 ⟨not_betterThan_trans (betterThan_asymm hx) hxh, hbest⟩⟩
    · obtain ⟨h, hfold, hbest⟩ := ih b
      obtain ⟨hbh, hrest⟩ := List.forall_mem_cons.1 hbest
      exact ⟨h, by rw [if_neg hx, hfold],
        List.forall_mem_cons.2 ⟨hbh, List.forall_mem_cons.2 ⟨not_betterThan_trans hx hbh, hrest⟩⟩⟩

theorem pickHole_none_iff (st : AllocStrategy) (n : Nat) (holes : List Hole) :
    pickHole st n holes = none ↔ ∀ h ∈ holes, h.size < n := by
  have hfilter : (∀ h ∈ holes, h.size < n) ↔ holes.filter (fun h => decide (n ≤ h.size)) = [] := by
    simp [List.filter_eq_nil_iff]
  rw [pickHole_eq_foldl, hfilter]
  cases holes.filter (fun h => decide (n ≤ h.size)) with
  | nil => simp
  | cons b l =>
    obtain ⟨h, hfold, -⟩ := foldl_keepBetter st l b
    simp [keepBetter, hfold]

/-- No hole that is large enough is better than the one picked. -/
theorem pickHole_best {st : AllocStrategy} {n : Nat} {holes : List Hole} {h : Hole} (hpick : pickHole st n holes = some h)
    {g : Hole} (hg : g ∈ holes) (hn : n ≤ g.size) : ¬g.betterThan st h = true := by
  have hmem : g ∈ holes.filter (fun h => decide (n ≤ h.size)) := List.mem_filter.2 ⟨hg, decide_eq_true hn⟩
  rw [pickHole_eq_foldl] at hpick
  cases hl : holes.filter (fun h => decide (n ≤ h.size)) with
  | nil => rw [hl] at hmem; cases hmem
  | cons b l =>
    rw [hl] at hpick hmem
    obtain ⟨h', hfold, hbest⟩ := foldl_keepBetter st l b
    obtain rfl : h' = h := Option.some.inj (hfold.symm.trans hpick)
    exact hbest g hmem

/-- A hole cut: it is gone, and what is left of it, if anything, is a hole. -/
theorem mem_cutHole {hole g : Hole} {n : Nat} {l : List Hole} (hhole : hole ∈ l) :
    g ∈ cutHole hole n l ↔
      (g ∈ l ∧ g ≠ hole) ∨ (n < hole.size ∧ g = { start := hole.start + n, size := hole.size - n }) := by
  have hcut : g ∈ (if hole.size ≤ n then [] else [({ start := hole.start + n, size := hole.size - n } : Hole)]) ↔
      n < hole.size ∧ g = { start := hole.start + n, size := hole.size - n } := by
    split
    · exact ⟨nofun, fun h => by omega⟩
    · rw [List.mem_singleton]
      exact ⟨fun h => ⟨by omega, h⟩, fun h => h.2⟩
  rw [← hcut]
  unfold cutHole
  rw [List.mem_flatMap]
  constructor
  · rintro ⟨k, hk, hg⟩
    by_cases hkh : k = hole
    · rw [if_pos hkh, hkh] at hg
      exact .inr hg
    · rw [if_neg hkh, List.mem_singleton] at hg
      exact .inl (hg ▸ ⟨hk, hkh⟩)
  · rintro (⟨hg, hne⟩ | hg)
    · exact ⟨g, hg, by rw [if_neg hne]; exact List.mem_singleton_self g⟩
    · exact ⟨hole, hhole, by rw [if_pos rfl]; exact hg⟩

/-- Where a block is placed, and what the lists become. -/
theorem placeBlock_some {pid n hd : Nat} {s t : State} (h : placeBlock pid n s = some (hd, t)) :
    ∃ hole, pickHole s.strategy n s.contig.holes = some hole ∧ hd = s.kernel.nextSpace ∧
      t.contig.holes = cutHole hole n s.contig.holes ∧
      t.contig.allocated = insertBlock { pid := pid, start := hole.start, size := n, space := hd } s.contig.allocated := by
  unfold placeBlock at h
  split at h
  · cases h
  · next hole hpick =>
    cases h
    exact ⟨hole, hpick, rfl, rfl, rfl⟩

/-- Settles O35: the pick is the best of the holes large enough, by `foldl_keepBetter`; the block stands at its start, and the
hole is cut. -/
theorem holeChoice : Obligations.HoleChoice := by
  refine ⟨pickHole_none_iff, fun n holes h hpick => ?_, fun n holes h hpick => ?_, fun pid n s t hd hplace => ?_⟩
  · obtain ⟨hmem, hsize⟩ := pickHole_mem hpick
    refine ⟨hmem, hsize, fun g hg hn => ?_⟩
    have hbest := pickHole_best hpick hg hn
    rw [betterThan_firstFit_iff] at hbest
    omega
  · obtain ⟨hmem, hsize⟩ := pickHole_mem hpick
    refine ⟨hmem, hsize, fun g hg hn => ?_⟩
    have hbest := pickHole_best hpick hg hn
    rw [betterThan_bestFit_iff] at hbest
    omega
  · obtain ⟨hole, hpick, hhandle, hholes, hblocks⟩ := placeBlock_some hplace
    refine ⟨hole, hpick, hhandle, fun b => ?_, fun g => ?_⟩
    · rw [hblocks, (insertBlock_perm _ _).mem_iff, List.mem_cons, or_comm]
    · rw [hholes, mem_cutHole (pickHole_mem hpick).1]

/-! ### Compaction -/

/-- Sliding blocks down from an address stores nothing below it. -/
theorem slideBlocks_below (l : List Block) (a : Nat) (m : Memory) {x : Nat} (hx : x < a) :
    (slideBlocks l a m).2.2.read x = m.read x := by
  induction l generalizing a m with
  | nil => rfl
  | cons b l ih =>
    show (slideBlocks l (a + b.size) (m.copy b.start a b.size)).2.2.read x = _
    rw [ih _ _ (by omega), Memory.read_copy, if_neg (by omega)]

/-- Each block of an ordered list slides down to where those before it end, and its bytes with it: no copy reaches a block that
has yet to move, and none a block that has moved. -/
theorem slideBlocks_block {l : List Block} {a : Nat} (m : Memory) (hl : BlocksOrdered l) (ha : ∀ b ∈ l, a ≤ b.start)
    {i : Nat} {b : Block} (hb : l[i]? = some b) :
    ∃ dst, dst = a + ((l.take i).map (fun d => d.size)).sum ∧ (slideBlocks l a m).1[i]? = some { b with start := dst } ∧
      dst ≤ b.start ∧ ∀ k, k < b.size → (slideBlocks l a m).2.2.read (dst + k) = m.read (b.start + k) := by
  induction l generalizing a m i with
  | nil => cases hb
  | cons c l ih =>
    obtain ⟨hfirst, hrest⟩ := List.pairwise_cons.1 hl
    have hc := (List.forall_mem_cons.1 ha).1
    cases i with
    | zero =>
      obtain rfl : c = b := Option.some.inj hb
      refine ⟨a, rfl, rfl, hc, fun k hk => ?_⟩
      show (slideBlocks l (a + c.size) (m.copy c.start a c.size)).2.2.read (a + k) = _
      rw [slideBlocks_below _ _ _ (by omega), Memory.read_copy, if_pos (by omega), Nat.add_sub_cancel_left]
    | succ i =>
      have hafter : ∀ d ∈ l, a + c.size ≤ d.start := fun d hd => by
        have hcd := hfirst d hd
        omega
      obtain ⟨dst, hdst, hget, hle, hbytes⟩ := ih (m.copy c.start a c.size) hrest hafter hb
      refine ⟨dst, ?_, hget, hle, fun k hk => ?_⟩
      · rw [hdst, List.take_succ_cons, List.map_cons, List.sum_cons, Nat.add_assoc]
      · have hbstart := hafter b (List.mem_of_getElem? hb)
        exact (hbytes k hk).trans (by rw [Memory.read_copy, if_neg (by omega)])

/-- Settles O36: each block by `slideBlocks_block`, from address 0; where the blocks end is their sizes' sum. -/
theorem compactKeepsBytes : Obligations.CompactKeepsBytes := by
  intro s hs
  obtain ⟨-, hend, hsizes, -, -⟩ := slideBlocks_tidy s.contig.allocated 0 s.ram
  refine ⟨?_, fun i b hb => ?_, ?_⟩
  · show (slideBlocks s.contig.allocated 0 s.ram).1.length = _
    simpa using congrArg List.length hsizes
  · obtain ⟨dst, hdst, hget, hle, hbytes⟩ := slideBlocks_block s.ram hs (fun _ _ => Nat.zero_le _) hb
    rw [Nat.zero_add] at hdst
    exact ⟨_, hget, rfl, rfl, rfl, hdst, hle, hbytes⟩
  · rw [Nat.zero_add] at hend
    show (if s.params.ramSize ≤ (slideBlocks s.contig.allocated 0 s.ram).2.1 then _ else _) = _
    rw [hend]

/-! ### Stores and other spaces -/

/-- An access inside a page reaches no byte of another frame. -/
theorem physical_outside {p q : Pte} {va wa : Word} {n : Nat} (hfits : va.toNat % 4096 + n ≤ 4096) (hne : q.ppn ≠ p.ppn) :
    ¬(p.physical va ≤ q.physical wa ∧ q.physical wa < p.physical va + n) := by
  unfold Pte.physical
  omega

/-- Settles O37: the store touches its own space alone, and its bytes lie in its own page's frame. -/
theorem storeIsolated : Obligations.StoreIsolated := by
  intro f hf s t h h' rs2 rs1 imm p q va hs hne hr hw hplain hq hppn ht
  rw [store_resident hf hs hr hw hplain] at ht
  cases ht
  have hwidth := storeForm_width hf
  constructor
  · obtain ⟨a, ha, hpte, hvalid⟩ := hq
    exact ⟨a, (touch_other h h' _ .write s hne.symm).trans ha, hpte, hvalid⟩
  · rw [State.advance_ram, read_stored _ _ _ (by omega),
      if_neg (physical_outside (access_in_page hwidth hplain.1) hppn), touch_ram]

end Sys2Proof.Proofs
end

section
/-! Proofs of the statements of spec/30_encoding.md: the decoder follows the major opcodes, each with a decoder of its own; the
word it read is the encoding of what it answers, and the row it chooses depends on the fields that the row's mask keeps. -/

namespace Sys2Proof.Proofs

open Machine

/-! ### The major opcodes -/

/-- The major opcodes with an instruction (spec/30_encoding.md R211). -/
def majorOpcodes : List (BitVec 7) :=
  [0b0110111#7, 0b0010111#7, 0b1101111#7, 0b1100111#7, 0b1100011#7, 0b0000011#7, 0b0100011#7, 0b0010011#7, 0b0110011#7,
    0b0001111#7, 0b1110011#7]

theorem decode_lui {w : Word} (h : opcodeField w = 0b0110111#7) : decode w = .instr (.lui (rdField w) (immUField w)) := by
  simp [decode, h]

theorem decode_auipc {w : Word} (h : opcodeField w = 0b0010111#7) :
    decode w = .instr (.auipc (rdField w) (immUField w)) := by
  simp [decode, h]

theorem decode_jal {w : Word} (h : opcodeField w = 0b1101111#7) : decode w = .instr (.jal (rdField w) (immJField w)) := by
  simp [decode, h]

theorem decode_jalr {w : Word} (h : opcodeField w = 0b1100111#7) :
    decode w = if funct3Field w = 0#3 then .instr (.jalr (rdField w) (rs1Field w) (immIField w)) else .illegalInsn w := by
  simp [decode, h]

theorem decode_branch {w : Word} (h : opcodeField w = 0b1100011#7) : decode w = decodeBranch w := by simp [decode, h]
theorem decode_load {w : Word} (h : opcodeField w = 0b0000011#7) : decode w = decodeLoad w := by simp [decode, h]
theorem decode_store {w : Word} (h : opcodeField w = 0b0100011#7) : decode w = decodeStore w := by simp [decode, h]
theorem decode_opImm {w : Word} (h : opcodeField w = 0b0010011#7) : decode w = decodeOpImm w := by simp [decode, h]
theorem decode_op {w : Word} (h : opcodeField w = 0b0110011#7) : decode w = decodeOp w := by simp [decode, h]
theorem decode_miscMem {w : Word} (h : opcodeField w = 0b0001111#7) : decode w = decodeMiscMem w := by simp [decode, h]
theorem decode_system {w : Word} (h : opcodeField w = 0b1110011#7) : decode w = decodeSystem w := by simp [decode, h]

theorem decode_of_not_major {w : Word} (h : opcodeField w ∉ majorOpcodes) : decode w = .illegalInsn w := by
  simp only [majorOpcodes, List.mem_cons, List.not_mem_nil, or_false, not_or] at h
  simp [decode, h]

/-- ECALL and EBREAK have funct3 000. -/
theorem ne_ecall_ebreak {w : Word} (h : funct3Field w ≠ 0#3) : w ≠ 0x00000073#32 ∧ w ≠ 0x00100073#32 :=
  ⟨fun e => h (by rw [e]; rfl), fun e => h (by rw [e]; rfl)⟩

/-! ### Decoding what was encoded -/

theorem decode_encode {i : Instr} (h : i.wf = true) : decode (encode i) = .instr i := by
  cases i with
  | lui => simp [encode, decode_lui]
  | auipc => simp [encode, decode_auipc]
  | jal => simp [encode, decode_jal, immJField_encJ _ _ _ h]
  | jalr => simp [encode, decode_jalr]
  | beq | bne | blt | bge | bltu | bgeu => simp [encode, decode_branch, decodeBranch, immBField_encB _ _ _ _ _ h]
  | lb | lh | lw | lbu | lhu => simp [encode, decode_load, decodeLoad]
  | sb | sh | sw => simp [encode, decode_store, decodeStore]
  | addi | slti | sltiu | xori | ori | andi | slli | srli | srai => simp [encode, decode_opImm, decodeOpImm]
  | add | sub | sll | slt | sltu | xor | srl | sra | or | and => simp [encode, decode_op, decodeOp, decodeOpBase]
  | mul | mulh | mulhsu | mulhu | div | divu | rem | remu => simp [encode, decode_op, decodeOp, decodeOpMulDiv]
  | fence => simp [encode, decode_miscMem, decodeMiscMem, fence_fields]
  | ecall | ebreak => decide
  | csrrw | csrrs | csrrc | csrrwi | csrrsi | csrrci => simp [encode, decode_system, decodeSystem, ne_ecall_ebreak]

/-! ### Encoding what was decoded -/

theorem encR_eq {w : Word} {f7 : BitVec 7} {f3 : BitVec 3} {op : BitVec 7} (hop : opcodeField w = op)
    (hf3 : funct3Field w = f3) (hf7 : funct7Field w = f7) : encR f7 (rs2Field w) (rs1Field w) f3 (rdField w) op = w := by
  rw [← hop, ← hf3, ← hf7, encR_fields]

theorem encI_eq {w : Word} {f3 : BitVec 3} {op : BitVec 7} (hop : opcodeField w = op) (hf3 : funct3Field w = f3) :
    encI (immIField w) (rs1Field w) f3 (rdField w) op = w := by
  rw [← hop, ← hf3, encI_fields]

theorem encS_eq {w : Word} {f3 : BitVec 3} {op : BitVec 7} (hop : opcodeField w = op) (hf3 : funct3Field w = f3) :
    encS (immSField w) (rs2Field w) (rs1Field w) f3 op = w := by
  rw [← hop, ← hf3, encS_fields]

theorem encB_eq {w : Word} {f3 : BitVec 3} {op : BitVec 7} (hop : opcodeField w = op) (hf3 : funct3Field w = f3) :
    encB (immBField w) (rs2Field w) (rs1Field w) f3 op = w := by
  rw [← hop, ← hf3, encB_fields]

/-- A decoder's answer belongs to the word it read: an instruction is well-formed and encoded by the word, and an exception
bears the word. -/
def BelongsTo (w : Word) : Decoded → Prop
  | .instr i => i.wf = true ∧ encode i = w
  | .illegalInsn v => v = w

theorem belongsTo_ite {w : Word} {c : Prop} [Decidable c] {a b : Decoded} (ha : c → BelongsTo w a) (hb : BelongsTo w b) :
    BelongsTo w (if c then a else b) := by
  split
  · exact ha ‹c›
  · exact hb

theorem decodeLoad_belongs {w : Word} (hop : opcodeField w = 0b0000011#7) : BelongsTo w (decodeLoad w) := by
  simp only [decodeLoad]
  repeat' refine belongsTo_ite (fun h => ?_) ?_
  iterate 5 exact ⟨rfl, encI_eq hop h⟩
  rfl

theorem decodeStore_belongs {w : Word} (hop : opcodeField w = 0b0100011#7) : BelongsTo w (decodeStore w) := by
  simp only [decodeStore]
  repeat' refine belongsTo_ite (fun h => ?_) ?_
  iterate 3 exact ⟨rfl, encS_eq hop h⟩
  rfl

theorem decodeBranch_belongs {w : Word} (hop : opcodeField w = 0b1100011#7) : BelongsTo w (decodeBranch w) := by
  simp only [decodeBranch]
  repeat' refine belongsTo_ite (fun h => ?_) ?_
  iterate 6 exact ⟨evenOffset_immBField w, encB_eq hop h⟩
  rfl

theorem decodeOpImm_belongs {w : Word} (hop : opcodeField w = 0b0010011#7) : BelongsTo w (decodeOpImm w) := by
  simp only [decodeOpImm]
  repeat' refine belongsTo_ite (fun h => ?_) ?_
  iterate 6 exact ⟨rfl, encI_eq hop h⟩
  iterate 3 exact ⟨rfl, encR_eq hop h.1 h.2⟩
  rfl

/-- The last of the eight values of funct3. -/
theorem funct3_eq_seven {x : BitVec 3} (h0 : x ≠ 0#3) (h1 : x ≠ 1#3) (h2 : x ≠ 2#3) (h3 : x ≠ 3#3) (h4 : x ≠ 4#3)
    (h5 : x ≠ 5#3) (h6 : x ≠ 6#3) : x = 7#3 := by
  bv_omega

theorem decodeOpBase_belongs {w : Word} (hop : opcodeField w = 0b0110011#7) (hf7 : funct7Field w = 0b0000000#7) :
    BelongsTo w (decodeOpBase w) := by
  simp only [decodeOpBase]
  split_ifs with h0 h1 h2 h3 h4 h5 h6
  exacts [⟨rfl, encR_eq hop h0 hf7⟩, ⟨rfl, encR_eq hop h1 hf7⟩, ⟨rfl, encR_eq hop h2 hf7⟩, ⟨rfl, encR_eq hop h3 hf7⟩,
    ⟨rfl, encR_eq hop h4 hf7⟩, ⟨rfl, encR_eq hop h5 hf7⟩, ⟨rfl, encR_eq hop h6 hf7⟩,
    ⟨rfl, encR_eq hop (funct3_eq_seven h0 h1 h2 h3 h4 h5 h6) hf7⟩]

theorem decodeOpMulDiv_belongs {w : Word} (hop : opcodeField w = 0b0110011#7) (hf7 : funct7Field w = 0b0000001#7) :
    BelongsTo w (decodeOpMulDiv w) := by
  simp only [decodeOpMulDiv]
  split_ifs with h0 h1 h2 h3 h4 h5 h6
  exacts [⟨rfl, encR_eq hop h0 hf7⟩, ⟨rfl, encR_eq hop h1 hf7⟩, ⟨rfl, encR_eq hop h2 hf7⟩, ⟨rfl, encR_eq hop h3 hf7⟩,
    ⟨rfl, encR_eq hop h4 hf7⟩, ⟨rfl, encR_eq hop h5 hf7⟩, ⟨rfl, encR_eq hop h6 hf7⟩,
    ⟨rfl, encR_eq hop (funct3_eq_seven h0 h1 h2 h3 h4 h5 h6) hf7⟩]

theorem decodeOp_belongs {w : Word} (hop : opcodeField w = 0b0110011#7) : BelongsTo w (decodeOp w) := by
  simp only [decodeOp]
  split_ifs with hbase hmul hsub hsra
  · exact decodeOpBase_belongs hop hbase
  · exact decodeOpMulDiv_belongs hop hmul
  · exact ⟨rfl, encR_eq hop hsub.2 hsub.1⟩
  · exact ⟨rfl, encR_eq hop hsra.2 hsra.1⟩
  · rfl

theorem decodeMiscMem_belongs {w : Word} (hop : opcodeField w = 0b0001111#7) : BelongsTo w (decodeMiscMem w) := by
  simp only [decodeMiscMem]
  split_ifs with hf3
  · refine ⟨rfl, ?_⟩
    rw [encode, fence_imm, encI_eq hop hf3]
  · rfl

theorem decodeSystem_belongs {w : Word} (hop : opcodeField w = 0b1110011#7) : BelongsTo w (decodeSystem w) := by
  simp only [decodeSystem]
  repeat' refine belongsTo_ite (fun h => ?_) ?_
  iterate 2 exact ⟨rfl, h.symm⟩
  iterate 6 exact ⟨rfl, encI_eq hop h⟩
  rfl

/-- By the major opcode. -/
theorem decode_belongs (w : Word) : BelongsTo w (decode w) := by
  by_cases hmajor : opcodeField w ∈ majorOpcodes
  · simp only [majorOpcodes, List.mem_cons, List.not_mem_nil, or_false] at hmajor
    rcases hmajor with h | h | h | h | h | h | h | h | h | h | h
    · rw [decode_lui h]
      exact ⟨rfl, by rw [encode, ← h, encU_fields]⟩
    · rw [decode_auipc h]
      exact ⟨rfl, by rw [encode, ← h, encU_fields]⟩
    · rw [decode_jal h]
      exact ⟨evenOffset_immJField w, by rw [encode, ← h, encJ_fields]⟩
    · rw [decode_jalr h]
      split_ifs with hf3
      · exact ⟨rfl, encI_eq h hf3⟩
      · rfl
    · rw [decode_branch h]
      exact decodeBranch_belongs h
    · rw [decode_load h]
      exact decodeLoad_belongs h
    · rw [decode_store h]
      exact decodeStore_belongs h
    · rw [decode_opImm h]
      exact decodeOpImm_belongs h
    · rw [decode_op h]
      exact decodeOp_belongs h
    · rw [decode_miscMem h]
      exact decodeMiscMem_belongs h
    · rw [decode_system h]
      exact decodeSystem_belongs h
  · rw [decode_of_not_major hmajor]
    rfl

theorem decode_instr {w : Word} {i : Instr} (h : decode w = .instr i) : i.wf = true ∧ encode i = w := by
  have hw := decode_belongs w
  rwa [h] at hw

theorem decode_illegal {w v : Word} (h : decode w = .illegalInsn v) : v = w := by
  have hw := decode_belongs w
  rwa [h] at hw

/-- Settles O2: `decode_encode` is the one direction; the decoder's answer belonging to its word is the other. -/
theorem roundTrip : Obligations.RoundTrip := ⟨fun _ => decode_encode, fun _ _ => decode_instr⟩

/-! ### The rows of the opcode table -/

theorem encoding_row : ∀ i : Instr, Laws.Encoding.Statement i
  | .lui .. => Laws.Encoding.lui .. | .auipc .. => Laws.Encoding.auipc .. | .jal .. => Laws.Encoding.jal ..
  | .jalr .. => Laws.Encoding.jalr .. | .beq .. => Laws.Encoding.beq .. | .bne .. => Laws.Encoding.bne ..
  | .blt .. => Laws.Encoding.blt .. | .bge .. => Laws.Encoding.bge .. | .bltu .. => Laws.Encoding.bltu ..
  | .bgeu .. => Laws.Encoding.bgeu .. | .lb .. => Laws.Encoding.lb .. | .lh .. => Laws.Encoding.lh ..
  | .lw .. => Laws.Encoding.lw .. | .lbu .. => Laws.Encoding.lbu .. | .lhu .. => Laws.Encoding.lhu ..
  | .sb .. => Laws.Encoding.sb .. | .sh .. => Laws.Encoding.sh .. | .sw .. => Laws.Encoding.sw ..
  | .addi .. => Laws.Encoding.addi .. | .slti .. => Laws.Encoding.slti .. | .sltiu .. => Laws.Encoding.sltiu ..
  | .xori .. => Laws.Encoding.xori .. | .ori .. => Laws.Encoding.ori .. | .andi .. => Laws.Encoding.andi ..
  | .slli .. => Laws.Encoding.slli .. | .srli .. => Laws.Encoding.srli .. | .srai .. => Laws.Encoding.srai ..
  | .add .. => Laws.Encoding.add .. | .sub .. => Laws.Encoding.sub .. | .sll .. => Laws.Encoding.sll ..
  | .slt .. => Laws.Encoding.slt .. | .sltu .. => Laws.Encoding.sltu .. | .xor .. => Laws.Encoding.xor ..
  | .srl .. => Laws.Encoding.srl .. | .sra .. => Laws.Encoding.sra .. | .or .. => Laws.Encoding.or ..
  | .and .. => Laws.Encoding.and .. | .mul .. => Laws.Encoding.mul .. | .mulh .. => Laws.Encoding.mulh ..
  | .mulhsu .. => Laws.Encoding.mulhsu .. | .mulhu .. => Laws.Encoding.mulhu .. | .div .. => Laws.Encoding.div ..
  | .divu .. => Laws.Encoding.divu .. | .rem .. => Laws.Encoding.rem .. | .remu .. => Laws.Encoding.remu ..
  | .fence .. => Laws.Encoding.fence .. | .ecall => Laws.Encoding.ecall | .ebreak => Laws.Encoding.ebreak
  | .csrrw .. => Laws.Encoding.csrrw .. | .csrrs .. => Laws.Encoding.csrrs .. | .csrrc .. => Laws.Encoding.csrrc ..
  | .csrrwi .. => Laws.Encoding.csrrwi .. | .csrrsi .. => Laws.Encoding.csrrsi .. | .csrrci .. => Laws.Encoding.csrrci ..

theorem decode_row {w : Word} {i : Instr} (h : decode w = .instr i) :
    ∃ r ∈ opcodeRows, r.mnemonic = i.mnemonic ∧ w &&& r.mask = r.pattern := by
  obtain ⟨-, hw⟩ := decode_instr h
  rw [← hw]
  exact encoding_row i

/-- The mnemonic of what a decoder answers, if it is an instruction. -/
def mnemonicOf : Decoded → Option String
  | .instr i => some i.mnemonic
  | .illegalInsn _ => none

@[simp] theorem mnemonicOf_instr (i : Instr) : mnemonicOf (.instr i) = some i.mnemonic := rfl
@[simp] theorem mnemonicOf_illegal (w : Word) : mnemonicOf (.illegalInsn w) = none := rfl
@[simp] theorem mnemonicOf_ite (c : Prop) [Decidable c] (a b : Decoded) :
    mnemonicOf (if c then a else b) = if c then mnemonicOf a else mnemonicOf b := apply_ite ..

theorem instr_of_mnemonicOf {d : Decoded} {m : String} (h : mnemonicOf d = some m) : ∃ i, d = .instr i ∧ i.mnemonic = m := by
  cases d with
  | instr i => exact ⟨i, rfl, Option.some.inj h⟩
  | illegalInsn v => cases h

theorem mnemonicOf_decodeLoad_congr {v w : Word} (hf3 : funct3Field w = funct3Field v) :
    mnemonicOf (decodeLoad w) = mnemonicOf (decodeLoad v) := by
  simp [decodeLoad, hf3, Instr.mnemonic]

theorem mnemonicOf_decodeStore_congr {v w : Word} (hf3 : funct3Field w = funct3Field v) :
    mnemonicOf (decodeStore w) = mnemonicOf (decodeStore v) := by
  simp [decodeStore, hf3, Instr.mnemonic]

theorem mnemonicOf_decodeBranch_congr {v w : Word} (hf3 : funct3Field w = funct3Field v) :
    mnemonicOf (decodeBranch w) = mnemonicOf (decodeBranch v) := by
  simp [decodeBranch, hf3, Instr.mnemonic]

/-- funct7 selects among the shifts only. -/
theorem mnemonicOf_decodeOpImm_congr {v w : Word} (hf3 : funct3Field w = funct3Field v)
    (hf7 : funct3Field v = 1#3 ∨ funct3Field v = 5#3 → funct7Field w = funct7Field v) :
    mnemonicOf (decodeOpImm w) = mnemonicOf (decodeOpImm v) := by
  by_cases hshift : funct3Field v = 1#3 ∨ funct3Field v = 5#3
  · simp [decodeOpImm, hf3, hf7 hshift, Instr.mnemonic]
  · obtain ⟨h1, h5⟩ := not_or.1 hshift
    simp [decodeOpImm, hf3, h1, h5, Instr.mnemonic]

theorem mnemonicOf_decodeOp_congr {v w : Word} (hf3 : funct3Field w = funct3Field v) (hf7 : funct7Field w = funct7Field v) :
    mnemonicOf (decodeOp w) = mnemonicOf (decodeOp v) := by
  simp [decodeOp, decodeOpBase, decodeOpMulDiv, hf3, hf7, Instr.mnemonic]

theorem mnemonicOf_decodeMiscMem_congr {v w : Word} (hf3 : funct3Field w = funct3Field v) :
    mnemonicOf (decodeMiscMem w) = mnemonicOf (decodeMiscMem v) := by
  simp [decodeMiscMem, hf3, Instr.mnemonic]

theorem mnemonicOf_decodeSystem_congr {v w : Word} (hf3 : funct3Field w = funct3Field v) (hcsr : funct3Field v ≠ 0#3) :
    mnemonicOf (decodeSystem w) = mnemonicOf (decodeSystem v) := by
  obtain ⟨hw, hw'⟩ := ne_ecall_ebreak (hf3 ▸ hcsr)
  obtain ⟨hv, hv'⟩ := ne_ecall_ebreak hcsr
  simp [decodeSystem, hf3, hw, hw', hv, hv', Instr.mnemonic]

/-- Words whose mnemonic funct3 has a part in selecting: all but the U and J formats. -/
def usesFunct3 (w : Word) : Bool := opcodeField w ∉ [0b0110111#7, 0b0010111#7, 0b1101111#7]

/-- Words whose mnemonic funct7 has a part in selecting: OP, and the shifts of OP-IMM. -/
def usesFunct7 (w : Word) : Bool :=
  opcodeField w = 0b0110011#7 ∨ opcodeField w = 0b0010011#7 ∧ (funct3Field w = 1#3 ∨ funct3Field w = 5#3)

/-- Words whose mnemonic the whole word selects: SYSTEM with funct3 000. -/
def usesAll (w : Word) : Bool := opcodeField w = 0b1110011#7 ∧ funct3Field w = 0#3

/-- Two words that agree on the fields that select a mnemonic have the same. -/
theorem mnemonicOf_decode_congr {v w : Word} (hop : opcodeField w = opcodeField v)
    (hf3 : usesFunct3 v = true → funct3Field w = funct3Field v)
    (hf7 : usesFunct7 v = true → funct7Field w = funct7Field v) (hall : usesAll v = false) :
    mnemonicOf (decode w) = mnemonicOf (decode v) := by
  by_cases hmajor : opcodeField v ∈ majorOpcodes
  · simp only [majorOpcodes, List.mem_cons, List.not_mem_nil, or_false] at hmajor
    rcases hmajor with h | h | h | h | h | h | h | h | h | h | h <;> have hw := hop.trans h
    · rw [decode_lui h, decode_lui hw]; rfl
    · rw [decode_auipc h, decode_auipc hw]; rfl
    · rw [decode_jal h, decode_jal hw]; rfl
    all_goals have hf3 := hf3 (by simp [usesFunct3, h])
    · rw [decode_jalr h, decode_jalr hw, hf3]; split_ifs <;> rfl
    · rw [decode_branch h, decode_branch hw, mnemonicOf_decodeBranch_congr hf3]
    · rw [decode_load h, decode_load hw, mnemonicOf_decodeLoad_congr hf3]
    · rw [decode_store h, decode_store hw, mnemonicOf_decodeStore_congr hf3]
    · rw [decode_opImm h, decode_opImm hw, mnemonicOf_decodeOpImm_congr hf3 (by simpa [usesFunct7, h] using hf7)]
    · rw [decode_op h, decode_op hw, mnemonicOf_decodeOp_congr hf3 (hf7 (by simp [usesFunct7, h]))]
    · rw [decode_miscMem h, decode_miscMem hw, mnemonicOf_decodeMiscMem_congr hf3]
    · rw [decode_system h, decode_system hw, mnemonicOf_decodeSystem_congr hf3 (by simpa [usesAll, h] using hall)]
  · rw [decode_of_not_major hmajor, decode_of_not_major (hop ▸ hmajor)]; rfl

/-- Each row's mask keeps the fields that select the row's mnemonic, and its pattern is one of its words. -/
theorem row_mask_keeps_selectors : ∀ r ∈ opcodeRows, mnemonicOf (decode r.pattern) = some r.mnemonic ∧
    (r.mask = 0xFFFFFFFF#32 ∨ usesAll r.pattern = false ∧
      (r.mask = 0xFE00707F#32 ∨ usesFunct7 r.pattern = false ∧
        (r.mask = 0x0000707F#32 ∨ usesFunct3 r.pattern = false ∧ r.mask = 0x0000007F#32))) := by
  decide

theorem mnemonicOf_decode_of_row {w : Word} {r : OpcodeRow} (hr : r ∈ opcodeRows) (hw : w &&& r.mask = r.pattern) :
    mnemonicOf (decode w) = some r.mnemonic := by
  obtain ⟨hpattern, hmask⟩ := row_mask_keeps_selectors r hr
  rw [← hpattern]
  rcases hmask with hm | ⟨hall, hm | ⟨hf7, hm | ⟨hf3, hm⟩⟩⟩
  · have hall : w &&& 0xFFFFFFFF#32 = w := BitVec.and_allOnes
    rw [← hw, hm, hall]
  · rw [hm] at hw
    exact mnemonicOf_decode_congr (by rw [← hw, opcodeField_and_FE00707F]) (fun _ => by rw [← hw, funct3Field_and_FE00707F])
      (fun _ => by rw [← hw, funct7Field_and_FE00707F]) hall
  · rw [hm] at hw
    exact mnemonicOf_decode_congr (by rw [← hw, opcodeField_and_707F]) (fun _ => by rw [← hw, funct3Field_and_707F])
      (fun h => by simp [hf7] at h) hall
  · rw [hm] at hw
    exact mnemonicOf_decode_congr (by rw [← hw, opcodeField_and_7F]) (fun h => by simp [hf3] at h)
      (fun h => by simp [hf7] at h) hall

/-- Rows that differ differ in a bit that both their masks keep. -/
theorem rows_disjoint : ∀ r ∈ opcodeRows, ∀ q ∈ opcodeRows, r.pattern &&& q.mask = q.pattern &&& r.mask → r = q := by
  decide

/-! ### Words that are no instruction -/

/-- A step that fetches a word the decoder refuses raises ILLEGAL_INSN with the word. -/
theorem illegal_of_decode {w : Word} (h : decode w = .illegalInsn w) : IllegalWord w := by
  refine ⟨h, fun s u hfetch => ?_⟩
  unfold instructionStep
  simp only [State.clearFlags_pc, hfetch, h]

theorem illegal_of_no_row {w : Word} (hrows : ∀ r ∈ opcodeRows, w &&& r.mask ≠ r.pattern) : IllegalWord w := by
  cases h : decode w with
  | instr i =>
    obtain ⟨r, hr, -, hw⟩ := decode_row h
    exact absurd hw (hrows r hr)
  | illegalInsn v => exact illegal_of_decode (decode_illegal h ▸ h)

/-- Settles O3: a decoded word is its instruction's encoding, so it matches that row; a word of a row decodes as the row's
pattern does; and no word matches two rows, which differ in a bit both masks keep. -/
theorem decodeExact : Obligations.DecodeExact := by
  refine ⟨fun _ _ => decode_row, fun w r hr hw => instr_of_mnemonicOf (mnemonicOf_decode_of_row hr hw),
    fun _ => illegal_of_no_row, fun r hr q hq hne w ⟨hwr, hwq⟩ => hne (rows_disjoint r hr q hq ?_),
    illegal_of_decode (by decide), illegal_of_decode (by decide)⟩
  rw [← hwr, ← hwq]
  ac_rfl

/-! ### Reserved, foreign and privileged encodings -/

theorem decodeLoad_reserved {w : Word} (h : funct3Field w ∈ [0b011#3, 0b110#3, 0b111#3]) :
    decodeLoad w = .illegalInsn w := by
  simp only [List.mem_cons, List.not_mem_nil, or_false] at h
  rcases h with h | h | h <;> simp [decodeLoad, h]

theorem decodeStore_reserved {w : Word} (h : funct3Field w ∈ [0b011#3, 0b100#3, 0b101#3, 0b110#3, 0b111#3]) :
    decodeStore w = .illegalInsn w := by
  simp only [List.mem_cons, List.not_mem_nil, or_false] at h
  rcases h with h | h | h | h | h <;> simp [decodeStore, h]

theorem decodeBranch_reserved {w : Word} (h : funct3Field w ∈ [0b010#3, 0b011#3]) : decodeBranch w = .illegalInsn w := by
  simp only [List.mem_cons, List.not_mem_nil, or_false] at h
  rcases h with h | h <;> simp [decodeBranch, h]

theorem decodeOpImm_reserved_left {w : Word} (hf3 : funct3Field w = 0b001#3) (hf7 : funct7Field w ≠ 0b0000000#7) :
    decodeOpImm w = .illegalInsn w := by
  simp [decodeOpImm, hf3, hf7]

theorem decodeOpImm_reserved_right {w : Word} (hf3 : funct3Field w = 0b101#3)
    (hf7 : funct7Field w ∉ [0b0000000#7, 0b0100000#7]) : decodeOpImm w = .illegalInsn w := by
  simp only [List.mem_cons, List.not_mem_nil, or_false, not_or] at hf7
  simp [decodeOpImm, hf3, hf7]

theorem decodeOp_reserved_funct7 {w : Word} (hf7 : funct7Field w ∉ [0b0000000#7, 0b0100000#7, 0b0000001#7]) :
    decodeOp w = .illegalInsn w := by
  simp only [List.mem_cons, List.not_mem_nil, or_false, not_or] at hf7
  simp [decodeOp, hf7]

theorem decodeOp_reserved_funct3 {w : Word} (hf7 : funct7Field w = 0b0100000#7) (hf3 : funct3Field w ∉ [0b000#3, 0b101#3]) :
    decodeOp w = .illegalInsn w := by
  simp only [List.mem_cons, List.not_mem_nil, or_false, not_or] at hf3
  simp [decodeOp, hf7, hf3]

theorem decodeMiscMem_reserved {w : Word} (h : funct3Field w ≠ 0#3) : decodeMiscMem w = .illegalInsn w := by
  simp [decodeMiscMem, h]

/-- SYSTEM with funct3 000 holds ECALL and EBREAK only (spec/44_system.md R411). -/
theorem decodeSystem_privileged {w : Word} (hf3 : funct3Field w = 0#3) (hecall : w ≠ 0x00000073#32)
    (hebreak : w ≠ 0x00100073#32) : decodeSystem w = .illegalInsn w := by
  simp [decodeSystem, hf3, hecall, hebreak]

theorem decodeSystem_reserved {w : Word} (hf3 : funct3Field w = 0b100#3) : decodeSystem w = .illegalInsn w := by
  obtain ⟨hecall, hebreak⟩ := ne_ecall_ebreak (w := w) (by simp [hf3])
  simp [decodeSystem, hf3, hecall, hebreak]

theorem illegal_of_opcode {w : Word} {l : List (BitVec 7)} (hl : ∀ op ∈ l, op ∉ majorOpcodes) (h : opcodeField w ∈ l) :
    IllegalWord w :=
  illegal_of_decode (decode_of_not_major (hl _ h))

/-- A major opcode's low bits are 11: a word that ends otherwise is 16 bits long (spec/30_encoding.md R200). -/
theorem illegal_of_lowBits {w : Word} (h : w.extractLsb' 0 2 ≠ 0b11#2) : IllegalWord w := by
  have hlow : (opcodeField w).extractLsb' 0 2 = w.extractLsb' 0 2 := by
    unfold opcodeField
    ext i hi
    simp
  have hmajor : ∀ op ∈ majorOpcodes, op.extractLsb' 0 2 = 0b11#2 := by decide
  exact illegal_of_decode (decode_of_not_major fun hop => h (hlow ▸ hmajor _ hop))

/-- Settles O4: each reserved minor encoding in its decoder; the rest is no major opcode, or is one of the above. -/
theorem illegalEncodings : Obligations.IllegalEncodings := by
  refine ⟨fun w => ⟨fun hop hf3 => ?_, fun hop hf3 => ?_, fun hop hf3 => ?_, fun hop hf3 => ?_, fun hop hf3 hf7 => ?_,
      fun hop hf3 hf7 => ?_, fun hop hf7 => ?_, fun hop hf7 hf3 => ?_, fun hop hf3 hecall hebreak => ?_⟩,
    fun w => ⟨fun hop hf3 => ?_, fun hop hf3 => ?_, fun hop => illegal_of_opcode (by decide) (List.mem_singleton.2 hop),
      illegal_of_opcode (by decide), illegal_of_lowBits, illegal_of_opcode (by decide)⟩,
    illegal_of_decode (by decide), illegal_of_decode (by decide), illegal_of_decode (by decide),
    illegal_of_decode (by decide)⟩
  all_goals apply illegal_of_decode
  · rw [decode_load hop, decodeLoad_reserved hf3]
  · rw [decode_store hop, decodeStore_reserved hf3]
  · rw [decode_branch hop, decodeBranch_reserved hf3]
  · rw [decode_jalr hop, if_neg hf3]
  · rw [decode_opImm hop, decodeOpImm_reserved_left hf3 hf7]
  · rw [decode_opImm hop, decodeOpImm_reserved_right hf3 hf7]
  · rw [decode_op hop, decodeOp_reserved_funct7 hf7]
  · rw [decode_op hop, decodeOp_reserved_funct3 hf7 hf3]
  · rw [decode_system hop, decodeSystem_privileged hf3 hecall hebreak]
  · rw [decode_miscMem hop, decodeMiscMem_reserved (by rw [hf3]; decide)]
  · rw [decode_system hop, decodeSystem_reserved hf3]

/-! ### Hints -/

theorem writeNext_zero (v : Word) (s : State) : writeNext 0#5 v s = .next s.advance := rfl

/-- Settles O5: with rd = x0 the end of a computational instruction is the pc's advance alone, as FENCE's is. -/
theorem hintsRun : Obligations.HintsRun := by
  intro s rs1 rs2 rd imm imm20 sh fm pred succ i hi
  refine ⟨s.advance, ?_, rfl⟩
  fin_cases hi
  iterate 29 exact writeNext_zero _ s
  rfl

/-! ### Given words -/

/-- Settles O1, word by word. -/
theorem givenWordsDecode : Obligations.GivenWordsDecode := by
  unfold Obligations.GivenWordsDecode
  decide

end Sys2Proof.Proofs
end

section
/-! Proofs of the statements of spec/40_integer.md: each instruction is the end `writeNext` of its result, and the decoder
selects it by funct3 and funct7. The results are read as the statements write them by one lemma for each operand and
comparison of the model. -/

namespace Sys2Proof.Proofs

open Machine

/-! ### Operands and comparisons -/

/-- The U immediate is its 20 bits above 12 zero bits (spec/30_encoding.md R206). -/
theorem immU_eq_append (imm : BitVec 20) : immU imm = imm ++ 0#12 := by
  refine BitVec.eq_of_getLsbD_eq fun i hi => ?_
  rw [immU, getLsbD_place, BitVec.getLsbD_append]
  by_cases hlow : i < 12
  · simp [hlow]
  · simp [hi, hlow, Nat.not_lt.1 hlow]

/-- A shift by a register counts its low five bits (spec/40_integer.md R314). -/
theorem regShamt_eq_mod (v : Word) : regShamt v = v.toNat % 32 := by
  simp [regShamt, BitVec.extractLsb'_toNat]

/-- Sign extension keeps the signed value, so SLTI compares with the immediate itself (spec/40_integer.md R304). -/
theorem toInt_immI (imm : BitVec 12) : (immI imm).toInt = imm.toInt :=
  BitVec.toInt_signExtend_of_le (by decide)

theorem boolWord_lessSigned (a b : Word) : boolWord (lessSigned a b) = if a.toInt < b.toInt then 1#32 else 0#32 := by
  simp [boolWord, lessSigned]

theorem boolWord_lessUnsigned (a b : Word) : boolWord (lessUnsigned a b) = if a.toNat < b.toNat then 1#32 else 0#32 := by
  simp [boolWord, lessUnsigned]

/-! ### Instructions that write one register -/

/-- An instruction that ends as `writeNext` writes its result, however the result is written. -/
theorem exec_writes {i : Instr} {s : State} {rd : RegIdx} {v v' : Word} (h : exec i s = writeNext rd v s) (hv : v = v') :
    ∃ t, exec i s = .next t ∧ Writes s t rd v' (s.pc + 4#32) := by
  rw [h, ← hv]
  exact writeNext_writes rd v s

/-- Settles O16: the decoder selects by the major opcode, funct3 and, for the shifts, funct7; the results are the statement's
by `immU_eq_append`, `toInt_immI` and the comparisons. -/
theorem regImm : Obligations.RegImm := by
  refine ⟨⟨fun _ => decode_lui, fun _ => decode_auipc, fun s rd imm => ⟨?lui, ?auipc⟩⟩,
    ⟨fun w hop => ?computations, fun s rd rs1 imm => ⟨?addi, ?slti, ?sltiu, ?xori, ?ori, ?andi⟩⟩,
    ⟨fun w hop => ?shifts, fun s rd rs1 sh => ⟨?slli, ?srli, ?srai⟩⟩⟩
  case lui => exact exec_writes rfl (immU_eq_append imm)
  case auipc => exact exec_writes rfl (congrArg (s.pc + ·) (immU_eq_append imm))
  case computations =>
    rw [decode_opImm hop]
    refine ⟨fun hf3 => ?_, fun hf3 => ?_, fun hf3 => ?_, fun hf3 => ?_, fun hf3 => ?_, fun hf3 => ?_⟩ <;>
      simp [decodeOpImm, hf3, immIField]
  case slti => exact exec_writes rfl (by rw [boolWord_lessSigned, toInt_immI])
  case sltiu => exact exec_writes rfl (boolWord_lessUnsigned ..)
  case addi | xori | ori | andi | slli | srli | srai => exact exec_writes rfl rfl
  case shifts =>
    have hdecode := decode_opImm hop
    refine ⟨fun hf3 hf7 => ?_, fun hf3 hf7 => ?_, fun hf3 hf7 => ?_,
      fun hf3 hf7 => illegal_of_decode (hdecode.trans (decodeOpImm_reserved_left hf3 hf7)),
      fun hf3 hzero hsra => illegal_of_decode (hdecode.trans (decodeOpImm_reserved_right hf3 (by simp [hzero, hsra])))⟩ <;>
      simp [hdecode, decodeOpImm, hf3, hf7, rs2Field]

/-- Settles O17: the decoder selects by the major opcode, funct7 and funct3; the results are the statement's by the comparisons
and `regShamt_eq_mod`. -/
theorem regReg : Obligations.RegReg := by
  refine ⟨⟨fun w hop => ⟨fun hf7 => ?base, fun hf7 hf3 => ?sub_word⟩,
      fun s rd rs1 rs2 => ⟨?add, ?sub, ?slt, ?sltu, ?xor, ?or, ?and⟩⟩,
    ⟨fun w hop => ?shifts, fun s rd rs1 rs2 => ⟨?sll, ?srl, ?sra⟩⟩⟩
  case base =>
    rw [decode_op hop]
    refine ⟨fun hf3 => ?_, fun hf3 => ?_, fun hf3 => ?_, fun hf3 => ?_, fun hf3 => ?_, fun hf3 => ?_⟩ <;>
      simp [decodeOp, decodeOpBase, hf7, hf3]
  case sub_word => simp [decode_op hop, decodeOp, hf7, hf3]
  case slt => exact exec_writes rfl (boolWord_lessSigned ..)
  case sltu => exact exec_writes rfl (boolWord_lessUnsigned ..)
  case add | sub | xor | or | and => exact exec_writes rfl rfl
  case shifts =>
    rw [decode_op hop]
    refine ⟨fun hf3 hf7 => ?_, fun hf3 hf7 => ?_, fun hf3 hf7 => ?_⟩ <;> simp [decodeOp, decodeOpBase, hf7, hf3]
  case sll | srl | sra => exact exec_writes rfl (by rw [regShamt_eq_mod])

end Sys2Proof.Proofs
end

section
/-! Proofs of the statements of spec/41_control.md: a jump ends as `jumpNext` of its target and a branch as `branchNext` of its
condition, neither of which looks at the target; the fetch at a misaligned pc is what fails. The decoder's offsets are the
statements' by `immJField_eq_append` and `immBField_eq_append`. -/

namespace Sys2Proof.Proofs

open Machine

/-! ### Offsets -/

/-- Fields appended and then placed are placed one above the other. -/
theorem place_append {m q : Nat} (n k : Nat) (x : BitVec m) (y : BitVec q) :
    place n k (x ++ y) = place n (q + k) x ||| place n k y := by
  refine BitVec.eq_of_getLsbD_eq fun i hi => ?_
  simp only [BitVec.getLsbD_or, getLsbD_place, BitVec.getLsbD_append]
  by_cases hx : q + k ≤ i
  · have hk : k ≤ i := by omega
    have hy : q ≤ i - k := by omega
    have hsub : i - k - q = i - (q + k) := by omega
    simp [hi, hx, hk, hsub, Nat.not_lt.2 hy, BitVec.getLsbD_of_ge y _ hy]
  · by_cases hk : k ≤ i
    · have hy : i - k < q := by omega
      simp [hx, hy]
    · simp [hx, hk]

theorem place_self {n : Nat} (x : BitVec n) : place n 0 x = x := by simp [place]

theorem place_zero {m : Nat} (n k : Nat) : place n k 0#m = 0#n := by simp [place]

/-- The J offset is its fields in order above a zero bit (spec/30_encoding.md R207). -/
theorem immJField_eq_append (w : Word) : immJField w =
    w.extractLsb' 31 1 ++ w.extractLsb' 12 8 ++ w.extractLsb' 20 1 ++ w.extractLsb' 21 10 ++ 0#1 := by
  rw [← place_self (_ ++ 0#1)]
  simp only [place_append, place_zero, BitVec.or_zero]
  rfl

/-- The B offset is its fields in order above a zero bit (spec/30_encoding.md R205). -/
theorem immBField_eq_append (w : Word) : immBField w =
    w.extractLsb' 31 1 ++ w.extractLsb' 7 1 ++ w.extractLsb' 25 6 ++ w.extractLsb' 8 4 ++ 0#1 := by
  rw [← place_self (_ ++ 0#1)]
  simp only [place_append, place_zero, BitVec.or_zero]
  rfl

/-! ### The next step -/

theorem step_misaligned {t : State} (h : t.pc.toNat % 4 ≠ 0) :
    instructionStep t = .next (t.clearFlags.raise .memFault t.pc) :=
  step_fail (fetch_misaligned _ _ h)

/-! ### Jumps -/

theorem exec_jumps {i : Instr} {s : State} {rd : RegIdx} {target : Word} (h : exec i s = jumpNext rd target s) :
    ∃ t, exec i s = .next t ∧ Writes s t rd (s.pc + 4#32) target ∧
      (t.pc.toNat % 4 ≠ 0 → instructionStep t = .next (t.clearFlags.raise .memFault t.pc)) := by
  obtain ⟨t, hnext, hwrites⟩ := jumpNext_writes rd target s
  exact ⟨t, h.trans hnext, hwrites, step_misaligned⟩

/-- Settles O21: both instructions are `jumpNext` of a target computed in the state before the link is written. -/
theorem jumps : Obligations.Jumps := by
  refine ⟨fun w hop => ?jal_word, fun w hop hf3 => ?jalr_word, fun w hop hf3 => illegal_of_decode ?reserved,
    fun s rd rs1 off imm => ⟨exec_jumps rfl, exec_jumps rfl⟩⟩
  case jal_word => rw [decode_jal hop, immJField_eq_append]
  case jalr_word => rw [decode_jalr hop, if_pos hf3, immIField]
  case reserved => rw [decode_jalr hop, if_neg hf3]

/-! ### Branches -/

/-- A branch goes by its condition, however the condition is written. -/
theorem exec_branches {i : Instr} {s : State} {taken : Bool} {off : BitVec 13} {c : Prop} [Decidable c]
    (h : exec i s = branchNext taken off s) (hc : taken = true ↔ c) :
    ∃ t, exec i s = .next t ∧ Goes s t (if c then s.pc + off.signExtend 32 else s.pc + 4#32) := by
  obtain ⟨t, hnext, hgoes⟩ := branchNext_goes taken off s
  simp only [hc] at hgoes
  exact ⟨t, h.trans hnext, hgoes⟩

/-- Settles O22: the decoder selects by funct3; each condition is the model's comparison of the two registers, BGE and BGEU
being the negations of BLT and BLTU. -/
theorem branches : Obligations.Branches := by
  refine ⟨fun w off hop hoff => ?words, fun s rs1 rs2 off => ⟨?beq, ?bne, ?blt, ?bge, ?bltu, ?bgeu⟩⟩
  case words =>
    obtain rfl : off = immBField w := hoff.trans (immBField_eq_append w).symm
    have hdecode := decode_branch hop
    refine ⟨fun hf3 => ?_, fun hf3 => ?_, fun hf3 => ?_, fun hf3 => ?_, fun hf3 => ?_, fun hf3 => ?_,
      fun hf3 => illegal_of_decode (hdecode.trans (decodeBranch_reserved (by simpa using hf3)))⟩ <;>
      simp [hdecode, decodeBranch, hf3]
  case beq => exact exec_branches rfl beq_iff_eq
  case bne => exact exec_branches rfl bne_iff_ne
  case blt => exact exec_branches rfl decide_eq_true_iff
  case bge => exact exec_branches rfl (by simp [lessSigned])
  case bltu => exact exec_branches rfl decide_eq_true_iff
  case bgeu => exact exec_branches rfl (by simp [lessUnsigned])

/-! ### Targets -/

theorem jump_unchecked {i : Instr} {s : State} {rd : RegIdx} {target : Word} (h : exec i s = jumpNext rd target s) :
    ∃ t, exec i s = .next t ∧ t.hart.pendingException = s.hart.pendingException ∧
      (t.pc.toNat % 4 ≠ 0 → instructionStep t = .next (t.clearFlags.raise .memFault t.pc)) := by
  obtain ⟨t, hnext, ⟨-, -, -, hsame⟩, hmisaligned⟩ := exec_jumps h
  exact ⟨t, hnext, by rw [hsame], hmisaligned⟩

theorem branch_unchecked {i : Instr} {s : State} {taken : Bool} {off : BitVec 13} (h : exec i s = branchNext taken off s) :
    ∃ t, exec i s = .next t ∧ t.hart.pendingException = s.hart.pendingException ∧
      (t.pc.toNat % 4 ≠ 0 → instructionStep t = .next (t.clearFlags.raise .memFault t.pc)) := by
  obtain ⟨t, hnext, hgoes⟩ := exec_branches h Iff.rfl
  exact ⟨t, hnext, by rw [hgoes], step_misaligned⟩

/-- The exception of the next step leaves the link in rd. -/
theorem jump_link {i : Instr} {s : State} {rd : RegIdx} {target : Word} (h : exec i s = jumpNext rd target s) :
    ∃ t, exec i s = .next t ∧ (rd ≠ 0#5 → (t.clearFlags.raise .memFault t.pc).reg rd = s.pc + 4#32) := by
  obtain ⟨t, hnext, ⟨hregs, -, -, -⟩, -⟩ := exec_jumps h
  exact ⟨t, hnext, fun hrd => (hregs rd).trans (if_pos ⟨rfl, hrd⟩)⟩

/-- Settles O23: a jump and a branch end without a flag, and the fetch of the next step is the one that checks. -/
theorem targetUnchecked : Obligations.TargetUnchecked := by
  refine fun s rd rs1 rs2 off joff imm => ⟨fun i hi => ?unchecked, fun i hi => ?link⟩
  case unchecked =>
    fin_cases hi
    iterate 2 exact jump_unchecked rfl
    iterate 6 exact branch_unchecked rfl
  case link =>
    fin_cases hi
    iterate 2 exact jump_link rfl

end Sys2Proof.Proofs
end

section
/-! Proofs of the statements of spec/42_loadstore.md: a load or a store ends as its one access ends. On a resident page the
access is the touch of that page, inside a block it is the state itself; in every other case it is an access step, after which
at most registers, the pc and the exception record of the hart are written. -/

namespace Sys2Proof.Proofs

open Machine

/-! ### Loads that complete -/

theorem memRead_resident {s : State} {h n : Nat} {va : Word} {p : Pte} (hs : InSpace s h) (hr : Resident s h va p)
    (hread : p.perms.r = true) (hplain : PlainAccess s va n) :
    memRead (hartCtx s) va n s = .ok (ramValue s (p.physical va) n) (touch h (vpnOf va) .read s) := by
  rw [hplain.memRead, translate_resident n .read hs hr hread]
  simp only [Res.andThen, touch_ram, ramValue]

theorem memRead_inBlock {s : State} {n : Nat} {va : Word} (hb : InBlock s va n) (hplain : PlainAccess s va n) :
    memRead (hartCtx s) va n s = .ok (ramValue s (s.hart.base.toNat + va.toNat) n) s := by
  rw [hplain.memRead, translate_inBlock .read true hb]
  rfl

/-- A load whose access answers v writes v extended. -/
theorem load_ok {i : Instr} {rd rs1 : RegIdx} {imm : BitVec 12} {n : Nat} {extend : Word → Word} {s u : State} {v : Word}
    (hexec : exec i s = loadInto rd rs1 imm n extend s)
    (h : memRead (hartCtx s) (s.reg rs1 + imm.signExtend 32) n s = .ok v u) :
    exec i s = .next (u.setReg rd (extend v)).advance := by
  rw [hexec]
  unfold loadInto effAddr immI
  rw [h]
  rfl

theorem loadsPaged {mk : RegIdx → RegIdx → BitVec 12 → Instr} {n : Nat} {extend : Word → Word}
    (hexec : ∀ rd rs1 imm s, exec (mk rd rs1 imm) s = loadInto rd rs1 imm n extend s) : LoadsPaged mk n extend :=
  fun _ h rd _ _ _ hs hr hread hplain =>
    ⟨_, load_ok (hexec ..) (memRead_resident hs hr hread hplain), loaded_intro rd _ (touch_paging ..) (.touch ..),
      (touch_touched (h := h) hr .read).congr (by simp)⟩

/-- Inside a block the access leaves the state as it was, and the load is the write of its register. -/
theorem loadsContig {mk : RegIdx → RegIdx → BitVec 12 → Instr} {n : Nat} {extend : Word → Word}
    (hexec : ∀ rd rs1 imm s, exec (mk rd rs1 imm) s = loadInto rd rs1 imm n extend s) : LoadsContig mk n extend :=
  fun _ _ _ _ hb hplain => exec_writes (load_ok (hexec ..) (memRead_inBlock hb hplain)) rfl

/-- Settles O26: each load is `loadInto` of its width and extension, whose access a resident page and the block answer. -/
theorem loadsComplete : Obligations.LoadsComplete := by
  refine ⟨⟨loadsPaged ?lb, loadsContig ?lb⟩, ⟨loadsPaged ?lh, loadsContig ?lh⟩, ⟨loadsPaged ?lw, loadsContig ?lw⟩,
    ⟨loadsPaged ?lbu, loadsContig ?lbu⟩, ⟨loadsPaged ?lhu, loadsContig ?lhu⟩⟩
  case lb | lh | lw | lbu | lhu => exact fun _ _ _ _ => rfl

/-! ### Stores that complete -/

theorem storeForm_width_le {f : (RegIdx → RegIdx → BitVec 12 → Instr) × Nat} (hf : f ∈ storeForms) : f.2 ≤ 4 := by
  have hwidth := storeForm_width hf
  omega

theorem storesPaged {f : (RegIdx → RegIdx → BitVec 12 → Instr) × Nat} (hf : f ∈ storeForms) : StoresPaged f.1 f.2 :=
  fun _ h _ _ _ p hs hr hwrite hplain =>
    ⟨_, store_resident hf hs hr hwrite hplain,
      stored_intro _ (storeForm_width_le hf) _ (touch_paging ..) (.touch ..),
      (touch_touched (h := h) hr .write).congr (by simp)⟩

theorem store_inBlock {f : (RegIdx → RegIdx → BitVec 12 → Instr) × Nat} (hf : f ∈ storeForms) {s : State}
    {rs2 rs1 : RegIdx} {imm : BitVec 12} (hb : InBlock s (s.reg rs1 + imm.signExtend 32) f.2)
    (hplain : PlainAccess s (s.reg rs1 + imm.signExtend 32) f.2) :
    exec (f.1 rs2 rs1 imm) s =
      .next (s.storeBytes (s.hart.base.toNat + (s.reg rs1 + imm.signExtend 32).toNat) (lowBytes (s.reg rs2) f.2)).advance := by
  rw [storeForm_eq hf]
  unfold storeFrom effAddr immI
  rw [hplain.memWrite, translate_inBlock .write true hb]
  rfl

theorem storesContig {f : (RegIdx → RegIdx → BitVec 12 → Instr) × Nat} (hf : f ∈ storeForms) : StoresContig f.1 f.2 :=
  fun s _ _ _ hb hplain =>
    ⟨_, store_inBlock hf hb hplain, stored_intro _ (storeForm_width_le hf) _ rfl (.refl s), by simp⟩

/-- Settles O27: the translation of a resident page or of the block is where the bytes go. -/
theorem storesComplete : Obligations.StoresComplete := by
  have hforms : ∀ f ∈ storeForms, StoresPaged f.1 f.2 ∧ StoresContig f.1 f.2 := fun _ hf => ⟨storesPaged hf, storesContig hf⟩
  exact ⟨hforms (.sb, 1) (by simp [storeForms]), hforms (.sh, 2) (by simp [storeForms]), hforms (.sw, 4) (by simp [storeForms])⟩

/-! ### The frame of an access -/

/-- A read outside the UART range leaves the device and the streams alone. -/
theorem memRead_io {va : Word} (c : Ctx) (n : Nat) {s : State} (h : inUart s.params va.toNat = false) :
    (memRead c va n s).Sat (fun u => u.io = s.io) := by
  unfold memRead
  rw [h, Bool.and_false]
  split
  · rfl
  · rw [if_neg Bool.false_ne_true]
    split
    · trivial
    · exact ((PagingStep.translate ..).imp (fun _ k => k.io)).andThen (fun _ _ k => k)

/-- A write outside the UART range leaves the device and the streams alone. -/
theorem memWrite_io {va : Word} (c : Ctx) (n : Nat) (v : Word) {s : State} (h : inUart s.params va.toNat = false) :
    (memWrite c va n v s).Sat (fun u => u.io = s.io) := by
  unfold memWrite
  rw [h, Bool.and_false]
  split
  · rfl
  · rw [if_neg Bool.false_ne_true]
    split
    · trivial
    · exact ((PagingStep.translate ..).imp (fun _ k => k.io)).andThen (fun _ _ k => k)

/-- A write, however it ends, changes the bytes it stores and those of the frame it gives out. -/
theorem memWrite_sat_bytes {n : Nat} (hn : n ≤ 4) (va v : Word) (s : State) :
    (memWrite (hartCtx s) va n v s).Sat (fun u => ∀ a,
      (∀ pa w, translate (hartCtx s) va n .write true s = .ok pa w → ¬(pa ≤ a ∧ a < pa + n)) →
        u.ram.read a = s.ram.read a ∨ GivenOut s u va a) := by
  cases h : memWrite (hartCtx s) va n v s with
  | ok _ u => exact memWrite_bytes hn h
  | fail e u => exact fun a _ => memWrite_fail_bytes h a
  | refuse r => trivial

/-- What one access of an address can leave behind: an access step, which reaches the device and the streams in the UART range
alone, and of RAM the bytes that `stored` counts as its own and those of the frame it gives out (spec/20_memory.md R106). -/
structure AccessFrame (stored : Nat → Prop) (va : Word) (s u : State) : Prop where
  step : AccessStep s u
  io : inUart s.params va.toNat = false → u.io = s.io
  bytes : ∀ a, ¬stored a → u.ram.read a = s.ram.read a ∨ GivenOut s u va a

/-- A byte is among the n bytes from the translated address of a write. -/
def StoredAt (va : Word) (n : Nat) (s : State) (a : Nat) : Prop :=
  ∃ pa u, translate (hartCtx s) va n .write true s = .ok pa u ∧ pa ≤ a ∧ a < pa + n

theorem not_storedAt_iff {va : Word} {n : Nat} {s : State} {a : Nat} : ¬StoredAt va n s a ↔
    ∀ pa u, translate (hartCtx s) va n .write true s = .ok pa u → ¬(pa ≤ a ∧ a < pa + n) := by
  simp only [StoredAt, not_exists, not_and]

theorem memRead_accessFrame (va : Word) (n : Nat) (s : State) :
    (memRead (hartCtx s) va n s).Sat (AccessFrame (fun _ => False) va s) :=
  (((AccessStep.memRead ..).and (.given (memRead_io _ n))).and (memRead_bytes va n s)).imp
    (fun _ ⟨⟨hstep, hio⟩, hbytes⟩ => ⟨hstep, hio, fun a _ => hbytes a⟩)

theorem memWrite_accessFrame {n : Nat} (hn : n ≤ 4) (va v : Word) (s : State) :
    (memWrite (hartCtx s) va n v s).Sat (AccessFrame (StoredAt va n s) va s) :=
  (((AccessStep.memWrite ..).and (.given (memWrite_io _ n v))).and (memWrite_sat_bytes hn va v s)).imp
    (fun _ ⟨⟨hstep, hio⟩, hbytes⟩ => ⟨hstep, hio, fun a ha => hbytes a (not_storedAt_iff.1 ha)⟩)

/-! ### The frame of a load or store -/

/-- After its access, an instruction writes at most registers, the pc and the exception record of its hart. -/
def EndsFrom (u t : State) : Prop :=
  t = { u with hart := { u.hart with
    x := t.hart.x, pc := t.hart.pc, pendingException := t.hart.pendingException, excCode := t.hart.excCode,
    excValue := t.hart.excValue } }

theorem EndsFrom.raiseMem (u : State) (e : MemFailure) : EndsFrom u (u.raiseMem e) := rfl

theorem EndsFrom.advance (u : State) : EndsFrom u u.advance := rfl

theorem EndsFrom.write (u : State) (rd : RegIdx) (v : Word) : EndsFrom u (u.setReg rd v).advance := by
  unfold EndsFrom State.setReg
  split <;> rfl

/-- An instruction with one access ends from where that access ends: it goes on, or it raises. -/
theorem toOutcome_ends {α : Type} {x : Res MemFailure α} {k : α → State → State} {P : State → Prop}
    {Q : State → State → Prop} {t : State} (hx : x.Sat P) (hok : ∀ a u, Q u (k a u)) (hraise : ∀ e u, Q u (u.raiseMem e))
    (h : x.toOutcome k = .next t) : ∃ u, P u ∧ Q u t := by
  cases x with
  | ok a u =>
    cases h
    exact ⟨u, hx, hok a u⟩
  | fail e u =>
    cases h
    exact ⟨u, hx, hraise e u⟩
  | refuse r => cases h

/-- The frame of an instruction is the frame of its access and the hart's fields that it may write. -/
theorem AccessFrame.ends {stored : Nat → Prop} {va : Word} {s u t : State} (h : AccessFrame stored va s u)
    (e : EndsFrom u t) :
    SameKernel s t ∧ t.paging.frames.length = s.paging.frames.length ∧
      t.hart = { s.hart with
        x := t.hart.x, pc := t.hart.pc, pendingException := t.hart.pendingException, excCode := t.hart.excCode,
        excValue := t.hart.excValue } ∧
      (∀ a, ¬stored a → t.ram.read a = s.ram.read a ∨ GivenOut s t va a) ∧
      (inUart s.params va.toNat = false → t.io = s.io) := by
  have hram : t.ram = u.ram := by rw [e]
  have hpaging : t.paging = u.paging := by rw [e]
  have hio : t.io = u.io := by rw [e]
  have hkernel : SameKernel u t := by rw [e]; exact ⟨rfl, rfl, rfl, rfl, rfl, rfl⟩
  obtain ⟨hparams, hothers, hkern, hsched, hwaits, hcontig⟩ := hkernel
  refine ⟨⟨hparams.trans h.step.params, hothers.trans h.step.others, hkern.trans h.step.kernel,
    hsched.trans h.step.sched, hwaits.trans h.step.waits, hcontig.trans h.step.contig⟩, ?frames, ?hart, fun a ha => ?bytes,
    fun hu => hio.trans (h.io hu)⟩
  case frames => rw [hpaging, h.step.frames]
  case hart =>
    rw [← h.step.hart]
    exact congrArg State.hart e
  case bytes =>
    have hread : t.ram.read a = u.ram.read a := by rw [hram]
    exact (h.bytes a ha).imp hread.trans (GivenOut.congr hread hpaging)

theorem load_ends {f : (RegIdx → RegIdx → BitVec 12 → Instr) × Nat} (hf : f ∈ loadForms) {s t : State} {rd rs1 : RegIdx}
    {imm : BitVec 12} (h : exec (f.1 rd rs1 imm) s = .next t) :
    ∃ u, AccessFrame (fun _ => False) (effAddr s rs1 imm) s u ∧ EndsFrom u t ∧ ∀ r, r ≠ rd → t.reg r = u.reg r := by
  obtain ⟨extend, -, hexec⟩ := loadForm_eq hf
  rw [hexec] at h
  refine toOutcome_ends (Q := fun u t => EndsFrom u t ∧ ∀ r, r ≠ rd → t.reg r = u.reg r) (memRead_accessFrame ..)
    (fun v u => ⟨.write .., fun r hr => ?_⟩) (fun e u => ⟨.raiseMem u e, fun _ _ => rfl⟩) h
  rw [State.advance_reg, State.setReg_reg, if_neg (fun hc => hr hc.1)]

theorem store_ends {f : (RegIdx → RegIdx → BitVec 12 → Instr) × Nat} (hf : f ∈ storeForms) {s t : State}
    {rs2 rs1 : RegIdx} {imm : BitVec 12} (h : exec (f.1 rs2 rs1 imm) s = .next t) :
    ∃ u, AccessFrame (StoredAt (effAddr s rs1 imm) f.2 s) (effAddr s rs1 imm) s u ∧ EndsFrom u t ∧
      t.hart.x = u.hart.x := by
  rw [storeForm_eq hf] at h
  exact toOutcome_ends (Q := fun u t => EndsFrom u t ∧ t.hart.x = u.hart.x)
    (memWrite_accessFrame (storeForm_width_le hf) ..) (fun _ u => ⟨.advance u, rfl⟩)
    (fun e u => ⟨.raiseMem u e, rfl⟩) h

/-- Settles O28: the frame of the access by `AccessFrame`, whether it answers or fails; what comes after it is the load's rd,
the pc or the exception record. -/
theorem loadStoreFrame : Obligations.LoadStoreFrame := by
  refine ⟨fun f hf s t rd rs1 imm h => ?load, fun f hf s t rs2 rs1 imm h => ?store⟩
  case load =>
    obtain ⟨u, haccess, hends, hregs⟩ := load_ends hf h
    obtain ⟨hkernel, hframes, hhart, hbytes, hio⟩ := haccess.ends hends
    refine ⟨hkernel, hframes, fun r hr => (hregs r hr).trans ?_, hhart, fun a => hbytes a id, hio⟩
    unfold State.reg
    rw [haccess.step.hart]
  case store =>
    obtain ⟨u, haccess, hends, hx⟩ := store_ends hf h
    obtain ⟨hkernel, hframes, hhart, hbytes, hio⟩ := haccess.ends hends
    rw [haccess.step.hart] at hx
    rw [hx] at hhart
    exact ⟨hkernel, hframes, hx, hhart, fun a ha => hbytes a (not_storedAt_iff.2 ha), hio⟩

end Sys2Proof.Proofs
end

section
/-! Proofs of the statements of spec/43_muldiv.md: each instruction is the end `writeNext` of its result. High words are read
through the 64-bit product whose halves they complete, and signed quotients and remainders through the integers `tdiv` and
`tmod`, which they are wherever the division neither is by zero nor overflows. -/

namespace Sys2Proof.Proofs

open Machine

/-! ### Products -/

/-- Bits 63:32 of a 64-bit value are its floor division by 2^32 (spec/43_muldiv.md R382). -/
theorem highWord_eq_ofInt_div (p : Int) : highWord p = BitVec.ofInt 32 (p / 2 ^ 32) := by
  refine BitVec.eq_of_toNat_eq ?_
  simp only [highWord, BitVec.extractLsb'_toNat, BitVec.toNat_ofInt, Nat.shiftRight_eq_div_pow]
  omega

theorem highWord_natCast (n : Nat) : highWord (n : Int) = BitVec.ofNat 32 (n / 2 ^ 32) := by
  rw [highWord_eq_ofInt_div, ← BitVec.ofInt_natCast]
  norm_cast

/-- The low word of a 64-bit value does not depend on the width it is taken from (spec/43_muldiv.md R381). -/
theorem extractLsb'_zero_ofInt (p : Int) : (BitVec.ofInt 64 p).extractLsb' 0 32 = BitVec.ofInt 32 p := by
  refine BitVec.eq_of_toNat_eq ?_
  simp only [BitVec.extractLsb'_toNat, BitVec.toNat_ofInt, Nat.shiftRight_zero]
  omega

/-- The high word of an exact product above the product of the words is the 64-bit product, in either signedness of each
operand (spec/43_muldiv.md R389 (e)). -/
theorem highWord_append_mul {a b : Word} {x y : Int} (ha : BitVec.ofInt 32 x = a) (hb : BitVec.ofInt 32 y = b) :
    highWord (x * y) ++ a * b = BitVec.ofInt 64 (x * y) := by
  rw [← ha, ← hb, ← BitVec.ofInt_mul, ← extractLsb'_zero_ofInt, highWord]
  exact (BitVec.extractLsb'_append_extractLsb'_eq_extractLsb' rfl).trans BitVec.extractLsb'_eq_self

theorem ofInt_toNat_eq (a : Word) : BitVec.ofInt 32 (a.toNat : Int) = a := by
  rw [BitVec.ofInt_natCast, BitVec.ofNat_toNat, BitVec.setWidth_eq]

/-- A signed word times a factor of at most 32 bits fits in 64 bits, signed. -/
theorem toInt_ofInt_mul (a : Word) {y : Int} (hy : y.natAbs < 2 ^ 32) :
    (BitVec.ofInt 64 (a.toInt * y)).toInt = a.toInt * y := by
  have ha : a.toInt.natAbs ≤ 2 ^ 31 := by
    have hlow := a.le_toInt
    have hhigh := a.toInt_lt
    omega
  have hprod : (a.toInt * y).natAbs ≤ 2 ^ 31 * (2 ^ 32 - 1) := by
    rw [Int.natAbs_mul]
    exact Nat.mul_le_mul ha (by omega)
  exact BitVec.toInt_ofInt_eq_self (by decide) (by omega) (by omega)

theorem mulh_mul_toInt (a b : Word) : (highWord (a.toInt * b.toInt) ++ a * b).toInt = a.toInt * b.toInt := by
  rw [highWord_append_mul BitVec.ofInt_toInt BitVec.ofInt_toInt]
  have hlow := b.le_toInt
  have hhigh := b.toInt_lt
  exact toInt_ofInt_mul a (by omega)

theorem mulhsu_mul_toInt (a b : Word) : (highWord (a.toInt * (b.toNat : Int)) ++ a * b).toInt = a.toInt * (b.toNat : Int) := by
  rw [highWord_append_mul BitVec.ofInt_toInt (ofInt_toNat_eq b)]
  exact toInt_ofInt_mul a b.isLt

theorem mulhu_mul_toNat (a b : Word) :
    (highWord ((a.toNat : Int) * (b.toNat : Int)) ++ a * b).toNat = a.toNat * b.toNat := by
  rw [highWord_append_mul (ofInt_toNat_eq a) (ofInt_toNat_eq b), ← Int.natCast_mul, BitVec.ofInt_natCast,
    BitVec.toNat_ofNat, Nat.mod_eq_of_lt BitVec.toNat_mul_toNat_lt]

/-! ### Quotients and remainders -/

/-- Outside division by zero and overflow, DIV is the quotient that rounds toward zero. -/
theorem toInt_divSigned {a b : Word} (hb : b ≠ 0#32) (hov : ¬(a = 0x80000000#32 ∧ b = 0xFFFFFFFF#32)) :
    (divSigned a b).toInt = a.toInt.tdiv b.toInt := by
  rw [divSigned, if_neg hb, if_neg hov, ← BitVec.toInt_sdiv_of_ne_or_ne a b (not_and_or.1 hov), BitVec.ofInt_toInt]

/-- Outside division by zero and overflow, REM is the remainder with the sign of the dividend. -/
theorem toInt_remSigned {a b : Word} (hb : b ≠ 0#32) (hov : ¬(a = 0x80000000#32 ∧ b = 0xFFFFFFFF#32)) :
    (remSigned a b).toInt = a.toInt.tmod b.toInt := by
  rw [remSigned, if_neg hb, if_neg hov, ← Int.tmod_def, ← BitVec.toInt_srem, BitVec.ofInt_toInt]

theorem divUnsigned_eq_udiv {a b : Word} (hb : b ≠ 0#32) : divUnsigned a b = a / b := by
  rw [divUnsigned, if_neg hb, BitVec.udiv_def]

theorem remUnsigned_eq_umod {a b : Word} (hb : b ≠ 0#32) : remUnsigned a b = a % b := by
  rw [remUnsigned, if_neg hb, BitVec.umod_def]

/-- R389 (a). -/
theorem divSigned_remSigned {a b : Word} (hb : b ≠ 0#32) (hov : ¬(a = 0x80000000#32 ∧ b = 0xFFFFFFFF#32)) :
    a.toInt = (divSigned a b).toInt * b.toInt + (remSigned a b).toInt ∧
      (remSigned a b).toInt.natAbs < b.toInt.natAbs := by
  have hpos : 0 < b.toInt.natAbs := Int.natAbs_pos.2 (fun h => hb (BitVec.eq_of_toInt_eq h))
  rw [toInt_divSigned hb hov, toInt_remSigned hb hov, Int.natAbs_tmod]
  exact ⟨(Int.tdiv_mul_add_tmod ..).symm, Nat.mod_lt _ hpos⟩

/-- R389 (b). -/
theorem divUnsigned_remUnsigned {a b : Word} (hb : b ≠ 0#32) :
    a.toNat = (divUnsigned a b).toNat * b.toNat + (remUnsigned a b).toNat ∧ (remUnsigned a b).toNat < b.toNat := by
  have hpos : 0 < b.toNat := Nat.pos_of_ne_zero (fun h => hb (BitVec.eq_of_toNat_eq h))
  rw [divUnsigned_eq_udiv hb, remUnsigned_eq_umod hb, BitVec.toNat_udiv, BitVec.toNat_umod]
  exact ⟨(Nat.div_add_mod' ..).symm, Nat.mod_lt _ hpos⟩

/-- R389 (c). -/
theorem div_rem_zero (a : Word) : divSigned a 0#32 = 0xFFFFFFFF#32 ∧ divUnsigned a 0#32 = 0xFFFFFFFF#32 ∧
    remSigned a 0#32 = a ∧ remUnsigned a 0#32 = a :=
  ⟨if_pos rfl, if_pos rfl, if_pos rfl, if_pos rfl⟩

/-- R389 (d). -/
theorem divSigned_remSigned_overflow : divSigned 0x80000000#32 0xFFFFFFFF#32 = 0x80000000#32 ∧
    remSigned 0x80000000#32 0xFFFFFFFF#32 = 0#32 := by decide

/-! ### The statements -/

theorem decode_mulDiv {w : Word} (hop : opcodeField w = 0b0110011#7) (hf7 : funct7Field w = 0b0000001#7) :
    decode w = decodeOpMulDiv w := by
  simp [decode_op hop, decodeOp, hf7]

/-- Settles O18: the decoder selects by funct3 within the M extension; the high words are the statement's by
`highWord_eq_ofInt_div`. -/
theorem multiply : Obligations.Multiply := by
  refine ⟨fun w hop hf7 => ?words, fun s rd rs1 rs2 => ⟨?mul, ?mulh, ?mulhsu, ?mulhu⟩⟩
  case words =>
    rw [decode_mulDiv hop hf7]
    refine ⟨fun hf3 => ?_, fun hf3 => ?_, fun hf3 => ?_, fun hf3 => ?_⟩ <;> simp [decodeOpMulDiv, hf3]
  case mul => exact exec_writes rfl rfl
  case mulh | mulhsu => exact exec_writes rfl (highWord_eq_ofInt_div _)
  case mulhu => exact exec_writes rfl (by rw [← Int.natCast_mul, highWord_natCast])

/-- Settles O19: the decoder selects by funct3 within the M extension; the model's quotients and remainders are written as the
statement's. -/
theorem divide : Obligations.Divide := by
  refine ⟨fun w hop hf7 => ?words, fun s rd rs1 rs2 => ⟨?div, ?divu, ?rem, ?remu⟩⟩
  case words =>
    rw [decode_mulDiv hop hf7]
    refine ⟨fun hf3 => ?_, fun hf3 => ?_, fun hf3 => ?_, fun hf3 => ?_⟩ <;> simp [decodeOpMulDiv, hf3]
  case div | divu | rem | remu => exact exec_writes rfl rfl

/-- An instruction that ends as `writeNext` leaves its result in rd, unless rd is x0. -/
theorem exec_result {i : Instr} {s : State} {rd : RegIdx} {v : Word} (hrd : rd ≠ 0#5) (h : exec i s = writeNext rd v s) :
    ∃ t, exec i s = .next t ∧ t.reg rd = v := by
  obtain ⟨t, hnext, hregs, -⟩ := exec_writes h rfl
  exact ⟨t, hnext, (hregs rd).trans (if_pos ⟨rfl, hrd⟩)⟩

/-- Settles O20: each result stands in rd, and the laws are those of the products, quotients and remainders. -/
theorem mulDivLaws : Obligations.MulDivLaws := by
  intro s rd rs1 rs2 a b hrd ha hb
  subst ha hb
  obtain ⟨tm, hmul, hm⟩ := exec_result (i := .mul rd rs1 rs2) (s := s) hrd rfl
  obtain ⟨th, hmulh, hh⟩ := exec_result (i := .mulh rd rs1 rs2) (s := s) hrd rfl
  obtain ⟨tsu, hmulhsu, hsu⟩ := exec_result (i := .mulhsu rd rs1 rs2) (s := s) hrd rfl
  obtain ⟨thu, hmulhu, hhu⟩ := exec_result (i := .mulhu rd rs1 rs2) (s := s) hrd rfl
  obtain ⟨td, hdiv, hd⟩ := exec_result (i := .div rd rs1 rs2) (s := s) hrd rfl
  obtain ⟨tdu, hdivu, hdu⟩ := exec_result (i := .divu rd rs1 rs2) (s := s) hrd rfl
  obtain ⟨tr, hrem, hr⟩ := exec_result (i := .rem rd rs1 rs2) (s := s) hrd rfl
  obtain ⟨tru, hremu, hru⟩ := exec_result (i := .remu rd rs1 rs2) (s := s) hrd rfl
  refine ⟨tm, th, tsu, thu, td, tdu, tr, tru, hmul, hmulh, hmulhsu, hmulhu, hdiv, hdivu, hrem, hremu, ?_⟩
  rw [hm, hh, hsu, hhu, hd, hdu, hr, hru]
  refine ⟨divSigned_remSigned, divUnsigned_remUnsigned, fun hb => ?zero, fun ha hb => ?overflow, mulh_mul_toInt _ _,
    mulhu_mul_toNat _ _, mulhsu_mul_toInt _ _⟩
  case zero => rw [hb]; exact div_rem_zero _
  case overflow => rw [ha, hb]; exact divSigned_remSigned_overflow

end Sys2Proof.Proofs
end

section
/-! Proofs of the statements of spec/44_system.md: a word of a CSR instruction is neither ECALL's nor EBREAK's, so its funct3
selects; the CSR instructions end as `refuseCsr`, FENCE as the pc's advance, ECALL and EBREAK as the advance past
`signalEcall`. -/

namespace Sys2Proof.Proofs

open Machine

/-! ### CSR instructions -/

/-- Settles O25: past ECALL and EBREAK, which have funct3 000, the decoder selects by funct3; what it selects is refused
whatever the operands. -/
theorem csrRefused : Obligations.CsrRefused := by
  refine ⟨fun w hop => ?words, fun s rd rs1 csr => ?refused⟩
  case words =>
    rw [decode_system hop]
    refine ⟨fun hf3 => ?_, fun hf3 => ?_, fun hf3 => ?_, fun hf3 => ?_, fun hf3 => ?_, fun hf3 => ?_⟩
    all_goals
      obtain ⟨hecall, hebreak⟩ := ne_ecall_ebreak (w := w) (by simp [hf3])
      simp [decodeSystem, hecall, hebreak, hf3, immIField]
  case refused =>
    have hstub : refuseCsr s = .refused .csrStub := rfl
    exact ⟨hstub, hstub, hstub, hstub, hstub, hstub⟩

/-! ### FENCE, ECALL and EBREAK -/

theorem decodeMiscMem_fence {w : Word} (h : funct3Field w = 0#3) :
    decodeMiscMem w =
      .instr (.fence (rdField w) (rs1Field w) (w.extractLsb' 28 4) (w.extractLsb' 24 4) (w.extractLsb' 20 4)) :=
  if_pos h

theorem advance_goes (s : State) : Goes s s.advance (s.pc + 4#32) := rfl

theorem advance_signalEcall (s : State) :
    s.signalEcall.advance = { s with hart := { s.hart with pendingEcall := true, pc := s.pc + 4#32 } } := rfl

/-- Settles O24: FENCE is the pc's advance, ECALL and EBREAK the advance past `signalEcall`; their words are their encodings. -/
theorem fenceEcallEbreak : Obligations.FenceEcallEbreak := by
  refine ⟨fun w hop hf3 => ?fence_word, fun s rd rs1 fm pred succ => ⟨s.advance, rfl, advance_goes s⟩,
    decode_encode (i := .ecall) rfl, decode_encode (i := .ebreak) rfl, fun s => ⟨?ecall, ?ebreak⟩⟩
  case fence_word => rw [decode_miscMem hop, decodeMiscMem_fence hf3]
  case ecall | ebreak => exact congrArg Host.Outcome.next (advance_signalEcall s)

end Sys2Proof.Proofs
end

section
/-! Proofs of the statements of spec/60_exceptions.md: a step that raises does so after its fetch or after the one access of a
load or store; the trap place saves the hart's state and either ends the task or runs its syscall; and a hart brought forward
leaves every hart of another number among the others. -/

namespace Sys2Proof.Proofs

open Machine

/-! ### What a step that raises leaves -/

/-- The fetch of an instruction step has ended, in whichever way, in the state u. -/
def FetchEnds (s u : State) : Prop :=
  (∃ w, fetch (hartCtx s.clearFlags) s.pc s.clearFlags = .ok w u) ∨
    ∃ f, fetch (hartCtx s.clearFlags) s.pc s.clearFlags = .fail f u

/-- The fetch changes the paging structures and the bytes of the frame it gives out alone. -/
theorem FetchEnds.frame {s u : State} (h : FetchEnds s u) :
    QuietStep s.clearFlags u ∧ ∀ a, u.ram.read a = s.ram.read a ∨ GivenOut s u s.pc a := by
  have hquiet := QuietStep.fetch (hartCtx s.clearFlags) s.pc s.clearFlags
  have hbytes := fetch_bytes s.pc s.clearFlags
  rcases h with ⟨w, h⟩ | ⟨f, h⟩ <;> rw [h] at hquiet hbytes <;> exact ⟨hquiet, hbytes⟩

/-- An instruction step by what its fetch answers: the fetch has failed, the word is no instruction, or the instruction runs. -/
theorem instructionStep_cases {s t : State} (h : instructionStep s = .next t) :
    ∃ u, FetchEnds s u ∧ ((∃ k v, t = u.raise k v) ∨ ∃ i, exec i u = .next t) := by
  unfold instructionStep at h
  dsimp only at h
  split at h
  · rename_i f u hfetch
    cases h
    exact ⟨u, .inr ⟨f, hfetch⟩, .inl ⟨f.kind, f.va, rfl⟩⟩
  · cases h
  · rename_i w u hfetch
    refine ⟨u, .inl ⟨w, hfetch⟩, ?_⟩
    split at h
    · cases h
      exact .inl ⟨_, _, rfl⟩
    · exact .inr ⟨_, h⟩

/-- A step that raises: after the fetch at most an access has failed, for the page of the exception's value, and then only the
exception is recorded. -/
theorem instructionStep_raises {s t : State} (h : instructionStep s = .next t) (ht : t.hart.pendingException = true) :
    ∃ u v k w, FetchEnds s u ∧ QuietStep u v ∧ (∀ a, v.ram.read a = u.ram.read a ∨ GivenOut u v w a) ∧ t = v.raise k w := by
  obtain ⟨u, hfetch, ⟨k, w, rfl⟩ | ⟨i, hexec⟩⟩ := instructionStep_cases h
  · exact ⟨u, u, k, w, hfetch, .refl u, fun _ => .inl rfl, rfl⟩
  · have hclear : u.hart.pendingException = false := by rw [hfetch.frame.1.hart]; rfl
    obtain ⟨v, k, w, hquiet, hbytes, rfl⟩ := exec_raises i u t hexec hclear ht
    exact ⟨u, v, k, w, hfetch, hquiet, hbytes, rfl⟩

/-- Settles O9: the fetch and the access that failed are paging steps, whose bytes are those of the frames they give out; the
exception's record writes no other part of the hart. -/
theorem raisePrecise : Obligations.RaisePrecise := by
  intro s t h ht
  obtain ⟨u, v, k, w, hfetch, hquiet, haccess, rfl⟩ := instructionStep_raises h ht
  obtain ⟨hfetched, hbytes⟩ := hfetch.frame
  have hall : QuietStep s.clearFlags v := hfetched.trans hquiet
  have hhart : (v.raise k w).hart = { s.clearFlags.hart with pendingException := true, excCode := k, excValue := w } := by
    rw [State.raise_hart, hall.hart]
  exact ⟨(congrArg Hart.x hhart :), (congrArg Hart.pc hhart :), (congrArg Hart.pendingEcall hhart :), hall.io,
    ⟨hall.params, hall.others, hall.kernel, hall.sched, hall.waits, hall.contig⟩, hall.eager, u, hfetch, hbytes, haccess⟩

/-! ### The trap place -/

theorem hartStep_trap {s : State} {pid : Nat} (h : s.hart.phase = .trap pid) : hartStep s = trapStep pid s := by
  unfold hartStep
  rewrite [h]
  rfl

theorem trapStep_exception {s : State} (pid : Nat) (h : s.hart.pendingEcall = false) :
    trapStep pid s = .next ((exceptionEntry pid s).goto (.sliceEnd pid true)) :=
  if_neg (by simp [h])

theorem task?_modTask_same {s : State} {pid : Nat} {k : Task} (hk : s.task? pid = some k) (f : Task → Task) :
    (s.modTask pid f).task? pid = some (f k) := by
  rw [State.task?_modTask, if_pos rfl, hk]
  rfl

theorem task?_modTask_ne {q pid : Nat} (hq : q ≠ pid) (s : State) (f : Task → Task) :
    (s.modTask pid f).task? q = s.task? q := by
  rw [State.task?_modTask, if_neg hq]

theorem saveState_task? {s : State} {pid : Nat} {k : Task} (hk : s.task? pid = some k) :
    (saveState pid s).task? pid = some { k with regs := s.hart.x.set 0 0#32, pc := s.hart.pc } :=
  task?_modTask_same hk _

/-- With the lock free, the entry's three writes: the saved record, its end, and the scheduler without the task; then the log. -/
theorem exceptionEntry_free {s : State} (pid : Nat) (h : s.sched.lock = none) :
    exceptionEntry pid s =
      (dequeue pid ((saveState pid s).modTask pid (fun t => t.exit s.params.faultExitCode))).logLine :=
  congrArg State.logLine
    (removeTask_free (s := (saveState pid s).modTask pid (fun t => t.exit s.params.faultExitCode)) (.hart s.hart.id) pid h)

theorem mem_dequeue_ready {s : State} {pid q : Nat} :
    q ∈ (dequeue pid s).sched.ready ↔ q ∈ s.sched.ready ∧ q ≠ pid := by
  simp [dequeue]

theorem mem_dequeue_members {s : State} {pid q : Nat} :
    q ∈ (dequeue pid s).sched.members ↔ q ∈ s.sched.members ∧ q ≠ pid := by
  simp [dequeue]

/-- Settles O10: the entry is `exceptionEntry_free`; the record is the saved one, ended, and the log line is the only output. -/
theorem exceptionEntry : Obligations.ExceptionEntry := by
  intro s pid k hphase hecall hk hlock
  refine ⟨_, (hartStep_trap hphase).trans (trapStep_exception pid hecall), ?_⟩
  rw [exceptionEntry_free pid hlock]
  refine ⟨task?_modTask_same (saveState_task? hk) _, fun q hq => ?others, fun q => mem_dequeue_ready,
    fun q => mem_dequeue_members, hlock, rfl, rfl, rfl, rfl, rfl, rfl, rfl, rfl, rfl, rfl, List.prefix_append _ _⟩
  case others => exact (task?_modTask_ne hq _ _).trans (task?_modTask_ne hq _ _)

/-- Settles O11: the record the syscall finds is the saved one, and with an ECALL pending the trap place is the syscall's. -/
theorem trapRunsSyscall : Obligations.TrapRunsSyscall := fun _ _ _ hphase hecall hk =>
  ⟨saveState_task? hk, (hartStep_trap hphase).trans (if_pos hecall)⟩

/-! ### Whose transition a step is -/

theorem step_eq_agentStep {s : State} (h : s.kernel.panic = none) : step s = agentStep (nextAgent s) (takeTurn s) := by
  unfold step machineStep
  rewrite [h]
  rfl

theorem agentStep_front (s : State) : agentStep (.hart s.hart.id) s = hartStep s := by
  have hfocus : focus s.hart.id s = some s := if_pos rfl
  unfold agentStep
  simp only [hfocus]

/-- A hart of another number than the one brought forward is then among the others. -/
theorem mem_others_of_focus {a : Nat} {s u : State} (e : focus a s = some u) {g : Hart} (hg : g ∈ s.harts) (hne : g.id ≠ a) :
    g ∈ u.others := by
  rcases focus_cases e with ⟨rfl, hfront⟩ | ⟨k, hk, hka, -, rfl⟩ <;> rcases List.mem_cons.1 hg with rfl | hg
  · exact absurd hfront hne
  · exact hg
  · exact List.mem_map.2 ⟨k, hk, if_pos hka⟩
  · exact List.mem_map.2 ⟨g, hg, if_neg hne⟩

/-- The turn of a hart leaves every hart of another number as it is, but for base and limit that follow a block. -/
theorem agentStep_hart_others {a : Nat} {s t : State} (h : agentStep (.hart a) s = .next t) {g : Hart} (hg : g ∈ s.harts)
    (hne : g.id ≠ a) : ∃ g' ∈ t.harts, g'.plain s.params = g.plain s.params := by
  unfold agentStep at h
  dsimp only at h
  split at h
  · rename_i u hfocus
    have hmove := (HartMove.hartStep u t h).others
    rw [(Evolves.focus hfocus).params] at hmove
    obtain ⟨g', hg', hplain⟩ := plain_members hmove.symm (mem_others_of_focus hfocus hg hne)
    exact ⟨g', List.mem_cons_of_mem _ hg', hplain.symm⟩
  · cases h
    exact ⟨g, hg, rfl⟩

/-- Settles O59: the turn's record names no hart; a hart's turn by `agentStep_hart_others`, the maintenance agent's and the
host's by `SameHarts`. -/
theorem hartsApart : Obligations.HartsApart := by
  intro s t h
  rw [step_eq_agentStep (step_cases h).1] at h
  obtain ⟨c, hturn⟩ := s.takeTurn_eq
  rw [hturn] at h
  refine ⟨fun a ha g hg hne => ?hart, fun ha => ?maintenance, fun a ha => ?host⟩ <;> rw [ha] at h
  case hart => exact agentStep_hart_others h hg hne
  case maintenance =>
    cases h
    exact SameHarts.maintain _
  case host =>
    cases h
    exact SameHarts.hostStep a _

/-! ### A step of a slice -/

theorem instructionStep_of_decode {s u : State} {w : Word} {i : Instr}
    (hfetch : fetch (hartCtx s.clearFlags) s.pc s.clearFlags = .ok w u) (hdecode : decode w = .instr i) :
    instructionStep s = exec i u := by
  rw [← State.clearFlags_pc] at hfetch
  unfold instructionStep
  simp only [hfetch, hdecode]

/-- In the slice of a RUNNING task within its time slice, a step is one instruction step, counted. -/
theorem hartStep_slice {s : State} {pid : Nat} (hphase : s.hart.phase = .slice pid)
    (hslice : underSlice s s.hart.counter = true) (hrun : s.taskIs pid .running = true) :
    hartStep s =
      match instructionStep s with
      | .next t => .next (countStep pid t)
      | .fault f => .fault f
      | .refused r => .refused r := by
  have hin : (underSlice s s.hart.counter && s.taskIs pid .running) = true := by rw [hslice, hrun]; rfl
  unfold hartStep
  rewrite [hphase]
  exact if_pos hin

/-- Settles O6: the hart is in front, and taking the turn changes neither its place nor its task. -/
theorem stepRunsDecoded : Obligations.StepRunsDecoded := by
  intro s u pid w i hpanic hagent hphase hslice hrun hfetch hdecode
  obtain ⟨c, hturn⟩ := s.takeTurn_eq
  rw [hturn] at hfetch
  rw [step_eq_agentStep hpanic, hagent, hturn, ← instructionStep_of_decode hfetch hdecode]
  exact (agentStep_front { s with chance := c }).trans
    (hartStep_slice (s := { s with chance := c }) hphase hslice hrun)

end Sys2Proof.Proofs
end

section
/-! Proofs of the statements of spec/61_dispatcher.md: the scheduler's order through every agent's step; then each place of the
hart's loop by what its operation makes of the state; then the ready collection, whom schedule() answers, where a released task
goes, whom the maintenance agent wakes, and how the host ends a task. -/

namespace Sys2Proof.Proofs

open Machine

/-! ### The scheduler stays in order -/

/-- A transition that leaves every hart where it stands keeps the places that `Sound` speaks of. -/
theorem sound_of_sameHarts {s t : State} (hsame : SameHarts s t) (h : Sound t s.places) : Sound t t.places := by
  rw [hsame.places]
  exact h

/-- The turn's record is none of the things the scheduler's order speaks of. -/
theorem sound_takeTurn {s : State} (h : Sound s s.places) : Sound (takeTurn s) (takeTurn s).places := by
  obtain ⟨c, hturn⟩ := s.takeTurn_eq
  rw [hturn]
  exact h.chance c

theorem holds_takeTurn {s : State} (h : s.holds) : (takeTurn s).holds := by
  obtain ⟨c, hturn⟩ := s.takeTurn_eq
  rw [hturn]
  exact h

/-- Every step keeps the scheduler in order: a hart's by `Sound.hartStep` once the hart is brought forward, the maintenance agent's
and the host's since they move no hart. -/
theorem orderly_step {s t : State} (hy : s.tidy) (hh : s.holds) (ho : s.orderly) (h : step s = .next t) : t.orderly := by
  rw [orderly_iff] at ho ⊢
  have hturn := sound_takeTurn ho
  obtain ⟨-, ⟨a, u, -, hu, ht⟩ | ⟨a, -, -, rfl⟩ | ⟨-, rfl⟩ | ⟨a, -, rfl⟩⟩ := step_cases h
  · have htidy : u.tidy := (Evolves.focus hu).tidy ((KernelStep.takeTurn s).tidy hy)
    exact (hturn.focus hu).hartStep htidy (holds_focus (holds_takeTurn hh) hu) ht
  · exact hturn
  · exact sound_of_sameHarts (.maintain _) hturn.maintain
  · exact sound_of_sameHarts (.hostStep a _) (hturn.hostStep a)

/-- Settles O55: the order is kept by `orderly_step`; what schedule() answers comes from the ready collection, which holds it
once. -/
theorem schedulerSound : Obligations.SchedulerSound := by
  refine ⟨fun s t => orderly_step, fun s t who pid hy ho h => ?_⟩
  obtain ⟨rfl, -, hrecord⟩ := schedule_ready ((orderly_iff s).1 ho) h
  obtain ⟨-, hnodup, -⟩ := hy
  exact ⟨hnodup.not_mem_erase, hrecord⟩

/-! ### A slice and its task -/

/-- A register of a file whose entry 0 has been made 0. -/
theorem getElem_set_zero (v : Vector Word 32) (r : RegIdx) :
    (v.set 0 0#32)[r.toNat]'r.isLt = if r = 0#5 then 0#32 else v[r.toNat]'r.isLt := by
  have hzero : 0 = r.toNat ↔ r = 0#5 := ⟨fun h => BitVec.eq_of_toNat_eq h.symm, fun h => by rw [h]; rfl⟩
  rw [Vector.getElem_set]
  simp only [hzero]

/-- Settles O12: both files pass with entry 0 made 0, which is what a read of x0 gives. -/
theorem saveRestore : Obligations.SaveRestore := by
  refine ⟨fun s k => ⟨fun r => ?restored, Vector.getElem_set_self .., rfl, rfl⟩,
    fun s pid k hk => ⟨_, saveState_task? hk, getElem_set_zero s.hart.x, rfl, rfl⟩,
    fun s pid q hq => task?_modTask_ne hq _ _, fun _ _ => rfl⟩
  case restored =>
    unfold State.reg
    split
    · rfl
    · exact (getElem_set_zero k.regs r).trans (if_neg ‹_›)

/-! ### Entering a slice -/

theorem hartStep_acquired {s : State} {pid : Nat} (h : s.hart.phase = .acquired pid) :
    hartStep s = .next (enterStep pid s) := by
  unfold hartStep
  rewrite [h]
  rfl

theorem setContext_pc (k : Task) (s : State) : (setContext k s).hart.pc = s.hart.pc := by
  unfold setContext Hart.switchTo
  split
  · rfl
  · split <;> rfl

theorem setContext_space (k : Task) (s : State) : (setContext k s).hart.space = some k.space := by
  unfold setContext
  split
  · rfl
  · exact Hart.switchTo_space ..

/-- In CONTIGUOUS mode the context is the task's block. -/
theorem setContext_block {k : Task} {s : State} {f : AllocStrategy} {b : Block} (hm : s.params.memMode = .contiguous f)
    (hb : s.block? k.space = some b) :
    (setContext k s).hart.base = BitVec.ofNat 32 b.start ∧ (setContext k s).hart.limit = BitVec.ofNat 32 b.size := by
  unfold setContext
  rw [hm]
  exact Hart.switchTo_block hb s.hart

/-- A READY task's slice begins: the context and the registers are the task's. -/
theorem enterStep_ready {s : State} {pid : Nat} {k : Task} (hk : s.task? pid = some k) (hr : k.state = .ready) :
    enterStep pid s = { s.modTask pid Task.start with
      hart := { (setContext k s).hart with x := k.regs.set 0 0#32, pc := k.pc, counter := 0, phase := .slice pid } } := by
  unfold enterStep
  simp only [hk, if_pos hr]
  rw [(setContext_hart k s).1]
  rfl

/-- A task in another state has no slice. -/
theorem enterStep_not_ready {s : State} {pid : Nat} {k : Task} (hk : s.task? pid = some k) (hr : k.state ≠ .ready) :
    enterStep pid s = { s with hart := { (setContext k s).hart with phase := .release pid } } := by
  unfold enterStep
  simp only [hk, if_neg hr]
  rw [(setContext_hart k s).1]
  rfl

/-- Settles O13: the two forms of `enterStep`, with what `setContext` makes of the hart. -/
theorem enterSlice : Obligations.EnterSlice := by
  intro s pid k hphase hk
  obtain ⟨-, -, hx, hcur, -⟩ := setContext_hart k s
  refine ⟨fun hr => ⟨_, hartStep_acquired hphase, ?ready⟩, fun hr => ⟨_, hartStep_acquired hphase, ?other⟩⟩
  case ready =>
    rw [enterStep_ready hk hr]
    refine ⟨?_, fun q hq => task?_modTask_ne hq s Task.start, rfl, rfl, rfl, rfl, hcur, setContext_space k s,
      fun f b hm hb => setContext_block hm hb, rfl⟩
    exact (task?_modTask_same hk Task.start).trans (congrArg some (if_pos hr))
  case other =>
    rw [enterStep_not_ready hk hr]
    exact ⟨hx, setContext_pc k s, rfl, rfl⟩

/-! ### The end of a slice and the release -/

theorem hartStep_sliceEnd {s : State} {pid : Nat} {handled : Bool} (h : s.hart.phase = .sliceEnd pid handled) :
    hartStep s = .next (endSlice pid handled s) := by
  unfold hartStep
  rewrite [h]
  rfl

theorem hartStep_release {s : State} {pid : Nat} (h : s.hart.phase = .release pid) :
    hartStep s = .next (releaseStep pid s) := by
  unfold hartStep
  rewrite [h]
  rfl

/-- A RUNNING task becomes READY at its slice's end. -/
def stopRunning (k : Task) : Task := if k.state = .running then { k with state := .ready } else k

theorem endSlice_handled (pid : Nat) (s : State) :
    endSlice pid true s = (s.modTask pid stopRunning).goto (.release pid) := rfl

theorem endSlice_unhandled (pid : Nat) (s : State) :
    endSlice pid false s = ((saveState pid s).modTask pid stopRunning).goto (.release pid) := rfl

theorem stopRunning_eq (k : Task) :
    stopRunning k = { k with state := if k.state = .running then .ready else k.state } := by
  unfold stopRunning
  split <;> rfl

theorem releaseCpu_pc (pid : Nat) (s : State) : (releaseCpu pid s).hart.pc = s.hart.pc := by
  unfold releaseCpu
  dsimp only
  split <;> rfl

/-- In CONTIGUOUS mode the released hart's context is (0, RAM_SIZE). -/
theorem releaseCpu_context {s : State} {f : AllocStrategy} (hm : s.params.memMode = .contiguous f) (pid : Nat) :
    (releaseCpu pid s).hart.base = 0#32 ∧ (releaseCpu pid s).hart.limit = BitVec.ofNat 32 s.params.ramSize := by
  unfold releaseCpu
  simp only [hm, and_self]

theorem releaseCpu_task? {s : State} {pid : Nat} {k : Task} (hk : s.task? pid = some k) :
    (releaseCpu pid s).task? pid = some { k with activeHartId := none } := by
  rw [(releaseCpu_eq pid s).1]
  exact task?_modTask_same hk _

theorem releaseCpu_task?_ne {q pid : Nat} (hq : q ≠ pid) (s : State) : (releaseCpu pid s).task? q = s.task? q := by
  rw [(releaseCpu_eq pid s).1]
  exact task?_modTask_ne hq s _

theorem releaseCpu_sched (pid : Nat) (s : State) : (releaseCpu pid s).sched = s.sched := by
  rw [(releaseCpu_eq pid s).1]
  rfl

theorem releaseCpu_waits (pid : Nat) (s : State) : (releaseCpu pid s).waits = s.waits := by
  rw [(releaseCpu_eq pid s).1]
  rfl

/-- Settles O14: the end by the forms of `endSlice`; the release by `releaseCpu` and what dispatching leaves (`dispatch_spec`). -/
theorem endAndRelease : Obligations.EndAndRelease := by
  refine ⟨fun s pid handled k hphase hk => ⟨_, hartStep_sliceEnd hphase, ?ended⟩,
    fun s pid k hphase hk hlock => ⟨_, hartStep_release hphase, ?released⟩⟩
  case ended =>
    cases handled with
    | true =>
      rw [endSlice_handled]
      exact ⟨rfl, (task?_modTask_same hk _).trans (congrArg some (stopRunning_eq k)),
        fun q hq => task?_modTask_ne hq s _, rfl⟩
    | false =>
      rw [endSlice_unhandled]
      exact ⟨rfl, (task?_modTask_same (saveState_task? hk) _).trans (congrArg some (stopRunning_eq _)),
        fun q hq => (task?_modTask_ne hq _ _).trans (task?_modTask_ne hq _ _), rfl⟩
  case released =>
    obtain ⟨hframe, hx, -, hcur, hspace⟩ := releaseCpu_eq pid s
    obtain ⟨hown, hothers, hdispatch⟩ := dispatch_spec s.holder pid (releaseCpu pid s) _ (releaseCpu_task? hk)
      (by rw [releaseCpu_sched]; exact hlock)
    have hhart : (dispatchTask s.holder pid (releaseCpu pid s)).hart = (releaseCpu pid s).hart := by rw [hdispatch]
    unfold releaseStep
    refine ⟨hown, fun q hq hparent => (hothers q hparent).trans (releaseCpu_task?_ne hq s), ?_, rfl, ?_, ?_, ?_, ?_, ?_⟩
    · exact (congrArg Hart.curTask hhart).trans hcur
    · exact (congrArg Hart.x hhart).trans hx
    · exact (congrArg Hart.pc hhart).trans (releaseCpu_pc pid s)
    · exact (congrArg Hart.space hhart).trans hspace
    · intro f hm
      obtain ⟨hbase, hlimit⟩ := releaseCpu_context hm pid
      exact ⟨(congrArg Hart.base hhart).trans hbase, (congrArg Hart.limit hhart).trans hlimit⟩
    · rw [State.goto_hart, hhart]
      generalize dispatchTask s.holder pid (releaseCpu pid s) = u at hdispatch ⊢
      conv_lhs => rw [hdispatch, hframe]
      rfl

/-! ### Acquiring a task -/

theorem tryAcquireCpu_free {s : State} {pid : Nat} {k : Task} (hk : s.task? pid = some k) (hfree : k.activeHartId = none) :
    tryAcquireCpu pid s =
      (true, { s.modTask pid (fun u => { u with activeHartId := some s.hart.id }) with
        hart := { s.hart with curTask := some pid } }) := by
  unfold tryAcquireCpu
  simp only [hk, if_pos hfree]
  rfl

theorem tryAcquireCpu_held {s : State} {pid o : Nat} {k : Task} (hk : s.task? pid = some k) (hheld : k.activeHartId = some o) :
    tryAcquireCpu pid s = (false, s) := by
  unfold tryAcquireCpu
  simp [hk, hheld]

/-- Settles O15: the two answers of the compare-and-set; a task that is held has a record, so its acquisition panics. -/
theorem acquireOrPanic : Obligations.AcquireOrPanic := by
  refine ⟨fun s pid k hk hfree => ?free, fun s pid k o hk hheld => ⟨tryAcquireCpu_held hk hheld, fun hphase => ?panics⟩,
    fun s r hpanic => ?halted⟩
  case free =>
    rw [tryAcquireCpu_free hk hfree]
    exact ⟨rfl, task?_modTask_same hk _, fun q hq => task?_modTask_ne hq s _, rfl⟩
  case panics =>
    unfold hartStep
    rewrite [hphase]
    simp only [acquireStep, hk, tryAcquireCpu_held hk hheld]
  case halted =>
    unfold step machineStep
    rw [hpanic]

/-! ### The ready collection -/

theorem enqueue_of_mem {s : State} {pid : Nat} (h : pid ∈ s.sched.members) : enqueue pid s = s :=
  if_pos (by simp [h])

theorem enqueue_of_not_ready {s : State} {pid : Nat} (h : s.taskIs pid .ready = false) : enqueue pid s = s :=
  if_pos (by simp [h])

theorem enqueue_joins {s : State} {pid : Nat} (hn : pid ∉ s.sched.members) (hr : s.taskIs pid .ready = true) :
    enqueue pid s = { s with sched := { s.sched with ready := s.sched.ready ++ [pid], members := s.sched.members ++ [pid] } } :=
  if_neg (by simp [hn, hr])

/-- Settles O38: a task that is in or is not READY is not added; one that joins is then in the membership set, so that adding it
again changes nothing. -/
theorem addTaskOnce : Obligations.AddTaskOnce := by
  intro s who pid hlock hnodup hmem
  have hagain : ∀ u : State, u.sched.lock = none → enqueue pid u = u → addTask who pid u = u := fun u hu he =>
    (addTask_free who pid hu).trans he
  by_cases hjoin : pid ∉ s.sched.members ∧ s.taskIs pid .ready = true
  · obtain ⟨hn, hr⟩ := hjoin
    have hready : pid ∉ s.sched.ready := fun h => hn ((hmem pid).1 h)
    rw [addTask_free who pid hlock, enqueue_joins hn hr]
    refine ⟨hagain _ hlock (enqueue_of_mem (by simp)), ?_, fun p => ?_, fun p => ?_, fun _ _ => rfl⟩
    · simpa [List.nodup_append, hnodup] using fun a ha (e : a = pid) => hready (e ▸ ha)
    · simp [hmem]
    · simp [hr]
  · have hsame : enqueue pid s = s := by
      by_cases hn : pid ∈ s.sched.members
      · exact enqueue_of_mem hn
      · exact enqueue_of_not_ready (by simpa [hn] using hjoin)
    rw [hagain s hlock hsame]
    have hin : s.taskIs pid .ready = true → pid ∈ s.sched.ready := fun hr =>
      (hmem pid).2 (by simpa [hr] using hjoin)
    refine ⟨hagain s hlock hsame, hnodup, hmem, fun p => ⟨.inl, ?_⟩, fun hn hr => absurd (hin hr) hn⟩
    rintro (hp | ⟨rfl, hr⟩)
    · exact hp
    · exact hin hr

/-! ### Which task schedule() answers -/

/-- The more urgent of the task held so far and the next: the step of `mostUrgent`. -/
def keepUrgent (s : State) : Option Nat → Nat → Option Nat
  | none, p => some p
  | some b, p => if priorityOf s b < priorityOf s p then some p else some b

theorem mostUrgent_eq_foldl (s : State) (ready : List Nat) : mostUrgent s ready = ready.foldl (keepUrgent s) none := by
  unfold mostUrgent
  congr 1
  funext best p
  cases best <;> rfl

/-- In a list, a task of highest priority, and the first such. -/
def FirstUrgent (s : State) (ready : List Nat) (pid : Nat) : Prop :=
  ∃ before after, ready = before ++ pid :: after ∧
    (∀ q ∈ before, priorityOf s q < priorityOf s pid) ∧ ∀ q ∈ after, priorityOf s q ≤ priorityOf s pid

/-- From a task on, one is kept: the earliest of highest priority. -/
theorem foldl_keepUrgent (s : State) (l : List Nat) (b : Nat) :
    ∃ p, l.foldl (keepUrgent s) (some b) = some p ∧ FirstUrgent s (b :: l) p := by
  induction l generalizing b with
  | nil => exact ⟨b, rfl, [], [], rfl, nofun, nofun⟩
  | cons x l ih =>
    rw [List.foldl_cons, keepUrgent]
    by_cases hx : priorityOf s b < priorityOf s x
    · obtain ⟨p, hfold, before, after, hsplit, hlt, hle⟩ := ih x
      have hxp : priorityOf s x ≤ priorityOf s p := by
        rcases List.append_eq_cons_iff.1 hsplit.symm with ⟨-, hhead⟩ | ⟨rest, rfl, -⟩
        · exact le_of_eq (by rw [(List.cons.inj hhead).1])
        · exact le_of_lt (hlt x List.mem_cons_self)
      exact ⟨p, by rw [if_pos hx, hfold], b :: before, after, by rw [hsplit]; rfl,
        List.forall_mem_cons.2 ⟨lt_of_lt_of_le hx hxp, hlt⟩, hle⟩
    · obtain ⟨p, hfold, before, after, hsplit, hlt, hle⟩ := ih b
      refine ⟨p, by rw [if_neg hx, hfold], ?_⟩
      rcases List.append_eq_cons_iff.1 hsplit.symm with ⟨-, hhead⟩ | ⟨rest, rfl, rfl⟩
      · obtain ⟨rfl, rfl⟩ := List.cons.inj hhead
        exact ⟨[], x :: after, rfl, nofun, List.forall_mem_cons.2 ⟨not_lt.1 hx, hle⟩⟩
      · obtain ⟨hbp, hrest⟩ := List.forall_mem_cons.1 hlt
        exact ⟨b :: x :: rest, after, rfl,
          List.forall_mem_cons.2 ⟨hbp, List.forall_mem_cons.2 ⟨lt_of_le_of_lt (not_lt.1 hx) hbp, hrest⟩⟩, hle⟩

theorem mostUrgent_cons (s : State) (b : Nat) (l : List Nat) :
    ∃ p, mostUrgent s (b :: l) = some p ∧ FirstUrgent s (b :: l) p := by
  rw [mostUrgent_eq_foldl]
  exact foldl_keepUrgent s l b

theorem mostUrgent_none_iff {s : State} {ready : List Nat} : mostUrgent s ready = none ↔ ready = [] := by
  cases ready with
  | nil => exact ⟨fun _ => rfl, fun _ => rfl⟩
  | cons b l =>
    obtain ⟨p, hp, -⟩ := mostUrgent_cons s b l
    simp [hp]

theorem mostUrgent_first {s : State} {ready : List Nat} {pid : Nat} (h : mostUrgent s ready = some pid) :
    FirstUrgent s ready pid := by
  cases ready with
  | nil => cases h
  | cons b l =>
    obtain ⟨p, hp, hfirst⟩ := mostUrgent_cons s b l
    obtain rfl : p = pid := Option.some.inj (hp.symm.trans h)
    exact hfirst

theorem nextReady_none_iff {s : State} : nextReady s = none ↔ s.sched.ready = [] := by
  unfold nextReady
  split
  · exact List.head?_eq_none_iff
  · exact mostUrgent_none_iff
  · exact List.head?_eq_none_iff

/-- With the lock free, schedule() answers the next task and takes it out. -/
theorem schedule_free {s : State} (who : Holder) (h : s.sched.lock = none) :
    (schedule who s).1 = nextReady s ∧ ∀ pid, nextReady s = some pid → (schedule who s).2 = popReady pid s := by
  unfold schedule
  rw [h]
  cases nextReady s with
  | none => exact ⟨rfl, nofun⟩
  | some p => exact ⟨rfl, fun _ hp => by cases hp; rfl⟩

/-- Settles O39: with the lock free the answer is `nextReady`, which the scheduler's mode defines, and the pop is `popReady`. -/
theorem scheduleChoice : Obligations.ScheduleChoice := by
  intro s who hlock
  obtain ⟨hnext, hpop⟩ := schedule_free who hlock
  rw [hnext]
  refine ⟨nextReady_none_iff, fun n hmode => ?roundRobin, fun hmode => ?cooperative, fun n pid hmode hp => ?priority,
    fun pid hp => ?pop⟩
  case roundRobin | cooperative =>
    unfold nextReady timeSlice
    rw [hmode]
    exact ⟨rfl, rfl⟩
  case priority =>
    unfold nextReady at hp
    unfold timeSlice
    rw [hmode] at hp ⊢
    exact ⟨rfl, mostUrgent_first hp⟩
  case pop =>
    rw [hpop pid hp]
    exact ⟨rfl, by simp [popReady]⟩

/-! ### Dispatching a task -/

theorem dispatchTask_ready {who : Holder} {s : State} {pid : Nat} {k : Task} (hk : s.task? pid = some k) (hs : k.state = .ready) :
    dispatchTask who pid s = addTask who pid s := by
  unfold dispatchTask
  simp only [hk, hs]

theorem dispatchTask_waiting {who : Holder} {s : State} {pid : Nat} {k : Task} (hk : s.task? pid = some k)
    (hs : k.state = .waiting) : dispatchTask who pid s = enterQueue pid k s := by
  unfold dispatchTask
  simp only [hk, hs]

theorem dispatchTask_terminated {who : Holder} {s : State} {pid : Nat} {k : Task} (hk : s.task? pid = some k)
    (hs : k.state = .terminated) : dispatchTask who pid s = wakeParentOf who pid s := by
  unfold dispatchTask
  simp only [hk, hs]

theorem enterQueue_uartInput {s : State} {pid : Nat} {k : Task} (h : k.waitReason = .uartInput) :
    enterQueue pid k s = { s with waits := { s.waits with io := s.waits.io ++ [pid] } } := by
  unfold enterQueue
  simp only [h]

theorem enterQueue_timer {s : State} {pid : Nat} {k : Task} (h : k.waitReason = .timer) :
    enterQueue pid k s = { s with waits := { s.waits with sleep := s.waits.sleep ++ [(k.wakeupTime, pid)] } } := by
  unfold enterQueue
  simp only [h]

theorem enterQueue_anyChild {s : State} {pid : Nat} {k : Task} (h : k.waitReason = .processExit)
    (hc : k.waitingForPid = none) : enterQueue pid k s = { s with waits := { s.waits with io := s.waits.io ++ [pid] } } := by
  unfold enterQueue
  simp only [h, hc]

theorem enterQueue_child {s : State} {pid c : Nat} {k : Task} (h : k.waitReason = .processExit)
    (hc : k.waitingForPid = some c) :
    enterQueue pid k s = { s with waits := { s.waits with childTerm := assocSet s.waits.childTerm c pid } } := by
  unfold enterQueue
  simp only [h, hc]

/-- The queue a task enters does not depend on the hart its record names. -/
theorem enterQueue_released (s : State) (pid : Nat) (k : Task) :
    enterQueue pid { k with activeHartId := none } s = enterQueue pid k s := rfl

theorem waitsFor_iff {p : Task} {c : Nat} :
    p.waitsFor c = true ↔
      p.state = .waiting ∧ p.waitReason = .processExit ∧ (p.waitingForPid = none ∨ p.waitingForPid = some c) := by
  simp [Task.waitsFor, and_assoc]

/-- A task that is READY is in the ready collection after it is added, unless the membership set held it before. -/
theorem addTask_ready_or_member {who : Holder} {s : State} {pid : Nat} (hl : s.sched.lock = none)
    (hr : s.taskIs pid .ready = true) : pid ∈ (addTask who pid s).sched.ready ∨ pid ∈ s.sched.members := by
  rw [addTask_free who pid hl]
  by_cases hn : pid ∈ s.sched.members
  · exact .inr hn
  · rw [enqueue_joins hn hr]
    exact .inl (by simp)

/-- A woken parent that no hart holds is in the ready collection, unless the membership set held it before. -/
theorem wakeParentOf_ready_or_member {who : Holder} {s : State} {c pp : Nat} {p : Task} (hl : s.sched.lock = none)
    (hc : (s.task? c).bind (fun t => t.parent) = some pp) (hp : s.task? pp = some p) (hw : p.waitsFor c = true)
    (ha : p.activeHartId = none) : pp ∈ (wakeParentOf who c s).sched.ready ∨ pp ∈ s.sched.members := by
  unfold wakeParentOf
  simp only [hc, hp, if_pos hw, if_pos ha]
  refine addTask_ready_or_member (s := ({ s with waits := _ } : State).modTask pp Task.woken) hl ?_
  have hwoken : ∀ w, (({ s with waits := w } : State).modTask pp Task.woken).task? pp = some p.woken := fun w =>
    task?_modTask_same (s := { s with waits := w }) hp Task.woken
  exact State.taskIs_of (hwoken _) (by rw [Task.woken_waits hw])

/-- Settles O40: the release leaves the record naming no hart, and dispatching goes by that record's state. -/
theorem dispatchRoutes : Obligations.DispatchRoutes := by
  intro s pid k hphase hk hlock
  have hlock' : (releaseCpu pid s).sched.lock = none := by rw [releaseCpu_sched]; exact hlock
  have hk' := releaseCpu_task? hk
  obtain ⟨hown, -, -⟩ := dispatch_spec s.holder pid (releaseCpu pid s) _ hk' hlock'
  have hqueue : k.state = .waiting → dispatchTask s.holder pid (releaseCpu pid s) = enterQueue pid k (releaseCpu pid s) :=
    fun hst => (dispatchTask_waiting hk' hst).trans (enterQueue_released ..)
  refine ⟨_, hartStep_release hphase, rfl, hown, fun hst hn => ?ready, fun hst hr => ?input, fun hst hr => ?timer,
    fun hst hr hc => ?anyChild, fun c hst hr hc => ?child, fun pp parent hst hpp hne hparent hw hr hc => ?terminated⟩ <;>
    unfold releaseStep
  case ready =>
    rw [dispatchTask_ready hk' hst, addTask_free _ _ hlock', enqueue_joins (by rw [releaseCpu_sched]; exact hn)
      (State.taskIs_of hk' hst)]
    exact ⟨congrArg (fun c : Sched => c.ready ++ [pid]) (releaseCpu_sched pid s), releaseCpu_waits pid s⟩
  case input =>
    rw [hqueue hst, enterQueue_uartInput hr, releaseCpu_waits]
    exact ⟨rfl, releaseCpu_sched pid s⟩
  case timer =>
    rw [hqueue hst, enterQueue_timer hr, releaseCpu_waits]
    exact ⟨rfl, releaseCpu_sched pid s⟩
  case anyChild =>
    rw [hqueue hst, enterQueue_anyChild hr hc, releaseCpu_waits]
    exact ⟨rfl, releaseCpu_sched pid s⟩
  case child =>
    rw [hqueue hst, enterQueue_child hr hc, releaseCpu_waits]
    exact ⟨rfl, releaseCpu_sched pid s⟩
  case terminated =>
    rw [dispatchTask_terminated hk' hst]
    have hwaits : parent.waitsFor pid = true := waitsFor_iff.2 ⟨hw, hr, hc⟩
    have hof : ((releaseCpu pid s).task? pid).bind (fun t => t.parent) = some pp := by rw [hk']; exact hpp
    have hpar : (releaseCpu pid s).task? pp = some parent := (releaseCpu_task?_ne hne s).trans hparent
    have hwake := wakeParentOf_spec s.holder pid (releaseCpu pid s) hlock'
    obtain ⟨hrec, hio, hchild, -⟩ := hwake.parent pp parent hof hpar hwaits
    refine ⟨hrec.trans (congrArg some (Task.woken_waits hwaits)), hio, hchild, fun ha => ?_⟩
    rw [← releaseCpu_sched pid s]
    exact wakeParentOf_ready_or_member hlock' hof hpar hwaits ha

/-! ### The maintenance agent -/

/-- The state after the maintenance agent has woken the readers, before it wakes the sleepers. -/
def readersWoken (s : State) : State := if rxReady s then wakeReaders s.waits.io s else s

theorem maintain_running {s : State} (h : s.kernel.running = true) :
    maintain s = wakeSleepers (readersWoken s).waits.sleep.length (readersWoken s) :=
  if_neg (by simp [h])

theorem readersWoken_of_input {s : State} (h : s.io.rxq ≠ []) : readersWoken s = wakeReaders s.waits.io s :=
  if_pos (by simp [rxReady, h])

theorem readersWoken_of_no_input {s : State} (h : s.io.rxq = []) : readersWoken s = s :=
  if_neg (by simp [rxReady, h])

/-- Waking the readers leaves the sleepers, and who waits for something else; only a reader joins the ready collection. -/
theorem readersWoken_spec (s : State) :
    Woke s (readersWoken s) ∧ (readersWoken s).waits.sleep = s.waits.sleep ∧
      (∀ w k, s.task? w = some k → k.waitReason ≠ .uartInput → w ∈ s.waits.io → w ∈ (readersWoken s).waits.io) ∧
      ∀ p, p ∈ (readersWoken s).sched.ready → p ∈ s.sched.ready ∨ (s.io.rxq ≠ [] ∧ p ∈ s.waits.io) := by
  by_cases h : s.io.rxq = []
  · rw [readersWoken_of_no_input h]
    exact ⟨.refl s, rfl, fun _ _ _ _ => id, fun _ => .inl⟩
  · rw [readersWoken_of_input h]
    obtain ⟨hwoke, hsleep, -, hstay, -, hjoin⟩ := wakeReaders_spec s.waits.io s
    exact ⟨hwoke, hsleep, hstay, fun p hp => (hjoin p hp).imp_right fun hio => ⟨h, hio⟩⟩

/-- A record that has been woken stays as it is. -/
theorem woken_stays {s t : State} (h : Woke s t) {w : Nat} {k : Task} (hk : s.task? w = some k.woken) :
    t.task? w = some k.woken := by
  rcases h.recs w _ hk with hsame | hagain
  · exact hsame
  · rwa [Task.woken_woken] at hagain

theorem woken_ready {k : Task} (h : k.state = .waiting) : k.woken.state = .ready := by rw [Task.woken_waiting h]

/-- Settles O47: the readers are woken first (`wakeReaders_spec`), then the sleepers (`wakeSleepers_spec`), which undoes nothing of
the first. -/
theorem maintainWakes : Obligations.MaintainWakes := by
  intro s hrun
  rw [maintain_running hrun]
  obtain ⟨hwoke, hsleep, hwait, hreaders⟩ := readersWoken_spec s
  obtain ⟨hwoke', hio, hasleep, hlater, hdue, hsleepers⟩ := wakeSleepers_spec _ (readersWoken s) le_rfl
  generalize wakeSleepers _ (readersWoken s) = t at hwoke' hio hasleep hlater hdue hsleepers ⊢
  rw [hwoke.io, hsleep] at hasleep hlater hdue hsleepers
  refine ⟨fun w k hrx hw hk hst hr => ?reader, fun w k hw hk hr => ?other, fun hrx => ?noInput,
    fun w n k hw hn hk hst => ?sleeper, fun p hp => ?joined, hasleep, hlater⟩
  case reader =>
    obtain ⟨-, -, -, -, hread, -⟩ := wakeReaders_spec s.waits.io s
    rw [← readersWoken_of_input hrx] at hread
    obtain ⟨hrec, hout, hready⟩ := hread w k hw hk hr
    refine ⟨State.taskIs_of (woken_stays hwoke' hrec) (woken_ready hst), by rw [hio]; exact hout, fun hlock hmem => ?_⟩
    exact (hwoke'.mono (hwoke.lock.trans hlock) (hwoke.mono hlock hmem).1).2 w (hready hlock hmem (woken_ready hst))
  case other =>
    rw [hio]
    exact hwait w k hk hr hw
  case noInput => rw [hio, readersWoken_of_no_input hrx]
  case sleeper =>
    obtain ⟨k', hk', hkw⟩ : ∃ k', (readersWoken s).task? w = some k' ∧ k'.woken = k.woken := by
      rcases hwoke.recs w k hk with h | h
      · exact ⟨k, h, rfl⟩
      · exact ⟨k.woken, h, k.woken_woken⟩
    obtain ⟨hrec, hready⟩ := hdue (n, w) hw hn k' hk'
    rw [hkw] at hrec hready
    exact ⟨State.taskIs_of hrec (woken_ready hst), fun hlock hmem =>
      hready (hwoke.lock.trans hlock) (hwoke.mono hlock hmem).1 (woken_ready hst)⟩
  case joined =>
    rcases hsleepers p hp with h | h
    · exact (hreaders p h).imp_right .inl
    · exact .inr (.inr h)

/-! ### The host ends a task -/

/-- A live task ended and taken out of the scheduler and the queues. -/
def withdrawn (pid : Nat) (s : State) : State :=
  unqueue pid (dequeue pid (s.drawWord.2.modTask pid (fun u => u.exit s.drawWord.1)))

theorem terminateTask_live {s : State} {pid : Nat} {k : Task} (hk : s.task? pid = some k) (hs : k.state ≠ .terminated)
    (hl : s.sched.lock = none) :
    terminateTask pid s =
      if k.activeHartId = none then wakeParentOf .host pid (withdrawn pid s) else withdrawn pid s := by
  have hfree : (s.drawWord.2.modTask pid (fun u => u.exit s.drawWord.1)).sched.lock = none := by
    rw [drawWord_eq]
    exact hl
  unfold terminateTask
  simp only [hk, if_neg hs, removeTask_free .host pid hfree, withdrawn]

theorem withdrawn_eq (pid : Nat) (s : State) :
    withdrawn pid s = { s with
      kernel := { s.kernel with tasks := (withdrawn pid s).kernel.tasks }
      sched := (dequeue pid s).sched
      waits := (unqueue pid s).waits
      chance := { s.chance with script := (withdrawn pid s).chance.script, drawn := (withdrawn pid s).chance.drawn } } := by
  unfold withdrawn
  rw [drawWord_eq]
  rfl

/-- A task's record, and its places in the scheduler and in the queues but the sleep queue, are as they were. -/
def SamePlace (q : Nat) (s t : State) : Prop :=
  t.task? q = s.task? q ∧ (q ∈ t.sched.ready ↔ q ∈ s.sched.ready) ∧ (q ∈ t.sched.members ↔ q ∈ s.sched.members) ∧
    (q ∈ t.waits.io ↔ q ∈ s.waits.io) ∧ ∀ d, (d, q) ∈ t.waits.childTerm ↔ (d, q) ∈ s.waits.childTerm

theorem SamePlace.trans {q : Nat} {s t u : State} (h : SamePlace q s t) (k : SamePlace q t u) : SamePlace q s u := by
  obtain ⟨h1, h2, h3, h4, h5⟩ := h
  obtain ⟨k1, k2, k3, k4, k5⟩ := k
  exact ⟨k1.trans h1, k2.trans h2, k3.trans h3, k4.trans h4, fun d => (k5 d).trans (h5 d)⟩

theorem withdrawn_task? {s : State} {pid : Nat} {k : Task} (hk : s.task? pid = some k) :
    (withdrawn pid s).task? pid = some (k.exit s.drawWord.1) := by
  have hdrawn : s.drawWord.2.task? pid = some k := by rw [drawWord_eq]; exact hk
  exact task?_modTask_same hdrawn _

theorem withdrawn_out (pid : Nat) (s : State) :
    pid ∉ (withdrawn pid s).sched.ready ∧ pid ∉ (withdrawn pid s).sched.members ∧ (withdrawn pid s).waits.without pid := by
  rw [withdrawn_eq]
  exact ⟨fun h => (mem_dequeue_ready.1 h).2 rfl, fun h => (mem_dequeue_members.1 h).2 rfl,
    by simp [WaitQueues.without, unqueue]⟩

theorem withdrawn_samePlace {q pid : Nat} (hq : q ≠ pid) (s : State) : SamePlace q s (withdrawn pid s) := by
  have hrecord : (withdrawn pid s).task? q = s.task? q := by
    refine (task?_modTask_ne hq s.drawWord.2 _).trans ?_
    rw [drawWord_eq]
    rfl
  refine ⟨hrecord, ?_⟩
  rw [withdrawn_eq]
  exact ⟨mem_dequeue_ready.trans (and_iff_left hq), mem_dequeue_members.trans (and_iff_left hq), by simp [unqueue, hq],
    by simp [unqueue, hq]⟩

theorem mem_withdrawn_sleep {q pid n : Nat} (hq : q ≠ pid) (s : State) :
    (n, q) ∈ (withdrawn pid s).waits.sleep ↔ (n, q) ∈ s.waits.sleep := by
  rw [withdrawn_eq]
  simp [unqueue, hq]

/-- The ready collection goes on being the membership set. -/
theorem withdrawn_members {s : State} (h : ∀ p, p ∈ s.sched.ready ↔ p ∈ s.sched.members) (pid p : Nat) :
    p ∈ (withdrawn pid s).sched.ready ↔ p ∈ (withdrawn pid s).sched.members := by
  rw [withdrawn_eq]
  exact mem_dequeue_ready.trans ((and_congr_left fun _ => h p).trans mem_dequeue_members.symm)

/-- Ending a live task: it is withdrawn, and then at most its parent is woken, where no hart holds it. -/
structure EndsTask (pid : Nat) (k : Task) (s t : State) : Prop where
  others : ∀ q, (k.activeHartId ≠ none ∨ k.parent ≠ some q ∨ ∀ r, (withdrawn pid s).task? q = some r → r.waitsFor pid = false) →
    SamePlace q (withdrawn pid s) t
  parent : ∀ pp p, k.activeHartId = none → k.parent = some pp → (withdrawn pid s).task? pp = some p → p.waitsFor pid = true →
    t.task? pp = some p.woken ∧ pp ∉ t.waits.io ∧ (∀ e ∈ t.waits.childTerm, e.2 ≠ pp) ∧
      (p.activeHartId = none → (∀ q, q ∈ s.sched.ready ↔ q ∈ s.sched.members) → pp ∈ t.sched.ready)
  sleep : t.waits.sleep = (withdrawn pid s).waits.sleep
  lock : t.sched.lock = none
  rest : t = { withdrawn pid s with
    kernel := { (withdrawn pid s).kernel with tasks := t.kernel.tasks }, sched := t.sched, waits := t.waits }

theorem terminateTask_endsTask {s : State} {pid : Nat} {k : Task} (hk : s.task? pid = some k) (hs : k.state ≠ .terminated)
    (hl : s.sched.lock = none) : EndsTask pid k s (terminateTask pid s) := by
  have hlock : (withdrawn pid s).sched.lock = none := by rw [withdrawn_eq]; exact hl
  rw [terminateTask_live hk hs hl]
  split
  · rename_i hfree
    have hparent : ((withdrawn pid s).task? pid).bind (fun t => t.parent) = k.parent := by rw [withdrawn_task? hk]; rfl
    have hwake := wakeParentOf_spec .host pid (withdrawn pid s) hlock
    exact ⟨fun q hq => hwake.others q (by rw [hparent]; exact hq.resolve_left (not_not_intro hfree)),
      fun pp p _ hpp hp hw => by
        obtain ⟨hrec, hio, hchild, hready⟩ := hwake.parent pp p (hparent.trans hpp) hp hw
        exact ⟨hrec, hio, hchild, fun ha hmem => hready ha (withdrawn_members hmem pid)⟩,
      hwake.sleep, hwake.lock, hwake.rest⟩
  · rename_i hheld
    exact ⟨fun _ _ => ⟨rfl, .rfl, .rfl, .rfl, fun _ => .rfl⟩, fun _ _ hfree => absurd hfree hheld, rfl, hlock, rfl⟩

/-- Settles O48: a live task is withdrawn, which touches it alone, and then its parent may be woken (`EndsTask`); another is left
alone by the first two tests. -/
theorem terminateTask : Obligations.TerminateTask := by
  refine fun s pid => ⟨fun k hk hs hparent hl => ?live, fun k hk hs => ?ended, fun hn => ?unknown⟩
  case ended =>
    unfold Machine.terminateTask
    simp only [hk, if_pos hs]
  case unknown =>
    unfold Machine.terminateTask
    simp only [hn]
  case live =>
    have hends := terminateTask_endsTask hk hs hl
    generalize Machine.terminateTask pid s = t at hends ⊢
    obtain ⟨hrecord, hready, hmembers, hio, hchild⟩ := hends.others pid (.inr (.inl hparent))
    obtain ⟨houtReady, houtMembers, houtIo, houtSleep, houtChild⟩ := withdrawn_out pid s
    refine ⟨⟨_, hrecord.trans (withdrawn_task? hk)⟩, fun h => houtReady (hready.1 h), fun h => houtMembers (hmembers.1 h),
      hends.lock, fun h => houtIo (hio.1 h), by rw [hends.sleep]; exact houtSleep, ?child,
      fun pp p hfree hpp hp hst hr hc => ?parent, fun q hq hcond => ?others, ?rest⟩
    case child =>
      rintro ⟨d, q⟩ he rfl
      exact houtChild (d, q) ((hchild d).1 he) rfl
    case parent =>
      have hne : pp ≠ pid := fun e => hparent (e ▸ hpp)
      have hwaits : p.waitsFor pid = true := waitsFor_iff.2 ⟨hst, hr, hc⟩
      have hp' : (withdrawn pid s).task? pp = some p := (withdrawn_samePlace hne s).1.trans hp
      rw [← Task.woken_waits hwaits]
      exact hends.parent pp p hfree hpp hp' hwaits
    case others =>
      have hsame := withdrawn_samePlace hq s
      obtain ⟨h1, h2, h3, h4, h5⟩ := hsame.trans (hends.others q (by rw [hsame.1]; exact hcond))
      exact ⟨h1, h2, h3, h4, fun n => by rw [hends.sleep]; exact mem_withdrawn_sleep hq s, h5⟩
    case rest =>
      have hchance : t.chance = (withdrawn pid s).chance := by rw [hends.rest]
      rw [hchance]
      conv_lhs => rw [hends.rest, withdrawn_eq]

end Sys2Proof.Proofs
end

section
/-! Proofs of the statements of spec/62_syscalls.md: the saved a7 selects the syscall, and each is read off what its accesses,
its copy or its zombie make of the state, with the caller's record changed on top of it. -/

namespace Sys2Proof.Proofs

open Machine

/-! ### The syscall of a number -/

section

variable {who : Holder} {pid : Nat} {s : State} {k : Task} (hk : s.task? pid = some k)
include hk

theorem syscall_read (h : k.regs[17] = 63#32) : syscall who pid s = sysRead pid k s := by
  rw [syscall_eq hk, show k.reg a7 = 63#32 from h]; rfl

theorem syscall_write (h : k.regs[17] = 64#32) : syscall who pid s = sysWrite pid k s := by
  rw [syscall_eq hk, show k.reg a7 = 64#32 from h]; rfl

theorem syscall_exit (h : k.regs[17] = 93#32) : syscall who pid s = sysExit pid k s := by
  rw [syscall_eq hk, show k.reg a7 = 93#32 from h]; rfl

theorem syscall_yield (h : k.regs[17] = 124#32) : syscall who pid s = sysYield pid s := by
  rw [syscall_eq hk, show k.reg a7 = 124#32 from h]; rfl

theorem syscall_getPid (h : k.regs[17] = 172#32) : syscall who pid s = sysGetPid pid s := by
  rw [syscall_eq hk, show k.reg a7 = 172#32 from h]; rfl

theorem syscall_fork (h : k.regs[17] = 220#32) : syscall who pid s = sysFork who pid k s := by
  rw [syscall_eq hk, show k.reg a7 = 220#32 from h]; rfl

theorem syscall_exec (h : k.regs[17] = 221#32) : syscall who pid s = sysExec pid k s := by
  rw [syscall_eq hk, show k.reg a7 = 221#32 from h]; rfl

theorem syscall_wait (h : k.regs[17] = 260#32) : syscall who pid s = sysWait pid k s := by
  rw [syscall_eq hk, show k.reg a7 = 260#32 from h]; rfl

theorem syscall_debugPrint (h : k.regs[17] = 1000#32) :
    syscall who pid s = if s.params.debugPrintEnabled then sysDebugPrint pid k s else sysUnknown pid s := by
  rw [syscall_eq hk, show k.reg a7 = 1000#32 from h]; rfl

theorem syscall_getTime (h : k.regs[17] = 1001#32) : syscall who pid s = sysGetTime pid s := by
  rw [syscall_eq hk, show k.reg a7 = 1001#32 from h]; rfl

theorem syscall_sleep (h : k.regs[17] = 1002#32) : syscall who pid s = sysSleep pid k s := by
  rw [syscall_eq hk, show k.reg a7 = 1002#32 from h]; rfl

theorem syscall_unknown (h : k.regs[17] ∉ [63#32, 64#32, 93#32, 124#32, 172#32, 220#32, 221#32, 260#32, 1000#32, 1001#32,
    1002#32]) : syscall who pid s = sysUnknown pid s := by
  have hnum : ∀ n : Word, n ∈ [63#32, 64#32, 93#32, 124#32, 172#32, 220#32, 221#32, 260#32, 1000#32, 1001#32, 1002#32] →
      (k.reg a7).toNat ≠ n.toNat := fun n hn e => h ((BitVec.eq_of_toNat_eq e : k.regs[17] = n) ▸ hn)
  simp only [List.forall_mem_cons, BitVec.toNat_ofNat, Nat.reducePow, Nat.reduceMod] at hnum
  simp [syscall_eq hk, hnum]

end

/-! ### The caller's record after a syscall -/

/-- A change of one record, after draws at most, by what it makes of the caller's. -/
theorem taskBecomes_of_eq {s u : State} {pid : Nat} {k k' : Task} {f : Task → Task} (hf : f k = k') (hk : s.task? pid = some k)
    (hu : u = { s with chance := { s.chance with script := u.chance.script, drawn := u.chance.drawn } }) :
    TaskBecomes s (u.modTask pid f) pid k' :=
  hf ▸ .modTask f hk hu

/-- An access leaves every task's record. -/
theorem task?_access {s u : State} (h : AccessStep s u) (q : Nat) : u.task? q = s.task? q :=
  State.task?_congr (congrArg Kernel.tasks h.kernel) q

/-- A syscall that answers v where its access ends changes the caller's a0 alone on top of that state. -/
theorem returns_after {s u : State} {pid : Nat} {k : Task} {v : Word} {o : SysRes} (haccess : AccessStep s u)
    (hk : s.task? pid = some k) (hcall : o = .next (setRet pid v u)) :
    ∃ t, o = .next t ∧ TaskBecomes u t pid { k with regs := k.regs.set 10 v } :=
  ⟨_, hcall, .setRet v ((task?_access haccess pid).trans hk)⟩

/-- A record of choices with the same agenda and turns is the same but for its draws. -/
theorem chance_draws {c d : Chance} (ha : d.agenda = c.agenda) (ht : d.turns = c.turns) :
    d = { c with script := d.script, drawn := d.drawn } := by
  obtain ⟨script, drawn, agenda, turns⟩ := d
  obtain rfl : agenda = _ := ha
  obtain rfl : turns = _ := ht
  rfl

/-! ### Syscalls that change the caller's record alone -/

/-- Settles O41: each of them ends in one change of the caller's record (`TaskBecomes.modTask`). -/
theorem taskSyscalls : Obligations.TaskSyscalls := by
  intro s who pid k hk
  refine ⟨fun h => ⟨_, syscall_exit hk h, .modTask _ hk rfl⟩, fun h => ⟨_, syscall_getPid hk h, .setRet _ hk⟩,
    fun h => ⟨_, syscall_getTime hk h, ?time⟩, fun h => ⟨_, syscall_unknown hk h, .setRet _ hk⟩,
    fun h hoff => ⟨_, (syscall_debugPrint hk h).trans (if_neg (by simp [hoff])), .setRet _ hk⟩,
    fun h hfd => ⟨_, (syscall_read hk h).trans (if_pos hfd), .setRet _ hk⟩,
    fun h hout herr => ⟨_, (syscall_write hk h).trans (if_neg (not_or.2 ⟨hout, herr⟩)), .setRet _ hk⟩⟩
  case time =>
    have hlow : BitVec.ofNat 32 (s.io.clock % 2 ^ 32) = BitVec.ofNat 32 s.io.clock := BitVec.eq_of_toNat_eq (by simp)
    rw [hlow]
    exact .setRet _ hk

/-! ### Syscalls that give the hart up -/

/-- A task that has not ended goes to the state it is sent to. -/
theorem goTo_live {k : Task} (h : k.state ≠ .terminated) (st : TaskState) (why : WaitReason) :
    k.goTo st why = { k with state := st, waitReason := why } :=
  if_neg h

theorem mem_zombies_iff {s : State} {k : Task} {c : Nat} :
    c ∈ zombies s k ↔ c ∈ k.children ∧ ∃ z, s.task? c = some z ∧ z.state = .terminated ∧ z.activeHartId = none := by
  unfold zombies
  rw [List.mem_filter]
  cases hz : s.task? c with
  | none => simp
  | some z => simp

theorem zombies_eq_nil {s : State} {k : Task}
    (h : ∀ c ∈ k.children, ∀ z, s.task? c = some z → z.state = .terminated → z.activeHartId ≠ none) : zombies s k = [] :=
  List.eq_nil_iff_forall_not_mem.2 fun _ hc =>
    have ⟨hchild, z, hz, hended, hfree⟩ := mem_zombies_iff.1 hc
    h _ hchild z hz hended hfree

theorem sysRead_empty {pid : Nat} {s : State} {k : Task} (hfd : k.regs[10] = 0#32) (hempty : s.io.rxq = []) :
    sysRead pid k s = .next (s.modTask pid (fun t => (t.goTo .waiting .uartInput).rewind)) :=
  (if_neg (not_not.2 hfd)).trans (if_pos (by simp [rxReady, hempty]))

theorem sysWait_no_zombie {pid : Nat} {s : State} {k : Task} (hz : zombies s k = []) :
    sysWait pid k s =
      if k.children = [] then .next (setRet pid minusOne s)
      else .next (s.modTask pid (fun u => ({ u with waitingForPid := none }.goTo .waiting .processExit).rewind)) := by
  unfold sysWait
  rw [hz]
  rfl

/-- Settles O42: each changes the caller's record, which has not ended, after the draw of a0 at most; WAIT finds no zombie. -/
theorem blockingSyscalls : Obligations.BlockingSyscalls := by
  intro s who pid k hk hlive
  refine ⟨fun h => ⟨_, s.drawWord.1, syscall_yield hk h, taskBecomes_of_eq ?yield hk (drawWord_eq s)⟩,
    fun h => ⟨_, s.drawWord.1, syscall_sleep hk h, taskBecomes_of_eq ?sleep hk (drawWord_eq s)⟩,
    fun h hfd hempty => ⟨_, (syscall_read hk h).trans (sysRead_empty hfd hempty), taskBecomes_of_eq ?read hk rfl⟩,
    fun h hchildren hz => ⟨_, (syscall_wait hk h).trans
      ((sysWait_no_zombie (zombies_eq_nil hz)).trans (if_neg hchildren)), taskBecomes_of_eq ?wait hk rfl⟩,
    fun h hnone => ⟨_, (syscall_wait hk h).trans
      ((sysWait_no_zombie (by simp [zombies, hnone])).trans (if_pos hnone)), .setRet _ hk⟩⟩
  case yield => exact congrArg (fun u : Task => u.setReg a0 s.drawWord.1) (goTo_live hlive .ready k.waitReason)
  case sleep =>
    exact congrArg (fun u : Task => u.setReg a0 s.drawWord.1)
      (goTo_live (k := { k with wakeupTime := s.io.clock + (k.reg a0).toNat }) hlive .waiting .timer)
  case read => exact congrArg Task.rewind (goTo_live hlive .waiting .uartInput)
  case wait =>
    exact congrArg Task.rewind (goTo_live (k := { k with waitingForPid := none }) hlive .waiting .processExit)

/-! ### WAIT -/

/-- A choice takes a draw at most. -/
theorem choose_draws {α : Type} {s s1 : State} {l : List α} {a : α} (h : s.choose l = some (a, s1)) :
    a ∈ l ∧ s1 = { s with chance := { s.chance with script := s1.chance.script, drawn := s1.chance.drawn } } := by
  obtain ⟨hmem, c, hc⟩ := choose_eq h
  obtain ⟨hstep, -⟩ := PagingStep.choose h
  obtain rfl : s1 = { s with chance := c } := hc
  exact ⟨hmem, congrArg (fun d => { s with chance := d }) (chance_draws hstep.agenda hstep.turns)⟩

theorem sysWait_zombie {pid c : Nat} {s s1 : State} {k : Task} (h : s.choose (zombies s k) = some (c, s1)) :
    sysWait pid k s =
      if k.reg a0 = 0#32 then .next (reap pid c s1)
      else
        match memWrite (hartCtx s1) (k.reg a0) 4 (exitCodeOf s1 c) s1 with
        | .ok _ u => .next (reap pid c u)
        | .fail _ u => .next (setRet pid minusOne u)
        | .refuse r => .refused r := by
  unfold sysWait
  rw [h] <;> rfl

theorem exitCodeOf_some {s : State} {c : Nat} {z : Task} (h : s.task? c = some z) : exitCodeOf s c = z.exitCode := by
  unfold exitCodeOf
  rw [h]

/-- Settles O45: the child is the zombie that WAIT chooses; it is reaped in the state in which the write of its exit code ends
(`reap_reaped`). -/
theorem waitReaps : Obligations.WaitReaps := by
  intro s who pid k hk h hself ⟨c₀, hc₀, hz₀⟩
  obtain ⟨⟨c, s1⟩, hchoose⟩ := s.choose_isSome (List.ne_nil_of_mem (mem_zombies_iff.2 ⟨hc₀, hz₀⟩))
  obtain ⟨hmem, hs1⟩ := choose_draws hchoose
  obtain ⟨hc, z, hz, hended, hfree⟩ := mem_zombies_iff.1 hmem
  have htasks : ∀ q, s1.task? q = s.task? q := State.task?_congr (by rw [hs1])
  have hne : c ≠ pid := fun e => hself (e ▸ hc)
  have hk1 : s1.task? pid = some k := (htasks pid).trans hk
  have hz1 : s1.task? c = some z := (htasks c).trans hz
  have hcall : syscall who pid s = _ := (syscall_wait hk h).trans (sysWait_zombie hchoose)
  refine ⟨s1, c, z, hs1, hc, hz, hended, hfree, fun hnull => ?null, fun hptr => ?pointer⟩
  case null => exact ⟨_, hcall.trans (if_pos hnull), reap_reaped s1 pid c k z hk1 hz1 hne⟩
  case pointer =>
    have hwrite := hcall.trans (if_neg hptr)
    have haccess := AccessStep.memWrite (hartCtx s1) k.regs[10] 4 z.exitCode s1
    rw [exitCodeOf_some hz1, show k.reg a0 = k.regs[10] from rfl] at hwrite
    cases hend : memWrite (hartCtx s1) k.regs[10] 4 z.exitCode s1 with
    | ok _ u =>
      rw [hend] at hwrite haccess
      exact ⟨_, hwrite, reap_reaped u pid c k z ((task?_access haccess pid).trans hk1) ((task?_access haccess c).trans hz1) hne⟩
    | fail _ u =>
      rw [hend] at hwrite haccess
      exact returns_after haccess hk1 hwrite
    | refuse r =>
      rw [hend] at hwrite
      exact hwrite

/-! ### READ, WRITE and DEBUG_PRINT -/

theorem readRx_byte {s : State} {b : Byte} {rest : List Byte} (h : s.io.rxq = b :: rest) :
    readRx s = (b, { s with io := { s.io with rxq := rest } }) := by
  unfold readRx
  rw [h]

theorem sysRead_byte {pid : Nat} {s : State} {k : Task} {b : Byte} {rest : List Byte} (hfd : k.regs[10] = 0#32)
    (hrx : s.io.rxq = b :: rest) :
    sysRead pid k s =
      match memWrite (hartCtx s) (k.reg a1) 1 (b.setWidth 32) { s with io := { s.io with rxq := rest } } with
      | .ok _ u => .next (setRet pid 1#32 u)
      | .fail _ u => .next (setRet pid minusOne u)
      | .refuse r => .refused r := by
  refine (if_neg (not_not.2 hfd)).trans ((if_neg (by simp [rxReady, hrx])).trans ?_)
  rw [readRx_byte hrx]
  rfl

/-- WRITE after the bytes of a text. -/
theorem sysWrite_text {pid n : Nat} {s u : State} {k : Task} {bs : List Byte} (hfd : k.regs[10] = 1#32 ∨ k.regs[10] = 2#32)
    (h : EmitsText k.regs[11] bs s u) (hn : k.regs[12].toNat = bs.length + n) :
    sysWrite pid k s = writeLoop pid k.regs[11] n bs.length u := by
  have hstart : EmitsText (k.regs[11] + BitVec.ofNat 32 0) bs s u := by simpa using h
  refine (if_pos hfd).trans ?_
  rw [show (k.reg a2).toNat = _ from hn, show k.reg a1 = k.regs[11] from rfl, (writeLoop_text hstart n).1, Nat.zero_add]

theorem emitsText_frame {va : Word} {bs : List Byte} {s u : State} (h : EmitsText va bs s u) :
    u.io.stdout = s.io.stdout ++ bs ∧ u.kernel = s.kernel :=
  (writeLoop_text (pid := 0) (buf := va) (k := 0) (by simpa using h) 0).2

/-- After the bytes of a text the loop of strings makes one more read, which ends it unless it answers another byte. -/
theorem readString_after_text {c : Ctx} {va : Word} {bs : List Byte} {s u : State} {n : Nat} (h : ReadsText c va bs s u)
    (hn : bs.length < n) :
    ∃ m, readString c n va [] s =
      ((memRead c (va + BitVec.ofNat 32 bs.length) 1 u).mapFail (fun _ => ())).andThen (fun v u1 =>
        if v.setWidth 8 = 0#8 then .ok bs u1
        else readString c m (va + BitVec.ofNat 32 bs.length + 1#32) (bs ++ [v.setWidth 8]) u1) := by
  obtain ⟨m, rfl⟩ := Nat.exists_eq_add_of_lt hn
  refine ⟨m, ?_⟩
  rw [Nat.add_assoc, readString_text h, List.nil_append]
  rfl

theorem readString_full {c : Ctx} {va : Word} {bs : List Byte} {s u : State} (h : ReadsText c va bs s u) :
    readString c bs.length va [] s = .fail () u :=
  readString_text h 0 []

theorem sysDebugPrint_ok {pid : Nat} {k : Task} {s u : State} {bs : List Byte}
    (h : readString (hartCtx s) debugPrintMax (k.reg a0) [] s = .ok bs u) :
    sysDebugPrint pid k s =
      .next (setRet pid ({ u with io := { u.io with hostLog := u.io.hostLog ++ bs } } : State).drawWord.1
        ({ u with io := { u.io with hostLog := u.io.hostLog ++ bs } } : State).drawWord.2) := by
  unfold sysDebugPrint
  rw [h]

theorem sysDebugPrint_fail {pid : Nat} {k : Task} {s u : State}
    (h : readString (hartCtx s) debugPrintMax (k.reg a0) [] s = .fail () u) :
    sysDebugPrint pid k s = .next (setRet pid minusOne u) := by
  unfold sysDebugPrint
  rw [h]

theorem sysDebugPrint_refuse {pid : Nat} {k : Task} {s : State} {r : Refusal}
    (h : readString (hartCtx s) debugPrintMax (k.reg a0) [] s = .refuse r) : sysDebugPrint pid k s = .refused r := by
  unfold sysDebugPrint
  rw [h]

/-! ### EXEC -/

/-- Undoing a build leaves the draws it took. -/
theorem undoBuild_draws {u w : State} (h : SpaceStep u w) :
    undoBuild u w = { u with chance := { u.chance with script := w.chance.script, drawn := w.chance.drawn } } :=
  congrArg (fun c => { u with chance := c }) (chance_draws h.agenda h.turns)

/-- The caller's record with its new image. -/
def withImage (img : Nat × Word × Word) (args : List (List Byte)) (w : State) (k : Task) : Task :=
  { ((k.setReg sp img.2.2).setReg a1 img.2.2).setReg a0 (BitVec.ofNat 32 args.length) with
    pc := img.2.1, space := img.1, stackBase := stackBaseOf w, stackSize := userStackSize }

/-- A record changed and a memory destroyed, in a state w with the records of s. -/
theorem destroySpace_modTask {s w : State} {pid : Nat} {k : Task} (f : Task → Task) (h : Nat) (hk : s.task? pid = some k)
    (hw : ∀ q, w.task? q = s.task? q) :
    (destroySpace h (w.modTask pid f)).task? pid = some (f k) ∧
      (∀ q, q ≠ pid → (destroySpace h (w.modTask pid f)).task? q = s.task? q) ∧
      SpaceGone w (destroySpace h (w.modTask pid f)) h ∧
      destroySpace h (w.modTask pid f) =
        { w with kernel := { w.kernel with tasks := (destroySpace h (w.modTask pid f)).kernel.tasks },
                 paging := (destroySpace h (w.modTask pid f)).paging,
                 contig := (destroySpace h (w.modTask pid f)).contig } := by
  obtain ⟨hgone, p, c, hafter⟩ := destroySpace_gone h (w.modTask pid f)
  have htasks : ∀ q, (destroySpace h (w.modTask pid f)).task? q = (w.modTask pid f).task? q :=
    State.task?_congr (by rw [hafter])
  refine ⟨(htasks pid).trans (task?_modTask_same ((hw pid).trans hk) _),
    fun q hq => (htasks q).trans ((task?_modTask_ne hq ..).trans (hw q)), hgone, ?_⟩
  rw [hafter]
  rfl

theorem sysExec_unread {pid : Nat} {k : Task} {s u : State}
    (h : readExecArgs (hartCtx s) k.regs[10] k.regs[11] s = .fail () u) : sysExec pid k s = .next (setRet pid minusOne u) := by
  unfold sysExec
  rw [show readExecArgs (hartCtx s) (k.reg a0) (k.reg a1) s = _ from h]

theorem sysExec_refused {pid : Nat} {k : Task} {s : State} {r : Refusal}
    (h : readExecArgs (hartCtx s) k.regs[10] k.regs[11] s = .refuse r) : sysExec pid k s = .refused r := by
  unfold sysExec
  rw [show readExecArgs (hartCtx s) (k.reg a0) (k.reg a1) s = _ from h]

/-- EXEC once path and arguments are read: by how the build of the image ends. -/
theorem sysExec_read {pid : Nat} {k : Task} {s u : State} {a : List Byte × List (List Byte)}
    (h : readExecArgs (hartCtx s) k.regs[10] k.regs[11] s = .ok a u) :
    sysExec pid k s =
      match buildImage pid a.1 a.2 u with
      | .fail _ w => .next (setRet pid minusOne (undoBuild u w))
      | .refuse r => .refused r
      | .ok img w => .next (destroySpace k.space (w.modTask pid (withImage img a.2 w))) := by
  obtain ⟨path, args⟩ := a
  unfold sysExec
  rw [show readExecArgs (hartCtx s) (k.reg a0) (k.reg a1) s = _ from h]
  dsimp only
  cases buildImage pid path args u <;> rfl

/-- Settles O46: each syscall ends in the state of its last access, or in that of the image built, with the caller's record
changed on top of it. -/
theorem memorySyscalls : Obligations.MemorySyscalls := by
  intro s who pid k hk
  refine ⟨fun h hfd b rest hrx => ?read, fun h hfd bs u hemits => ?write, fun h hon bs u htext => ?debugPrint,
    fun h => ⟨fun c va bs u => textAt_iff c va bs s u, ?exec⟩⟩
  case read =>
    have hcall := (syscall_read (who := who) hk h).trans (sysRead_byte hfd hrx)
    have haccess := AccessStep.memWrite (hartCtx s) k.regs[11] 1 (b.setWidth 32) { s with io := { s.io with rxq := rest } }
    rw [show k.reg a1 = k.regs[11] from rfl] at hcall
    cases hend : memWrite (hartCtx s) k.regs[11] 1 (b.setWidth 32) { s with io := { s.io with rxq := rest } } with
    | ok _ u =>
      rw [hend] at hcall haccess
      exact returns_after haccess hk hcall
    | fail _ u =>
      rw [hend] at hcall haccess
      exact ⟨_, hcall, congrArg HostIo.rxq (memWrite_fail hend).io, .setRet _ ((task?_access haccess pid).trans hk)⟩
    | refuse r =>
      rw [hend] at hcall
      exact hcall
  case write =>
    obtain ⟨hout, hkernel⟩ := emitsText_frame hemits
    have hku : u.task? pid = some k := (State.task?_congr (congrArg Kernel.tasks hkernel) pid).trans hk
    refine ⟨hout, fun hlen => ?_, fun hlen => ?_⟩
    · exact ⟨_, (syscall_write hk h).trans (sysWrite_text (n := 0) hfd hemits hlen.symm), .setRet _ hku⟩
    · obtain ⟨n, hn⟩ := Nat.exists_eq_add_of_lt hlen
      have hcall := (syscall_write (who := who) hk h).trans (sysWrite_text (n := n + 1) hfd hemits hn)
      have haccess := AccessStep.memRead (hartCtx u) (k.regs[11] + BitVec.ofNat 32 bs.length) 1 u
      unfold writeLoop at hcall
      cases hend : memRead (hartCtx u) (k.regs[11] + BitVec.ofNat 32 bs.length) 1 u with
      | ok v u1 =>
        rw [hend] at hcall haccess
        exact fun hnul => returns_after haccess hku (hcall.trans (if_pos hnul))
      | fail _ u1 =>
        rw [hend] at hcall haccess
        exact returns_after haccess hku hcall
      | refuse r =>
        rw [hend] at hcall
        exact hcall
  case debugPrint =>
    have hcall := (syscall_debugPrint (who := who) hk h).trans (if_pos hon)
    have hku : u.task? pid = some k := (task?_access (readsText_step htext) pid).trans hk
    refine ⟨fun hlen => ?_, fun hlen => ?_⟩
    · have haccess := AccessStep.memRead (hartCtx s) (k.regs[10] + BitVec.ofNat 32 bs.length) 1 u
      obtain ⟨m, hread⟩ := readString_after_text (n := debugPrintMax) htext (Nat.lt_succ_of_le hlen)
      cases hend : memRead (hartCtx s) (k.regs[10] + BitVec.ofNat 32 bs.length) 1 u with
      | ok v u1 =>
        rw [hend] at hread haccess
        exact fun hnul => ⟨_, _, hcall.trans (sysDebugPrint_ok (hread.trans (if_pos hnul))),
          .modTask _ ((task?_access haccess pid).trans hku) (drawWord_eq _)⟩
      | fail _ u1 =>
        rw [hend] at hread haccess
        exact returns_after haccess hku (hcall.trans (sysDebugPrint_fail hread))
      | refuse r =>
        rw [hend] at hread
        exact hcall.trans (sysDebugPrint_refuse hread)
    · have hfull := readString_full htext
      rw [hlen] at hfull
      exact ⟨_, hcall.trans (sysDebugPrint_fail hfull), .setRet _ hku⟩
  case exec =>
    have hcall := syscall_exec (who := who) hk h
    have hargs := AccessStep.readExecArgs (hartCtx s) k.regs[10] k.regs[11] s
    cases hread : readExecArgs (hartCtx s) k.regs[10] k.regs[11] s with
    | fail _ u =>
      rw [hread] at hargs
      exact returns_after hargs hk (hcall.trans (sysExec_unread hread))
    | refuse r => exact hcall.trans (sysExec_refused hread)
    | ok a u =>
      rw [hread] at hargs
      have hku : u.task? pid = some k := (task?_access hargs pid).trans hk
      have hbuild := LoaderStep.buildImage pid a.1 a.2 u
      replace hcall := hcall.trans (sysExec_read hread)
      dsimp only
      cases hend : buildImage pid a.1 a.2 u with
      | fail _ w =>
        rw [hend] at hcall hbuild
        exact ⟨_, hcall, .modTask _ hku (undoBuild_draws (hbuild : LoaderStep u w).toSpaceStep)⟩
      | refuse r =>
        rw [hend] at hcall
        exact hcall
      | ok img w =>
        rw [hend] at hcall hbuild
        have hw : LoaderStep u w := hbuild
        exact ⟨_, hcall, destroySpace_modTask (withImage img a.2 w) k.space hk fun q =>
          (State.task?_congr (congrArg Kernel.tasks hw.kernel :) q).trans (task?_access hargs q)⟩

/-! ### FORK -/

/-- The state in which FORK copies the caller's memory: a PID is used up. -/
def pidUsed (s : State) : State := { s with kernel := { s.kernel with pidCounter := s.kernel.pidCounter + 1 } }

/-- The state u of the copy, with a child in the memory h listed by its parent, put into the task table and enqueued. -/
def withChild (pid cpid h : Nat) (k : Task) (u : State) : State :=
  { (u.modTask pid (fun t => { t with children := t.children ++ [cpid] })).putTask (k.child cpid h) with
    sched := { u.sched with ready := u.sched.ready ++ [cpid], members := u.sched.members ++ [cpid] } }

theorem sysFork_fail {who : Holder} {pid : Nat} {k : Task} {s u : State} {e : KernelError}
    (h : copySpace k.space s.kernel.pidCounter (pidUsed s) = .fail e u) :
    sysFork who pid k s = .next (setRet pid minusOne u) := by
  unfold pidUsed at h
  unfold sysFork
  dsimp only
  rw [h]

/-- Where the copy answers, the child joins a scheduler that is free and does not have it yet. -/
theorem sysFork_ok {who : Holder} {pid h : Nat} {k : Task} {s u : State}
    (hcopy : copySpace k.space s.kernel.pidCounter (pidUsed s) = .ok h u) (hlock : u.sched.lock = none)
    (hnew : s.kernel.pidCounter ∉ u.sched.members) :
    sysFork who pid k s =
      .next (setRet pid (BitVec.ofNat 32 s.kernel.pidCounter) (withChild pid s.kernel.pidCounter h k u)) := by
  unfold pidUsed at hcopy
  unfold sysFork
  dsimp only
  rw [hcopy]
  dsimp only
  generalize hv : u.modTask pid (fun t => { t with children := t.children ++ [s.kernel.pidCounter] }) = v
  have hready : (v.putTask (k.child s.kernel.pidCounter h)).taskIs s.kernel.pidCounter .ready = true :=
    State.taskIs_of ((State.task?_putTask ..).trans (if_pos rfl)) rfl
  have hsched : v.sched = u.sched := by rw [← hv]; rfl
  rw [addTask_free _ _ (by simpa [hsched] using hlock), enqueue_joins (by simpa [hsched] using hnew) hready]
  unfold withChild
  rw [hv, State.putTask_sched, hsched]

theorem withChild_task? {pid cpid h q : Nat} {k : Task} {u : State} :
    (withChild pid cpid h k u).task? q =
      if q = cpid then some (k.child cpid h)
      else (u.modTask pid (fun t => { t with children := t.children ++ [cpid] })).task? q :=
  State.task?_putTask ..

/-- Settles O43: the copy of the caller's memory keeps the kernel but for its handles, the scheduler, the queues and the streams;
on top of it come the child's record, which joins the ready collection, and the caller's. -/
theorem forkCopies : Obligations.ForkCopies := by
  intro s who pid k hk h hpid hgiven hlock hmembers
  have hne : pid ≠ s.kernel.pidCounter := (pid_given hgiven hk).ne
  have hcall := syscall_fork (who := who) hk h
  have hload := LoaderStep.copySpace k.space s.kernel.pidCounter (pidUsed s)
  cases hcopy : copySpace k.space s.kernel.pidCounter
      { s with kernel := { s.kernel with pidCounter := s.kernel.pidCounter + 1 } } with
  | refuse r => exact (copySpace_runs _ _ _ r hcopy).elim
  | fail e u =>
    rw [show copySpace _ _ (pidUsed s) = _ from hcopy] at hload
    have hu : LoaderStep _ u := hload
    have htasks : ∀ q, u.task? q = s.task? q := State.task?_congr (congrArg Kernel.tasks hu.kernel :)
    refine ⟨_, hcall.trans (sysFork_fail hcopy), congrArg Kernel.pidCounter hu.kernel, hu.hart, hu.others, hu.io, hu.waits,
      hu.params, fun q hq _ => (task?_modTask_ne hq ..).trans (htasks q), rfl, rfl, rfl, rfl, rfl, hu.sched, ?_, ?_⟩
    · exact (task?_modTask_ne hne.symm ..).trans ((htasks _).trans (pidsGiven_none hgiven))
    · exact task?_modTask_same ((htasks pid).trans hk) _
  | ok h u =>
    rw [show copySpace _ _ (pidUsed s) = _ from hcopy] at hload
    have hu : LoaderStep _ u := hload
    have hsched : u.sched = s.sched := hu.sched
    have htasks : ∀ q, u.task? q = s.task? q := State.task?_congr (congrArg Kernel.tasks hu.kernel :)
    have hnew : s.kernel.pidCounter ∉ s.sched.members := fun hm => (hmembers _ hm).ne rfl
    refine ⟨_, hcall.trans (sysFork_ok hcopy (hsched ▸ hlock) (hsched ▸ hnew)), congrArg Kernel.pidCounter hu.kernel, hu.hart,
      hu.others, hu.io, hu.waits, hu.params, fun q hq hqc => ?other, rfl, rfl, rfl, rfl, rfl,
      congrArg (fun c : Sched => c.ready ++ _) hsched, congrArg (fun c : Sched => c.members ++ _) hsched, ?child, ?caller⟩
    case other =>
      exact (task?_modTask_ne hq ..).trans (withChild_task?.trans ((if_neg hqc).trans
        ((task?_modTask_ne hq ..).trans (htasks q))))
    case child =>
      rw [← hpid]
      exact (task?_modTask_ne (hpid ▸ hne.symm) ..).trans (withChild_task?.trans (if_pos rfl))
    case caller =>
      have hlisted := task?_modTask_same ((htasks pid).trans hk)
        (fun t => { t with children := t.children ++ [s.kernel.pidCounter] })
      exact task?_modTask_same (withChild_task?.trans ((if_neg hne).trans hlisted)) _

/-! ### The copy of a block -/

/-- Every handle of a block keeps a block of its task and size, moved or not, with its bytes. -/
def BlocksKept (s u : State) : Prop :=
  ∀ g d, s.block? g = some d → ∃ e, u.block? g = some e ∧ e.pid = d.pid ∧ e.size = d.size ∧
    ∀ i, i < d.size → u.ram.read (e.start + i) = s.ram.read (d.start + i)

theorem BlocksKept.trans {s t u : State} (h : BlocksKept s t) (k : BlocksKept t u) : BlocksKept s u := by
  intro g d hd
  obtain ⟨e, he, hpid, hsize, hbytes⟩ := h g d hd
  obtain ⟨f, hf, hpid', hsize', hbytes'⟩ := k g e he
  exact ⟨f, hf, hpid'.trans hpid, hsize'.trans hsize, fun i hi => (hbytes' i (hsize ▸ hi)).trans (hbytes i hi)⟩

theorem blocksKept_compact {s : State} (h : BlocksOrdered s.contig.allocated) : BlocksKept s (compact s) :=
  (slide_blocks s.contig.allocated 0 s.ram h fun _ _ => Nat.zero_le _).2

theorem blocksKept_placeBlock {s u : State} {pid n h : Nat} (hs : s.blocksTidy) (hplace : placeBlock pid n s = some (h, u)) :
    BlocksKept s u := fun g d hd =>
  have ⟨hblock, hbytes⟩ := (placeBlock_spec hs hplace).2.2 g d hd
  ⟨d, hblock, rfl, rfl, hbytes⟩

/-- After a compaction one hole is all the room there was. -/
theorem compact_hole {s : State} {n : Nat} (hs : s.blocksTidy) (hn : 0 < n)
    (hroom : n ≤ (s.contig.holes.map (fun h => h.size)).sum) : ∃ h ∈ (compact s).contig.holes, n ≤ h.size := by
  obtain ⟨-, hordered, -, -, -, -, htotal, -⟩ := hs
  have hholes := (compactKeepsBytes s hordered).2.2
  dsimp only at hholes
  rw [if_neg (by omega)] at hholes
  exact ⟨_, hholes ▸ List.mem_singleton_self _, by dsimp only; omega⟩

/-- Where the holes together are large enough, a block is placed, at once or after a compaction. -/
theorem allocateBlock_room {s : State} {n : Nat} (pid : Nat) (hs : s.blocksTidy) (hn : 0 < n)
    (hroom : n ≤ (s.contig.holes.map (fun h => h.size)).sum) :
    ∃ u c, allocateBlock pid n s = .ok s.kernel.nextSpace u ∧ u.block? s.kernel.nextSpace = some c ∧ c.pid = pid ∧
      c.size = n ∧ BlocksKept s u := by
  cases hplace : placeBlock pid n s with
  | some r =>
    obtain ⟨h, u⟩ := r
    obtain ⟨rfl, ⟨c, hc, hpid, hsize, -⟩, -⟩ := placeBlock_spec hs hplace
    exact ⟨u, c, by unfold allocateBlock; rw [hplace], hc, hpid, hsize, blocksKept_placeBlock hs hplace⟩
  | none =>
    have htidy := blocksTidy_compact hs
    have ⟨_, hordered, _⟩ := hs
    obtain ⟨hole, hhole, hfits⟩ := compact_hole hs hn hroom
    cases hagain : placeBlock pid n (compact s) with
    | none => exact absurd (placeBlock_none.1 hagain hole hhole) (Nat.not_lt.2 hfits)
    | some r =>
      obtain ⟨h, u⟩ := r
      obtain ⟨rfl, ⟨c, hc, hpid, hsize, -⟩, -⟩ := placeBlock_spec htidy hagain
      refine ⟨u, c, ?_, hc, hpid, hsize, (blocksKept_compact hordered).trans (blocksKept_placeBlock htidy hagain)⟩
      unfold allocateBlock
      rw [hplace]
      dsimp only
      rw [if_pos (by rwa [holeTotal_eq]), hagain]
      rfl

theorem allocateBlock_no_room {s : State} {n : Nat} (pid : Nat) (h : (s.contig.holes.map (fun h => h.size)).sum < n) :
    allocateBlock pid n s = .fail .oomFrame s := by
  unfold allocateBlock
  rw [placeBlock_none.2 fun g hg => (hole_le_sum hg).trans_lt h]
  exact if_neg (by rw [holeTotal_eq]; omega)

/-- Bytes copied into a block change no other block. -/
theorem blocksKept_copy {s u : State} {h src n : Nat} {c : Block} (hs : s.block? h = none) (hu : u.blocksTidy)
    (hc : u.block? h = some c) (hn : n ≤ c.size) (hkept : BlocksKept s u) :
    BlocksKept s { u with ram := u.ram.copy src c.start n } := by
  intro g d hd
  obtain ⟨e, he, hpid, hsize, hbytes⟩ := hkept g d hd
  have hne : g ≠ h := fun e => by rw [e, hs] at hd; cases hd
  refine ⟨e, he, hpid, hsize, fun i hi => (Memory.read_copy ..).trans ((if_neg ?_).trans (hbytes i hi))⟩
  have hapart := apart_of_handles hu hne he hc
  unfold Apart at hapart
  omega

theorem copySpace_contiguous {s u : State} {st : AllocStrategy} {src cpid h : Nat} {b c : Block}
    (hm : s.params.memMode = .contiguous st) (halloc : allocateBlock cpid s.params.contigTaskSize s = .ok h u)
    (hb : u.block? src = some b) (hc : u.block? h = some c) :
    copySpace src cpid s = .ok h { u with ram := u.ram.copy b.start c.start b.size } := by
  unfold copySpace
  rw [hm]
  dsimp only
  rw [halloc]
  dsimp only [Res.andThen]
  rw [hb, hc]

theorem copySpace_contiguous_fail {s u : State} {st : AllocStrategy} {src cpid : Nat} {e : KernelError}
    (hm : s.params.memMode = .contiguous st) (halloc : allocateBlock cpid s.params.contigTaskSize s = .fail e u) :
    copySpace src cpid s = .fail e u := by
  unfold copySpace
  rw [hm]
  dsimp only
  rw [halloc]
  rfl

theorem nextSpace_unused {s : State} (hs : s.blocksTidy) : s.block? s.kernel.nextSpace = none := by
  cases hb : s.block? s.kernel.nextSpace with
  | none => rfl
  | some b =>
    obtain ⟨hmem, hspace⟩ := blockOf_mem hb
    obtain ⟨-, -, -, -, -, -, -, -, hbelow⟩ := hs
    exact absurd (hbelow b hmem) (by omega)

/-! ### The copy of a space -/

/-- The pages a space lists are in as many tables as its directory has at most. -/
theorem card_l1Index_mappings_le {a : AddrSpace} (hd : ∀ d ∈ a.directory, ∀ q ∈ d.2.ptes, q.1 < 1024) :
    ((a.mappings.map (fun m => m.1)).map l1Index).toFinset.card ≤ a.directory.length := by
  have hsub : ((a.mappings.map (fun m => m.1)).map l1Index).toFinset ⊆ (a.directory.map (fun d => d.1)).toFinset := by
    intro l hl
    simp only [List.mem_toFinset, List.mem_map, AddrSpace.mappings, List.mem_flatMap, List.mem_filter] at hl ⊢
    obtain ⟨v, ⟨m, ⟨d, hmem, ⟨q, hq, rfl⟩, -⟩, rfl⟩, rfl⟩ := hl
    exact ⟨d, hmem, (index_split d.1 q.1 (hd d hmem q hq)).1.symm⟩
  calc _ ≤ (a.directory.map (fun d => d.1)).toFinset.card := Finset.card_le_card hsub
    _ ≤ (a.directory.map (fun d => d.1)).length := List.toFinset_card_le _
    _ = a.directory.length := List.length_map _

theorem privatePages_mappings {s : State} {src : Nat} {a : AddrSpace}
    (hmap : ∀ m ∈ a.mappings, s.mapping? src m.1 = some m.2) :
    s.privatePages src (a.mappings.map (fun m => m.1)) = (a.mappings.filter (fun m => !m.2.shared)).length := by
  unfold State.privatePages
  rw [List.filter_map, List.length_map]
  refine congrArg List.length (List.filter_congr fun m hm => ?_)
  simp [hmap m hm]

theorem copyPaged_ok {s u : State} {src cpid : Nat} {a : AddrSpace} (ha : s.space? src = some a)
    (h : copyPages src s.kernel.nextSpace cpid (a.mappings.map (fun m => m.1)) (newPagedSpace cpid a.regions s).2 = .ok () u) :
    copyPaged src cpid s = .ok s.kernel.nextSpace u := by
  unfold copyPaged
  rw [ha]
  dsimp only
  rw [show (newPagedSpace cpid a.regions s).1 = s.kernel.nextSpace from rfl, h]

/-- A page q of a copy, of the page p in s: p's permissions, neither accessed nor dirty, on p's frame just where p is shared,
with p's bytes in u. -/
def CopiedPage (s u : State) (p q : Pte) : Prop :=
  q.perms = p.perms ∧ q.shared = p.shared ∧ q.accessed = false ∧ q.dirty = false ∧
    (p.shared = true → q.ppn = p.ppn) ∧ (p.shared = false → q.ppn ≠ p.ppn) ∧
    ∀ i, i < 4096 → u.ram.read (q.ppn * 4096 + i) = s.ram.read (p.ppn * 4096 + i)

/-- With frames enough, the copy fills a new space with the pages of the old one. -/
theorem copyPaged_fills {s : State} {src : Nat} (cpid : Nat) {a : AddrSpace} (hs : s.framesTidy) (ha : s.space? src = some a)
    (hfree : (a.mappings.filter (fun m => !m.2.shared)).length + a.directory.length ≤ s.freeFrames.length) :
    ∃ u, copyPaged src cpid s = .ok s.kernel.nextSpace u ∧
      Fills s.kernel.nextSpace (newPagedSpace cpid a.regions s).2 u ∧
      (∀ v, s.mapping? src v = none → u.mapping? s.kernel.nextSpace v = none) ∧
      ∀ v p, s.mapping? src v = some p → ∃ q, u.mapping? s.kernel.nextSpace v = some q ∧ CopiedPage s u p q := by
  obtain ⟨hbelow, hkeyed, htables⟩ := hs.1.space ha
  have hmem := mapping?_iff_mem ha hkeyed htables
  obtain ⟨htidy, hnone, hnew, -, hmaps⟩ := framesTidy_newPagedSpace cpid a.regions hs
  have hempty : ∀ v, (newPagedSpace cpid a.regions s).2.mapping? s.kernel.nextSpace v = none := fun v =>
    State.mapping?_eq hnew v
  have hneed : (newPagedSpace cpid a.regions s).2.tablesNeeded s.kernel.nextSpace (a.mappings.map (fun m => m.1)) ≤
      a.directory.length :=
    (Finset.card_filter_le ..).trans (card_l1Index_mappings_le fun d hd => (htables d hd).2)
  have hprivate := privatePages_mappings (s := (newPagedSpace cpid a.regions s).2) (src := src) (a := a)
    fun m hm => (hmaps ..).trans ((hmem m.1 m.2).2 hm)
  obtain ⟨u, hcopy, hfills, hother, -, hpages⟩ := copyPages_fills (cpid := cpid)
    (a.mappings.map (fun m : Nat × Pte => m.1)) htidy hbelow.ne hnew rfl
    ((mappings_rise hkeyed htables).imp fun h => Nat.ne_of_lt h) (fun v _ => hempty v)
    (by rw [hprivate]; exact (Nat.add_le_add_right hneed _).trans ((Nat.add_comm ..).trans_le hfree))
  refine ⟨u, copyPaged_ok ha hcopy, hfills, fun v hv => ?absent, fun v p hp => ?page⟩
  case absent =>
    refine (hother v fun hlisted => ?_).trans (hempty v)
    obtain ⟨m, hm, rfl⟩ := List.mem_map.1 hlisted
    rw [(hmem m.1 m.2).2 hm] at hv
    cases hv
  case page =>
    exact hpages v (List.mem_map_of_mem ((hmem v p).1 hp)) p ((hmaps ..).trans hp)

/-- Settles O44: the block is placed where there is room (`allocateBlock_room`), and its bytes are copied to where no other block
lies; the pages are copied without an eviction where frames enough are free (`copyPaged_fills`). -/
theorem forkBytes : Obligations.ForkBytes := by
  refine ⟨fun s st src cpid b hm hs hb hsize => ⟨fun hroom => ?room, fun hfull => ?full⟩,
    fun s f r src cpid a hm hs ha hfree => ?paged⟩
  case room =>
    have hpos : 0 < s.params.contigTaskSize := hs.1
    obtain ⟨u, c, halloc, hc, hpid, hcsize, hkept⟩ := allocateBlock_room cpid hs hpos hroom
    obtain ⟨e, he, -, hesize, hbytes⟩ := hkept src b hb
    have hload : LoaderStep s u := by
      have hsat := LoaderStep.allocateBlock cpid s.params.contigTaskSize s hm id
      rwa [halloc] at hsat
    refine ⟨_, _, c, copySpace_contiguous hm halloc he hc, rfl, hc, hpid, hcsize, fun i hi => ?_,
      blocksKept_copy (nextSpace_unused hs) (hload.blocks hs) hc (by omega) hkept⟩
    refine (Memory.read_copy ..).trans ((if_pos (by omega)).trans ?_)
    rw [Nat.add_sub_cancel_left]
    exact hbytes i hi
  case full => exact ⟨_, copySpace_contiguous_fail hm (allocateBlock_no_room cpid hfull)⟩
  case paged =>
    obtain ⟨u, hcopy, hfills, habsent, hpages⟩ := copyPaged_fills cpid hs ha hfree
    obtain ⟨-, -, hnew, hothers, hmaps⟩ := framesTidy_newPagedSpace cpid a.regions hs
    obtain ⟨b, hb, hpid, hregions⟩ := hfills.space _ hnew
    refine ⟨s.kernel.nextSpace, u, b, ?_, rfl, hb, hpid, hregions, hpages, habsent,
      fun g hg => (hfills.others g hg).trans (hothers g hg), fun g v p hp => (hfills.kept g v p ((hmaps g v).trans hp)).2⟩
    unfold copySpace
    rw [hm]
    exact hcopy

end Sys2Proof.Proofs
end

section
/-! Proofs of the statements of spec/63_uart.md: a byte access in the UART range is what the device answers, and every other
access there is refused before it translates. -/

namespace Sys2Proof.Proofs

open Machine

/-! ### What the device answers -/

theorem uartRead_status {s : State} {off : Nat} (h : off = s.params.uartOffStatus) :
    uartRead (ε := MemFailure) off s = .ok (readStatus s).1 (readStatus s).2 :=
  if_pos h

theorem uartRead_rx {s : State} {off : Nat} (h : off = s.params.uartOffRx) (hne : s.params.uartOffRx ≠ s.params.uartOffStatus) :
    uartRead (ε := MemFailure) off s = .ok (readRx s).1 (readRx s).2 :=
  (if_neg (h ▸ hne)).trans (if_pos h)

theorem readRx_empty {s : State} (h : s.io.rxq = []) : readRx s = s.drawByte := by
  unfold readRx
  rw [h]

theorem readStatus_bit (s : State) : (readStatus s).1.getLsbD 0 = !s.io.rxq.isEmpty := by
  simp [readStatus, place, rxReady]

theorem draw_chance (s : State) : ∃ c, s.draw.2 = { s with chance := c } :=
  ⟨_, s.draw_eq⟩

/-! ### Byte loads -/

/-- The two byte loads, with how each extends its byte. -/
def byteLoads : List ((RegIdx → RegIdx → BitVec 12 → Instr) × (Byte → Word)) :=
  [(Instr.lb, fun b => b.signExtend 32), (Instr.lbu, fun b => b.setWidth 32)]

/-- A byte load in the UART range writes the byte that the device answers, extended, in the state the device leaves. -/
theorem byteLoad_uart {f : (RegIdx → RegIdx → BitVec 12 → Instr) × (Byte → Word)} (hf : f ∈ byteLoads) {s u : State}
    {rs1 : RegIdx} {imm : BitVec 12} {b : Byte} (rd : RegIdx)
    (hin : inUart s.params (s.reg rs1 + imm.signExtend 32).toNat = true)
    (h : uartRead (ε := MemFailure) ((s.reg rs1 + imm.signExtend 32).toNat - s.params.uartBase) s = .ok b u) :
    ∃ t, exec (f.1 rd rs1 imm) s = .next t ∧ Writes u t rd (f.2 b) (u.pc + 4#32) := by
  have hexec : exec (f.1 rd rs1 imm) s = loadInto rd rs1 imm 1 (fun v => f.2 (v.setWidth 8)) s := by
    rcases List.mem_pair.1 hf with rfl | rfl <;> rfl
  have hread : memRead (hartCtx s) (s.reg rs1 + imm.signExtend 32) 1 s = .ok (b.setWidth 32) u := by
    rw [memRead_uart _ hin, h]
    rfl
  have hbyte : (b.setWidth 32).setWidth 8 = b := by simp
  obtain ⟨t, ht, hwrites⟩ := writeNext_writes rd (f.2 b) u
  refine ⟨t, (load_ok hexec hread).trans ?_, hwrites⟩
  rw [hbyte]
  exact ht

/-- What a load leaves whose device took a draw at most. -/
theorem writes_after_draw {s t : State} {c : Chance} {rd : RegIdx} {v : Word}
    (h : Writes { s with chance := c } t rd v (s.pc + 4#32)) :
    (∀ r, t.reg r = if r = rd ∧ r ≠ 0#5 then v else s.reg r) ∧ t.pc = s.pc + 4#32 ∧
      t = { s with hart := { s.hart with x := t.hart.x, pc := t.hart.pc }, chance := t.chance } := by
  obtain ⟨hreg, hpc, -, hsame⟩ := h
  have hc : t.chance = c := by rw [hsame]
  subst hc
  exact ⟨hreg, hpc, hsame⟩

/-- Settles O32: the device answers the byte of each offset, and the load or the store ends with it. -/
theorem uartBytes : Obligations.UartBytes := by
  refine ⟨fun f hf s rd rs1 imm hin => ⟨fun hoff => ?status, fun hoff hne b rest hrx => ?byte, fun hoff hne hrx => ?empty⟩,
    fun s rs2 rs1 imm hin hoff => ?store⟩
  case status =>
    obtain ⟨c, hc⟩ := draw_chance s
    obtain ⟨t, ht, hwrites⟩ := byteLoad_uart hf rd hin (uartRead_status hoff)
    rw [show (readStatus s).2 = _ from hc] at hwrites
    exact ⟨t, (readStatus s).1, ht, readStatus_bit s, writes_after_draw hwrites⟩
  case byte =>
    obtain ⟨t, ht, hreg, hpc, -, hsame⟩ := byteLoad_uart hf rd hin (uartRead_rx hoff hne)
    rw [readRx_byte hrx] at hreg hpc hsame
    exact ⟨t, ht, hreg, hpc, hsame⟩
  case empty =>
    obtain ⟨c, hc⟩ := draw_chance s
    obtain ⟨t, ht, hwrites⟩ := byteLoad_uart hf rd hin (uartRead_rx hoff hne)
    rw [readRx_empty hrx, show s.drawByte.2 = _ from hc] at hwrites
    exact ⟨t, s.drawByte.1, ht, writes_after_draw hwrites⟩
  case store =>
    show storeFrom rs2 rs1 imm 1 s = _
    unfold storeFrom effAddr immI
    rw [memWrite_uart _ _ hin, uartWrite, if_pos hoff]
    rfl

/-! ### Accesses refused by name -/

theorem load_refused {i : Instr} {rd rs1 : RegIdx} {imm : BitVec 12} {n : Nat} {extend : Word → Word} {s : State} {r : Refusal}
    (hexec : exec i s = loadInto rd rs1 imm n extend s)
    (h : memRead (hartCtx s) (s.reg rs1 + imm.signExtend 32) n s = .refuse r) : exec i s = .refused r := by
  rw [hexec]
  unfold loadInto effAddr immI
  rw [h]
  rfl

theorem store_refused {i : Instr} {rs2 rs1 : RegIdx} {imm : BitVec 12} {n : Nat} {s : State} {r : Refusal}
    (hexec : exec i s = storeFrom rs2 rs1 imm n s)
    (h : memWrite (hartCtx s) (s.reg rs1 + imm.signExtend 32) n (s.reg rs2) s = .refuse r) : exec i s = .refused r := by
  rw [hexec]
  unfold storeFrom effAddr immI
  rw [h]
  rfl

theorem instructionStep_refused {s : State} {r : Refusal}
    (h : fetch (hartCtx s.clearFlags) s.pc s.clearFlags = .refuse r) : instructionStep s = .refused r := by
  unfold instructionStep
  dsimp only
  rw [State.clearFlags_pc, h]

/-- Settles O33: each access ends in its refusal, and what made it ends as its access does. -/
theorem uartRefused : Obligations.UartRefused := by
  refine ⟨?wide, fun s ha hin => instructionStep_refused (fetch_uart _ ha hin), fun f hf s r rs1 imm hin hst hrx => ?load,
    fun s rs2 rs1 imm hin htx => store_refused rfl ((memWrite_uart _ _ hin).trans (if_neg htx)),
    fun c va b s hin => if_pos hin, fun c va v n s hn ha hin => ⟨memRead_wide c hn ha hin, memWrite_wide c v hn ha hin⟩⟩
  case wide =>
    simp only [List.forall_mem_cons]
    refine ⟨fun s r rs1 imm ha hin => load_refused rfl (memRead_wide _ (by decide) ha hin),
      fun s r rs1 imm ha hin => load_refused rfl (memRead_wide _ (by decide) ha hin),
      fun s r rs1 imm ha hin => store_refused rfl (memWrite_wide _ _ (by decide) ha hin),
      fun s r rs1 imm ha hin => load_refused rfl (memRead_wide _ (by decide) ha hin),
      fun s r rs1 imm ha hin => store_refused rfl (memWrite_wide _ _ (by decide) ha hin), nofun⟩
  case load =>
    have hread : memRead (hartCtx s) (s.reg rs1 + imm.signExtend 32) 1 s = .refuse .uartRegister := by
      rw [memRead_uart _ hin, uartRead, if_neg hst, if_neg hrx]
      rfl
    rcases List.mem_pair.1 hf with rfl | rfl <;> exact load_refused rfl hread

end Sys2Proof.Proofs
end

section
/-! Proofs of the statements of spec/70_reset_and_hazards.md: at power-on every list that an invariant speaks of is empty, but
the frames, of which none is taken, and the one hole, which is all of RAM. -/

namespace Sys2Proof.Proofs

open Machine

theorem zeroRegs_powerOn (p : Params) : (State.powerOn p).zeroRegs :=
  ⟨fun g hg => by obtain ⟨i, rfl⟩ := hart_powerOn hg; rfl, nofun⟩

theorem holds_powerOn {p : Params} (hn : 1 ≤ p.nHarts) : (State.powerOn p).holds := by
  refine ⟨?ids, fun g hg => ?task, fun g hg q hq => ?held⟩
  case ids => exact ids_powerOn hn ▸ List.nodup_range
  case task => obtain ⟨i, rfl⟩ := hart_powerOn hg; rfl
  case held => obtain ⟨i, rfl⟩ := hart_powerOn hg; cases hq

theorem tidy_powerOn (p : Params) : (State.powerOn p).tidy :=
  ⟨nofun, .nil, fun _ => .rfl, nofun, nofun⟩

theorem orderly_powerOn (p : Params) : (State.powerOn p).orderly := by
  refine ⟨rfl, rfl, nofun, nofun, nofun, .nil, nofun, fun g hg => ?sound, fun g hg h _ q hq => ?apart⟩
  case sound => obtain ⟨i, rfl⟩ := hart_powerOn hg; trivial
  case apart => obtain ⟨i, rfl⟩ := hart_powerOn hg; cases hq

theorem blocksTidy_powerOn {p : Params} (hc : 0 < p.contigTaskSize) (hr : 0 < p.ramSize) : (State.powerOn p).blocksTidy := by
  refine ⟨hc, .nil, List.pairwise_singleton .., fun h hh => ?hole, nofun, nofun, ?total, .nil, nofun⟩
  case hole =>
    cases List.mem_singleton.1 hh
    exact ⟨hr, (Nat.zero_add _).le⟩
  case total => exact List.sum_singleton

/-- Settles O60: each invariant at power-on, and the parameters' constraints. -/
theorem resetInvariants : Obligations.ResetInvariants :=
  ⟨rfl, zeroRegs_powerOn _, (tidy_powerOn _).1, holds_powerOn (by decide), tidy_powerOn _, orderly_powerOn _,
    blocksTidy_powerOn (by decide) (by decide), contexts_powerOn _, framesTidy_powerOn _, by decide⟩

end Sys2Proof.Proofs
end
